-- ==== Sys2Proof/Word.lean ====
section
/-!
DEFINITION. The word types of the part: bytes, 16-bit and 32-bit words, and the saturating advance that the manual
uses for its counters (spec/00_scope.md, Conventions).
-/
namespace Sys2Proof

/-- One byte. -/
abbrev Byte := BitVec 8
/-- A 16-bit word: arrival numbers, hit counts, the drain clock. -/
abbrev Word16 := BitVec 16
/-- A 32-bit word: millisecond times, sequence numbers, generations, counters. -/
abbrev Word32 := BitVec 32

/-- "Saturating counters stop at their greatest value and are not wrapped" (00_scope.md, Conventions). -/
def satAdvance {w : Nat} (c : BitVec w) : BitVec w :=
  if c = BitVec.allOnes w then c else c + 1

end Sys2Proof
end

