-- ==== Sys2Proof/Syntax.lean ====
section
/-!
DEFINITION. The commands of the part: one constructor for each row of spec/opcode_table.json, with the operands the
event brings from outside (bytes of a record or frame, status and bytes of a completion, a slot number, a strap level). A strap
level or bus address that a term leaves out is level 0 and its address 0x58: a short spelling, on which no meaning rests.
-/
namespace Sys2Proof

/-- The status that the array device reports at a completion (R91). -/
inductive ArrayStatus where
  | pass
  | fail
  deriving DecidableEq, Repr

/-- The events that the part takes, one for each row of the table of operations and events. -/
inductive Instr where
  /-- REQUEST_ARRIVAL (R136, R137): the bytes of one request record (R201). -/
  | requestArrival (record : List Byte)
  /-- RESPONSE_ACCEPTANCE (R145). -/
  | responseAcceptance
  /-- STATUS (R185), with the argument bytes that the frame carries, as every frame below (R182). -/
  | status (args : List Byte)
  /-- COUNTERS (R187). -/
  | counters (args : List Byte)
  /-- CLEAR COUNTERS (R187). -/
  | clearCounters (args : List Byte)
  /-- CAPTURE (R159). -/
  | capture (args : List Byte)
  /-- CLEAR CAPTURE (R159). -/
  | clearCapture (args : List Byte)
  /-- WINDOW READ (R159). -/
  | windowRead (args : List Byte)
  /-- WINDOW SET (R160). -/
  | windowSet (args : List Byte)
  /-- MAP QUERY (R189). -/
  | mapQuery (args : List Byte)
  /-- FLUSH (R69). -/
  | flush (args : List Byte)
  /-- LOSS READ (R188). -/
  | lossRead (args : List Byte)
  /-- CONFIG LOAD (R192). -/
  | configLoad (args : List Byte)
  /-- CONFIG READ (R192). -/
  | configRead (args : List Byte)
  /-- CONFIG WRITE (R192). -/
  | configWrite (args : List Byte)
  /-- CONFIG COMMIT (R194). -/
  | configCommit (args : List Byte)
  /-- RESET CAUSE (R191). -/
  | resetCause (args : List Byte)
  /-- SOFT RESET (R175). -/
  | softReset (args : List Byte)
  /-- UNKNOWN_COMMAND (R182): a frame whose code names no command. -/
  | unknownCommand (code : Byte) (args : List Byte)
  /-- PFW_N_FALL (R168). -/
  | pfwNFall
  /-- PFW_N_RISE (R168). -/
  | pfwNRise
  /-- QUALIFICATION (R169). -/
  | qualification
  /-- RESET_N_FALL (R173), with the level at which the MADR straps stand, MADR1 the upper bit (R202; log 6). -/
  | resetNFall (madr : BitVec 2 := 0)
  /-- RESET_N_RISE (R178), with the level of the MADR straps (R202; log 6). -/
  | resetNRise (madr : BitVec 2 := 0)
  /-- POWER_ON_RESET (R176), with the level of the MADR straps (R202; log 6). -/
  | powerOnReset (madr : BitVec 2 := 0)
  /-- RESET_TIMER_EXPIRY (R174). -/
  | resetTimerExpiry
  /-- WRITE_BACK_TIMER_EXPIRY (R9): the timer of this slot. -/
  | writeBackTimerExpiry (slot : Nat)
  /-- MERGE_READ_COMPLETION (R16 to R18): status, data bytes, spare bytes. -/
  | mergeReadCompletion (status : ArrayStatus) (data spare : List Byte)
  /-- DEMAND_READ_COMPLETION (R32 to R35). -/
  | demandReadCompletion (status : ArrayStatus) (data spare : List Byte)
  /-- PAGE_PROGRAM_COMPLETION (R55). -/
  | pageProgramCompletion (status : ArrayStatus)
  /-- COMMIT_MARK_COMPLETION (R56). -/
  | commitMarkCompletion (status : ArrayStatus)
  /-- RETIRE_MARK_COMPLETION (R80). -/
  | retireMarkCompletion (status : ArrayStatus)
  /-- ERASE_COMPLETION (R83). -/
  | eraseCompletion (status : ArrayStatus)
  /-- CLEAN_MARK_COMPLETION (R84). -/
  | cleanMarkCompletion (status : ArrayStatus)
  /-- READY_WAIT_COMPLETION (R114): READY WAIT has no FAIL (R92). The event samples the ASZ straps (R115), so it
  carries their level, ASZ1 the upper bit. -/
  | readyWaitCompletion (asz : BitVec 2)
  /-- CONFIG_COPY_READ_COMPLETION (R116). -/
  | configCopyReadCompletion (status : ArrayStatus) (data spare : List Byte)
  /-- HEADER_READ_COMPLETION (R120). -/
  | headerReadCompletion (status : ArrayStatus) (spare : List Byte)
  /-- CONFIG_COMMIT_ERASE_COMPLETION (R195). -/
  | configCommitEraseCompletion (status : ArrayStatus)
  /-- CONFIG_COMMIT_PROGRAM_COMPLETION (R195). -/
  | configCommitProgramCompletion (status : ArrayStatus)
  /-- READ_BACK_COMPLETION (R195). -/
  | readBackCompletion (status : ArrayStatus) (data spare : List Byte)
  /-- FIRST_TIMEOUT (R107). -/
  | firstTimeout
  /-- SECOND_TIMEOUT (R108). -/
  | secondTimeout
  /-- LINK_RESET_END (R107, R95). -/
  | linkResetEnd
  /-- DISCARDED_COMPLETION (R91). -/
  | discardedCompletion
  /-- START_CONDITION (R181), with the 7-bit address that follows it on the bus. -/
  | startCondition (address : BitVec 7 := 0x58)
  deriving DecidableEq, Repr

end Sys2Proof
end

