-- ==== Sys2Proof/Decode.lean ====
section
/-!
DEFINITION. The table gives no row any bits (every row of spec/opcode_table.json has an empty "fields" and no "fixed"),
so no word spells a command. The byte formats that the manual does give (request records, command frames, the spare area,
the configuration record) are read in Machine/Operands.lean.
-/
namespace Sys2Proof

/-- The command that a word spells by the table's bits: none, because the table gives no bits. -/
def decodeTableWord (_nbits _w : Nat) : Option Instr := none

end Sys2Proof
end

