-- ==== Sys2Proof/Config.lean ====
section
/-!
DEFINITION. What the part fixes as numbers, and the one free value of the model.
-/
namespace Sys2Proof.Config

/-- Staging slots (R1). -/
def slotCount : Nat := 16
/-- Bytes of a logical page, and of the data of a physical page (00_scope.md, Terms). -/
def pageBytes : Nat := 256
/-- Spare bytes of a physical page (00_scope.md, Terms). -/
def spareBytes : Nat := 16
/-- Bytes of a line (00_scope.md, Terms). -/
def lineBytes : Nat := 64
/-- Entries of the request table (R135). -/
def tableSize : Nat := 8
/-- Barrier records (R62). -/
def barrierSize : Nat := 4
/-- Read cache entries (R39). -/
def cacheSize : Nat := 4
/-- Write-back attempts of one slot (R59). -/
def attemptLimit : Nat := 4
/-- The erased value of every byte (00_scope.md, Terms; R93). -/
def erased : Byte := 0xFF
/-- The sequence reserve begins here (R88). -/
def sequenceReserve : Word32 := 4294967232
/-- Length of the link reset sequence in us (R107). -/
def linkResetUs : Nat := 10
/-- us of one unit of Q (R168). -/
def qualifyUnitUs : Nat := 16

/-- FREE VALUE: which of the timed events that are due at the same instant takes place first. The manual says of
such pairs that either may be taken first (R8, R9, R102, R168, R171). The argument is the counter `freeCount` of the state, so
each draw is fresh (log 2). -/
opaque freePlace : Nat → Nat

end Sys2Proof.Config
end

