-- ==== Sys2Proof/Machine/State.lean ====
section
/-!
DEFINITION. The state of the part, block by block, each field with the rule that names it, and the state right after a
power-on reset completion. Every field is plain data.
-/
namespace Sys2Proof.Machine

/-! ## Staging table (01_staging_table.md) -/

/-- Slot states (R1). -/
inductive SlotState where
  | free | opened | sealed | writing | held
  deriving DecidableEq, Repr

/-- Merge status of a slot (R1, R13). -/
inductive MergeStatus where
  | noneNeeded | deferred | reading | complete
  deriving DecidableEq, Repr

/-- Why a slot is HELD (R1, R24). -/
inductive HoldReason where
  | media | noSpace
  deriving DecidableEq, Repr

/-- The merge read of a READING slot: the physical page being read and the read number, 1 or 2 (R1, R15). -/
structure MergeRead where
  page : Nat
  number : Nat
  deriving DecidableEq, Repr

/-- The target of a WRITING slot (R1, R23). -/
structure Target where
  page : Nat
  seq : Word32
  deriving DecidableEq, Repr

/-- One slot record (R1). A field that the rule calls conditional is `none` where it is absent. -/
structure Slot where
  state : SlotState
  page : Option Nat
  /-- 256 bytes, offsets 0 .. 255. -/
  image : List Byte
  /-- The valid map: 256 marks, true where the offset is known. -/
  valid : List Bool
  order : Option Word32
  incarnation : Byte
  stamp : Option Word32
  merge : Option MergeStatus
  mergeRead : Option MergeRead
  attempts : Option Nat
  target : Option Target
  hold : Option HoldReason
  deriving DecidableEq, Repr

/-- An image of the erased value (R2). -/
def erasedImage : List Byte := List.replicate Config.pageBytes Config.erased

/-- An empty valid map (R2). -/
def noneValid : List Bool := List.replicate Config.pageBytes false

/-- A full valid map. -/
def allValid : List Bool := List.replicate Config.pageBytes true

/-- A FREE slot that has kept the given incarnation (R2, R24). -/
def Slot.freed (incarnation : Byte) : Slot :=
  { state := .free, page := none, image := erasedImage, valid := noneValid, order := none, incarnation := incarnation,
    stamp := none, merge := none, mergeRead := none, attempts := none, target := none, hold := none }

/-- The staging table (R1), with the limits D, H and W that the mount hands it (R2, R118). -/
structure Staging where
  slots : List Slot
  allocOrder : Word32
  stall : Bool
  limitD : Nat
  highH : Nat
  delayW : Nat
  deriving DecidableEq, Repr

/-- R2. D, H and W before the selection of the mount are the default record's values: DESIGN CHOICE, log 8. -/
def Staging.reset : Staging :=
  { slots := List.replicate Config.slotCount (Slot.freed 0), allocOrder := 0, stall := false,
    limitD := 12, highH := 10, delayW := 50 }

/-! ## Read path (02_read_path_and_read_cache.md) -/

/-- A pending read record (R28). `bytes` holds the snapshot and the need mask in one list in address order, one member for
each requested offset: `some b` for a supplied offset, `none` for a needed one. -/
structure PendingRead where
  tag : Nat
  page : Nat
  first : Nat
  phys : Nat
  bytes : List (Option Byte)
  deriving DecidableEq, Repr

/-- A demand read (R30). The records attached to it are the pending records that name its physical page (log 18). -/
structure DemandRead where
  phys : Nat
  number : Nat
  deriving DecidableEq, Repr

/-- A read cache entry (R39). -/
structure CacheEntry where
  page : Nat
  image : List Byte
  deriving DecidableEq, Repr

/-- The read path: pending read list, demand reads, and the read cache from least recent to most recent (R29, R30, R39). -/
structure ReadPath where
  pendingReads : List PendingRead
  demands : List DemandRead
  cache : List CacheEntry
  deriving DecidableEq, Repr

/-- R38. -/
def ReadPath.reset : ReadPath := { pendingReads := [], demands := [], cache := [] }

/-! ## Write-back engine (03_write_back_engine_and_persist_barriers.md) -/

/-- Phases of the write-back record, with the slot each holds (R45). -/
inductive WbPhase where
  | idle
  | pageWaitFirst
  | pageWaitRetry (slot : Nat)
  | program (slot : Nat)
  | commitMark (slot : Nat)
  deriving DecidableEq, Repr

/-- A barrier record (R62): the tag of the PERSIST and the pairs of slot number and incarnation that it waits on. -/
structure Barrier where
  tag : Nat
  waitSet : List (Nat × Byte)
  deriving DecidableEq, Repr

/-- The write-back engine: record, eviction queue and barrier list (R45, R47, R62). -/
structure WriteBack where
  phase : WbPhase
  eviction : List Nat
  barriers : List Barrier
  deriving DecidableEq, Repr

/-- R46. -/
def WriteBack.reset : WriteBack := { phase := .idle, eviction := [], barriers := [] }

/-! ## Page translation (04_page_translation.md) -/

/-- Physical page states (R72). -/
inductive PageState where
  | unscanned | free | programming | live | stale | erasing | bad
  deriving DecidableEq, Repr

/-- An entry of the physical page table (R72). -/
structure PageEntry where
  state : PageState
  pins : Nat
  deriving DecidableEq, Repr

/-- What the table holds for a page at reset, and what a page that the list does not name holds (R73). -/
def PageEntry.reset : PageEntry := { state := .unscanned, pins := 0 }

/-- Phases of the erase engine, with the ERASING page (R81). -/
inductive ErasePhase where
  | idle
  | erase (page : Nat)
  | cleanMark (page : Nat)
  deriving DecidableEq, Repr

/-- Page translation (R71 to R87). `remap` and `pages` are sparse lists with rising keys: a logical page not listed is
UNMAPPED, a physical page not listed holds `PageEntry.reset`. `logicalPages` is L, absent until a configuration is selected
(R118, R189). -/
structure Translation where
  remap : List (Nat × Nat)
  pages : List (Nat × PageEntry)
  freePool : List Nat
  eraseQueue : List Nat
  sequence : Word32
  erase : ErasePhase
  logicalPages : Option Nat
  deriving DecidableEq, Repr

/-- R73. -/
def Translation.reset : Translation :=
  { remap := [], pages := [], freePool := [], eraseQueue := [], sequence := 1, erase := .idle, logicalPages := none }

/-! ## Array sequencer (05_array_sequencer.md) -/

/-- The spare fields that a MARK programs (R92). -/
inductive MarkField where
  | clean | commit | retire
  deriving DecidableEq, Repr

/-- Array operations with their page and outgoing bytes (R92). -/
inductive ArrayOp where
  | headerRead (page : Nat)
  | pageRead (page : Nat)
  | pageProgram (page : Nat) (data spare : List Byte)
  | mark (page : Nat) (field : MarkField) (value : Byte)
  | erase (page : Nat)
  | readyWait
  deriving DecidableEq, Repr

/-- Who asked for an operation (R96, R97). -/
inductive Requester where
  | mount
  | mergeRead (slot : Nat)
  | demandRead
  | writeBack
  | retireMark
  | eraseEngine
  | configCommit
  deriving DecidableEq, Repr

/-- A member of the operation list (R94, R96). -/
structure WaitingOp where
  op : ArrayOp
  requester : Requester
  arrival : Word16
  deriving DecidableEq, Repr

/-- The in-flight record (R94, R100, R106): class, time of issue (ms and us), time limit in us, timer in us, timeout count. -/
structure InFlight where
  op : ArrayOp
  requester : Requester
  cls : Nat
  issuedMs : Word32
  issuedUs : Nat
  limit : Nat
  elapsed : Nat
  timeouts : Nat
  deriving DecidableEq, Repr

/-- Phases of the sequencer (R94). -/
inductive SeqPhase where
  | idle | issued | resync | stopped
  deriving DecidableEq, Repr

/-- The array sequencer (R94). `resyncUs` is how long the link reset sequence has been driven (R107). -/
structure Sequencer where
  phase : SeqPhase
  inFlight : Option InFlight
  ops : List WaitingOp
  arrival : Word16
  resyncUs : Nat
  deriving DecidableEq, Repr

/-- R95. -/
def Sequencer.reset : Sequencer := { phase := .idle, inFlight := none, ops := [], arrival := 0, resyncUs := 0 }

/-! ## Guard unit (08_guard_windows.md) -/

/-- Kinds field of a window (R150). -/
inductive WindowKinds where
  | read | write | readWrite
  deriving DecidableEq, Repr

/-- Action field of a window (R150). -/
inductive WindowAction where
  | watch | block
  deriving DecidableEq, Repr

/-- A window record (R150). `requesters` has a one at position r where r is a member. -/
structure Window where
  enabled : Bool
  kinds : WindowKinds
  requesters : Word16
  low : Nat
  high : Nat
  action : WindowAction
  pattern : Bool
  matchValue : Word32
  matchMask : Word32
  alert : Bool
  deriving DecidableEq, Repr

/-- The disabled window record (R150). -/
def Window.disabled : Window :=
  { enabled := false, kinds := .readWrite, requesters := 0, low := 0, high := 0, action := .watch, pattern := false,
    matchValue := 0, matchMask := 0, alert := false }

/-- What a latched capture describes (R155, R156). -/
structure CaptureFields where
  isWrite : Bool
  requester : Nat
  address : Nat
  length : Nat
  data : List Byte
  time : Word32
  deriving DecidableEq, Repr

/-- A capture record (R155): latched exactly when `fields` is present. -/
structure Capture where
  fields : Option CaptureFields
  hits : Word16
  deriving DecidableEq, Repr

/-- A cleared capture (R155). -/
def Capture.cleared : Capture := { fields := none, hits := 0 }

/-- The guard unit: eight windows and eight captures (R150, R155). -/
structure Guard where
  windows : List Window
  captures : List Capture
  deriving DecidableEq, Repr

/-- Eight disabled windows (R151). -/
def disabledWindows : List Window := List.replicate 8 Window.disabled

/-- Eight cleared captures (R151). -/
def clearedCaptures : List Capture := List.replicate 8 Capture.cleared

/-- R151. -/
def Guard.reset : Guard := { windows := disabledWindows, captures := clearedCaptures }

/-! ## Mount engine (06_mount.md) -/

/-- Phases of the mount (R112). -/
inductive MountPhase where
  | idle | readyWait | strapCheck | configA | configB | scan | done
  deriving DecidableEq, Repr

/-- The result of a configuration copy (R112). -/
inductive CopyResult where
  | notRead
  | invalid
  | valid (generation : Word32) (record : List Byte)
  deriving DecidableEq, Repr

/-- The mount record (R112), with the window records kept for the exit (R118) and the sequence numbers of the pages that
the map names during the scan, by logical page (R124). -/
structure Mount where
  phase : MountPhase
  readNumber : Nat
  copyA : CopyResult
  copyB : CopyResult
  cursor : Option Nat
  largest : Word32
  arraySize : Option Nat
  windows : List Window
  named : List (Nat × Word32)
  deriving DecidableEq, Repr

/-- R112. -/
def Mount.reset : Mount :=
  { phase := .idle, readNumber := 1, copyA := .notRead, copyB := .notRead, cursor := none, largest := 0, arraySize := none,
    windows := [], named := [] }

/-! ## System link port (07_system_link_port.md) -/

/-- Request kinds (R133). -/
inductive RequestKind where
  | read | write | persist
  deriving DecidableEq, Repr

/-- A request record (R133). A PERSIST carries no address, length or data; the fields are then 0, 0 and empty. -/
structure Request where
  kind : RequestKind
  tag : Nat
  requester : Nat
  address : Nat
  length : Nat
  data : List Byte
  deriving DecidableEq, Repr

/-- FAIL reasons (R134). -/
inductive FailReason where
  | range | align | guard | locked | power | reset | media | lost | fault
  deriving DecidableEq, Repr

/-- Response status (R134). -/
inductive ResponseStatus where
  | ok
  | again
  | fail (reason : FailReason)
  deriving DecidableEq, Repr

/-- A response record (R134). -/
structure Response where
  tag : Nat
  status : ResponseStatus
  data : List Byte
  deriving DecidableEq, Repr

/-- Phases of a request-table entry (R135); a READY entry holds its response record. -/
inductive EntryPhase where
  | queued
  | waiting
  | ready (response : Response)
  deriving DecidableEq, Repr

/-- A request-table entry (R135). A QUEUED entry with the judged mark set is a stalled one (R143). -/
structure Entry where
  request : Request
  phase : EntryPhase
  judged : Bool
  deriving DecidableEq, Repr

/-- The response channel (R145). -/
inductive Channel where
  | idle
  | sendingAgain (tag : Nat)
  | sendingEntry (tag : Nat)
  deriving DecidableEq, Repr

/-- The system link port (R135 to R145). `linkQueue` holds the records that the partner has put on the link while the
request channel is held (R136; log 11). -/
structure Port where
  table : List Entry
  readyOrder : List Nat
  againOwed : Option Nat
  channel : Channel
  linkQueue : List (List Byte)
  deriving DecidableEq, Repr

/-- R135, R147, with nothing waiting on the link. -/
def Port.reset : Port := { table := [], readyOrder := [], againOwed := none, channel := .idle, linkQueue := [] }

/-! ## Supervisor (09_operating_state_power_fail_drain_and_resets.md) -/

/-- Operating states (R164). -/
inductive OperatingState where
  | resetting | mounting | serving | readOnly | draining | halted | fault
  deriving DecidableEq, Repr

/-- Drain causes (R164). -/
inductive DrainCause where
  | power | reset | maint
  deriving DecidableEq, Repr

/-- The state that a power drain may return to (R164). -/
inductive ReturnState where
  | serving | readOnly
  deriving DecidableEq, Repr

/-- The cause of a reset due to follow a drain (R164). -/
inductive PendingReset where
  | resetLine | maintenance
  deriving DecidableEq, Repr

/-- The power warning (R164, R168); QUALIFYING holds its elapsed time in us. -/
inductive PowerWarning where
  | clear
  | qualifying (elapsed : Nat)
  | asserted
  deriving DecidableEq, Repr

/-- Causes in the reset-cause record (R177). -/
inductive ResetCause where
  | powerOn | resetLine | maintenance
  deriving DecidableEq, Repr

/-- Drain outcomes in the reset-cause record (R177). -/
inductive DrainOutcome where
  | complete | timedOut | notAttempted
  deriving DecidableEq, Repr

/-- The reset-cause record (R177). -/
structure ResetRecord where
  cause : ResetCause
  outcome : DrainOutcome
  lost : Nat
  duration : Word16
  deriving DecidableEq, Repr

/-- The supervisor record (R164). The reset timer is `none` when STOPPED. -/
structure Supervisor where
  state : OperatingState
  cause : Option DrainCause
  returnTo : Option ReturnState
  pendingReset : Option PendingReset
  drainClock : Option Word16
  resetTimer : Option Nat
  warning : PowerWarning
  qualifyQ : Nat
  resetLimit : Nat
  record : ResetRecord
  deriving DecidableEq, Repr

/-- R164, with the level of PFW_N and the reset-cause record that the reset completion has written. -/
def Supervisor.afterReset (pfwN : Bool) (record : ResetRecord) : Supervisor :=
  { state := .resetting, cause := none, returnTo := none, pendingReset := none, drainClock := none, resetTimer := none,
    warning := if pfwN then .clear else .qualifying 0, qualifyQ := 4, resetLimit := 100, record := record }

/-! ## Maintenance port (10_maintenance_port.md) -/

/-- Completions of a maintenance command (R182). -/
inductive Completion where
  | ok | busy | badCommand | badArgument
  deriving DecidableEq, Repr

/-- The last response (R183); its length is the number of data bytes. -/
structure MaintResponse where
  completion : Completion
  data : List Byte
  deriving DecidableEq, Repr

/-- Configuration commit state (R185, R195). -/
inductive CommitState where
  | idle | busy | done | failed
  deriving DecidableEq, Repr

/-- Phases of a BUSY commit (R195). -/
inductive CommitPhase where
  | erase | program | readBack
  deriving DecidableEq, Repr

/-- The two configuration copies (R112). -/
inductive Copy where
  | a | b
  deriving DecidableEq, Repr

/-- The copy status (R193): a copy's result is its generation where VALID, `none` where INVALID. -/
structure CopyStatus where
  a : Option Word32
  b : Option Word32
  inUse : Option Copy
  deriving DecidableEq, Repr

/-- A commit under way (R194): phase, target copy, record to write, new generation. -/
structure CommitJob where
  phase : CommitPhase
  target : Copy
  record : List Byte
  generation : Word32
  deriving DecidableEq, Repr

/-- The eight event counters (R187). -/
structure Counters where
  programs : Word32
  erases : Word32
  mediaErrors : Word32
  mergeLosses : Word32
  guardRefusals : Word32
  againResponses : Word32
  pagesRetired : Word32
  pfwGlitches : Word32
  deriving DecidableEq, Repr

/-- All eight counters 0 (R176, R187). -/
def Counters.zero : Counters :=
  { programs := 0, erases := 0, mediaErrors := 0, mergeLosses := 0, guardRefusals := 0, againResponses := 0,
    pagesRetired := 0, pfwGlitches := 0 }

/-- The four status flags (R186). -/
structure MaintFlags where
  configInvalid : Bool
  protocolFault : Bool
  strapFault : Bool
  mediaLoss : Bool
  deriving DecidableEq, Repr

/-- The media loss record where it is not empty (R188). -/
structure LossRecord where
  page : Nat
  time : Word32
  count : Nat
  deriving DecidableEq, Repr

/-- Where the I2C transaction stands (R181; log 12). -/
inductive Transaction where
  | none | active | ignored
  deriving DecidableEq, Repr

/-- The maintenance port (R181 to R198). -/
structure Maintenance where
  lastResponse : Option MaintResponse
  buffer : List Byte
  commitState : CommitState
  job : Option CommitJob
  copyStatus : Option CopyStatus
  active : Option (List Byte)
  counters : Counters
  flags : MaintFlags
  loss : Option LossRecord
  madr : BitVec 2
  transaction : Transaction
  deriving DecidableEq, Repr

/-- The configuration buffer after reset completion: 256 bytes of 0 (R192). -/
def zeroBuffer : List Byte := List.replicate Config.pageBytes 0

/-- The values of R198, with what a reset keeps given: counters, flags, sampled MADR and transaction. -/
def Maintenance.afterReset (counters : Counters) (flags : MaintFlags) (madr : BitVec 2) (transaction : Transaction) :
    Maintenance :=
  { lastResponse := none, buffer := zeroBuffer, commitState := .idle, job := none, copyStatus := none, active := none,
    counters := counters, flags := flags, loss := none, madr := madr, transaction := transaction }

/-- All flags clear (R186). -/
def MaintFlags.clear : MaintFlags :=
  { configInvalid := false, protocolFault := false, strapFault := false, mediaLoss := false }

/-! ## Pins and time -/

/-- Input levels, true for high (11_formats_and_signals.md, Signals). -/
structure Pins where
  pfwN : Bool
  resetN : Bool
  madr : BitVec 2
  deriving DecidableEq, Repr

/-- The millisecond time and the us within the current ms (R202). -/
structure Clock where
  ms : Word32
  us : Nat
  deriving DecidableEq, Repr

/-! ## The whole part -/

/-- The state: the ten blocks, the pins, the time, the queue of commands, and the counter of free choices (log 2). -/
structure State where
  staging : Staging
  readPath : ReadPath
  wb : WriteBack
  xlat : Translation
  seq : Sequencer
  mount : Mount
  port : Port
  guard : Guard
  sup : Supervisor
  maint : Maintenance
  pins : Pins
  clock : Clock
  freeCount : Nat
  /-- The commands that wait, first in first out. -/
  pending : List Instr
  deriving DecidableEq, Repr

/-- No command of the part stops the machine with a fault: its FAULT is an operating state (R167), its error reports are
flags, completions and responses. So there is no fault reason. -/
inductive Fault where
  deriving DecidableEq, Repr

/-- Why a command may be refused. -/
inductive Refusal where
  /-- Raised by an arm of exec whose command has no meaning yet; safe. No arm raises it now. -/
  | notModelled (mnemonic : String)
  deriving DecidableEq, Repr

/-- The record that a power-on reset completion writes (R176, R177; log 7). -/
def ResetRecord.powerOn : ResetRecord := { cause := .powerOn, outcome := .notAttempted, lost := 0, duration := 0 }

/-- The machine right after a power-on reset completion, RESET_N still low and PFW_N high (R2, R38, R46, R73, R95, R112,
R135, R151, R164, R177, R198; pin levels and time: DESIGN CHOICE, log 5 and log 9). -/
def State.reset : State :=
  { staging := .reset, readPath := .reset, wb := .reset, xlat := .reset, seq := .reset, mount := .reset, port := .reset,
    guard := .reset, sup := .afterReset true .powerOn, maint := .afterReset .zero .clear 0 .none,
    pins := { pfwN := true, resetN := false, madr := 0 }, clock := { ms := 0, us := 0 }, freeCount := 0, pending := [] }

end Sys2Proof.Machine
end

