-- ==== Sys2Proof/Machine/Operands.lean ====
section
/-!
DEFINITION. Bytes and fields: byte order, images and valid maps, the two check functions, the spare area, the configuration
record and its window records, request records, response bytes, and the report data of the maintenance port
(spec/11_formats_and_signals.md, R103 to R105, R199 to R201).
-/
namespace Sys2Proof.Machine

/-! ## Byte order: "Every field of two or more bytes is little-endian" (11_formats_and_signals.md) -/

/-- The number that bytes hold, least significant byte first. -/
def leNat : List Byte → Nat
  | [] => 0
  | b :: bs => b.toNat + 256 * leNat bs

/-- The lowest `k` bytes of a number, least significant byte first. -/
def leBytes : Nat → Nat → List Byte
  | 0, _ => []
  | k + 1, n => BitVec.ofNat 8 n :: leBytes k (n / 256)

/-- `len` members of a list from offset `off`. -/
def slice {α : Type} (off len : Nat) (l : List α) : List α := (l.drop off).take len

/-- The byte at an offset; beyond the list the erased value (ill-formed operands only). -/
def byteAt (l : List Byte) (off : Nat) : Byte := l.getD off Config.erased

/-- Members of `new` laid over `old` from offset `off`; the length of `old` is kept. -/
def overlay {α : Type} : Nat → List α → List α → List α
  | _, _, [] => []
  | 0, [], old => old
  | 0, d :: ds, _ :: os => d :: overlay 0 ds os
  | n + 1, ds, o :: os => o :: overlay n ds os

/-- A fill (R14, R16, R20): each offset missing from the valid map takes the byte of the base, the others keep theirs. -/
def fillMissing : List Bool → List Byte → List Byte → List Byte
  | true :: vs, i :: is, _ :: bs => i :: fillMissing vs is bs
  | false :: vs, _ :: is, b :: bs => b :: fillMissing vs is bs
  | _, is, _ => is

/-- How many offsets are missing from a valid map. -/
def missingCount (valid : List Bool) : Nat := (valid.filter (fun v => !v)).length

/-- The valid map holds all offsets. -/
def isFull (valid : List Bool) : Bool := valid.all (fun v => v)

/-! ## Check functions (R103) -/

/-- One bit step of the CRC-32 register, least significant bit first, generator 0x04C11DB7 (log 17). -/
def crc32Bit (r : Word32) : Word32 := if r.getLsbD 0 then (r >>> 1) ^^^ 0xEDB88320 else r >>> 1

/-- One byte into the CRC-32 register. -/
def crc32Byte (r : Word32) (b : Byte) : Word32 :=
  crc32Bit (crc32Bit (crc32Bit (crc32Bit (crc32Bit (crc32Bit (crc32Bit (crc32Bit (r ^^^ b.zeroExtend 32))))))))

/-- CRC-32 (R103). -/
def crc32 (bytes : List Byte) : Word32 := ~~~ (bytes.foldl crc32Byte 0xFFFFFFFF)

/-- One bit step of the CRC-16 register, most significant bit first, generator 0x1021. -/
def crc16Bit (r : Word16) : Word16 := if r.getLsbD 15 then (r <<< 1) ^^^ 0x1021 else r <<< 1

/-- One byte into the CRC-16 register. -/
def crc16Byte (r : Word16) (b : Byte) : Word16 :=
  crc16Bit (crc16Bit (crc16Bit (crc16Bit (crc16Bit (crc16Bit (crc16Bit (crc16Bit (r ^^^ (b.zeroExtend 16 <<< 8)))))))))

/-- CRC-16 (R103). -/
def crc16 (bytes : List Byte) : Word16 := bytes.foldl crc16Byte 0xFFFF

/-! ## Spare area of a data-region page (R199) -/

/-- The offset of the spare byte that a MARK programs (R199). -/
def MarkField.offset : MarkField → Nat
  | .clean => 0
  | .commit => 13
  | .retire => 14

/-- Clean marker, offset 0. -/
def spareClean (spare : List Byte) : Byte := byteAt spare MarkField.clean.offset
/-- Logical page number, offsets 1 and 2. -/
def spareLogical (spare : List Byte) : Nat := leNat (slice 1 2 spare)
/-- Sequence number, offsets 3 to 6. -/
def spareSequence (spare : List Byte) : Nat := leNat (slice 3 4 spare)
/-- Data check, offsets 7 to 10. -/
def spareDataCheck (spare : List Byte) : Nat := leNat (slice 7 4 spare)
/-- Header check, offsets 11 and 12. -/
def spareHeaderCheck (spare : List Byte) : Nat := leNat (slice 11 2 spare)
/-- Commit marker, offset 13. -/
def spareCommit (spare : List Byte) : Byte := byteAt spare MarkField.commit.offset
/-- Retire marker, offset 14. -/
def spareRetire (spare : List Byte) : Byte := byteAt spare MarkField.retire.offset

/-- Header check matches: the CRC-16 of offsets 1 to 10 equals the stored one (R105, R199). -/
def headerMatches (spare : List Byte) : Bool := (crc16 (slice 1 10 spare)).toNat == spareHeaderCheck spare

/-- Data check matches: the CRC-32 of the 256 data bytes equals the stored one (R105). -/
def dataMatches (data spare : List Byte) : Bool := (crc32 data).toNat == spareDataCheck spare

/-- A page read is good: PASS, data check and header check match (R32, R16). -/
def goodPage (st : ArrayStatus) (data spare : List Byte) : Bool :=
  match st with
  | .pass => dataMatches data spare && headerMatches spare
  | .fail => false

/-- The spare bytes that the write-back engine hands over (R54), its two check fields left for the sequencer (R104). -/
def headerSpare (page : Nat) (seq : Word32) : List Byte :=
  [0x5A] ++ leBytes 2 page ++ leBytes 4 seq.toNat ++ [0xFF, 0xFF, 0xFF, 0xFF, 0xFF, 0xFF, 0xFF, 0xFF, 0xFF]

/-- R104: the sequencer fills the data check and the header check of the outgoing spare bytes. -/
def fillChecks (data spare : List Byte) : List Byte :=
  let withData := overlay 7 (leBytes 4 (crc32 data).toNat) spare
  overlay 11 (leBytes 2 (crc16 (slice 1 10 withData)).toNat) withData

/-! ## Window records (R150, R200) -/

/-- An ON/OFF byte: 0 or 1, any other value names no code (R200). -/
def decodeOnOff (b : Byte) : Option Bool :=
  if b = 0 then some false else if b = 1 then some true else none

/-- The kinds byte (11_formats_and_signals.md, Window record). -/
def decodeKinds (b : Byte) : Option WindowKinds :=
  if b = 1 then some .read else if b = 2 then some .write else if b = 3 then some .readWrite else none

/-- The greatest line number (R150). -/
def maxLine : Nat := 262143

/-- The window record in 21 bytes where it is in range, `none` where it is not (R150, R200). -/
def decodeWindow (b : List Byte) : Option Window :=
  match decodeOnOff (byteAt b 0), decodeKinds (byteAt b 1), decodeOnOff (byteAt b 2), decodeOnOff (byteAt b 3),
    decodeOnOff (byteAt b 4) with
  | some enabled, some kinds, some action, some pattern, some alert =>
    let low := leNat (slice 7 3 b)
    let high := leNat (slice 10 3 b)
    if low ≤ maxLine ∧ high ≤ maxLine then
      some { enabled := enabled, kinds := kinds, requesters := BitVec.ofNat 16 (leNat (slice 5 2 b)), low := low,
             high := high, action := if action then .block else .watch, pattern := pattern,
             matchValue := BitVec.ofNat 32 (leNat (slice 13 4 b)), matchMask := BitVec.ofNat 32 (leNat (slice 17 4 b)),
             alert := alert }
    else none
  | _, _, _, _, _ => none

/-- The byte of a flag: 0 or 1. -/
def flagByte (b : Bool) : Byte := if b then 1 else 0

/-- The code of a kinds field. -/
def kindsByte : WindowKinds → Byte
  | .read => 1
  | .write => 2
  | .readWrite => 3

/-- The 21 bytes of a window record. -/
def encodeWindow (w : Window) : List Byte :=
  [flagByte w.enabled, kindsByte w.kinds, flagByte (w.action = .block), flagByte w.pattern, flagByte w.alert] ++
    leBytes 2 w.requesters.toNat ++ leBytes 3 w.low ++ leBytes 3 w.high ++ leBytes 4 w.matchValue.toNat ++
    leBytes 4 w.matchMask.toNat

/-! ## Configuration record (11_formats_and_signals.md, R117, R200) -/

/-- The decoded values of a configuration record that the blocks use (R118). -/
structure ConfigFields where
  d : Nat
  h : Nat
  q : Nat
  generation : Word32
  l : Nat
  w : Nat
  tr : Nat
  windows : List Window
  deriving DecidableEq, Repr

/-- The first `n` window records laid one after another, 21 bytes each; `none` where one is out of range. -/
def decodeWindows : Nat → List Byte → Option (List Window)
  | 0, _ => some []
  | n + 1, b =>
    match decodeWindow (b.take 21), decodeWindows n (b.drop 21) with
    | some w, some ws => some (w :: ws)
    | _, _ => none

/-- The fields of a record where every one lies in its range for an array of N pages (R117 item 5). -/
def configFields (n : Nat) (b : List Byte) : Option ConfigFields :=
  match decodeWindows 8 (slice 17 168 b) with
  | none => none
  | some windows =>
    let d := (byteAt b 5).toNat
    let h := (byteAt b 6).toNat
    let q := (byteAt b 7).toNat
    let l := leNat (slice 12 2 b)
    let w := leNat (slice 14 2 b)
    let tr := (byteAt b 16).toNat
    if (2 ≤ d ∧ d ≤ 16) ∧ (1 ≤ h ∧ h ≤ d) ∧ (1 ≤ q ∧ q ≤ 64) ∧ (64 ≤ l ∧ l + 34 ≤ n) ∧ (1 ≤ w ∧ w ≤ 1000) ∧ tr ≤ 250 then
      some { d := d, h := h, q := q, generation := BitVec.ofNat 32 (leNat (slice 8 4 b)), l := l, w := w, tr := tr,
             windows := windows }
    else none

/-- The signature UFSB. -/
def signature : List Byte := [0x55, 0x46, 0x53, 0x42]

/-- The CRC of a record's fields: CRC-32 of offsets 0 to 251 (R200). -/
def recordCrc (b : List Byte) : Word32 := crc32 (b.take 252)

/-- The validity test of a copy as read with PASS (R117 items 2 to 5). -/
def validRecord (n : Nat) (b : List Byte) : Option ConfigFields :=
  if slice 0 4 b = signature ∧ byteAt b 4 = 1 ∧ (recordCrc b).toNat = leNat (slice 252 4 b) then configFields n b else none

/-- The validity test of a completed PAGE READ of a copy (R117). -/
def validCopy (n : Nat) (st : ArrayStatus) (data : List Byte) : Option ConfigFields :=
  match st with
  | .pass => validRecord n data
  | .fail => none

/-- R118: the values of the default record for an array of N pages. -/
def defaultFields (n : Nat) : ConfigFields :=
  { d := 12, h := 10, q := 4, generation := 0, l := n - 130, w := 50, tr := 100, windows := disabledWindows }

/-- R200: the 252 bytes of the default record before its CRC. -/
def defaultBody (n : Nat) : List Byte :=
  signature ++ [1, 12, 10, 4] ++ leBytes 4 0 ++ leBytes 2 (n - 130) ++ leBytes 2 50 ++ [100] ++
    (disabledWindows.map encodeWindow).flatten ++ List.replicate 67 0

/-- R200: the default record encoded, its CRC computed over offsets 0 to 251. -/
def defaultRecord (n : Nat) : List Byte := defaultBody n ++ leBytes 4 (crc32 (defaultBody n)).toNat

/-- R194 step 2: signature, format version and generation set, then the CRC. -/
def stampRecord (generation : Word32) (b : List Byte) : List Byte :=
  let stamped := overlay 8 (leBytes 4 generation.toNat) (overlay 0 (signature ++ [1]) b)
  overlay 252 (leBytes 4 (recordCrc stamped).toNat) stamped

/-! ## Request records and responses (R201) -/

/-- The kind byte of a request. -/
def decodeRequestKind (b : Byte) : Option RequestKind :=
  if b = 1 then some .read else if b = 2 then some .write else if b = 3 then some .persist else none

/-- The request that a record carries, `none` where it is malformed (R201): kind, tag, requester and length in range, and
the byte count the one that kind and length give. -/
def decodeRequest : List Byte → Option Request
  | k :: t :: r :: rest =>
    match decodeRequestKind k with
    | none => none
    | some kind =>
      if 15 < t.toNat ∨ 15 < r.toNat then none
      else
        match kind, rest with
        | .persist, [] =>
          some { kind := .persist, tag := t.toNat, requester := r.toNat, address := 0, length := 0, data := [] }
        | .persist, _ => none
        | .read, [a0, a1, a2, len] =>
          if 127 < len.toNat then none
          else some { kind := .read, tag := t.toNat, requester := r.toNat, address := leNat [a0, a1, a2],
                      length := len.toNat, data := [] }
        | .write, a0 :: a1 :: a2 :: len :: data =>
          if 127 < len.toNat ∨ data.length ≠ len.toNat then none
          else some { kind := .write, tag := t.toNat, requester := r.toNat, address := leNat [a0, a1, a2],
                      length := len.toNat, data := data }
        | _, _ => none
  | _ => none

/-- Status codes (11_formats_and_signals.md, System Link Records). -/
def statusByte : ResponseStatus → Byte
  | .ok => 0x00
  | .again => 0x01
  | .fail .range => 0x81
  | .fail .align => 0x82
  | .fail .guard => 0x83
  | .fail .locked => 0x84
  | .fail .power => 0x85
  | .fail .reset => 0x86
  | .fail .media => 0x87
  | .fail .lost => 0x88
  | .fail .fault => 0x89

/-- The bytes of a response on the response data lines (R201). -/
def responseBytes (r : Response) : List Byte := [BitVec.ofNat 8 r.tag, statusByte r.status] ++ r.data

/-! ## Codes of the maintenance reports (11_formats_and_signals.md, Response data) -/

/-- Completion codes. -/
def completionByte : Completion → Byte
  | .ok => 0
  | .busy => 1
  | .badCommand => 2
  | .badArgument => 3

/-- Operating state codes. -/
def operatingStateByte : OperatingState → Byte
  | .resetting => 0
  | .mounting => 1
  | .serving => 2
  | .readOnly => 3
  | .draining => 4
  | .halted => 5
  | .fault => 6

/-- Drain cause codes, 0xFF where absent. -/
def drainCauseByte : Option DrainCause → Byte
  | some .power => 0
  | some .reset => 1
  | some .maint => 2
  | none => 0xFF

/-- Commit state codes. -/
def commitStateByte : CommitState → Byte
  | .idle => 0
  | .busy => 1
  | .done => 2
  | .failed => 3

/-- Physical page state codes. -/
def pageStateByte : PageState → Byte
  | .unscanned => 0
  | .free => 1
  | .programming => 2
  | .live => 3
  | .stale => 4
  | .erasing => 5
  | .bad => 6

/-- Slot state codes. -/
def slotStateByte : SlotState → Byte
  | .free => 0
  | .opened => 1
  | .sealed => 2
  | .writing => 3
  | .held => 4

/-- Merge status codes, 0xFF where absent. -/
def mergeByte : Option MergeStatus → Byte
  | some .noneNeeded => 0
  | some .deferred => 1
  | some .reading => 2
  | some .complete => 3
  | none => 0xFF

/-- Hold reason codes, 0xFF where absent. -/
def holdByte : Option HoldReason → Byte
  | some .media => 0
  | some .noSpace => 1
  | none => 0xFF

/-- Reset cause codes. -/
def resetCauseByte : ResetCause → Byte
  | .powerOn => 0
  | .resetLine => 1
  | .maintenance => 2

/-- Drain outcome codes. -/
def drainOutcomeByte : DrainOutcome → Byte
  | .complete => 0
  | .timedOut => 1
  | .notAttempted => 2

/-- The 5 bytes of RESET CAUSE. -/
def resetRecordBytes (r : ResetRecord) : List Byte :=
  [resetCauseByte r.cause, drainOutcomeByte r.outcome, BitVec.ofNat 8 r.lost] ++ leBytes 2 r.duration.toNat

/-- The 32 bytes of COUNTERS. -/
def countersBytes (c : Counters) : List Byte :=
  leBytes 4 c.programs.toNat ++ leBytes 4 c.erases.toNat ++ leBytes 4 c.mediaErrors.toNat ++
    leBytes 4 c.mergeLosses.toNat ++ leBytes 4 c.guardRefusals.toNat ++ leBytes 4 c.againResponses.toNat ++
    leBytes 4 c.pagesRetired.toNat ++ leBytes 4 c.pfwGlitches.toNat

/-- The 30 bytes of CAPTURE: a cleared capture is every byte 0. -/
def captureBytes (c : Capture) : List Byte :=
  match c.fields with
  | none => List.replicate 30 0
  | some f =>
    [1, if f.isWrite then 2 else 1, BitVec.ofNat 8 f.requester] ++ leBytes 3 f.address ++
      [BitVec.ofNat 8 f.length, BitVec.ofNat 8 f.data.length] ++ overlay 0 f.data (List.replicate 16 0) ++
      leBytes 4 f.time.toNat ++ leBytes 2 c.hits.toNat

/-- The 7 bytes of LOSS READ: an empty record is every byte 0 (R188). -/
def lossBytes : Option LossRecord → List Byte
  | none => List.replicate 7 0
  | some r => leBytes 2 r.page ++ leBytes 4 r.time.toNat ++ [BitVec.ofNat 8 r.count]

end Sys2Proof.Machine
end

