-- ==== Sys2Proof/Machine/Ops.lean ====
section
/-!
DEFINITION. The shared low-level operations: replacing one block of the state, sparse tables, slot records, event counters,
and the response side of the system link port.
-/
namespace Sys2Proof.Machine

/-! ## Replacing one block -/

/-- The state with its `staging` part replaced. -/
def State.setStaging (s : State) (v : Staging) : State := { s with staging := v }

/-- The state with its `readPath` part replaced. -/
def State.setReadPath (s : State) (v : ReadPath) : State := { s with readPath := v }

/-- The state with its `wb` part replaced. -/
def State.setWb (s : State) (v : WriteBack) : State := { s with wb := v }

/-- The state with its `xlat` part replaced. -/
def State.setXlat (s : State) (v : Translation) : State := { s with xlat := v }

/-- The state with its `seq` part replaced. -/
def State.setSeq (s : State) (v : Sequencer) : State := { s with seq := v }

/-- The state with its `mount` part replaced. -/
def State.setMount (s : State) (v : Mount) : State := { s with mount := v }

/-- The state with its `port` part replaced. -/
def State.setPort (s : State) (v : Port) : State := { s with port := v }

/-- The state with its `guard` part replaced. -/
def State.setGuard (s : State) (v : Guard) : State := { s with guard := v }

/-- The state with its `sup` part replaced. -/
def State.setSup (s : State) (v : Supervisor) : State := { s with sup := v }

/-- The state with its `maint` part replaced. -/
def State.setMaint (s : State) (v : Maintenance) : State := { s with maint := v }

/-- The state with its `pins` part replaced. -/
def State.setPins (s : State) (v : Pins) : State := { s with pins := v }

/-- The state with its `clock` part replaced. -/
def State.setClock (s : State) (v : Clock) : State := { s with clock := v }

/-- The state with its `freeCount` part replaced. -/
def State.setFreeCount (s : State) (v : Nat) : State := { s with freeCount := v }

/-- The state with its `pending` part replaced. -/
def State.setPending (s : State) (v : List Instr) : State := { s with pending := v }

/-! ## Sparse tables with rising keys -/

/-- What a table holds at a key, if it lists it. -/
def tableGet {α : Type} (k : Nat) : List (Nat × α) → Option α
  | [] => none
  | (j, v) :: rest => if j = k then some v else tableGet k rest

/-- A table with a key's value set; keys stay in rising order. -/
def tableSet {α : Type} (k : Nat) (v : α) : List (Nat × α) → List (Nat × α)
  | [] => [(k, v)]
  | (j, w) :: rest =>
    if k < j then (k, v) :: (j, w) :: rest
    else if k = j then (k, v) :: rest
    else (j, w) :: tableSet k v rest

/-- A table with a key taken out. -/
def tableErase {α : Type} (k : Nat) : List (Nat × α) → List (Nat × α)
  | [] => []
  | (j, w) :: rest => if j = k then rest else (j, w) :: tableErase k rest

/-- The keys of a table rise strictly. -/
def keysRise {α : Type} : List (Nat × α) → Bool
  | [] => true
  | [_] => true
  | (j, _) :: (k, v) :: rest => decide (j < k) && keysRise ((k, v) :: rest)

/-- map[X]: the physical page, or none where UNMAPPED (R71). -/
def State.map (s : State) (x : Nat) : Option Nat := tableGet x s.xlat.remap

/-- The entry of a physical page (R72). -/
def State.pageEntry (s : State) (p : Nat) : PageEntry := (tableGet p s.xlat.pages).getD PageEntry.reset

/-- The physical page table with one entry replaced; an entry equal to the reset entry is not listed. -/
def pagesSet (p : Nat) (e : PageEntry) (pages : List (Nat × PageEntry)) : List (Nat × PageEntry) :=
  if e = PageEntry.reset then tableErase p pages else tableSet p e pages

/-- A physical page takes a state; its pin count stays. -/
def setPageState (p : Nat) (st : PageState) (s : State) : State :=
  s.setXlat { s.xlat with pages := pagesSet p { s.pageEntry p with state := st } s.xlat.pages }

/-- A physical page takes a pin count; its state stays. -/
def setPins (p : Nat) (n : Nat) (s : State) : State :=
  s.setXlat { s.xlat with pages := pagesSet p { s.pageEntry p with pins := n } s.xlat.pages }

/-- How many listed pages are in a state. -/
def State.pageCount (s : State) (st : PageState) : Nat :=
  (s.xlat.pages.filter (fun e => e.2.state = st)).length

/-- The pages in a state, in ascending page order. -/
def State.pagesIn (s : State) (st : PageState) : List Nat :=
  (s.xlat.pages.filter (fun e => e.2.state = st)).map (fun e => e.1)

/-! ## Slots -/

/-- The slot numbers, 0 .. 15 (R1). -/
def slotNumbers : List Nat := List.range Config.slotCount

/-- A slot record by its number. -/
def State.slot (s : State) (i : Nat) : Slot := s.staging.slots.getD i (Slot.freed 0)

/-- A slot record replaced. -/
def setSlot (i : Nat) (sl : Slot) (s : State) : State :=
  s.setStaging { s.staging with slots := s.staging.slots.set i sl }

/-- How many slots are in a state. -/
def State.slotCount (s : State) (st : SlotState) : Nat :=
  (s.staging.slots.filter (fun sl => sl.state = st)).length

/-- How many slots are not FREE (R3, R10, R177). -/
def State.slotsInUse (s : State) : Nat :=
  (s.staging.slots.filter (fun sl => sl.state ≠ .free)).length

/-- Some slot is OPEN, SEALED or WRITING (R63, R171). -/
def State.anyStaged (s : State) : Bool :=
  s.staging.slots.any (fun sl => sl.state = .opened || sl.state = .sealed || sl.state = .writing)

/-- Some slot is HELD (R63). -/
def State.anyHeld (s : State) : Bool := s.staging.slots.any (fun sl => sl.state = .held)

/-- The slot is OPEN or SEALED for page X: the one that accepts writes (R4, R5). -/
def Slot.accepts (sl : Slot) (x : Nat) : Bool :=
  (sl.state = .opened || sl.state = .sealed) && sl.page = some x

/-- The first slot number for which a test on the record holds. -/
def State.findSlot (s : State) (test : Slot → Bool) : Option Nat := slotNumbers.find? (fun i => test (s.slot i))

/-- Another slot than `i` holding page X for which a test holds: its partner (00_scope.md, Terms; R5). -/
def State.findPartner (s : State) (i x : Nat) (test : Slot → Bool) : Option Nat :=
  slotNumbers.find? (fun j => j ≠ i && ((s.slot j).page = some x && test (s.slot j)))

/-- How far an allocation order lies behind the allocation order counter, counting forward with the wrap (R3). -/
def State.ageOf (s : State) (sl : Slot) : Nat := (s.staging.allocOrder - sl.order.getD 0).toNat

/-- The older of a candidate found so far and slot `i`, if slot `i` is OPEN. -/
def State.olderOpen (s : State) (best : Option Nat) (i : Nat) : Option Nat :=
  if (s.slot i).state = .opened then
    match best with
    | none => some i
    | some j => if s.ageOf (s.slot j) < s.ageOf (s.slot i) then some i else some j
  else best

/-- The oldest OPEN slot (R3, R10, R11). -/
def State.oldestOpen (s : State) : Option Nat := slotNumbers.foldl s.olderOpen none

/-- A slot becomes FREE: image erased, valid map empty, conditional fields absent, incarnation kept (R24). -/
def freeSlot (i : Nat) (s : State) : State := setSlot i (Slot.freed (s.slot i).incarnation) s

/-- A slot filled from a base image: every missing offset takes the base's byte and the valid map is full (R14, R16, R20). -/
def Slot.filledFrom (sl : Slot) (base : List Byte) : Slot :=
  { sl with image := fillMissing sl.valid sl.image base, valid := allValid, merge := some .complete, mergeRead := none }

/-! ## Counters (R187) -/

/-- The counters replaced. -/
def setCounters (c : Counters) (s : State) : State := s.setMaint { s.maint with counters := c }

/-- PROGRAMS advances (R56). -/
def countProgram (s : State) : State :=
  setCounters { s.maint.counters with programs := satAdvance s.maint.counters.programs } s

/-- ERASES advances (R83). -/
def countErase (s : State) : State :=
  setCounters { s.maint.counters with erases := satAdvance s.maint.counters.erases } s

/-- MEDIA_ERRORS advances (R35). -/
def countMediaError (s : State) : State :=
  setCounters { s.maint.counters with mediaErrors := satAdvance s.maint.counters.mediaErrors } s

/-- MERGE_LOSSES advances (R18). -/
def countMergeLoss (s : State) : State :=
  setCounters { s.maint.counters with mergeLosses := satAdvance s.maint.counters.mergeLosses } s

/-- GUARD_REFUSALS advances (R154). -/
def countGuardRefusal (s : State) : State :=
  setCounters { s.maint.counters with guardRefusals := satAdvance s.maint.counters.guardRefusals } s

/-- AGAIN_RESPONSES advances (R137). -/
def countAgain (s : State) : State :=
  setCounters { s.maint.counters with againResponses := satAdvance s.maint.counters.againResponses } s

/-- PAGES_RETIRED advances (R79, R83, R84). -/
def countRetired (s : State) : State :=
  setCounters { s.maint.counters with pagesRetired := satAdvance s.maint.counters.pagesRetired } s

/-- PFW_GLITCHES advances (R168). -/
def countGlitch (s : State) : State :=
  setCounters { s.maint.counters with pfwGlitches := satAdvance s.maint.counters.pfwGlitches } s

/-- PROTOCOL_FAULT latches (R137). -/
def latchProtocolFault (s : State) : State :=
  s.setMaint { s.maint with flags := { s.maint.flags with protocolFault := true } }

/-! ## Responses (R144, R145) -/

/-- R145: an idle channel begins to send, an owed AGAIN first, otherwise the first entry of the ready order. -/
def beginSending (s : State) : State :=
  match s.port.channel with
  | .idle =>
    match s.port.againOwed with
    | some t => s.setPort { s.port with channel := .sendingAgain t }
    | none =>
      match s.port.readyOrder with
      | t :: _ => s.setPort { s.port with channel := .sendingEntry t }
      | [] => s
  | .sendingAgain _ => s
  | .sendingEntry _ => s

/-- The entry with a tag takes a phase. -/
def setPhase (tag : Nat) (ph : EntryPhase) (table : List Entry) : List Entry :=
  table.map (fun e => if e.request.tag = tag then { e with phase := ph } else e)

/-- The entry with a tag becomes READY with a response and joins the tail of the ready order (R140, R144); an idle channel
begins to send it (R145). -/
def becomeReady (tag : Nat) (status : ResponseStatus) (data : List Byte) (s : State) : State :=
  beginSending (s.setPort { s.port with
    table := setPhase tag (.ready { tag := tag, status := status, data := data }) s.port.table,
    readyOrder := s.port.readyOrder ++ [tag] })

/-- The entry with a tag becomes WAITING (R142). -/
def becomeWaiting (tag : Nat) (s : State) : State :=
  s.setPort { s.port with table := setPhase tag .waiting s.port.table }

/-- The judged mark of the entry with a tag is set (R142). -/
def setJudged (tag : Nat) (s : State) : State :=
  s.setPort { s.port with table := s.port.table.map (fun e => if e.request.tag = tag then { e with judged := true } else e) }

/-- The stall indication (R6). -/
def setStall (b : Bool) (s : State) : State := s.setStaging { s.staging with stall := b }

end Sys2Proof.Machine
end

