-- ==== Sys2Proof/Machine/Flags.lean ====
section
/-!
DEFINITION. What the part shows at any moment as a function of its state: READY, SAFE, ALERT_N, the request hold, the
bytes being sent, a maintenance read transaction, the status report, and the table of accepted commands.
-/
namespace Sys2Proof.Machine

/-- READY is high (R179). -/
def State.readyLine (s : State) : Bool :=
  match s.sup.state with
  | .serving => true
  | .readOnly => true
  | _ => false

/-- SAFE is high (R179). -/
def State.safeLine (s : State) : Bool :=
  match s.sup.state with
  | .halted => true
  | _ => false

/-- The alert condition of a window with its capture (R158). -/
def windowAlert (w : Window) (c : Capture) : Bool := c.fields.isSome && w.alert

/-- The read-only alert condition (R197). -/
def State.readOnlyAlert (s : State) : Bool :=
  match s.sup.state with
  | .readOnly => true
  | .draining => decide (s.sup.cause = some .power) && decide (s.sup.returnTo = some .readOnly)
  | .halted => decide (s.sup.returnTo = some .readOnly)
  | _ => false

/-- Some alert condition holds (R197). -/
def State.alert (s : State) : Bool :=
  (List.zipWith windowAlert s.guard.windows s.guard.captures).any (fun b => b) || s.maint.flags.mediaLoss ||
    s.maint.flags.protocolFault || s.readOnlyAlert || decide (s.sup.state = .fault)

/-- ALERT_N is high (R197). -/
def State.alertN (s : State) : Bool := !s.alert

/-- The request channel is held (R136); RQH is high then (11_formats_and_signals.md, Signals). -/
def State.requestHeld (s : State) : Bool := decide (s.sup.state = .resetting) || s.port.againOwed.isSome

/-- The response being sent (R145), if the channel is sending. -/
def State.sending (s : State) : Option Response :=
  match s.port.channel with
  | .idle => none
  | .sendingAgain t => some { tag := t, status := .again, data := [] }
  | .sendingEntry t =>
    match s.port.table.find? (fun e => e.request.tag = t) with
    | some e => match e.phase with
      | .ready r => some r
      | _ => none
    | none => none

/-- The response frame that a read transaction begins with (R183): completion, length, data. A cleared last response reads
as BAD_COMMAND with length 0. -/
def State.responseFrame (s : State) : List Byte :=
  match s.maint.lastResponse with
  | none => [completionByte .badCommand, 0]
  | some r => [completionByte r.completion, BitVec.ofNat 8 r.data.length] ++ r.data

/-- The address of the maintenance port on its bus: 0x58 plus the value of the MADR straps as sampled (R181). -/
def State.ownAddress (s : State) : BitVec 7 := 0x58 + s.maint.madr.zeroExtend 7

/-- The `n` bytes that a read transaction of the maintenance port returns (R183): the frame, then 0xFF for each further
byte. It changes no state. The port sends nothing in a transaction that it ignores (R181). -/
def State.readTransaction (s : State) (n : Nat) : Option (List Byte) :=
  match s.maint.transaction with
  | .ignored => none
  | _ => some (overlay 0 (s.responseFrame.take n) (List.replicate n 0xFF))

/-- The free pool count of STATUS; during MOUNTING the pages classified FREE so far (R132, R185). -/
def State.freePoolReport (s : State) : Nat :=
  match s.sup.state with
  | .mounting => s.pageCount .free
  | _ => s.xlat.freePool.length

/-- The erase queue count of STATUS; during MOUNTING the pages classified STALE so far (R132, R185). -/
def State.eraseQueueReport (s : State) : Nat :=
  match s.sup.state with
  | .mounting => s.pageCount .stale
  | _ => s.xlat.eraseQueue.length

/-- The 26 bytes of the status report (R185). -/
def State.statusReport (s : State) : List Byte :=
  [operatingStateByte s.sup.state, drainCauseByte s.sup.cause, flagByte s.maint.flags.configInvalid,
    flagByte s.maint.flags.protocolFault, flagByte s.maint.flags.strapFault, flagByte s.maint.flags.mediaLoss,
    BitVec.ofNat 8 (s.slotCount .free), BitVec.ofNat 8 (s.slotCount .opened), BitVec.ofNat 8 (s.slotCount .sealed),
    BitVec.ofNat 8 (s.slotCount .writing), BitVec.ofNat 8 (s.slotCount .held)] ++
    leBytes 2 s.freePoolReport ++ leBytes 2 s.eraseQueueReport ++ leBytes 2 (s.pageCount .live) ++
    leBytes 2 (s.pageCount .bad) ++ leBytes 2 (s.pageCount .stale) ++ leBytes 4 s.xlat.sequence.toNat ++
    [commitStateByte s.maint.commitState]

/-- The kinds of acceptance in the columns of R184. -/
inductive CommandKind where
  /-- STATUS, RESET CAUSE: accepted in every state. -/
  | always
  /-- Accepted but in RESETTING and MOUNTING. -/
  | afterMount
  /-- FLUSH: SERVING and READ_ONLY. -/
  | serviceOnly
  /-- CONFIG LOAD, CONFIG WRITE: after the mount, unless the commit is BUSY. -/
  | unlessBusy
  /-- CONFIG COMMIT: SERVING and READ_ONLY, unless the commit is BUSY. -/
  | serviceUnlessBusy
  deriving DecidableEq, Repr

/-- The state is SERVING or READ_ONLY. -/
def State.inService (s : State) : Bool := decide (s.sup.state = .serving) || decide (s.sup.state = .readOnly)

/-- The state is RESETTING or MOUNTING. -/
def State.beforeService (s : State) : Bool := decide (s.sup.state = .resetting) || decide (s.sup.state = .mounting)

/-- A command of that kind is accepted (R184). -/
def State.accepts (s : State) : CommandKind → Bool
  | .always => true
  | .afterMount => !s.beforeService
  | .serviceOnly => s.inService
  | .unlessBusy => !s.beforeService && decide (s.maint.commitState ≠ .busy)
  | .serviceUnlessBusy => s.inService && decide (s.maint.commitState ≠ .busy)

end Sys2Proof.Machine
end

