-- ==== Sys2Proof/Machine/Sequencer.lean ====
section
/-!
DEFINITION. The array sequencer: classes and ranking, the choice, the issue, operation requests, and the end of a
completion event (R94 to R107).
-/
namespace Sys2Proof.Machine

/-- The write-back engine is in PAGE WAIT, either kind (R45, R85). -/
def State.pageWait (s : State) : Bool :=
  match s.wb.phase with
  | .pageWaitFirst => true
  | .pageWaitRetry _ => true
  | _ => false

/-- The class of an operation by its requester (R97); an erase engine's class is read at the choice (R85). -/
def opClass (pageWait : Bool) : Requester → Nat
  | .mount => 1
  | .eraseEngine => if pageWait then 2 else 7
  | .demandRead => 3
  | .writeBack => 4
  | .retireMark => 4
  | .configCommit => 5
  | .mergeRead _ => 6

/-- The place of a class in the ranking (R97, R99): in DRAINING class 3 ranks below class 4 and above class 5. -/
def classRank (draining : Bool) (cls : Nat) : Nat :=
  if draining then (if cls = 3 then 4 else if cls = 4 then 3 else cls) else cls

/-- An operation of that class may be chosen in that operating state (R98, R110). -/
def mayChoose (st : OperatingState) (cls : Nat) : Bool :=
  match st with
  | .mounting => cls = 1
  | .resetting => false
  | .fault => false
  | _ => cls ≠ 1

/-- The time limit of an operation in us (R106). -/
def timeLimit : ArrayOp → Nat
  | .headerRead _ => 100
  | .pageRead _ => 200
  | .pageProgram _ _ _ => 4000
  | .mark _ _ _ => 1000
  | .erase _ => 25000
  | .readyWait => 25000

/-- How far back an arrival number lies from the arrival counter (R94). -/
def State.arrivalAge (s : State) (w : WaitingOp) : Nat := (s.seq.arrival - w.arrival).toNat

/-- The rank of a waiting operation at this moment (R99). -/
def State.opRank (s : State) (w : WaitingOp) : Nat :=
  classRank (decide (s.sup.state = .draining)) (opClass s.pageWait w.requester)

/-- The better of the best found so far and another waiting operation: the higher class, then the older (R98). -/
def State.betterOp (s : State) (best : Option WaitingOp) (w : WaitingOp) : Option WaitingOp :=
  if mayChoose s.sup.state (opClass s.pageWait w.requester) then
    match best with
    | none => some w
    | some b =>
      if s.opRank w < s.opRank b ∨ (s.opRank w = s.opRank b ∧ s.arrivalAge b < s.arrivalAge w) then some w else some b
  else best

/-- The operation that a choice takes (R98). -/
def State.bestOp (s : State) : Option WaitingOp := s.seq.ops.foldl s.betterOp none

/-- R104: the outgoing bytes of a PAGE PROGRAM of a data-region page get their checks; pages 0 and 1 go as handed. -/
def outgoing : ArrayOp → ArrayOp
  | .pageProgram p data spare => .pageProgram p data (if p < 2 then spare else fillChecks data spare)
  | op => op

/-- The spare area of its page once the device has done an operation with PASS (R92): a PAGE PROGRAM sends all of it, a MARK
programs the one byte at its field's offset (R199), an ERASE leaves the erased value. -/
def ArrayOp.spareAfter (op : ArrayOp) (old : List Byte) : List Byte :=
  match op with
  | .pageProgram _ _ spare => spare
  | .mark _ field value => overlay field.offset [value] old
  | .erase _ => List.replicate Config.spareBytes Config.erased
  | _ => old

/-- The in-flight record of an operation issued now (R100). -/
def State.issueRecord (s : State) (w : WaitingOp) : InFlight :=
  { op := outgoing w.op, requester := w.requester, cls := opClass s.pageWait w.requester, issuedMs := s.clock.ms,
    issuedUs := s.clock.us, limit := timeLimit w.op, elapsed := 0, timeouts := 0 }

/-- A choice (R98): the best waiting operation is issued (R100); where none may be chosen the phase is IDLE. -/
def choose (s : State) : State :=
  match s.bestOp with
  | some w =>
    s.setSeq { s.seq with phase := .issued, inFlight := some (s.issueRecord w), ops := s.seq.ops.erase w }
  | none => s.setSeq { s.seq with phase := .idle, inFlight := none }

/-- An operation joins the list with the next arrival number (R96). DESIGN CHOICE (log 31): that number is the arrival counter's value
before its advance, so the first one after a reset is 0; R94 and R96 do not say whether it is the value before or after. -/
def joinList (op : ArrayOp) (r : Requester) (s : State) : State :=
  s.setSeq { s.seq with ops := s.seq.ops ++ [{ op := op, requester := r, arrival := s.seq.arrival }],
                        arrival := s.seq.arrival + 1 }

/-- An operation request (R96): IDLE joins and chooses, ISSUED and RESYNC join, STOPPED discards. -/
def requestOp (op : ArrayOp) (r : Requester) (s : State) : State :=
  match s.seq.phase with
  | .idle => choose (joinList op r s)
  | .issued => joinList op r s
  | .resync => joinList op r s
  | .stopped => s

/-- R101 step 1: the in-flight record is released; the phase stays ISSUED until the choice that ends the event. -/
def releaseOp (s : State) : State := s.setSeq { s.seq with inFlight := none }

/-- R101 step 4: the choice at the end of a completion event. It is due where the phase is ISSUED with no record. -/
def endCompletion (s : State) : State :=
  match s.seq.phase, s.seq.inFlight with
  | .issued, none => choose s
  | _, _ => s

/-- The record of the operation in flight whose completion the sequencer accepts now (R91): the phase is ISSUED. -/
def State.accepting (s : State) : Option InFlight :=
  match s.seq.phase with
  | .issued => s.seq.inFlight
  | _ => none

/-- The sequencer stops (R108): record released, list emptied, phase STOPPED. -/
def stopSequencer (s : State) : State :=
  s.setSeq { s.seq with phase := .stopped, inFlight := none, ops := [], resyncUs := 0 }

end Sys2Proof.Machine
end

