-- ==== Sys2Proof/Machine/Supervise.lean ====
section
/-!
DEFINITION. The supervisor's shared operations: the READ_ONLY request, the start of a mount, and reset completion
(R113, R166, R177, R178).
-/
namespace Sys2Proof.Machine

/-- The operating state is one in which write-backs and erase-and-stamps start (R49, R81). -/
def State.writing (s : State) : Bool :=
  match s.sup.state with
  | .serving => true
  | .readOnly => true
  | .draining => true
  | _ => false

/-- A READ_ONLY request (R166). The mount's own request is its exit (R127). -/
def requestReadOnly (s : State) : State :=
  match s.sup.state with
  | .serving => s.setSup { s.sup with state := .readOnly }
  | .draining =>
    if s.sup.cause = some .power then s.setSup { s.sup with returnTo := some .readOnly } else s
  | .halted => s.setSup { s.sup with returnTo := some .readOnly }
  | _ => s

/-- The state that a return state names (R164). -/
def ReturnState.toState : ReturnState → OperatingState
  | .serving => .serving
  | .readOnly => .readOnly

/-- The cause of reset that a pending reset names (R177). -/
def PendingReset.toCause : PendingReset → ResetCause
  | .resetLine => .resetLine
  | .maintenance => .maintenance

/-- The entry into MOUNTING (R178): the mount begins (R113) and the sequencer drives the link reset sequence with the
READY WAIT waiting (R95). -/
def beginMount (s : State) : State :=
  requestOp .readyWait .mount
    { s with
      sup := { s.sup with state := .mounting },
      clock := { s.clock with ms := 0 },
      maint := { s.maint with flags := { s.maint.flags with configInvalid := false, strapFault := false } },
      mount := { s.mount with phase := .readyWait },
      seq := { s.seq with phase := .resync, inFlight := none, resyncUs := 0 } }

/-- The reset-cause record written from the state as it stands (R177). -/
def State.resetRecord (s : State) (cause : ResetCause) (outcome : DrainOutcome) : ResetRecord :=
  { cause := cause, outcome := outcome,
    lost := match cause with
      | .powerOn => 0
      | _ => s.slotsInUse,
    duration := match outcome with
      | .notAttempted => 0
      | _ => s.sup.drainClock.getD 0 }

/-- What a reset leaves of a maintenance transaction in progress (R181): its rest is ignored. -/
def Transaction.afterReset : Transaction → Transaction
  | .none => .none
  | .active => .ignored
  | .ignored => .ignored

/-- The maintenance port at reset completion (R198): a power-on reset clears counters and all flags, another reset keeps
the counters, CONFIG_INVALID and STRAP_FAULT. -/
def State.maintAfterReset (s : State) (cause : ResetCause) : Maintenance :=
  match cause with
  | .powerOn => .afterReset .zero .clear s.pins.madr s.maint.transaction.afterReset
  | _ =>
    .afterReset s.maint.counters
      { configInvalid := s.maint.flags.configInvalid, protocolFault := false, strapFault := s.maint.flags.strapFault,
        mediaLoss := false } s.pins.madr s.maint.transaction.afterReset

/-- Reset completion up to RESETTING (R177): the record is written, then every block takes its reset values. -/
def resetBlocks (cause : ResetCause) (outcome : DrainOutcome) (s : State) : State :=
  { s with
    staging := .reset, readPath := .reset, wb := .reset, xlat := .reset, seq := .reset, mount := .reset,
    port := { Port.reset with linkQueue := s.port.linkQueue }, guard := .reset,
    sup := .afterReset s.pins.pfwN (s.resetRecord cause outcome), maint := s.maintAfterReset cause }

/-- Reset completion (R177), and the move to MOUNTING at once where RESET_N is high (R178). -/
def resetCompletion (cause : ResetCause) (outcome : DrainOutcome) (s : State) : State :=
  let r := resetBlocks cause outcome s
  if r.pins.resetN then beginMount r else r

/-- The drain end (R171): with no slot OPEN, SEALED or WRITING in DRAINING, the reset that is pending completes, or the
state becomes HALTED or the return state. -/
def drainEnd (s : State) : State :=
  if s.sup.state = .draining ∧ s.anyStaged = false then
    match s.sup.pendingReset with
    | some c => resetCompletion c.toCause .complete s
    | none =>
      match s.sup.warning with
      | .asserted => s.setSup { s.sup with state := .halted, cause := none, drainClock := none, resetTimer := none }
      | _ => s.setSup { s.sup with state := (s.sup.returnTo.getD .serving).toState, cause := none, returnTo := none,
                                   drainClock := none, resetTimer := none }
  else s

end Sys2Proof.Machine
end

