-- ==== Sys2Proof/Machine/Translate.lean ====
section
/-!
DEFINITION. Page translation: pins, pages for write-backs, commit of a map entry, retirement, the erase engine's start, and
the two reserves (R71 to R89).
-/
namespace Sys2Proof.Machine

/-- R74: a reader pin is raised and the PAGE READ is passed in the asker's class. -/
def pinnedRead (p : Nat) (r : Requester) (s : State) : State :=
  requestOp (.pageRead p) r (setPins p ((s.pageEntry p).pins + 1) s)

/-- R74: the pin count of a page is lowered by one. -/
def lowerPin (p : Nat) (s : State) : State := setPins p ((s.pageEntry p).pins - 1) s

/-- The sequence counter is in its reserve (R88). -/
def State.inSequenceReserve (s : State) : Bool := decide (Config.sequenceReserve ≤ s.xlat.sequence)

/-- S = N - 2 - L (00_scope.md, Terms). -/
def State.spareCount (s : State) : Nat := s.mount.arraySize.getD 0 - 2 - s.xlat.logicalPages.getD 0

/-- The bad-page reserve holds (R89). -/
def State.inBadPageReserve (s : State) : Bool :=
  decide (s.spareCount - s.pageCount .bad < s.staging.limitD + 4)

/-- R89: the bad-page reserve is examined. -/
def examineBadPages (s : State) : State := if s.inBadPageReserve then requestReadOnly s else s

/-- R88: the sequence reserve is examined. -/
def examineSequence (s : State) : State := if s.inSequenceReserve then requestReadOnly s else s

/-- The answers to a page request (R50, R77). -/
inductive PageAnswer where
  | page (p : Nat) (seq : Word32)
  | wait
  | none
  deriving DecidableEq, Repr

/-- The answer to a page request (R50, R77). -/
def State.askPage (s : State) : PageAnswer :=
  match s.xlat.freePool with
  | p :: _ => .page p s.xlat.sequence
  | [] =>
    match s.xlat.eraseQueue, s.xlat.erase with
    | [], .idle => .none
    | _, _ => .wait

/-- R77: the page at the head of the free pool leaves it and becomes PROGRAMMING, the sequence counter advances (it stays at
its greatest value: log 16), and the sequence reserve is examined. -/
def takePage (p : Nat) (s : State) : State :=
  let s1 := setPageState p .programming (s.setXlat { s.xlat with freePool := s.xlat.freePool.tail })
  examineSequence (s1.setXlat { s1.xlat with sequence := satAdvance s1.xlat.sequence })

/-- R78: p becomes LIVE, the page that map[X] named becomes STALE at the tail of the erase queue, map[X] becomes p. -/
def commitMap (x p : Nat) (s : State) : State :=
  let s1 := setPageState p .live s
  let s2 := match s.map x with
    | some q =>
      let t := setPageState q .stale s1
      t.setXlat { t.xlat with eraseQueue := t.xlat.eraseQueue ++ [q] }
    | none => s1
  s2.setXlat { s2.xlat with remap := tableSet x p s2.xlat.remap }

/-- A page is retired (R79, R80, R83, R84): it becomes BAD, its retire mark is passed in the write-back class, PAGES_RETIRED
advances, and the bad-page reserve is examined. -/
def retirePage (p : Nat) (s : State) : State :=
  examineBadPages (countRetired (requestOp (.mark p .retire 0x00) .retireMark (setPageState p .bad s)))

/-- The first page in erase-queue order whose pin count is 0 (R82). -/
def State.firstUnpinned (s : State) : Option Nat := s.xlat.eraseQueue.find? (fun p => (s.pageEntry p).pins = 0)

/-- R81, R82: where the erase engine may start, the page that it takes. -/
def State.eraseStart (s : State) : Option Nat :=
  match s.xlat.erase with
  | .idle => if s.writing then s.firstUnpinned else none
  | _ => none

/-- R82: the page leaves the erase queue and becomes ERASING, and its ERASE is passed. -/
def startErase (p : Nat) (s : State) : State :=
  let s1 := setPageState p .erasing (s.setXlat { s.xlat with eraseQueue := s.xlat.eraseQueue.erase p, erase := .erase p })
  requestOp (.erase p) .eraseEngine s1

end Sys2Proof.Machine
end

