-- ==== Sys2Proof/Machine/ReadCache.lean ====
section
/-!
DEFINITION. The read cache and the coherence lookup (R25, R39 to R43).
-/
namespace Sys2Proof.Machine

/-- The cache entry of a page. -/
def cacheFind (x : Nat) (cache : List CacheEntry) : Option CacheEntry := cache.find? (fun e => e.page = x)

/-- The cache without a page. -/
def cacheDrop (x : Nat) (cache : List CacheEntry) : List CacheEntry := cache.filter (fun e => e.page ≠ x)

/-- Where 5 entries are held, the least recent goes (R40 step 3). -/
def cacheTrim (cache : List CacheEntry) : List CacheEntry :=
  if Config.cacheSize < cache.length then cache.tail else cache

/-- R40: insertion of an image for page X, most recent last. -/
def cacheInsert (x : Nat) (image : List Byte) (cache : List CacheEntry) : List CacheEntry :=
  cacheTrim (cacheDrop x cache ++ [{ page := x, image := image }])

/-- R43: a touch moves an existing entry to most recent. -/
def cacheTouch (x : Nat) (cache : List CacheEntry) : List CacheEntry :=
  match cacheFind x cache with
  | some e => cacheDrop x cache ++ [e]
  | none => cache

/-- The cache replaced. -/
def setCache (c : List CacheEntry) (s : State) : State := s.setReadPath { s.readPath with cache := c }

/-- R42: installation of a committed image, and R41 of a read one. -/
def installCache (x : Nat) (image : List Byte) (s : State) : State := setCache (cacheInsert x image s.readPath.cache) s

/-- R43: the entry of page X is touched. -/
def touchCache (x : Nat) (s : State) : State := setCache (cacheTouch x s.readPath.cache) s

/-- The sources of a page at one moment (R25), each absent where no slot or entry is there. -/
structure Sources where
  accepting : Option Slot
  frozen : Option Slot
  cached : Option CacheEntry
  mapped : Option Nat
  deriving DecidableEq, Repr

/-- The sources of page X: the OPEN or SEALED slot, the WRITING slot or else the HELD slot, the cache entry, map[X]. -/
def State.sourcesOf (s : State) (x : Nat) : Sources :=
  { accepting := (s.findSlot (fun sl => sl.accepts x)).map s.slot,
    frozen := match s.findSlot (fun sl => sl.state = .writing && sl.page = some x) with
      | some i => some (s.slot i)
      | none => (s.findSlot (fun sl => sl.state = .held && sl.page = some x)).map s.slot,
    cached := cacheFind x s.readPath.cache,
    mapped := s.map x }

/-- Which source answers a byte (R25). -/
inductive Source where
  | slot (b : Byte)
  | cache (b : Byte)
  | erased
  | array
  deriving DecidableEq, Repr

/-- R25: the first source that holds the byte at an offset. -/
def Sources.lookup (src : Sources) (off : Nat) : Source :=
  match src.accepting.filter (fun sl => sl.valid.getD off false) with
  | some sl => .slot (byteAt sl.image off)
  | none =>
    match src.frozen with
    | some sl => .slot (byteAt sl.image off)
    | none =>
      match src.cached with
      | some e => .cache (byteAt e.image off)
      | none =>
        match src.mapped with
        | none => .erased
        | some _ => .array

/-- The byte that a source supplies at once; the array supplies none (R27). -/
def Source.supplied : Source → Option Byte
  | .slot b => some b
  | .cache b => some b
  | .erased => some Config.erased
  | .array => none

/-- The source is the read cache (R27, R43). -/
def Source.isCache : Source → Bool
  | .cache _ => true
  | _ => false

end Sys2Proof.Machine
end

