-- ==== Sys2Proof/Machine/StagingTable.lean ====
section
/-!
DEFINITION. The staging table: seal with merge base selection, placement of a write, allocation (R3 to R15, R22).
-/
namespace Sys2Proof.Machine

/-- A merge base as R13 chooses it. -/
inductive MergeBase where
  | noneNeeded
  | deferred
  | heldImage (image : List Byte)
  | cacheImage (image : List Byte)
  | erased
  | array (p : Nat)
  deriving DecidableEq, Repr

/-- R13: the first case that applies to slot `i`, which holds page X. -/
def State.mergeBase (s : State) (i x : Nat) : MergeBase :=
  if isFull (s.slot i).valid then .noneNeeded
  else
    match s.findPartner i x (fun sl => sl.state = .writing) with
    | some _ => .deferred
    | none =>
      match s.findPartner i x (fun sl => sl.state = .held) with
      | some j => .heldImage (s.slot j).image
      | none =>
        match cacheFind x s.readPath.cache with
        | some e => .cacheImage e.image
        | none =>
          match s.map x with
          | none => .erased
          | some p => .array p

/-- R8 steps 1, 2 and R13 to R15: the sealed record with its merge status, and what the choice sets off. -/
def sealRecord (i x : Nat) (s : State) : State :=
  let sl : Slot := { s.slot i with state := .sealed }
  match s.mergeBase i x with
  | .noneNeeded => setSlot i { sl with merge := some .noneNeeded } s
  | .deferred => setSlot i { sl with merge := some .deferred } s
  | .heldImage image => setSlot i (sl.filledFrom image) s
  | .cacheImage image => touchCache x (setSlot i (sl.filledFrom image) s)
  | .erased => setSlot i (sl.filledFrom erasedImage) s
  | .array p =>
    pinnedRead p (.mergeRead i)
      (setSlot i { sl with merge := some .reading, mergeRead := some { page := p, number := 1 } } s)

/-- R8 step 3: the slot joins the tail of the eviction queue. -/
def joinEviction (i : Nat) (s : State) : State := s.setWb { s.wb with eviction := s.wb.eviction ++ [i] }

/-- R8: a slot is sealed; a slot that is not OPEN is passed over. The write-back timer is measured for OPEN slots only (R9),
so it stops with the state. -/
def sealSlot (i : Nat) (s : State) : State :=
  if (s.slot i).state = .opened then joinEviction i (sealRecord i ((s.slot i).page.getD 0) s) else s

/-- R4, R22: the bytes placed in a record; a DEFERRED record whose map becomes full is COMPLETE at once. -/
def Slot.placed (sl : Slot) (off : Nat) (data : List Byte) : Slot :=
  let valid := overlay off (List.replicate data.length true) sl.valid
  { sl with
    image := overlay off data sl.image,
    valid := valid,
    merge := if sl.merge = some .deferred ∧ isFull valid then some .complete else sl.merge }

/-- R4, R7: a write placed in slot `i`; an OPEN slot that it fills is sealed at once. -/
def placeInSlot (i off : Nat) (data : List Byte) (s : State) : State :=
  let sl := (s.slot i).placed off data
  let s1 := setSlot i sl s
  if sl.state = .opened ∧ isFull sl.valid then sealSlot i s1 else s1

/-- R3: the slot that allocation takes, where it is not refused. -/
def State.allocatable (s : State) : Option Nat :=
  if s.slotsInUse < s.staging.limitD then s.findSlot (fun sl => sl.state = .free) else none

/-- R3: the record of an allocated slot. -/
def State.allocated (s : State) (i x : Nat) : Slot :=
  { state := .opened, page := some x, image := (s.slot i).image, valid := noneValid,
    order := some s.staging.allocOrder, incarnation := (s.slot i).incarnation + 1, stamp := some s.clock.ms,
    merge := none, mergeRead := none, attempts := some 0, target := none, hold := none }

/-- R3: slot `i` is allocated for page X, and the allocation order counter advances. -/
def allocate (i x : Nat) (s : State) : State :=
  let s1 := setSlot i (s.allocated i x) s
  s1.setStaging { s1.staging with allocOrder := s1.staging.allocOrder + 1 }

/-- R4 to R6: the slot in which a write for page X is placed, allocated first where it must be; none is NO SLOT. -/
def State.writeSlot (s : State) (x : Nat) : Option (Nat × State) :=
  match s.findSlot (fun sl => sl.accepts x) with
  | some i => some (i, s)
  | none =>
    match s.allocatable with
    | some i => some (i, allocate i x s)
    | none => none

/-- R10: the conditions of pressure sealing, in the states in which it applies (R12). -/
def State.pressure (s : State) : Bool :=
  s.inService && (decide (s.staging.highH ≤ s.slotsInUse) || s.staging.stall) &&
    decide (s.slotCount .sealed = 0) && decide (s.slotCount .writing = 0)

end Sys2Proof.Machine
end

