-- ==== Sys2Proof/Machine/WriteBackEngine.lean ====
section
/-!
DEFINITION. The write-back engine: ready slots, starting a write-back, the commit, failed attempts, HELD slots and barriers,
and the re-examinations that follow an event (R45 to R69, R10, R81).
-/
namespace Sys2Proof.Machine

/-- The write-back record takes a phase (R45). -/
def setWbPhase (ph : WbPhase) (s : State) : State := s.setWb { s.wb with phase := ph }

/-- The barrier list replaced (R62). -/
def setBarriers (b : List Barrier) (s : State) : State := s.setWb { s.wb with barriers := b }

/-- R48: merge-complete, and no other slot for the page WRITING. -/
def State.ready (s : State) (i : Nat) : Bool :=
  let sl := s.slot i
  decide (sl.state = .sealed) && (decide (sl.merge = some .noneNeeded) || decide (sl.merge = some .complete)) &&
    (s.findPartner i (sl.page.getD 0) (fun o => o.state = .writing)).isNone

/-- R49: the first ready slot in queue order. -/
def State.firstReady (s : State) : Option Nat := s.wb.eviction.find? s.ready

/-- R54: the PAGE PROGRAM of a slot's image to a target. -/
def programOf (sl : Slot) (t : Target) : ArrayOp :=
  .pageProgram t.page sl.image (headerSpare (sl.page.getD 0) t.seq)

/-- R65: the pair leaves every wait set. -/
def dropPair (i : Nat) (inc : Byte) (bs : List Barrier) : List Barrier :=
  bs.map (fun b => { b with waitSet := b.waitSet.filter (fun pr => pr ≠ (i, inc)) })

/-- Several PERSIST requests are answered in list order (R29, R65 to R67). -/
def answerPersists (status : ResponseStatus) (bs : List Barrier) (s : State) : State :=
  bs.foldl (fun t b => becomeReady b.tag status [] t) s

/-- R65: a commit takes its pair out of every wait set, and the barriers left with none complete with OK. -/
def commitBarriers (i : Nat) (inc : Byte) (s : State) : State :=
  let bs := dropPair i inc s.wb.barriers
  answerPersists .ok (bs.filter (fun b => b.waitSet.isEmpty)) (setBarriers (bs.filter (fun b => !b.waitSet.isEmpty)) s)

/-- R66: a slot became HELD; every barrier that waits on it completes with LOST. -/
def loseBarriers (i : Nat) (inc : Byte) (s : State) : State :=
  let names := fun (b : Barrier) => b.waitSet.contains (i, inc)
  answerPersists (.fail .lost) (s.wb.barriers.filter names)
    (setBarriers (s.wb.barriers.filter (fun b => !names b)) s)

/-- R21, R24: what a slot that became HELD does to its partner: a SEALED DEFERRED one is filled from the HELD image, an older
HELD one becomes FREE. -/
def heldPartner (i x : Nat) (s : State) : State :=
  match s.findPartner i x (fun o => o.state = .sealed && o.merge = some .deferred) with
  | some j => setSlot j ((s.slot j).filledFrom (s.slot i).image) s
  | none =>
    match s.findPartner i x (fun o => o.state = .held) with
    | some j => freeSlot j s
    | none => s

/-- R24, R53, R59: a slot becomes HELD with a reason; partner, barriers and the READ_ONLY request (R60) follow. -/
def becomeHeld (i : Nat) (reason : HoldReason) (s : State) : State :=
  let sl := s.slot i
  let s1 := setSlot i { sl with state := .held, hold := some reason, target := none } s
  requestReadOnly (loseBarriers i sl.incarnation (heldPartner i (sl.page.getD 0) s1))

/-- R53: HELD(NOSPACE) from SEALED; the slot leaves the eviction queue, and the engine's phase is IDLE afterwards. -/
def holdSealed (i : Nat) (s : State) : State :=
  becomeHeld i .noSpace (s.setWb { s.wb with phase := .idle, eviction := s.wb.eviction.erase i })

/-- The target page that a slot's record names. -/
def Slot.targetPage (sl : Slot) : Nat := (sl.target.map (fun t => t.page)).getD 0

/-- R59: a WRITING slot becomes HELD; its failed target is retired first, and the phase becomes IDLE. -/
def holdWriting (i : Nat) (reason : HoldReason) (s : State) : State :=
  setWbPhase .idle (becomeHeld i reason (retirePage (s.slot i).targetPage s))

/-- R51, R54: the slot becomes WRITING with its target, leaves the queue, and its PAGE PROGRAM is passed. -/
def startWriteBack (i : Nat) (t : Target) (s : State) : State :=
  let s1 := takePage t.page s
  let sl : Slot := { s1.slot i with state := .writing, target := some t }
  let s2 := setSlot i sl s1
  requestOp (programOf sl t) .writeBack
    (s2.setWb { s2.wb with phase := .program i, eviction := s2.wb.eviction.erase i })

/-- R49 to R53: the engine takes slot `i` and acts on the answer to its page request. -/
def takeSlot (i : Nat) (s : State) : State :=
  match s.askPage with
  | .page p q => startWriteBack i { page := p, seq := q } s
  | .wait => setWbPhase .pageWaitFirst s
  | .none => holdSealed i s

/-- R49: where a write-back may start, the slot that it takes. -/
def State.engineStart (s : State) : Option Nat :=
  match s.wb.phase with
  | .idle => if s.writing then s.firstReady else none
  | _ => none

/-- R58: a retry is given a page: the failed page is retired, the record takes the new target, and the PAGE PROGRAM follows the
retire mark. -/
def retryWith (i : Nat) (t : Target) (s : State) : State :=
  let s1 := retirePage (s.slot i).targetPage (takePage t.page s)
  let sl : Slot := { s1.slot i with target := some t }
  requestOp (programOf sl t) .writeBack (setWbPhase (.program i) (setSlot i sl s1))

/-- R58: the retry asks for a page. -/
def retryWriteBack (i : Nat) (s : State) : State :=
  match s.askPage with
  | .page p q => retryWith i { page := p, seq := q } s
  | .wait => setWbPhase (.pageWaitRetry i) s
  | .none => holdWriting i .noSpace s

/-- R58, R59: an attempt has failed. -/
def attemptFailed (i : Nat) (s : State) : State :=
  let n := (s.slot i).attempts.getD 0 + 1
  let s1 := setSlot i { s.slot i with attempts := some n } s
  if Config.attemptLimit ≤ n then holdWriting i .media s1 else retryWriteBack i s1

/-- R52: in PAGE WAIT, the answer to the page request is no longer WAIT. -/
def State.waitOver (s : State) : Bool :=
  match s.askPage with
  | .wait => false
  | _ => true

/-- R52: the end of a PAGE WAIT. A first attempt takes the first ready slot as it stands; a retry keeps its slot. -/
def State.endWait (s : State) : Option State :=
  if s.writing && s.waitOver then
    match s.wb.phase with
    | .pageWaitFirst => some (setWbPhase .idle s)
    | .pageWaitRetry i => some (retryWriteBack i s)
    | _ => none
  else none

/-- R20, R24: what a commit does to the partner: a SEALED DEFERRED one is filled from the committed image, a HELD one becomes
FREE. -/
def commitPartner (i x : Nat) (s : State) : State :=
  match s.findPartner i x (fun o => o.state = .sealed && o.merge = some .deferred) with
  | some j => setSlot j ((s.slot j).filledFrom (s.slot i).image) s
  | none =>
    match s.findPartner i x (fun o => o.state = .held) with
    | some j => freeSlot j s
    | none => s

/-- R56: the commit of slot `i`. -/
def commitSlot (i : Nat) (s : State) : State :=
  let sl := s.slot i
  let x := sl.page.getD 0
  let s1 := installCache x sl.image (commitMap x sl.targetPage s)
  let s2 := commitBarriers i sl.incarnation (commitPartner i x s1)
  setWbPhase .idle (countProgram (freeSlot i s2))

/-- One re-examination that has something to do: the end of a PAGE WAIT (R52), a write-back (R49), pressure sealing (R10), an
erase-and-stamp (R81); none where nothing is due. -/
def State.reexamine (s : State) : Option State :=
  match s.endWait with
  | some t => some t
  | none =>
    match s.engineStart with
    | some i => some (takeSlot i s)
    | none =>
      match (if s.pressure then s.oldestOpen else none) with
      | some i => some (sealSlot i s)
      | none =>
        match s.eraseStart with
        | some p => some (startErase p s)
        | none => none

/-- The re-examinations that follow an event, one after another until none is due (log 13). Every one takes a slot out of
OPEN or SEALED, ends a wait or starts the one erase, so 64 are more than can follow one event. -/
def settleFor : Nat → State → State
  | 0, s => s
  | n + 1, s =>
    match s.reexamine with
    | some t => settleFor n t
    | none => s

/-- The re-examinations that follow an event. -/
def settle (s : State) : State := settleFor 64 s

/-- R11: the OPEN slots are sealed oldest first, each seal with what it sets off before the next (log 14). -/
def sealAllFor : Nat → State → State
  | 0, s => s
  | n + 1, s =>
    match s.oldestOpen with
    | some i =>
      let t := sealSlot i s
      sealAllFor n (match t.engineStart with
        | some j => takeSlot j t
        | none => t)
    | none => s

/-- R11: every OPEN slot is sealed; there are at most 16. -/
def sealAllOpen (s : State) : State := sealAllFor Config.slotCount s

end Sys2Proof.Machine
end

