-- ==== Sys2Proof/Machine/GuardUnit.lean ====
section
/-!
DEFINITION. The guard unit: matching, the answer, captures, and the changes from the maintenance port (R152 to R160).
-/
namespace Sys2Proof.Machine

/-- R153 step 2: the kinds field names the request's kind. -/
def kindNamed : WindowKinds → RequestKind → Bool
  | .read, .read => true
  | .write, .write => true
  | .readWrite, .read => true
  | .readWrite, .write => true
  | _, _ => false

/-- R153: the pattern test, passed only by a WRITE of at least 4 bytes whose write word agrees under the mask. -/
def patternPasses (w : Window) (r : Request) : Bool :=
  decide (r.kind = .write) && decide (4 ≤ r.length) &&
    decide ((BitVec.ofNat 32 (leNat (r.data.take 4)) ^^^ w.matchValue) &&& w.matchMask = 0)

/-- R152: the line of a request. -/
def Request.line (r : Request) : Nat := r.address / Config.lineBytes

/-- R153: a request matches a window. -/
def Window.hits (w : Window) (r : Request) : Bool :=
  w.enabled && kindNamed w.kinds r.kind && w.requesters.getLsbD r.requester &&
    decide (w.low ≤ r.line) && decide (r.line ≤ w.high) && (!w.pattern || patternPasses w r)

/-- R156: the capture filled by its first matching request. -/
def captureOf (time : Word32) (r : Request) : CaptureFields :=
  { isWrite := decide (r.kind = .write), requester := r.requester, address := r.address, length := r.length,
    data := match r.kind with
      | .write => r.data.take 16
      | _ => [],
    time := time }

/-- R156, R157: the effect of a match on a capture. -/
def Capture.advanced (c : Capture) (time : Word32) (r : Request) : Capture :=
  match c.fields with
  | none => { fields := some (captureOf time r), hits := 1 }
  | some f => { fields := some f, hits := satAdvance c.hits }

/-- R152: the captures after the judgement, each by its own window. -/
def judgedCaptures (ws : List Window) (cs : List Capture) (time : Word32) (r : Request) : List Capture :=
  List.zipWith (fun w c => if w.hits r then c.advanced time r else c) ws cs

/-- R154: some matching window has action BLOCK. -/
def blocks (ws : List Window) (r : Request) : Bool := ws.any (fun w => w.hits r && decide (w.action = .block))

/-- R152, R154: the judgement: captures, and one advance of GUARD_REFUSALS where the answer is BLOCK. -/
def judge (r : Request) (s : State) : State :=
  let s1 := s.setGuard { s.guard with captures := judgedCaptures s.guard.windows s.guard.captures s.clock.ms r }
  if blocks s.guard.windows r then countGuardRefusal s1 else s1

/-- R159: CLEAR CAPTURE of a window. -/
def clearCaptureOf (n : Nat) (s : State) : State :=
  s.setGuard { s.guard with captures := s.guard.captures.set n Capture.cleared }

/-- R160: WINDOW SET of a window with an in-range record. -/
def setWindow (n : Nat) (w : Window) (s : State) : State :=
  s.setGuard { windows := s.guard.windows.set n w, captures := s.guard.captures.set n Capture.cleared }

end Sys2Proof.Machine
end

