-- ==== Sys2Proof/Machine/LinkPort.lean ====
section
/-!
DEFINITION. The system link port: the checks of a placement, the serving blocks' answers, the stall, arrivals, and what
follows every event (R27 to R31, R63, R64, R133 to R148).
-/
namespace Sys2Proof.Machine

/-! ## The checks of a placement -/

/-- R140: the state check, the first row that applies. -/
def State.stateCheck (s : State) (k : RequestKind) : Option FailReason :=
  match s.sup.state with
  | .fault => some .fault
  | .draining =>
    if s.sup.cause ≠ some .power ∨ s.sup.pendingReset.isSome then some .reset
    else if k = .write then some .power else none
  | .halted => if k = .write then some .power else none
  | .readOnly => if k = .write then some .locked else none
  | _ => none

/-- R141: the alignment check fails. -/
def Request.misaligned (r : Request) : Bool :=
  decide (r.length = 0) || decide (64 < r.length) || decide (64 < r.address % 64 + r.length)

/-- R141: the address lies at or beyond L x 256. -/
def State.outOfRange (s : State) (r : Request) : Bool :=
  decide (s.xlat.logicalPages.getD 0 * Config.pageBytes ≤ r.address)

/-- R141: the logical page of a request. -/
def Request.page (r : Request) : Nat := r.address / Config.pageBytes

/-- R141: the first offset of a request in its page. -/
def Request.offset (r : Request) : Nat := r.address % Config.pageBytes

/-! ## Serving a request (R142) -/

/-- R4 to R6, R142: a WRITE is placed and answered OK, or stalls with the stall indication set. -/
def serveWrite (r : Request) (s : State) : State :=
  match s.writeSlot r.page with
  | some (i, t) => becomeReady r.tag .ok [] (setStall false (placeInSlot i r.offset r.data t))
  | none => setStall true s

/-- R27: the sources of the requested offsets, in address order. -/
def State.readSources (s : State) (r : Request) : List Source :=
  (List.range r.length).map (fun k => (s.sourcesOf r.page).lookup (r.offset + k))

/-- R30, R31: a record joins the pending read list, and the demand read of its physical page is found or started. -/
def addPending (rec : PendingRead) (s : State) : State :=
  let s1 := s.setReadPath { s.readPath with pendingReads := s.readPath.pendingReads ++ [rec] }
  if s.readPath.demands.any (fun d => d.phys = rec.phys) then s1
  else pinnedRead rec.phys .demandRead
    (s1.setReadPath { s1.readPath with demands := s1.readPath.demands ++ [{ phys := rec.phys, number := 1 }] })

/-- R27, R28: a READ is answered at once where no offset is needed from the array, and becomes pending otherwise. -/
def serveRead (r : Request) (s : State) : State :=
  let sources := s.readSources r
  let supplied := sources.map Source.supplied
  let s1 := if sources.any Source.isCache then touchCache r.page s else s
  if supplied.all Option.isSome then
    becomeReady r.tag .ok (supplied.map (fun b => b.getD Config.erased)) s1
  else
    addPending { tag := r.tag, page := r.page, first := r.offset, phys := (s.map r.page).getD 0, bytes := supplied }
      (becomeWaiting r.tag s1)

/-- R63 case 4: every OPEN, SEALED or WRITING slot with its incarnation, in ascending slot number. -/
def State.waitSetNow (s : State) : List (Nat × Byte) :=
  (slotNumbers.filter (fun i =>
    (s.slot i).state = .opened || (s.slot i).state = .sealed || (s.slot i).state = .writing)).map
      (fun i => (i, (s.slot i).incarnation))

/-- R63: a PERSIST by the first case that applies; case 3 leaves it where it stands, stalled. -/
def servePersist (r : Request) (s : State) : State :=
  if s.anyHeld then becomeReady r.tag (.fail .lost) [] s
  else if s.anyStaged = false then becomeReady r.tag .ok [] s
  else if Config.barrierSize ≤ s.wb.barriers.length then s
  else
    sealAllOpen (becomeWaiting r.tag
      (setBarriers (s.wb.barriers ++ [{ tag := r.tag, waitSet := s.waitSetNow }]) s))

/-- R142: the request goes to its serving block. -/
def serve (r : Request) (s : State) : State :=
  match r.kind with
  | .read => serveRead r s
  | .write => serveWrite r s
  | .persist => servePersist r s

/-! ## Placement (R139 to R143) -/

/-- R140, R143: the state's reason is the answer; a stalled WRITE that gets it ends the stall indication (R6). -/
def refuseByState (e : Entry) (reason : FailReason) (s : State) : State :=
  becomeReady e.request.tag (.fail reason) []
    (if e.judged ∧ e.request.kind = .write then setStall false s else s)

/-- R141, R142: a READ or WRITE on its first placement: alignment, range, guard unit, then its serving block. -/
def placeUnjudged (r : Request) (s : State) : State :=
  if r.misaligned then becomeReady r.tag (.fail .align) [] s
  else if s.outOfRange r then becomeReady r.tag (.fail .range) [] s
  else if blocks s.guard.windows r then becomeReady r.tag (.fail .guard) [] (judge r s)
  else serve r (setJudged r.tag (judge r s))

/-- R139 to R143: one placement, or one presentation again, of the head. -/
def placeHead (e : Entry) (s : State) : State :=
  match s.stateCheck e.request.kind with
  | some reason => refuseByState e reason s
  | none =>
    if e.judged then serve e.request s
    else
      match e.request.kind with
      | .persist => serve e.request (setJudged e.request.tag s)
      | _ => placeUnjudged e.request s

/-- R139: the head, the oldest QUEUED entry. -/
def State.head (s : State) : Option Entry := s.port.table.find? (fun e => e.phase = .queued)

/-- R143: the operating state, drain cause or reset-pending indication differ. -/
def stateChanged (a b : State) : Bool :=
  decide (a.sup.state ≠ b.sup.state) || decide (a.sup.cause ≠ b.sup.cause) ||
    decide (a.sup.pendingReset.isSome ≠ b.sup.pendingReset.isSome)

/-- R143: between two moments, a cause arose to present a stalled head of that kind again: a change of state, for a WRITE a
slot that became FREE (R6), for a PERSIST a barrier record that left the list (R64). -/
def presentCause (a b : State) (k : RequestKind) : Bool :=
  stateChanged a b ||
    match k with
    | .write => decide (a.slotCount .free < b.slotCount .free)
    | .persist => decide (b.wb.barriers.length < a.wb.barriers.length)
    | .read => false

/-- R139, R143: placements one after another. The head is placed where it is not stalled, or presented again where a cause
arose between `before` and now; each placement is followed by what it sets off. -/
def placeFor : Nat → State → State → State
  | 0, _, s => s
  | n + 1, before, s =>
    match s.head with
    | none => s
    | some e =>
      if e.judged ∧ presentCause before s e.request.kind = false then s
      else placeFor n s (settle (placeHead e s))

/-- The placements that follow an event which led from `before` to `s`. There are at most 8 entries; each is placed once and
presented again at most at each later cause, so 64 are more than can follow one event. -/
def placements (before s : State) : State := placeFor 64 before s

/-! ## Arrival (R136 to R138) -/

/-- R137 case 2, R138: an AGAIN is owed, and AGAIN_RESPONSES advances. -/
def oweAgain (tag : Nat) (s : State) : State :=
  beginSending (countAgain (s.setPort { s.port with againOwed := some tag }))

/-- R137 case 3: the request joins the tail of the table, QUEUED and unjudged. -/
def takeRequest (r : Request) (s : State) : State :=
  s.setPort { s.port with table := s.port.table ++ [{ request := r, phase := .queued, judged := false }] }

/-- R137: one arrival, by the first case that applies; a taken request is placed if it is the head (R139). -/
def arrive (record : List Byte) (s : State) : State :=
  match decodeRequest record with
  | none => latchProtocolFault s
  | some r =>
    if s.port.table.any (fun e => e.request.tag = r.tag) then latchProtocolFault s
    else if s.sup.state = .mounting ∨ Config.tableSize ≤ s.port.table.length then oweAgain r.tag s
    else placements s (takeRequest r s)

/-- The records that wait on the link replaced. -/
def setLinkQueue (q : List (List Byte)) (s : State) : State := s.setPort { s.port with linkQueue := q }

/-- R136: the records that waited on a held channel arrive, one after another, while the channel is open. -/
def arriveWaiting : List (List Byte) → State → State
  | [], s => setLinkQueue [] s
  | b :: bs, s => if s.requestHeld then setLinkQueue (b :: bs) s else arriveWaiting bs (arrive b s)

/-- R136: a record is on the link: it waits while the channel is held or others wait before it, and arrives otherwise. -/
def presentRecord (record : List Byte) (s : State) : State :=
  arriveWaiting (s.port.linkQueue ++ [record]) s

/-! ## What follows every event -/

/-- What one event sets off, in this order (log 13): the re-examinations, the drain end (R171), the choice that ends a
completion event (R101), the placements (R139, R143), and the arrivals that a hold kept waiting (R136). -/
def finish (before s : State) : State :=
  let t := endCompletion (drainEnd (settle s))
  let u := placements before t
  arriveWaiting u.port.linkQueue u

end Sys2Proof.Machine
end

