-- ==== Sys2Proof/Machine/Drain.lean ====
section
/-!
DEFINITION. The beginning of a drain, the entry into FAULT, and the acts of the reset requests on the supervisor
(R37, R61, R67, R167, R170, R173, R175, R196).
-/
namespace Sys2Proof.Machine

/-- The return state that names the state left (R170): SERVING or READ_ONLY. -/
def State.leftState (s : State) : ReturnState := if s.sup.state = .readOnly then .readOnly else .serving

/-- R170: the supervisor record at the entry of a drain. -/
def State.drainSup (s : State) (cause : DrainCause) : Supervisor :=
  match cause with
  | .power => { s.sup with state := .draining, cause := some .power, returnTo := some s.leftState, drainClock := some 0 }
  | .reset => { s.sup with state := .draining, cause := some .reset, pendingReset := some .resetLine, resetTimer := some 0,
                           drainClock := some 0 }
  | .maint => { s.sup with state := .draining, cause := some .maint, pendingReset := some .maintenance,
                           drainClock := some 0 }

/-- R170: a drain begins and every OPEN slot is sealed. The drain end is examined when the event's effects have settled. -/
def beginDrain (cause : DrainCause) (s : State) : State := sealAllOpen (s.setSup (s.drainSup cause))

/-- R37: every pending read is answered FAIL FAULT in list order; list and demand reads are discarded. -/
def faultReads (s : State) : State :=
  s.readPath.pendingReads.foldl (fun t r => becomeReady r.tag (.fail .fault) [] t)
    (s.setReadPath { s.readPath with pendingReads := [], demands := [] })

/-- R61, R67: every barrier is answered FAIL FAULT in list order. -/
def faultBarriers (s : State) : State := answerPersists (.fail .fault) s.wb.barriers (setBarriers [] s)

/-- The result of a copy in the copy status replaced; the copy in use stays. -/
def CopyStatus.setResult (c : CopyStatus) (which : Copy) (gen : Option Word32) : CopyStatus :=
  match which with
  | .a => { c with a := gen }
  | .b => { c with b := gen }

/-- The commit ends FAILED (R195, R196); where `touched`, the target's result becomes INVALID. -/
def failCommit (touched : Bool) (job : CommitJob) (m : Maintenance) : Maintenance :=
  { m with
    commitState := .failed, job := none,
    copyStatus := if touched then m.copyStatus.map (fun c => c.setResult job.target none) else m.copyStatus }

/-- The operation in flight belongs to the configuration commit. -/
def State.commitInFlight (s : State) : Bool :=
  match s.seq.inFlight with
  | some f => decide (f.requester = .configCommit)
  | none => false

/-- R196: the entry into FAULT ends a BUSY commit FAILED; the target is INVALID where the phase was past ERASE or the ERASE had
been issued. -/
def State.commitAtFault (s : State) : Maintenance :=
  match s.maint.job with
  | some job => failCommit (decide (job.phase ≠ .erase) || s.commitInFlight) job s.maint
  | none => s.maint

/-- R167: the supervisor record in FAULT. -/
def Supervisor.inFault (u : Supervisor) : Supervisor :=
  { u with state := .fault, cause := none, returnTo := none, drainClock := none, resetTimer := none }

/-- R167, R108: a FAULT request. Where a reset is pending, the reset completes at once with outcome TIMED_OUT; otherwise the
state is FAULT, the sequencer stops, reads and barriers are answered, and a commit ends FAILED. In RESETTING it does not
arise (R167). -/
def requestFault (s : State) : State :=
  match s.sup.state with
  | .resetting => s
  | _ =>
    match s.sup.pendingReset with
    | some c => resetCompletion c.toCause .timedOut s
    | none =>
      let s1 := s.setMaint s.commitAtFault
      let s2 := stopSequencer (s1.setSup s1.sup.inFault)
      faultBarriers (faultReads s2)

/-- R173: the falling edge of RESET_N, by the operating state and the T_r in force. -/
def resetLineLow (s : State) : State :=
  if s.sup.resetLimit = 0 then resetCompletion .resetLine .notAttempted s
  else
    match s.sup.state with
    | .serving => beginDrain .reset s
    | .readOnly => beginDrain .reset s
    | .draining =>
      match s.sup.pendingReset with
      | none => s.setSup { s.sup with pendingReset := some .resetLine, resetTimer := some 0 }
      | some .maintenance =>
        match s.sup.resetTimer with
        | none => s.setSup { s.sup with resetTimer := some 0 }
        | some _ => s
      | some .resetLine => s
    | _ => resetCompletion .resetLine .notAttempted s

/-- R175: an accepted SOFT RESET, by the operating state. -/
def softResetActs (s : State) : State :=
  match s.sup.state with
  | .serving => beginDrain .maint s
  | .readOnly => beginDrain .maint s
  | .draining =>
    match s.sup.pendingReset with
    | none => s.setSup { s.sup with pendingReset := some .maintenance }
    | some _ => s
  | .halted => resetCompletion .maintenance .notAttempted s
  | .fault => resetCompletion .maintenance .notAttempted s
  | _ => s

end Sys2Proof.Machine
end

