-- ==== Sys2Proof/Machine/MountEngine.lean ====
section
/-!
DEFINITION. The mount engine: strap check, configuration selection, header scan, and the two ways a mount ends
(R113 to R128).
-/
namespace Sys2Proof.Machine

/-- The array size that an ASZ code names, ASZ1 the upper bit (11_formats_and_signals.md, Signals). -/
def arraySizeOf (asz : BitVec 2) : Option Nat :=
  if asz = 0 then some 1024 else if asz = 1 then some 2048 else if asz = 2 then some 4096 else none

/-- R115: the strap check with the sampled ASZ code. -/
def strapCheck (asz : BitVec 2) (s : State) : State :=
  match arraySizeOf asz with
  | some n =>
    requestOp (.pageRead 0) .mount (s.setMount { s.mount with phase := .configA, arraySize := some n, readNumber := 1 })
  | none =>
    requestFault ((s.setMount { s.mount with phase := .done }).setMaint
      { s.maint with flags := { s.maint.flags with strapFault := true } })

/-- R114: the READY WAIT of the mount has completed, and the strap check is made in the same event. -/
def readyWaitDone (asz : BitVec 2) (s : State) : State :=
  match s.mount.phase with
  | .readyWait => strapCheck asz s
  | _ => s

/-- R118: what the selection chooses from the two results: fields, the record in bytes, the copy chosen. -/
structure Selection where
  fields : ConfigFields
  record : List Byte
  chosen : Option Copy
  deriving DecidableEq, Repr

/-- The values of a VALID copy's record (R117, R118); a copy whose record does not decode is not VALID. -/
def fieldsOr (n : Nat) (record : List Byte) : ConfigFields := (configFields n record).getD (defaultFields n)

/-- R118: the active configuration by the table of the two copy results. -/
def selectConfig (n : Nat) (a b : CopyResult) : Selection :=
  match a, b with
  | .valid ga ra, .valid gb rb =>
    if ga < gb then { fields := fieldsOr n rb, record := rb, chosen := some .b }
    else { fields := fieldsOr n ra, record := ra, chosen := some .a }
  | .valid _ ra, _ => { fields := fieldsOr n ra, record := ra, chosen := some .a }
  | _, .valid _ rb => { fields := fieldsOr n rb, record := rb, chosen := some .b }
  | _, _ => { fields := defaultFields n, record := defaultRecord n, chosen := none }

/-- The generation of a VALID result (R119). -/
def CopyResult.generation : CopyResult → Option Word32
  | .valid g _ => some g
  | _ => none

/-- R168: a QUALIFYING warning whose elapsed time has reached the Q now in force becomes ASSERTED. -/
def PowerWarning.reexamined (w : PowerWarning) (q : Nat) : PowerWarning :=
  match w with
  | .qualifying e => if q * Config.qualifyUnitUs ≤ e then .asserted else .qualifying e
  | _ => w

/-- R118, R119: the values of the active configuration are handed to the blocks, and the scan begins with page 2. -/
def applySelection (sel : Selection) (s : State) : State :=
  let f := sel.fields
  requestOp (.headerRead 2) .mount
    { s with
      xlat := { s.xlat with logicalPages := some f.l },
      staging := { s.staging with limitD := f.d, highH := f.h, delayW := f.w },
      sup := { s.sup with qualifyQ := f.q, resetLimit := f.tr, warning := s.sup.warning.reexamined f.q },
      mount := { s.mount with phase := .scan, cursor := some 2, readNumber := 1, windows := f.windows },
      maint := { s.maint with
        active := some sel.record,
        copyStatus := some { a := s.mount.copyA.generation, b := s.mount.copyB.generation, inUse := sel.chosen },
        flags := { s.maint.flags with configInvalid := sel.chosen.isNone } } }

/-- R118: the selection, made when both results are settled. -/
def selectActive (s : State) : State :=
  applySelection (selectConfig (s.mount.arraySize.getD 0) s.mount.copyA s.mount.copyB) s

/-- R116: the result of a completed read of a copy, none where it is read again. -/
def State.copyVerdict (s : State) (st : ArrayStatus) (data : List Byte) : Option CopyResult :=
  match validCopy (s.mount.arraySize.getD 0) st data with
  | some f => some (.valid f.generation data)
  | none => if s.mount.readNumber = 1 then none else some .invalid

/-- R116: the read of a copy has completed. -/
def configCopyRead (st : ArrayStatus) (data : List Byte) (s : State) : State :=
  match s.mount.phase, s.copyVerdict st data with
  | .configA, none => requestOp (.pageRead 0) .mount (s.setMount { s.mount with readNumber := 2 })
  | .configA, some r =>
    requestOp (.pageRead 1) .mount (s.setMount { s.mount with copyA := r, phase := .configB, readNumber := 1 })
  | .configB, none => requestOp (.pageRead 1) .mount (s.setMount { s.mount with readNumber := 2 })
  | .configB, some r => selectActive (s.setMount { s.mount with copyB := r })
  | _, _ => s

/-! ## Header scan -/

/-- The classes of R121; a candidate carries its logical page and sequence number. -/
inductive HeaderClass where
  | bad
  | stale
  | free
  | candidate (logical : Nat) (seq : Word32)
  deriving DecidableEq, Repr

/-- The header check result matches and the sequence number is one the bridge programs (R121 step 4, R122). -/
def validHeader (spare : List Byte) : Bool :=
  headerMatches spare && decide (1 ≤ spareSequence spare) && decide (spareSequence spare ≤ 4294967294)

/-- R121 step 3: logical page number, sequence number, data check, header check and commit marker all read erased. -/
def headerErased (spare : List Byte) : Bool := (slice 1 13 spare).all (fun b => decide (b = Config.erased))

/-- R121: the first line of the table that applies. -/
def classify (spare : List Byte) : HeaderClass :=
  if spareRetire spare ≠ 0xFF then .bad
  else if spareClean spare ≠ 0x5A then .stale
  else if headerErased spare then .free
  else if validHeader spare && decide (spareCommit spare = 0x00) then
    .candidate (spareLogical spare) (BitVec.ofNat 32 (spareSequence spare))
  else .stale

/-- R120: the page is read again. -/
def State.rereads (s : State) (st : ArrayStatus) (spare : List Byte) : Bool :=
  decide (s.mount.readNumber = 1) &&
    match st with
    | .fail => true
    | .pass => decide (spareRetire spare = 0xFF) && decide (spareClean spare = 0x5A) && decide (spareCommit spare = 0x00) &&
        !headerMatches spare

/-- R122: a valid header feeds the largest sequence. -/
def feedLargest (spare : List Byte) (s : State) : State :=
  let q := BitVec.ofNat 32 (spareSequence spare)
  if validHeader spare && decide (s.mount.largest < q) then s.setMount { s.mount with largest := q } else s

/-- R123: a classified page takes its state with pin count 0. -/
def classifyAs (p : Nat) (st : PageState) (s : State) : State :=
  s.setXlat { s.xlat with pages := pagesSet p { state := st, pins := 0 } s.xlat.pages }

/-- R124: map[x] becomes p with sequence number q, kept for later comparisons. -/
def nameCandidate (x p : Nat) (q : Word32) (s : State) : State :=
  let s1 := classifyAs p .live s
  let s2 := s1.setXlat { s1.xlat with remap := tableSet x p s1.xlat.remap }
  s2.setMount { s2.mount with named := tableSet x q s2.mount.named }

/-- R124: a candidate is resolved against the remap table. -/
def resolveCandidate (p x : Nat) (q : Word32) (s : State) : State :=
  if s.xlat.logicalPages.getD 0 ≤ x then classifyAs p .stale s
  else
    match s.map x with
    | none => nameCandidate x p q s
    | some old =>
      if (tableGet x s.mount.named).getD 0 < q then nameCandidate x p q (setPageState old .stale s)
      else classifyAs p .stale s

/-- R121 to R124: the page at the cursor is classified from the read now completed. -/
def classifyPage (p : Nat) (st : ArrayStatus) (spare : List Byte) (s : State) : State :=
  match st with
  | .fail => classifyAs p .stale s
  | .pass =>
    let s1 := feedLargest spare s
    match classify spare with
    | .bad => classifyAs p .bad s1
    | .stale => classifyAs p .stale s1
    | .free => classifyAs p .free s1
    | .candidate x q => resolveCandidate p x q s1

/-! ## The end of a mount -/

/-- R125: the collections are built in ascending page order and the sequence counter is set. -/
def buildCollections (s : State) : State :=
  s.setXlat { s.xlat with freePool := s.pagesIn .free, eraseQueue := s.pagesIn .stale, sequence := s.mount.largest + 1 }

/-- R127: the exit state that the reserves give. -/
def State.exitState (s : State) : ReturnState :=
  if s.inSequenceReserve || s.inBadPageReserve then .readOnly else .serving

/-- R127, R165, R169: the exit request; an ASSERTED power warning gives HALTED with that state as return state. -/
def exitMount (s : State) : State :=
  match s.sup.warning with
  | .asserted => s.setSup { s.sup with state := .halted, returnTo := some s.exitState }
  | _ => s.setSup { s.sup with state := s.exitState.toState }

/-- R125 to R127: collections, counter, windows with cleared captures, phase DONE, exit state. The kept sequence numbers
are no longer needed (log 19). -/
def mountExit (s : State) : State :=
  let s1 := buildCollections s
  exitMount ((s1.setGuard { windows := s1.mount.windows, captures := clearedCaptures }).setMount
    { s1.mount with phase := .done, cursor := none, named := [] })

/-- R120: after the classification the scan goes on to the next page, or the mount ends. -/
def advanceScan (p : Nat) (s : State) : State :=
  if p + 1 < s.mount.arraySize.getD 0 then
    requestOp (.headerRead (p + 1)) .mount (s.setMount { s.mount with cursor := some (p + 1), readNumber := 1 })
  else mountExit s

/-- R120: a HEADER READ of the page at the cursor has completed. -/
def headerRead (st : ArrayStatus) (spare : List Byte) (s : State) : State :=
  match s.mount.phase, s.mount.cursor with
  | .scan, some p =>
    if s.rereads st spare then requestOp (.headerRead p) .mount (s.setMount { s.mount with readNumber := 2 })
    else advanceScan p (classifyPage p st spare s)
  | _, _ => s

/-- R128: a second timeout ends the mount: what the scan has given is built, the phase is DONE. The request for FAULT follows
(R108). -/
def mountFaultEnd (s : State) : State :=
  let s1 := match s.mount.phase with
    | .scan => buildCollections s
    | _ => s
  s1.setMount { s1.mount with phase := .done, cursor := none, named := [] }

end Sys2Proof.Machine
end

