-- ==== Sys2Proof/Machine/MaintPort.lean ====
section
/-!
DEFINITION. The maintenance port: the last response, what each accepted command does, and the decision at the end of a
command frame (R181 to R196).
-/
namespace Sys2Proof.Machine

/-- R183: the last response is replaced. -/
def respond (c : Completion) (data : List Byte) (s : State) : State :=
  s.setMaint { s.maint with lastResponse := some { completion := c, data := data } }

/-- The flags replaced (R186). -/
def setFlags (f : MaintFlags) (s : State) : State := s.setMaint { s.maint with flags := f }

/-- The configuration buffer replaced (R192). -/
def setBuffer (b : List Byte) (s : State) : State := s.setMaint { s.maint with buffer := b }

/-! ## Accepted commands: the arguments are the right number of bytes, and the state is one that accepts the command -/

/-- R185: the report is formed, then PROTOCOL_FAULT is cleared. -/
def doStatus (s : State) : State :=
  setFlags { s.maint.flags with protocolFault := false } (respond .ok s.statusReport s)

/-- R187: all eight counters. -/
def doCounters (s : State) : State := respond .ok (countersBytes s.maint.counters) s

/-- R187: all eight counters become 0. -/
def doClearCounters (s : State) : State := respond .ok [] (setCounters .zero s)

/-- The window number of a guard command, in 0 .. 7 (R190). -/
def windowNumber (args : List Byte) : Option Nat :=
  let n := (byteAt args 0).toNat
  if n < 8 then some n else none

/-- R159, R190: the capture of a window. -/
def doCapture (args : List Byte) (s : State) : State :=
  match windowNumber args with
  | some n => respond .ok (captureBytes (s.guard.captures.getD n Capture.cleared)) s
  | none => respond .badArgument [] s

/-- R159, R190: the capture of a window is cleared. -/
def doClearCapture (args : List Byte) (s : State) : State :=
  match windowNumber args with
  | some n => respond .ok [] (clearCaptureOf n s)
  | none => respond .badArgument [] s

/-- R159, R190: the record of a window in force. -/
def doWindowRead (args : List Byte) (s : State) : State :=
  match windowNumber args with
  | some n => respond .ok (encodeWindow (s.guard.windows.getD n Window.disabled)) s
  | none => respond .badArgument [] s

/-- R160, R190: an in-range record replaces the window's record; any other is BAD_ARGUMENT. -/
def doWindowSet (args : List Byte) (s : State) : State :=
  match windowNumber args, decodeWindow args.tail with
  | some n, some w => respond .ok [] (setWindow n w s)
  | _, _ => respond .badArgument [] s

/-- R189: one slot of the map report. -/
def slotReport (i : Nat) (sl : Slot) : List Byte :=
  [BitVec.ofNat 8 i, slotStateByte sl.state, mergeByte sl.merge, holdByte sl.hold]

/-- R189: the slots whose logical page is X, in ascending slot number. -/
def State.slotsHolding (s : State) (x : Nat) : List Nat := slotNumbers.filter (fun i => (s.slot i).page = some x)

/-- R189: the map report of page X. -/
def State.mapReport (s : State) (x : Nat) : List Byte :=
  let holding := s.slotsHolding x
  (match s.map x with
    | some p => leBytes 2 p ++ [pageStateByte (s.pageEntry p).state]
    | none => [0xFF, 0xFF, 0xFF]) ++
    [BitVec.ofNat 8 holding.length] ++ (holding.map (fun i => slotReport i (s.slot i))).flatten

/-- R189: BAD_ARGUMENT for X at L or above, and for every X where no L is in force. -/
def doMapQuery (args : List Byte) (s : State) : State :=
  let x := leNat args
  match s.xlat.logicalPages with
  | some l => if x < l then respond .ok (s.mapReport x) s else respond .badArgument [] s
  | none => respond .badArgument [] s

/-- R69, R191: every OPEN slot is sealed, oldest first; answered OK at once. -/
def doFlush (s : State) : State := respond .ok [] (sealAllOpen s)

/-- R188: the record as it stands; MEDIA_LOSS is cleared. -/
def doLossRead (s : State) : State :=
  setFlags { s.maint.flags with mediaLoss := false } (respond .ok (lossBytes s.maint.loss) s)

/-- R192: the active configuration is copied into the buffer; BUSY where none has been selected. -/
def doConfigLoad (s : State) : State :=
  match s.maint.active with
  | some r => respond .ok [] (setBuffer r s)
  | none => respond .busy [] s

/-- The offset of CONFIG READ and CONFIG WRITE: a multiple of 16 in 0 .. 240 (R192). -/
def configOffset (args : List Byte) : Option Nat :=
  let n := (byteAt args 0).toNat
  if n % 16 = 0 then some n else none

/-- R192: 16 bytes of the buffer from the offset. -/
def doConfigRead (args : List Byte) (s : State) : State :=
  match configOffset args with
  | some n => respond .ok (slice n 16 s.maint.buffer) s
  | none => respond .badArgument [] s

/-- R192: 16 bytes of the buffer from the offset are replaced. -/
def doConfigWrite (args : List Byte) (s : State) : State :=
  match configOffset args with
  | some n => respond .ok [] (setBuffer (overlay n args.tail s.maint.buffer) s)
  | none => respond .badArgument [] s

/-- The result of a copy in the copy status (R193). -/
def CopyStatus.result (c : CopyStatus) : Copy → Option Word32
  | .a => c.a
  | .b => c.b

/-- R193: the generation in use, 0 where no copy is. -/
def CopyStatus.generationInUse (c : CopyStatus) : Word32 :=
  match c.inUse with
  | some k => (c.result k).getD 0
  | none => 0

/-- R194 step 1: the target copy. -/
def CopyStatus.targetCopy (c : CopyStatus) : Copy :=
  match c.a, c.b with
  | none, _ => .a
  | some _, none => .b
  | some ga, some gb => if ga < gb then .a else .b

/-- The physical page of a copy (06_mount.md). -/
def Copy.page : Copy → Nat
  | .a => 0
  | .b => 1

/-- The copy status, or both INVALID where it is absent (no command that reads it is accepted then). -/
def State.copies (s : State) : CopyStatus := s.maint.copyStatus.getD { a := none, b := none, inUse := none }

/-- R194: the checks of a commit pass. -/
def State.commitAllowed (s : State) : Bool :=
  (configFields (s.mount.arraySize.getD 0) s.maint.buffer).isSome &&
    decide (s.copies.generationInUse < 4294967295)

/-- R194: the commit begins: buffer stamped, record to write taken, BUSY, ERASE of the target's page passed. -/
def beginCommit (s : State) : State :=
  let generation := s.copies.generationInUse + 1
  let target := s.copies.targetCopy
  let record := stampRecord generation s.maint.buffer
  requestOp (.erase target.page) .configCommit
    (s.setMaint { s.maint with
      buffer := record, commitState := .busy,
      job := some { phase := .erase, target := target, record := record, generation := generation } })

/-- R194: CONFIG COMMIT. -/
def doConfigCommit (s : State) : State :=
  if s.commitAllowed then respond .ok [] (beginCommit s)
  else respond .badArgument [] (s.setMaint { s.maint with commitState := .failed })

/-- R191: the reset-cause record. -/
def doResetCause (s : State) : State := respond .ok (resetRecordBytes s.sup.record) s

/-- R175, R191: answered OK, and in the same event the supervisor acts. -/
def doSoftReset (s : State) : State := softResetActs (respond .ok [] s)

/-! ## The decision at the end of a frame (R182) -/

/-- The command set (R182). -/
inductive CommandName where
  | status | counters | clearCounters | capture | clearCapture | windowRead | windowSet | mapQuery
  | flush | lossRead | configLoad | configRead | configWrite | configCommit | resetCause | softReset
  deriving DecidableEq, Repr

/-- The command that a code names (11_formats_and_signals.md, Maintenance Frames). -/
def commandOf (code : Byte) : Option CommandName :=
  if code = 0x01 then some .status
  else if code = 0x02 then some .counters
  else if code = 0x03 then some .clearCounters
  else if code = 0x10 then some .capture
  else if code = 0x11 then some .clearCapture
  else if code = 0x12 then some .windowRead
  else if code = 0x13 then some .windowSet
  else if code = 0x20 then some .mapQuery
  else if code = 0x21 then some .flush
  else if code = 0x22 then some .lossRead
  else if code = 0x30 then some .configLoad
  else if code = 0x31 then some .configRead
  else if code = 0x32 then some .configWrite
  else if code = 0x33 then some .configCommit
  else if code = 0x40 then some .resetCause
  else if code = 0x41 then some .softReset
  else none

/-- The argument bytes that a command takes (11_formats_and_signals.md, Maintenance Frames). -/
def CommandName.argBytes : CommandName → Nat
  | .status => 0
  | .counters => 0
  | .clearCounters => 0
  | .capture => 1
  | .clearCapture => 1
  | .windowRead => 1
  | .windowSet => 22
  | .mapQuery => 2
  | .flush => 0
  | .lossRead => 0
  | .configLoad => 0
  | .configRead => 1
  | .configWrite => 17
  | .configCommit => 0
  | .resetCause => 0
  | .softReset => 0

/-- The row of R184 that decides whether a command is accepted. -/
def CommandName.kind : CommandName → CommandKind
  | .status => .always
  | .counters => .afterMount
  | .clearCounters => .afterMount
  | .capture => .afterMount
  | .clearCapture => .afterMount
  | .windowRead => .afterMount
  | .windowSet => .afterMount
  | .mapQuery => .afterMount
  | .flush => .serviceOnly
  | .lossRead => .afterMount
  | .configLoad => .unlessBusy
  | .configRead => .afterMount
  | .configWrite => .unlessBusy
  | .configCommit => .serviceUnlessBusy
  | .resetCause => .always
  | .softReset => .afterMount

/-- What an accepted command does (R182 case 4). FLUSH and SOFT RESET set off what follows a seal or a change of state. -/
def CommandName.act (c : CommandName) (args : List Byte) (s : State) : State :=
  match c with
  | .status => doStatus s
  | .counters => doCounters s
  | .clearCounters => doClearCounters s
  | .capture => doCapture args s
  | .clearCapture => doClearCapture args s
  | .windowRead => doWindowRead args s
  | .windowSet => doWindowSet args s
  | .mapQuery => doMapQuery args s
  | .flush => finish s (doFlush s)
  | .lossRead => doLossRead s
  | .configLoad => doConfigLoad s
  | .configRead => doConfigRead args s
  | .configWrite => doConfigWrite args s
  | .configCommit => doConfigCommit s
  | .resetCause => doResetCause s
  | .softReset => finish s (doSoftReset s)

/-- R182: the cases after the command code: wrong length, not accepted, executed. -/
def decideCommand (c : CommandName) (args : List Byte) (s : State) : State :=
  if args.length ≠ c.argBytes then respond .badArgument [] s
  else if s.accepts c.kind then c.act args s
  else respond .busy [] s

/-- R182: the decision at the end of a frame, by the first case that applies; `none` is a code that names no command. -/
def decideFrame (c : Option CommandName) (args : List Byte) (s : State) : State :=
  match c with
  | none => respond .badCommand [] s
  | some n => decideCommand n args s

/-- The transaction takes a value (R181). -/
def setTransaction (t : Transaction) (s : State) : State := s.setMaint { s.maint with transaction := t }

/-- R181, R182: the end of a command frame. Bytes of a transaction that a reset completion cut off, or that carries another
address, form no frame and are ignored; otherwise the frame ends the write part and the command is decided in one event (log 12). -/
def endFrame (c : Option CommandName) (args : List Byte) (s : State) : State :=
  match s.maint.transaction with
  | .ignored => s
  | _ => decideFrame c args (setTransaction .none s)

end Sys2Proof.Machine
end

