-- ==== Sys2Proof/Machine/Completions.lean ====
section
/-!
DEFINITION. The meanings of the array completions (R101): each takes the completion of the operation in flight if that
operation is the one the row names, and is discarded otherwise (R91; log 4).
-/
namespace Sys2Proof.Machine

/-- R101: a completion event. Where the sequencer accepts a completion and the operation in flight is the row's, its record
is released and the requester handles it; what follows every event then follows, the choice included. -/
def complete (isRow : InFlight → Bool) (handle : InFlight → State → State) (s : State) : State :=
  match s.accepting with
  | some f => if isRow f then finish s (handle f (releaseOp s)) else s
  | none => s

/-- The page of an operation. -/
def ArrayOp.page : ArrayOp → Nat
  | .headerRead p => p
  | .pageRead p => p
  | .pageProgram p _ _ => p
  | .mark p _ _ => p
  | .erase p => p
  | .readyWait => 0

/-! ## Merge reads (R16 to R18) -/

/-- The slot of a merge read. -/
def mergeSlot : Requester → Option Nat
  | .mergeRead i => some i
  | _ => none

/-- The operation is the PAGE READ of a merge read. -/
def isMergeRead (f : InFlight) : Bool := (mergeSlot f.requester).isSome

/-- R16 to R18: the merge is over: the record as given, and the pin lowered. -/
def endMerge (i p : Nat) (sl : Slot) (s : State) : State := lowerPin p (setSlot i sl s)

/-- R18: a loss of `n` bytes is reported, where it is at least one. -/
def reportLoss (x n : Nat) (s : State) : State :=
  if n = 0 then s
  else
    let s1 := countMergeLoss s
    s1.setMaint { s1.maint with loss := some { page := x, time := s.clock.ms, count := n },
                                flags := { s1.maint.flags with mediaLoss := true } }

/-- R17: the repeat: read number 2, the same physical page, the pin stays. -/
def repeatMerge (i p : Nat) (s : State) : State :=
  requestOp (.pageRead p) (.mergeRead i)
    (setSlot i { s.slot i with mergeRead := some { page := p, number := 2 } } s)

/-- The read number of a slot's merge read (R1). -/
def Slot.readNumber (sl : Slot) : Nat := (sl.mergeRead.map (fun m => m.number)).getD 1

/-- R16 to R18: the merge read of slot `i` of page `p` has completed. -/
def mergeDone (i p : Nat) (st : ArrayStatus) (data spare : List Byte) (s : State) : State :=
  let sl := s.slot i
  if goodPage st data spare then endMerge i p (sl.filledFrom data) s
  else if sl.readNumber = 1 then
    if isFull sl.valid then endMerge i p { sl with merge := some .complete, mergeRead := none } s
    else repeatMerge i p s
  else reportLoss (sl.page.getD 0) (missingCount sl.valid) (endMerge i p (sl.filledFrom erasedImage) s)

/-- MERGE_READ_COMPLETION (R16 to R18). -/
def execMergeReadCompletion (st : ArrayStatus) (data spare : List Byte) (s : State) : Host.Outcome State Fault Refusal :=
  .next (complete isMergeRead (fun f t => mergeDone ((mergeSlot f.requester).getD 0) f.op.page st data spare t) s)

/-! ## Demand reads (R32 to R35, R41) -/

/-- The operation is the PAGE READ of a demand read. -/
def isDemandRead (f : InFlight) : Bool := decide (f.requester = .demandRead)

/-- The records attached to the demand read of a physical page (R30). -/
def State.attached (s : State) (p : Nat) : List PendingRead := s.readPath.pendingReads.filter (fun r => r.phys = p)

/-- R34: needed offsets take the returned bytes, supplied offsets keep their snapshot bytes. -/
def fillRecord (first : Nat) (data : List Byte) : List (Option Byte) → List Byte
  | [] => []
  | some b :: rest => b :: fillRecord (first + 1) data rest
  | none :: rest => byteAt data first :: fillRecord (first + 1) data rest

/-- The attached records leave the pending read list and the demand read ends. -/
def endDemand (p : Nat) (s : State) : State :=
  s.setReadPath { s.readPath with
    pendingReads := s.readPath.pendingReads.filter (fun r => r.phys ≠ p),
    demands := s.readPath.demands.filter (fun d => d.phys ≠ p) }

/-- R41: good data is inserted if map[X] still names the page read. -/
def offerCache (x p : Nat) (data : List Byte) (s : State) : State :=
  if s.map x = some p then installCache x data s else s

/-- R41: the offer for the logical page of the attached records; all of them are for one page (R30). -/
def offerFor (rs : List PendingRead) (p : Nat) (data : List Byte) (s : State) : State :=
  match rs with
  | r :: _ => offerCache r.page p data s
  | [] => s

/-- R34: success: records filled and answered OK in list order, data offered to the cache, pin lowered. -/
def demandSuccess (p : Nat) (data : List Byte) (s : State) : State :=
  let rs := s.attached p
  let s1 := rs.foldl (fun t r => becomeReady r.tag .ok (fillRecord r.first data r.bytes) t) (endDemand p s)
  lowerPin p (offerFor rs p data s1)

/-- R35: failure: records answered FAIL MEDIA in list order, MEDIA_ERRORS advances, pin lowered. -/
def demandFailure (p : Nat) (s : State) : State :=
  let s1 := (s.attached p).foldl (fun t r => becomeReady r.tag (.fail .media) [] t) (endDemand p s)
  lowerPin p (countMediaError s1)

/-- R33: the repeat: read number 2, the same physical page, the pin stays. -/
def repeatDemand (p : Nat) (s : State) : State :=
  requestOp (.pageRead p) .demandRead (s.setReadPath { s.readPath with
    demands := s.readPath.demands.map (fun d => if d.phys = p then { d with number := 2 } else d) })

/-- The read number of the demand read of a physical page (R30). -/
def State.demandNumber (s : State) (p : Nat) : Nat :=
  ((s.readPath.demands.find? (fun d => d.phys = p)).map (fun d => d.number)).getD 1

/-- R32 to R35: the demand read of page `p` has completed. -/
def demandDone (p : Nat) (st : ArrayStatus) (data spare : List Byte) (s : State) : State :=
  if goodPage st data spare then demandSuccess p data s
  else if s.demandNumber p = 1 then repeatDemand p s
  else demandFailure p s

/-- DEMAND_READ_COMPLETION (R32 to R35). -/
def execDemandReadCompletion (st : ArrayStatus) (data spare : List Byte) (s : State) : Host.Outcome State Fault Refusal :=
  .next (complete isDemandRead (fun f t => demandDone f.op.page st data spare t) s)

/-! ## Write-back (R55, R56, R58) -/

/-- The operation is a PAGE PROGRAM. -/
def ArrayOp.isProgram : ArrayOp → Bool
  | .pageProgram _ _ _ => true
  | _ => false

/-- The operation is a MARK. -/
def ArrayOp.isMark : ArrayOp → Bool
  | .mark _ _ _ => true
  | _ => false

/-- The operation is an ERASE. -/
def ArrayOp.isErase : ArrayOp → Bool
  | .erase _ => true
  | _ => false

/-- The operation is a PAGE READ. -/
def ArrayOp.isPageRead : ArrayOp → Bool
  | .pageRead _ => true
  | _ => false

/-- The operation is a HEADER READ. -/
def ArrayOp.isHeaderRead : ArrayOp → Bool
  | .headerRead _ => true
  | _ => false

/-- R55: the PAGE PROGRAM of the WRITING slot has completed. -/
def programDone (st : ArrayStatus) (s : State) : State :=
  match s.wb.phase with
  | .program i =>
    match st with
    | .pass => requestOp (.mark (s.slot i).targetPage .commit 0x00) .writeBack (setWbPhase (.commitMark i) s)
    | .fail => attemptFailed i s
  | _ => s

/-- PAGE_PROGRAM_COMPLETION (R55). -/
def execPageProgramCompletion (st : ArrayStatus) (s : State) : Host.Outcome State Fault Refusal :=
  .next (complete (fun f => decide (f.requester = .writeBack) && f.op.isProgram) (fun _ t => programDone st t) s)

/-- R56, R58: the MARK of the commit marker has completed. -/
def commitMarkDone (st : ArrayStatus) (s : State) : State :=
  match s.wb.phase with
  | .commitMark i =>
    match st with
    | .pass => commitSlot i s
    | .fail => attemptFailed i s
  | _ => s

/-- COMMIT_MARK_COMPLETION (R56). -/
def execCommitMarkCompletion (st : ArrayStatus) (s : State) : Host.Outcome State Fault Refusal :=
  .next (complete (fun f => decide (f.requester = .writeBack) && f.op.isMark) (fun _ t => commitMarkDone st t) s)

/-- RETIRE_MARK_COMPLETION (R80): noted and dropped, PASS or FAIL; only the choice follows. -/
def execRetireMarkCompletion (_st : ArrayStatus) (s : State) : Host.Outcome State Fault Refusal :=
  .next (complete (fun f => decide (f.requester = .retireMark)) (fun _ t => t) s)

/-! ## Erase engine (R83, R84) -/

/-- The erase engine takes a phase (R81). -/
def setErasePhase (ph : ErasePhase) (s : State) : State := s.setXlat { s.xlat with erase := ph }

/-- R83: the ERASE of the ERASING page has completed. -/
def eraseDone (st : ArrayStatus) (s : State) : State :=
  match s.xlat.erase with
  | .erase p =>
    match st with
    | .pass => requestOp (.mark p .clean 0x5A) .eraseEngine (setErasePhase (.cleanMark p) (countErase s))
    | .fail => setErasePhase .idle (retirePage p s)
  | _ => s

/-- ERASE_COMPLETION (R83). -/
def execEraseCompletion (st : ArrayStatus) (s : State) : Host.Outcome State Fault Refusal :=
  .next (complete (fun f => decide (f.requester = .eraseEngine) && f.op.isErase) (fun _ t => eraseDone st t) s)

/-- R84: the page joins the tail of the free pool. -/
def joinFreePool (p : Nat) (s : State) : State :=
  let s1 := setPageState p .free s
  s1.setXlat { s1.xlat with freePool := s1.xlat.freePool ++ [p] }

/-- R84: the clean-marker MARK of the ERASING page has completed. -/
def cleanMarkDone (st : ArrayStatus) (s : State) : State :=
  match s.xlat.erase with
  | .cleanMark p =>
    match st with
    | .pass => setErasePhase .idle (joinFreePool p s)
    | .fail => setErasePhase .idle (retirePage p s)
  | _ => s

/-- CLEAN_MARK_COMPLETION (R84). -/
def execCleanMarkCompletion (st : ArrayStatus) (s : State) : Host.Outcome State Fault Refusal :=
  .next (complete (fun f => decide (f.requester = .eraseEngine) && f.op.isMark) (fun _ t => cleanMarkDone st t) s)

/-! ## Mount (R114 to R128) -/

/-- READY_WAIT_COMPLETION (R114, R115): the strap check is made with the ASZ level sampled now. -/
def execReadyWaitCompletion (asz : BitVec 2) (s : State) : Host.Outcome State Fault Refusal :=
  .next (complete (fun f => decide (f.requester = .mount) && decide (f.op = .readyWait)) (fun _ t => readyWaitDone asz t) s)

/-- CONFIG_COPY_READ_COMPLETION (R116 to R119). The spare bytes of pages 0 and 1 are not used (R116). -/
def execConfigCopyReadCompletion (st : ArrayStatus) (data _spare : List Byte) (s : State) :
    Host.Outcome State Fault Refusal :=
  .next (complete (fun f => decide (f.requester = .mount) && f.op.isPageRead) (fun _ t => configCopyRead st data t) s)

/-- HEADER_READ_COMPLETION (R120 to R127). -/
def execHeaderReadCompletion (st : ArrayStatus) (spare : List Byte) (s : State) : Host.Outcome State Fault Refusal :=
  .next (complete (fun f => decide (f.requester = .mount) && f.op.isHeaderRead) (fun _ t => headerRead st spare t) s)

/-! ## Configuration commit (R195) -/

/-- The commit goes on in a phase. -/
def setCommitPhase (job : CommitJob) (ph : CommitPhase) (s : State) : State :=
  s.setMaint { s.maint with job := some { job with phase := ph } }

/-- R195: the commit ends FAILED, the target INVALID. -/
def commitFails (job : CommitJob) (s : State) : State := s.setMaint (failCommit true job s.maint)

/-- R195: the commit ends DONE: the target is VALID with the new generation and in use. -/
def commitSucceeds (job : CommitJob) (s : State) : State :=
  s.setMaint { s.maint with
    commitState := .done, job := none,
    copyStatus := s.maint.copyStatus.map
      (fun c => { c.setResult job.target (some job.generation) with inUse := some job.target }) }

/-- R195, the row of phase ERASE. -/
def commitEraseDone (st : ArrayStatus) (s : State) : State :=
  match s.maint.job with
  | some job =>
    match st with
    | .pass =>
      requestOp (.pageProgram job.target.page job.record (List.replicate Config.spareBytes 0xFF)) .configCommit
        (setCommitPhase job .program s)
    | .fail => commitFails job s
  | none => s

/-- CONFIG_COMMIT_ERASE_COMPLETION (R195). -/
def execConfigCommitEraseCompletion (st : ArrayStatus) (s : State) : Host.Outcome State Fault Refusal :=
  .next (complete (fun f => decide (f.requester = .configCommit) && f.op.isErase) (fun _ t => commitEraseDone st t) s)

/-- R195, the row of phase PROGRAM. -/
def commitProgramDone (st : ArrayStatus) (s : State) : State :=
  match s.maint.job with
  | some job =>
    match st with
    | .pass => requestOp (.pageRead job.target.page) .configCommit (setCommitPhase job .readBack s)
    | .fail => commitFails job s
  | none => s

/-- CONFIG_COMMIT_PROGRAM_COMPLETION (R195). -/
def execConfigCommitProgramCompletion (st : ArrayStatus) (s : State) : Host.Outcome State Fault Refusal :=
  .next (complete (fun f => decide (f.requester = .configCommit) && f.op.isProgram) (fun _ t => commitProgramDone st t) s)

/-- R195: the returned data passes the validity test and holds the new generation. -/
def State.readBackGood (s : State) (job : CommitJob) (st : ArrayStatus) (data : List Byte) : Bool :=
  match validCopy (s.mount.arraySize.getD 0) st data with
  | some f => decide (f.generation = job.generation)
  | none => false

/-- R195, the row of phase READ BACK. -/
def readBackDone (st : ArrayStatus) (data : List Byte) (s : State) : State :=
  match s.maint.job with
  | some job => if s.readBackGood job st data then commitSucceeds job s else commitFails job s
  | none => s

/-- READ_BACK_COMPLETION (R195). The spare bytes are not examined (R199). -/
def execReadBackCompletion (st : ArrayStatus) (data _spare : List Byte) (s : State) : Host.Outcome State Fault Refusal :=
  .next (complete (fun f => decide (f.requester = .configCommit) && f.op.isPageRead) (fun _ t => readBackDone st data t) s)

/-! ## Timeouts and discarded completions (R91, R107, R108) -/

/-- The operation in flight with a timeout count, where its timer runs (R94, R106). -/
def State.timedOp (s : State) (count : Nat) : Option InFlight :=
  match s.accepting with
  | some f => if f.timeouts = count then some f else none
  | none => none

/-- R107: the first timeout: count 1, RESYNC, the link reset sequence begins. -/
def timeoutOnce (s : State) : State :=
  match s.timedOp 0 with
  | some f => s.setSeq { s.seq with phase := .resync, inFlight := some { f with timeouts := 1 }, resyncUs := 0 }
  | none => s

/-- FIRST_TIMEOUT (R107). Without an operation whose timer runs for the first time there is no such event (log 4). -/
def execFirstTimeout (s : State) : Host.Outcome State Fault Refusal := .next (timeoutOnce s)

/-- R108, R128: the second timeout: a mount ends first, then FAULT is requested. -/
def timeoutTwice (s : State) : State :=
  match s.timedOp 1 with
  | some _ =>
    match s.sup.state with
    | .mounting => finish s (requestFault (mountFaultEnd s))
    | _ => finish s (requestFault s)
  | none => s

/-- SECOND_TIMEOUT (R108). -/
def execSecondTimeout (s : State) : Host.Outcome State Fault Refusal := .next (timeoutTwice s)

/-- R107, R95: the link reset sequence ends: the timed-out operation is reissued with a fresh timer, or at mount start a choice
is made. DESIGN CHOICE (log 30): the time of issue in the record becomes that of the reissue; R94 and R107 do not say whether it
stays that of the first issue. -/
def resyncEnd (s : State) : State :=
  match s.seq.phase with
  | .resync =>
    match s.seq.inFlight with
    | some f =>
      s.setSeq { s.seq with phase := .issued, resyncUs := 0,
                            inFlight := some { f with issuedMs := s.clock.ms, issuedUs := s.clock.us, elapsed := 0 } }
    | none => choose (s.setSeq { s.seq with phase := .idle, resyncUs := 0 })
  | _ => s

/-- LINK_RESET_END (R107). -/
def execLinkResetEnd (s : State) : Host.Outcome State Fault Refusal := .next (resyncEnd s)

/-- DISCARDED_COMPLETION (R91): "A completion reported at any other moment is discarded and reaches no block." -/
def execDiscardedCompletion (s : State) : Host.Outcome State Fault Refusal := .next s

end Sys2Proof.Machine
end

