-- ==== Sys2Proof/Machine/LinkEvents.lean ====
section
/-!
DEFINITION. The meanings of the system link events: REQUEST_ARRIVAL and RESPONSE_ACCEPTANCE (R136, R137, R145).
-/
namespace Sys2Proof.Machine

/-- REQUEST_ARRIVAL (R136, R137): the record has been received whole, or waits on the link while the channel is held. -/
def execRequestArrival (record : List Byte) (s : State) : Host.Outcome State Fault Refusal :=
  .next (presentRecord record s)

/-- R145: the acceptance of the response being sent: an AGAIN is no longer owed, or the entry leaves the table and the ready
order; the channel is idle and the next sending begins. -/
def acceptResponse (s : State) : State :=
  match s.port.channel with
  | .idle => s
  | .sendingAgain _ => beginSending (s.setPort { s.port with againOwed := none, channel := .idle })
  | .sendingEntry t =>
    beginSending (s.setPort { s.port with
      table := s.port.table.filter (fun e => e.request.tag ≠ t),
      readyOrder := s.port.readyOrder.erase t, channel := .idle })

/-- RESPONSE_ACCEPTANCE (R145); records that the end of a hold lets in then arrive (R136). An idle channel has no response to
accept. -/
def execResponseAcceptance (s : State) : Host.Outcome State Fault Refusal :=
  .next (arriveWaiting (acceptResponse s).port.linkQueue (acceptResponse s))

end Sys2Proof.Machine
end

