-- ==== Sys2Proof/Machine/MaintCommands.lean ====
section
/-!
DEFINITION. The meanings of the maintenance commands: each is the end of a frame of that command (R182), and the start
condition (R181).
-/
namespace Sys2Proof.Machine

/-- Status (R185). -/
def execStatus (args : List Byte) (s : State) : Host.Outcome State Fault Refusal :=
  .next (endFrame (some .status) args s)

/-- Counters (R187). -/
def execCounters (args : List Byte) (s : State) : Host.Outcome State Fault Refusal :=
  .next (endFrame (some .counters) args s)

/-- ClearCounters (R187). -/
def execClearCounters (args : List Byte) (s : State) : Host.Outcome State Fault Refusal :=
  .next (endFrame (some .clearCounters) args s)

/-- Capture (R159, R190). -/
def execCapture (args : List Byte) (s : State) : Host.Outcome State Fault Refusal :=
  .next (endFrame (some .capture) args s)

/-- ClearCapture (R159, R190). -/
def execClearCapture (args : List Byte) (s : State) : Host.Outcome State Fault Refusal :=
  .next (endFrame (some .clearCapture) args s)

/-- WindowRead (R159, R190). -/
def execWindowRead (args : List Byte) (s : State) : Host.Outcome State Fault Refusal :=
  .next (endFrame (some .windowRead) args s)

/-- WindowSet (R160, R190). -/
def execWindowSet (args : List Byte) (s : State) : Host.Outcome State Fault Refusal :=
  .next (endFrame (some .windowSet) args s)

/-- MapQuery (R189). -/
def execMapQuery (args : List Byte) (s : State) : Host.Outcome State Fault Refusal :=
  .next (endFrame (some .mapQuery) args s)

/-- Flush (R69, R191). -/
def execFlush (args : List Byte) (s : State) : Host.Outcome State Fault Refusal :=
  .next (endFrame (some .flush) args s)

/-- LossRead (R188). -/
def execLossRead (args : List Byte) (s : State) : Host.Outcome State Fault Refusal :=
  .next (endFrame (some .lossRead) args s)

/-- ConfigLoad (R192). -/
def execConfigLoad (args : List Byte) (s : State) : Host.Outcome State Fault Refusal :=
  .next (endFrame (some .configLoad) args s)

/-- ConfigRead (R192). -/
def execConfigRead (args : List Byte) (s : State) : Host.Outcome State Fault Refusal :=
  .next (endFrame (some .configRead) args s)

/-- ConfigWrite (R192). -/
def execConfigWrite (args : List Byte) (s : State) : Host.Outcome State Fault Refusal :=
  .next (endFrame (some .configWrite) args s)

/-- ConfigCommit (R194). -/
def execConfigCommit (args : List Byte) (s : State) : Host.Outcome State Fault Refusal :=
  .next (endFrame (some .configCommit) args s)

/-- ResetCause (R191). -/
def execResetCause (args : List Byte) (s : State) : Host.Outcome State Fault Refusal :=
  .next (endFrame (some .resetCause) args s)

/-- SoftReset (R175, R191). -/
def execSoftReset (args : List Byte) (s : State) : Host.Outcome State Fault Refusal :=
  .next (endFrame (some .softReset) args s)

/-- UNKNOWN_COMMAND (R182 case 1). A code that does name a command is not this row's event; its frame is then decided as that
command's (log 24). -/
def execUnknownCommand (code : Byte) (args : List Byte) (s : State) : Host.Outcome State Fault Refusal :=
  .next (endFrame (commandOf code) args s)

/-- START_CONDITION (R181): the ignoring of a transaction that a reset completion cut off ends. A transaction to the port's own
address begins; one to another address, and a general call, is ignored. -/
def execStartCondition (s : State) (address : BitVec 7 := 0x58) : Host.Outcome State Fault Refusal :=
  .next (setTransaction (if address = s.ownAddress then .active else .ignored) s)

end Sys2Proof.Machine
end

