-- ==== Sys2Proof/Machine/Sideband.lean ====
section
/-!
DEFINITION. The meanings of the sideband events and of the supervisor's and staging table's timers (R9, R168 to R178).
-/
namespace Sys2Proof.Machine

/-- The level of PFW_N. -/
def setPfwN (b : Bool) (s : State) : State := s.setPins { s.pins with pfwN := b }

/-- The level of RESET_N. -/
def setResetN (b : Bool) (s : State) : State := s.setPins { s.pins with resetN := b }

/-- The level of the MADR straps, which the next reset completion samples (R181, R202; log 6). -/
def setMadr (madr : BitVec 2) (s : State) : State := s.setPins { s.pins with madr := madr }

/-- The power warning takes a value. -/
def setWarning (w : PowerWarning) (s : State) : State := s.setSup { s.sup with warning := w }

/-- R168: PFW_N goes low. -/
def powerLow (s : State) : State :=
  match s.sup.warning with
  | .clear => setWarning (.qualifying 0) (setPfwN false s)
  | _ => setPfwN false s

/-- PFW_N_FALL (R168). -/
def execPfwNFall (s : State) : Host.Outcome State Fault Refusal := .next (powerLow s)

/-- R172: recovery in HALTED returns the bridge to its return state, and what a change of state sets off follows. -/
def recover (s : State) : State :=
  match s.sup.state with
  | .halted =>
    finish s (s.setSup { s.sup with state := (s.sup.returnTo.getD .serving).toState, returnTo := none })
  | _ => s

/-- R168: PFW_N goes high: a QUALIFYING warning counts a glitch, an ASSERTED one recovers. -/
def powerHigh (s : State) : State :=
  match s.sup.warning with
  | .clear => setPfwN true s
  | .qualifying _ => countGlitch (setWarning .clear (setPfwN true s))
  | .asserted => recover (setWarning .clear (setPfwN true s))

/-- PFW_N_RISE (R168, R172). -/
def execPfwNRise (s : State) : Host.Outcome State Fault Refusal := .next (powerHigh s)

/-- R169: the qualification by operating state: in SERVING and READ_ONLY a power drain begins. -/
def qualified (s : State) : State := if s.inService then finish s (beginDrain .power s) else s

/-- R168, R169: the elapsed time has reached Q; without a QUALIFYING warning there is no such event. -/
def qualify (s : State) : State :=
  match s.sup.warning with
  | .qualifying _ => qualified (setWarning .asserted s)
  | _ => s

/-- QUALIFICATION (R169). -/
def execQualification (s : State) : Host.Outcome State Fault Refusal := .next (qualify s)

/-- R173: the falling edge; a line that is already low brings no edge. -/
def resetEdge (s : State) : State := if s.pins.resetN then finish s (resetLineLow (setResetN false s)) else s

/-- RESET_N_FALL (R173). -/
def execResetNFall (s : State) (madr : BitVec 2 := 0) : Host.Outcome State Fault Refusal :=
  .next (resetEdge (setMadr madr s))

/-- R174, R178: RESET_N rises: in RESETTING the mount begins, elsewhere only the level changes. -/
def resetRise (s : State) : State :=
  match s.sup.state with
  | .resetting => finish s (beginMount (setResetN true s))
  | _ => setResetN true s

/-- RESET_N_RISE (R178). -/
def execResetNRise (s : State) (madr : BitVec 2 := 0) : Host.Outcome State Fault Refusal :=
  .next (resetRise (setMadr madr s))

/-- R176: reset completion at once, from any state. -/
def powerUp (s : State) : State := finish s (resetCompletion .powerOn .notAttempted s)

/-- POWER_ON_RESET (R176). -/
def execPowerOnReset (s : State) (madr : BitVec 2 := 0) : Host.Outcome State Fault Refusal :=
  .next (powerUp (setMadr madr s))

/-- R174: the timer reaches T_r while the state is still DRAINING; a timer that is not running does not expire. -/
def resetExpiry (s : State) : State :=
  match s.sup.state, s.sup.resetTimer with
  | .draining, some _ =>
    finish s (resetCompletion (s.sup.pendingReset.getD .resetLine).toCause .timedOut s)
  | _, _ => s

/-- RESET_TIMER_EXPIRY (R174). -/
def execResetTimerExpiry (s : State) : Host.Outcome State Fault Refusal := .next (resetExpiry s)

/-- R9, R12: the timer of a slot expires and the slot is sealed; the timers run for OPEN slots, in SERVING and READ_ONLY. -/
def slotExpiry (i : Nat) (s : State) : State :=
  if s.inService ∧ (s.slot i).state = .opened then finish s (sealSlot i s) else s

/-- WRITE_BACK_TIMER_EXPIRY (R9). -/
def execWriteBackTimerExpiry (i : Nat) (s : State) : Host.Outcome State Fault Refusal := .next (slotExpiry i s)

end Sys2Proof.Machine
end

