-- ==== Sys2Proof/Machine/Dispatch.lean ====
section
/-!
DEFINITION. The dispatch: one arm for each command, one direct call of its meaning.
-/
namespace Sys2Proof.Machine

def exec (i : Instr) (s : State) : Host.Outcome State Fault Refusal :=
  match i with
  | .requestArrival record => Sys2Proof.Machine.execRequestArrival record s
  | .responseAcceptance => Sys2Proof.Machine.execResponseAcceptance s
  | .status args => Sys2Proof.Machine.execStatus args s
  | .counters args => Sys2Proof.Machine.execCounters args s
  | .clearCounters args => Sys2Proof.Machine.execClearCounters args s
  | .capture args => Sys2Proof.Machine.execCapture args s
  | .clearCapture args => Sys2Proof.Machine.execClearCapture args s
  | .windowRead args => Sys2Proof.Machine.execWindowRead args s
  | .windowSet args => Sys2Proof.Machine.execWindowSet args s
  | .mapQuery args => Sys2Proof.Machine.execMapQuery args s
  | .flush args => Sys2Proof.Machine.execFlush args s
  | .lossRead args => Sys2Proof.Machine.execLossRead args s
  | .configLoad args => Sys2Proof.Machine.execConfigLoad args s
  | .configRead args => Sys2Proof.Machine.execConfigRead args s
  | .configWrite args => Sys2Proof.Machine.execConfigWrite args s
  | .configCommit args => Sys2Proof.Machine.execConfigCommit args s
  | .resetCause args => Sys2Proof.Machine.execResetCause args s
  | .softReset args => Sys2Proof.Machine.execSoftReset args s
  | .unknownCommand code args => Sys2Proof.Machine.execUnknownCommand code args s
  | .pfwNFall => Sys2Proof.Machine.execPfwNFall s
  | .pfwNRise => Sys2Proof.Machine.execPfwNRise s
  | .qualification => Sys2Proof.Machine.execQualification s
  | .resetNFall madr => Sys2Proof.Machine.execResetNFall s madr
  | .resetNRise madr => Sys2Proof.Machine.execResetNRise s madr
  | .powerOnReset madr => Sys2Proof.Machine.execPowerOnReset s madr
  | .resetTimerExpiry => Sys2Proof.Machine.execResetTimerExpiry s
  | .writeBackTimerExpiry n => Sys2Proof.Machine.execWriteBackTimerExpiry n s
  | .mergeReadCompletion st data spare => Sys2Proof.Machine.execMergeReadCompletion st data spare s
  | .demandReadCompletion st data spare => Sys2Proof.Machine.execDemandReadCompletion st data spare s
  | .pageProgramCompletion st => Sys2Proof.Machine.execPageProgramCompletion st s
  | .commitMarkCompletion st => Sys2Proof.Machine.execCommitMarkCompletion st s
  | .retireMarkCompletion st => Sys2Proof.Machine.execRetireMarkCompletion st s
  | .eraseCompletion st => Sys2Proof.Machine.execEraseCompletion st s
  | .cleanMarkCompletion st => Sys2Proof.Machine.execCleanMarkCompletion st s
  | .readyWaitCompletion asz => Sys2Proof.Machine.execReadyWaitCompletion asz s
  | .configCopyReadCompletion st data spare => Sys2Proof.Machine.execConfigCopyReadCompletion st data spare s
  | .headerReadCompletion st spare => Sys2Proof.Machine.execHeaderReadCompletion st spare s
  | .configCommitEraseCompletion st => Sys2Proof.Machine.execConfigCommitEraseCompletion st s
  | .configCommitProgramCompletion st => Sys2Proof.Machine.execConfigCommitProgramCompletion st s
  | .readBackCompletion st data spare => Sys2Proof.Machine.execReadBackCompletion st data spare s
  | .firstTimeout => Sys2Proof.Machine.execFirstTimeout s
  | .secondTimeout => Sys2Proof.Machine.execSecondTimeout s
  | .linkResetEnd => Sys2Proof.Machine.execLinkResetEnd s
  | .discardedCompletion => Sys2Proof.Machine.execDiscardedCompletion s
  | .startCondition address => Sys2Proof.Machine.execStartCondition s address

end Sys2Proof.Machine
end

