-- ==== Sys2Proof/Machine/Ticks.lean ====
section
/-!
DEFINITION. What a step does on an empty queue (log 1): a timed event that is due takes place, or one 1 us tick passes (R202) and
every clock and timer advances.
-/
namespace Sys2Proof.Machine

/-- The drain clock counts 1 ms ticks and stops at 65535 (R164). -/
def Supervisor.msTick (u : Supervisor) : Supervisor :=
  { u with drainClock := u.drainClock.map satAdvance, resetTimer := u.resetTimer.map (fun n => n + 1) }

/-- The elapsed time of a QUALIFYING warning in us (R168). -/
def PowerWarning.usTick (w : PowerWarning) : PowerWarning :=
  match w with
  | .qualifying e => .qualifying (e + 1)
  | _ => w

/-- R202: 1000 ticks of 1 us make one 1 ms tick; the millisecond time goes on at 0 after its greatest value. -/
def Clock.usTick (c : Clock) : Clock :=
  if c.us + 1 < 1000 then { c with us := c.us + 1 } else { ms := c.ms + 1, us := 0 }

/-- R106, R107: the timer of the operation in flight, and the time of the link reset sequence. -/
def Sequencer.usTick (q : Sequencer) : Sequencer :=
  match q.phase with
  | .issued => { q with inFlight := q.inFlight.map (fun f => { f with elapsed := f.elapsed + 1 }) }
  | .resync => { q with resyncUs := q.resyncUs + 1 }
  | _ => q

/-- One 1 us tick of every clock and timer. -/
def advanceTime (s : State) : State :=
  let u := { s.sup with warning := s.sup.warning.usTick }
  { s with clock := s.clock.usTick, seq := s.seq.usTick,
           sup := if s.clock.us + 1 < 1000 then u else u.msTick }

/-- R168: the qualification is due. -/
def State.qualificationDue (s : State) : Bool :=
  match s.sup.warning with
  | .qualifying e => decide (s.sup.qualifyQ * Config.qualifyUnitUs ≤ e)
  | _ => false

/-- R174: the expiry of the reset timer is due. -/
def State.resetTimerDue (s : State) : Bool :=
  match s.sup.state, s.sup.resetTimer with
  | .draining, some n => decide (s.sup.resetLimit ≤ n)
  | _, _ => false

/-- R106 to R108: the timeout that is due. -/
def State.timeoutDue (s : State) : List Instr :=
  match s.accepting with
  | some f =>
    if f.limit ≤ f.elapsed then
      (if f.timeouts = 0 then [.firstTimeout] else if f.timeouts = 1 then [.secondTimeout] else [])
    else []
  | none => []

/-- R107: the end of the link reset sequence is due. -/
def State.linkResetDue (s : State) : Bool := decide (s.seq.phase = .resync) && decide (Config.linkResetUs ≤ s.seq.resyncUs)

/-- R9: the write-back timer of a slot is due: OPEN, and its age modulo 2^32 has reached W. -/
def State.slotDue (s : State) (i : Nat) : Bool :=
  s.inService && decide ((s.slot i).state = .opened) &&
    decide (s.staging.delayW ≤ (s.clock.ms - (s.slot i).stamp.getD 0).toNat)

/-- The timed events whose count stands at its limit now. -/
def State.dueEvents (s : State) : List Instr :=
  (if s.qualificationDue then [.qualification] else []) ++ (if s.resetTimerDue then [.resetTimerExpiry] else []) ++
    s.timeoutDue ++ (if s.linkResetDue then [.linkResetEnd] else []) ++
    (slotNumbers.filter s.slotDue).map Instr.writeBackTimerExpiry

/-- One of several events: the first, or one of the rest. -/
def pickEvent : Nat → Instr → List Instr → Instr
  | _, e, [] => e
  | k, e, x :: rest => match k % (rest.length + 2) with
    | 0 => e
    | j + 1 => pickEvent j x rest

/-- What a step does on an empty queue (log 1). Where timed events are due, one of them takes place, in an order that the manual
leaves open (log 2); time goes on only once none is due. So a timed event never waits while its timer stops or starts afresh
(R95, R102, R168). -/
def emptyQueueStep (s : State) : Host.Outcome State Fault Refusal :=
  match s.dueEvents with
  | [] => .next (advanceTime s)
  | e :: rest => exec (pickEvent (Config.freePlace s.freeCount) e rest) { s with freeCount := s.freeCount + 1 }

end Sys2Proof.Machine
end

