-- ==== Sys2Proof/Machine/Step.lean ====
section
/-!
DEFINITION. The step: the command at the front of the queue is executed on the state with the queue's rest; on an empty queue
a timed event that is due takes place, or one 1 us tick passes (log 1).
-/
namespace Sys2Proof.Machine

/-- The state with its queue replaced by the rest. -/
def State.withQueue (s : State) (rest : List Instr) : State := { s with pending := rest }

/-- One step. -/
def step (s : State) : Host.Outcome State Fault Refusal :=
  match s.pending with
  | c :: rest => exec c (s.withQueue rest)
  | [] => emptyQueueStep s

/-- The state with the command that a word spells put at the front of its queue; unchanged where the word spells none. -/
def State.withFetchWord (s : State) (nbits w : Nat) : State :=
  match decodeTableWord nbits w with
  | some c => s.withQueue (c :: s.pending)
  | none => s

end Sys2Proof.Machine
end

