-- ==== Sys2Proof/WellFormed.lean ====
section
/-!
DEFINITION. The well-formed commands: operands that the event of that name can bring. An ill-formed term still has a
meaning (exec is total); no event of the part is one.
-/
namespace Sys2Proof

/-- The command codes of the maintenance frames (11_formats_and_signals.md, Maintenance Frames). -/
def commandCodes : List Byte :=
  [0x01, 0x02, 0x03, 0x10, 0x11, 0x12, 0x13, 0x20, 0x21, 0x22, 0x30, 0x31, 0x32, 0x33, 0x40, 0x41]

/-- A completion of a PAGE READ: a PASS brings the 256 data bytes and the 16 spare bytes (R92). What a FAIL brings is
not passed on (R105), so nothing is asked of it. -/
def pageReadShape (status : ArrayStatus) (data spare : List Byte) : Bool :=
  match status with
  | .pass => data.length == Config.pageBytes && spare.length == Config.spareBytes
  | .fail => true

/-- A completion of a HEADER READ: a PASS brings the 16 spare bytes (R92). -/
def headerReadShape (status : ArrayStatus) (spare : List Byte) : Bool :=
  match status with
  | .pass => spare.length == Config.spareBytes
  | .fail => true

/-- The operands are ones that the row's event can carry. Frames may carry any number of argument bytes: a wrong
number is answered BAD_ARGUMENT (R182), and a record of any bytes may arrive: a malformed one is discarded (R201). -/
def Instr.wellFormed : Instr → Bool
  | .requestArrival record => !record.isEmpty
  | .responseAcceptance => true
  | .status _ => true
  | .counters _ => true
  | .clearCounters _ => true
  | .capture _ => true
  | .clearCapture _ => true
  | .windowRead _ => true
  | .windowSet _ => true
  | .mapQuery _ => true
  | .flush _ => true
  | .lossRead _ => true
  | .configLoad _ => true
  | .configRead _ => true
  | .configWrite _ => true
  | .configCommit _ => true
  | .resetCause _ => true
  | .softReset _ => true
  | .unknownCommand code _ => !commandCodes.contains code
  | .pfwNFall => true
  | .pfwNRise => true
  | .qualification => true
  | .resetNFall _ => true
  | .resetNRise _ => true
  | .powerOnReset _ => true
  | .resetTimerExpiry => true
  | .writeBackTimerExpiry n => n < Config.slotCount
  | .mergeReadCompletion st data spare => pageReadShape st data spare
  | .demandReadCompletion st data spare => pageReadShape st data spare
  | .pageProgramCompletion _ => true
  | .commitMarkCompletion _ => true
  | .retireMarkCompletion _ => true
  | .eraseCompletion _ => true
  | .cleanMarkCompletion _ => true
  | .readyWaitCompletion _ => true
  | .configCopyReadCompletion st data spare => pageReadShape st data spare
  | .headerReadCompletion st spare => headerReadShape st spare
  | .configCommitEraseCompletion _ => true
  | .configCommitProgramCompletion _ => true
  | .readBackCompletion st data spare => pageReadShape st data spare
  | .firstTimeout => true
  | .secondTimeout => true
  | .linkResetEnd => true
  | .discardedCompletion => true
  | .startCondition _ => true

end Sys2Proof
end

