-- ==== Sys2Proof/Safety.lean ====
section
/-!
DEFINITION. What a safe run is, and the laws of the state that every event keeps: the shape of each block's data, the
presence of the supervisor's fields, and the staging limit.
-/
namespace Sys2Proof.Machine

/-! ## Safe runs -/

/-- A step that neither faults nor refuses. -/
def safeStep (s : State) : Prop := ∃ t, step s = .next t

/-- The first `k` steps from a state all answer a next state. -/
def safeRun : Nat → State → Prop
  | 0, _ => True
  | k + 1, s => ∃ t, step s = .next t ∧ safeRun k t

/-! ## The shape of each block's data -/

/-- A slot record: 256 image bytes and 256 marks of the valid map (R1). -/
def Slot.shaped (sl : Slot) : Prop := sl.image.length = 256 ∧ sl.valid.length = 256

/-- 16 slot records (R1). -/
def Staging.shaped (g : Staging) : Prop := g.slots.length = 16 ∧ ∀ sl ∈ g.slots, sl.shaped

/-- The read cache holds at most four entries of 256 bytes and no page twice (R39). -/
def cacheShaped (c : List CacheEntry) : Prop :=
  c.length ≤ 4 ∧ (c.map (fun e => e.page)).Nodup ∧ ∀ e ∈ c, e.image.length = 256

/-- At most four barrier records (R62). -/
def WriteBack.shaped (w : WriteBack) : Prop := w.barriers.length ≤ 4

/-- Both tables in their one canonical form: keys rise, and no listed page holds the reset entry (R71 to R73). -/
def Translation.shaped (x : Translation) : Prop :=
  keysRise x.remap = true ∧ keysRise x.pages = true ∧ ∀ e ∈ x.pages, e.2 ≠ PageEntry.reset

/-- The in-flight record is present in ISSUED and absent in IDLE and STOPPED, and a stopped sequencer holds no operation
(R94, R108). -/
def Sequencer.shaped (q : Sequencer) : Prop :=
  match q.phase with
  | .issued => q.inFlight.isSome = true
  | .idle => q.inFlight = none
  | .stopped => q.inFlight = none ∧ q.ops = []
  | .resync => True

/-- A copy found VALID keeps the 256 bytes that were read (R112). -/
def CopyResult.shaped : CopyResult → Prop
  | .valid _ r => r.length = 256
  | _ => True

/-- The mount record: results of 256 bytes, window records for eight windows once a selection has been made (R112, R118). -/
def Mount.shaped (m : Mount) : Prop :=
  m.copyA.shaped ∧ m.copyB.shaped ∧ (m.phase = .scan → m.windows.length = 8)

/-- At most eight entries, no two with one tag (R135). -/
def Port.shaped (p : Port) : Prop := p.table.length ≤ 8 ∧ (p.table.map (fun e => e.request.tag)).Nodup

/-- A capture is latched exactly when its hit count is not 0 (R155). -/
def Capture.shaped (c : Capture) : Prop := c.fields.isSome = true ↔ c.hits ≠ 0

/-- Eight windows and eight captures (R150, R155). -/
def Guard.shaped (g : Guard) : Prop := g.windows.length = 8 ∧ g.captures.length = 8 ∧ ∀ c ∈ g.captures, c.shaped

/-- A buffer of 256 bytes, an active configuration of 256, a job of 256 exactly while the commit is BUSY (R192, R194). -/
def Maintenance.shaped (m : Maintenance) : Prop :=
  m.buffer.length = 256 ∧ (∀ r, m.active = some r → r.length = 256) ∧ (m.commitState = .busy ↔ m.job.isSome = true) ∧
    ∀ j, m.job = some j → j.record.length = 256

/-- The shape of the whole state; the commands that wait are well-formed. -/
def State.shaped (s : State) : Prop :=
  s.staging.shaped ∧ cacheShaped s.readPath.cache ∧ s.wb.shaped ∧ s.xlat.shaped ∧ s.seq.shaped ∧ s.mount.shaped ∧
    s.port.shaped ∧ s.guard.shaped ∧ s.maint.shaped ∧ ∀ c ∈ s.pending, c.wellFormed = true

/-! ## The supervisor's fields -/

/-- The fields that R164 calls conditional are present in the states it names and absent in the others: drain cause and
drain clock in DRAINING, return state in DRAINING(POWER) and HALTED, pending reset only in DRAINING and always in
DRAINING(RESET) and DRAINING(MAINT), the reset timer RUNNING only in DRAINING (R164, R174); Q and T_r lie in their
ranges. -/
def Supervisor.legal (u : Supervisor) : Prop :=
  (u.cause.isSome = true ↔ u.state = .draining) ∧ (u.drainClock.isSome = true ↔ u.state = .draining) ∧
    (u.returnTo.isSome = true ↔ u.cause = some .power ∨ u.state = .halted) ∧
    (u.pendingReset.isSome = true → u.state = .draining) ∧
    (u.cause = some .reset ∨ u.cause = some .maint → u.pendingReset.isSome = true) ∧
    (u.resetTimer.isSome = true → u.pendingReset.isSome = true) ∧
    (1 ≤ u.qualifyQ ∧ u.qualifyQ ≤ 64) ∧ u.resetLimit ≤ 250

/-- The supervisor's fields are legal, and MOUNTING is the state exactly while a mount is under way (R112, R113, R128, R129). -/
def State.supervised (s : State) : Prop :=
  s.sup.legal ∧ (s.sup.state = .mounting ↔ s.mount.phase ≠ .idle ∧ s.mount.phase ≠ .done)

/-! ## The staging limit -/

/-- The slot that the write-back record holds (R45). -/
def WbPhase.slotHeld : WbPhase → Option Nat
  | .idle => none
  | .pageWaitFirst => none
  | .pageWaitRetry i => some i
  | .program i => some i
  | .commitMark i => some i

/-- Before service the part holds nothing staged and no request: in RESETTING and MOUNTING every slot is FREE, the request
table and the eviction queue are empty, and the write-back engine is IDLE (R2, R46, R129, R135, R178). -/
def State.emptyBeforeService (s : State) : Prop :=
  s.beforeService = true → s.slotsInUse = 0 ∧ s.port.table = [] ∧ s.wb.phase = .idle ∧ s.wb.eviction = []

/-- The slots that are not FREE are at most D (R3); a slot is WRITING exactly when the write-back record holds it (R45); the
eviction queue names SEALED slots, none twice (R47); and nothing is staged before service. -/
def State.withinLimit (s : State) : Prop :=
  s.slotsInUse ≤ s.staging.limitD ∧ (∀ i, (s.slot i).state = .writing ↔ s.wb.phase.slotHeld = some i) ∧
    s.wb.eviction.Nodup ∧ (∀ i ∈ s.wb.eviction, (s.slot i).state = .sealed) ∧ s.emptyBeforeService

end Sys2Proof.Machine
end

