-- ==== Sys2Proof/Certificates/Slice0/Obligations.lean ====
section
/-!
DEFINITION. The statements for the provers. The helpers that stand first say, in the manual's words, what the statements
assume and what they answer; each statement follows as `Obligations.<Name>`.

Form. An array completion or a sideband event answers `finish s u`: `u` is written out and is the event's own effect, the
whole frame included, and `finish` is what the event sets off (log 13); `WhatFollowsAnEvent` says what that is, both where
nothing is due and where something is. The other statements write the next state itself out.
-/
namespace Sys2Proof.Machine

/-! ## What a statement assumes -/

/-- Nothing more is due in a state: no re-examination, no request to be placed, no record waiting on the link, no drain that
has come to its end. -/
def State.nothingDue (u : State) : Prop :=
  u.reexamine = none ∧ u.head = none ∧ u.port.linkQueue = [] ∧ ¬(u.sup.state = .draining ∧ u.anyStaged = false)

/-- A link that is IDLE has no operation waiting (R98): nothing keeps it from one. -/
def State.linkFree (s : State) : Prop := s.seq.phase = .idle → s.seq.ops = []

/-- The states in which write-backs and erases start (R49, R81). -/
def State.writesBack (s : State) : Prop := s.sup.state = .serving ∨ s.sup.state = .readOnly ∨ s.sup.state = .draining

/-- A number is the lowest slot number of which something holds. -/
def lowestSlot (holds : Nat → Prop) (i : Nat) : Prop := i < 16 ∧ holds i ∧ ∀ j < i, ¬holds j

/-- A timed event is due: its count stands at its limit (R9, R106 to R108, R168, R174). -/
def State.isDue (s : State) (c : Instr) : Prop :=
  (∃ i, c = .writeBackTimerExpiry i ∧ i < 16 ∧ (s.sup.state = .serving ∨ s.sup.state = .readOnly) ∧
      (s.slot i).state = .opened ∧ s.staging.delayW ≤ (s.clock.ms - (s.slot i).stamp.getD 0).toNat) ∨
    (c = .qualification ∧ ∃ e, s.sup.warning = .qualifying e ∧ s.sup.qualifyQ * 16 ≤ e) ∨
    (c = .resetTimerExpiry ∧ s.sup.state = .draining ∧ ∃ n, s.sup.resetTimer = some n ∧ s.sup.resetLimit ≤ n) ∨
    (c = .linkResetEnd ∧ s.seq.phase = .resync ∧ 10 ≤ s.seq.resyncUs) ∨
    (s.seq.phase = .issued ∧ ∃ f, s.seq.inFlight = some f ∧ f.limit ≤ f.elapsed ∧
      (c = .firstTimeout ∧ f.timeouts = 0 ∨ c = .secondTimeout ∧ f.timeouts = 1))

/-- The operation in flight, whose completion the sequencer accepts (R91). -/
def State.serving (s : State) (f : InFlight) : Prop := s.seq.phase = .issued ∧ s.seq.inFlight = some f

/-- A record of a well-formed request arrives on an open channel and is taken, and no other request waits to be placed
(R136, R137, R139). -/
def State.takes (s : State) (b : List Byte) (r : Request) : Prop :=
  decodeRequest b = some r ∧ s.sup.state ≠ .resetting ∧ s.sup.state ≠ .mounting ∧ s.port.againOwed = none ∧
    s.port.linkQueue = [] ∧ s.port.table.length < 8 ∧ (∀ e ∈ s.port.table, e.request.tag ≠ r.tag) ∧ s.head = none

/-- The last row of R140: the state check passes. -/
def Supervisor.passes (u : Supervisor) (k : RequestKind) : Prop :=
  u.state = .serving ∨
    (k ≠ .write ∧ (u.state = .readOnly ∨ (u.state = .draining ∧ u.cause = some .power ∧ u.pendingReset = none) ∨
      u.state = .halted))

/-- The other rows of R140, each with its reason: the state check refuses. -/
def Supervisor.refuses (u : Supervisor) (k : RequestKind) (reason : FailReason) : Prop :=
  (u.state = .fault ∧ reason = .fault) ∨
    (u.state = .draining ∧ (u.cause = some .reset ∨ u.cause = some .maint ∨ u.cause = some .power ∧ u.pendingReset.isSome = true) ∧
      reason = .reset) ∨
    (k = .write ∧ (u.state = .draining ∧ u.cause = some .power ∧ u.pendingReset = none ∨ u.state = .halted) ∧
      reason = .power) ∨
    (k = .write ∧ u.state = .readOnly ∧ reason = .locked)

/-- R141: the bytes lie in one line. -/
def Request.aligned (r : Request) : Prop := 1 ≤ r.length ∧ r.length ≤ 64 ∧ r.address % 64 + r.length ≤ 64

/-- R141: the bytes lie below L x 256. -/
def State.inRange (s : State) (r : Request) : Prop := ∃ l, s.xlat.logicalPages = some l ∧ r.address < l * 256

/-- A READ or WRITE that passes every check up to the guard unit, and no window refuses it (R140 to R142, R154). -/
def State.admits (s : State) (b : List Byte) (r : Request) : Prop :=
  s.takes b r ∧ r.kind ≠ .persist ∧ s.sup.passes r.kind ∧ r.aligned ∧ s.inRange r ∧
    ∀ w ∈ s.guard.windows, w.hits r = true → w.action = .watch

/-- A command frame ends (R182): its transaction was not cut off by a reset (R181). -/
def State.frameEnds (s : State) : Prop := s.maint.transaction ≠ .ignored

/-- The operating states after the mount (R184). -/
def State.mounted (s : State) : Prop := s.sup.state ≠ .resetting ∧ s.sup.state ≠ .mounting

/-- SERVING or READ_ONLY. -/
def State.ready_ (s : State) : Prop := s.sup.state = .serving ∨ s.sup.state = .readOnly

/-- The argument bytes of each command (R182; 11_formats_and_signals.md, Maintenance Frames). -/
def argCount : CommandName → Nat
  | .capture | .clearCapture | .windowRead | .configRead => 1
  | .windowSet => 22
  | .mapQuery => 2
  | .configWrite => 17
  | _ => 0

/-- The table of R184. -/
def acceptedIn (s : State) : CommandName → Prop
  | .status | .resetCause => True
  | .flush => s.ready_
  | .configLoad | .configWrite => s.mounted ∧ s.maint.commitState ≠ .busy
  | .configCommit => s.ready_ ∧ s.maint.commitState ≠ .busy
  | _ => s.mounted

/-- The frame of each command. -/
def CommandName.frame (args : List Byte) : CommandName → Instr
  | .status => .status args
  | .counters => .counters args
  | .clearCounters => .clearCounters args
  | .capture => .capture args
  | .clearCapture => .clearCapture args
  | .windowRead => .windowRead args
  | .windowSet => .windowSet args
  | .mapQuery => .mapQuery args
  | .flush => .flush args
  | .lossRead => .lossRead args
  | .configLoad => .configLoad args
  | .configRead => .configRead args
  | .configWrite => .configWrite args
  | .configCommit => .configCommit args
  | .resetCause => .resetCause args
  | .softReset => .softReset args

/-! ## What a statement answers -/

/-- The frame has been decided: its response is the last response, and the write part has ended (R182, R183). -/
def Maintenance.answered (m : Maintenance) (c : Completion) (data : List Byte) : Maintenance :=
  { m with transaction := .none, lastResponse := some { completion := c, data := data } }

/-- A taken request is READY: it stands at the tail of the table and of the ready order, and an idle channel sends the first
of that order (R140, R145). -/
def Port.withReady (p : Port) (r : Request) (status : ResponseStatus) (data : List Byte) (judged : Bool) : Port :=
  { p with
    table := p.table ++ [{ request := r, phase := .ready { tag := r.tag, status := status, data := data },
                           judged := judged }],
    readyOrder := p.readyOrder ++ [r.tag],
    channel := match p.channel with
      | .idle => .sendingEntry ((p.readyOrder ++ [r.tag]).headD r.tag)
      | c => c }

/-- A taken request stands at the tail of the table in a phase, its judged mark set (R142). -/
def Port.withEntry (p : Port) (r : Request) (ph : EntryPhase) : Port :=
  { p with table := p.table ++ [{ request := r, phase := ph, judged := true }] }

/-- The guard unit after the judgement of a request (R152). -/
def State.judged (s : State) (r : Request) : Guard :=
  { s.guard with captures := judgedCaptures s.guard.windows s.guard.captures s.clock.ms r }

/-- One slot record replaced. -/
def Staging.withSlot (g : Staging) (i : Nat) (sl : Slot) : Staging := { g with slots := g.slots.set i sl }

/-- The in-flight record is released (R101 step 1). -/
def Sequencer.released (q : Sequencer) : Sequencer := { q with inFlight := none }

/-- An operation joins the list with the next arrival number (R96): the arrival counter's value before its advance, which is the
model's choice (log 31). -/
def Sequencer.joined (q : Sequencer) (op : ArrayOp) (r : Requester) : Sequencer :=
  { q with ops := q.ops ++ [{ op := op, requester := r, arrival := q.arrival }], arrival := q.arrival + 1 }

/-- An operation that finds the link idle and no other waiting is issued at once (R96, R98, R100). -/
def Sequencer.issued (q : Sequencer) (op : ArrayOp) (r : Requester) (cls limit : Nat) (t : Clock) : Sequencer :=
  { q with
    phase := .issued, arrival := q.arrival + 1,
    inFlight := some { op := op, requester := r, cls := cls, issuedMs := t.ms, issuedUs := t.us, limit := limit,
                       elapsed := 0, timeouts := 0 } }

/-- R96: an operation request. An IDLE link with nothing waiting issues it at once, the check bytes of a PAGE PROGRAM filled (R104);
ISSUED and RESYNC let it join the list; STOPPED discards it. -/
def Sequencer.asked (q : Sequencer) (op : ArrayOp) (r : Requester) (cls limit : Nat) (t : Clock) : Sequencer :=
  match q.phase with
  | .idle => q.issued (outgoing op) r cls limit t
  | .stopped => q
  | _ => q.joined op r

/-- The entry of a physical page replaced. -/
def Translation.withPage (x : Translation) (p : Nat) (e : PageEntry) : Translation :=
  { x with pages := pagesSet p e x.pages }

/-- A pin of a page is lowered (R74). -/
def State.unpinned (s : State) (p : Nat) : Translation :=
  s.xlat.withPage p { s.pageEntry p with pins := (s.pageEntry p).pins - 1 }

/-- The entry with a tag is READY with its answer, at the tail of the ready order; an idle channel begins to send, an owed AGAIN
first (R144, R145). -/
def Port.answer (p : Port) (tag : Nat) (status : ResponseStatus) (data : List Byte) : Port :=
  { p with
    table := p.table.map (fun e => if e.request.tag = tag then
      { e with phase := .ready { tag := tag, status := status, data := data } } else e),
    readyOrder := p.readyOrder ++ [tag],
    channel := match p.channel, p.againOwed with
      | .idle, some a => .sendingAgain a
      | .idle, none => .sendingEntry ((p.readyOrder ++ [tag]).headD tag)
      | c, _ => c }

/-- What a READ_ONLY request does (R166). -/
def Supervisor.askedReadOnly (u : Supervisor) : Supervisor :=
  match u.state with
  | .serving => { u with state := .readOnly }
  | .draining => if u.cause = some .power then { u with returnTo := some .readOnly } else u
  | .halted => { u with returnTo := some .readOnly }
  | _ => u

/-- A page is retired in the record of the translation (R58, R79). -/
def State.retired (s : State) (p : Nat) : Translation := s.xlat.withPage p { s.pageEntry p with state := .bad }

/-- What the end of a write-back of page X by slot i does to the slot's partner: a SEALED DEFERRED one is filled from the image, a
HELD one becomes FREE (R20, R21, R24). -/
def Staging.partnerServed (g : Staging) (s : State) (i x : Nat) (image : List Byte) : Staging :=
  match s.findPartner i x (fun o => decide (o.state = .sealed) && decide (o.merge = some .deferred)) with
  | some j => g.withSlot j { s.slot j with
    image := fillMissing (s.slot j).valid (s.slot j).image image, valid := List.replicate 256 true, merge := some .complete,
    mergeRead := none }
  | none =>
    match s.findPartner i x (fun o => decide (o.state = .held)) with
    | some j => g.withSlot j (Slot.freed (s.slot j).incarnation)
    | none => g

/-- R62: some pair of slot and incarnation stands in a wait set. -/
def Barrier.names (b : Barrier) (i : Nat) (inc : Byte) : Bool := b.waitSet.contains (i, inc)

/-- R53, R59, R60, R66: slot i of page X is HELD with a reason: no target, the partner served from its image, the barriers that wait
on it answered FAIL LOST, READ_ONLY asked for, the write-back engine IDLE. -/
def State.heldAs (s : State) (i x : Nat) (reason : HoldReason) : State :=
  let named := fun (b : Barrier) => b.names i (s.slot i).incarnation
  { s with
    sup := s.sup.askedReadOnly,
    staging := (s.staging.withSlot i { s.slot i with state := .held, hold := some reason, target := none }).partnerServed s i x
      (s.slot i).image,
    wb := { s.wb with phase := .idle, barriers := s.wb.barriers.filter (fun b => !named b) },
    port := (s.wb.barriers.filter named).foldl (fun q b => q.answer b.tag (.fail .lost) []) s.port }

/-- R79: page p is BAD, its retire mark is passed, PAGES_RETIRED advances. -/
def State.withRetired (s : State) (p : Nat) : State :=
  { s with
    xlat := s.retired p, seq := s.seq.asked (.mark p .retire 0x00) .retireMark 4 1000 s.clock,
    maint := { s.maint with counters := { s.maint.counters with
      pagesRetired := satAdvance s.maint.counters.pagesRetired } } }

/-- R89: the spare count less the number of BAD pages is below D + 4. -/
def State.badPageReserve (s : State) : Bool :=
  decide (s.mount.arraySize.getD 0 - 2 - s.xlat.logicalPages.getD 0 -
    (s.xlat.pages.filter (fun e => e.2.state = .bad)).length < s.staging.limitD + 4)

/-- R88: the sequence counter holds 4294967232 or more. -/
def State.sequenceReserve (s : State) : Bool := decide (4294967232 ≤ s.xlat.sequence)

/-- R88, R89: one of the two reserves holds. -/
def State.inReserve (s : State) : Bool := s.sequenceReserve || s.badPageReserve

/-- R58, R77, R79, R88, R89: a further attempt of slot i of page X with page q, the head of the free pool, for the page p that
failed: p is retired, its mark ahead of the PAGE PROGRAM, and READ_ONLY is asked for where a reserve holds. -/
def State.retried (s : State) (i x p q : Nat) (rest : List Nat) : State :=
  let sequence := s.xlat.sequence
  let taken := { (s.xlat.withPage q { s.pageEntry q with state := .programming }) with
    freePool := rest, sequence := satAdvance sequence }
  let u : State := { s with
    seq := (s.seq.asked (.mark p .retire 0x00) .retireMark 4 1000 s.clock).asked
      (.pageProgram q (s.slot i).image (headerSpare x sequence)) .writeBack 4 4000 s.clock,
    xlat := taken.withPage p { s.pageEntry p with state := .bad },
    maint := (s.withRetired p).maint, wb := { s.wb with phase := .program i },
    staging := s.staging.withSlot i { s.slot i with target := some { page := q, seq := sequence } } }
  { u with sup := if u.inReserve then s.sup.askedReadOnly else s.sup }

/-- R51, R54, R77, R88: the write-back of slot i of page X starts with page p, the head of the free pool. -/
def State.started (s : State) (i x p : Nat) (rest : List Nat) : State :=
  let sequence := s.xlat.sequence
  let u : State := { s with
    seq := s.seq.asked (.pageProgram p (s.slot i).image (headerSpare x sequence)) .writeBack 4 4000 s.clock,
    xlat := { (s.xlat.withPage p { s.pageEntry p with state := .programming }) with
      freePool := rest, sequence := satAdvance sequence },
    wb := { s.wb with phase := .program i, eviction := s.wb.eviction.erase i },
    staging := s.staging.withSlot i { s.slot i with state := .writing, target := some { page := p, seq := sequence } } }
  { u with sup := if u.sequenceReserve then s.sup.askedReadOnly else s.sup }

/-- R82: the erase-and-stamp of page p starts; its class is the one of the moment (R85, R97). -/
def State.eraseStarted (s : State) (p : Nat) : State :=
  { s with
    xlat := { (s.xlat.withPage p { s.pageEntry p with state := .erasing }) with
      eraseQueue := s.xlat.eraseQueue.erase p, erase := .erase p },
    seq := s.seq.asked (.erase p) .eraseEngine (if s.pageWait then 2 else 7) 25000 s.clock }

/-- R125: free pool and erase queue in ascending page order, the sequence counter one above the largest. -/
def State.collected (s : State) : Translation :=
  let inState := fun (st : PageState) => (s.xlat.pages.filter (fun e => e.2.state = st)).map (fun e => e.1)
  { s.xlat with freePool := inState .free, eraseQueue := inState .stale, sequence := s.mount.largest + 1 }

/-- R37, R67, R108, R167, R196: the entry into FAULT. The sequencer is STOPPED and its list emptied; pending reads, then barriers are
answered FAIL FAULT in list order; a commit under way ends FAILED, its target INVALID where its ERASE had been issued. -/
def State.faulted (s : State) (eraseIssued : Bool) : State :=
  { s with
    seq := { s.seq with phase := .stopped, inFlight := none, ops := [], resyncUs := 0 },
    sup := { s.sup with state := .fault, cause := none, returnTo := none, drainClock := none, resetTimer := none },
    readPath := { s.readPath with pendingReads := [], demands := [] },
    wb := { s.wb with barriers := [] },
    port := s.wb.barriers.foldl (fun q b => q.answer b.tag (.fail .fault) [])
      (s.readPath.pendingReads.foldl (fun q r => q.answer r.tag (.fail .fault) []) s.port),
    maint := match s.maint.job with
      | none => s.maint
      | some j => { s.maint with
          commitState := .failed, job := none,
          copyStatus := if j.phase ≠ .erase ∨ eraseIssued = true then s.maint.copyStatus.map (fun c => match j.target with
              | .a => { c with a := none }
              | .b => { c with b := none })
            else s.maint.copyStatus } }

/-- R136 to R138: the records that waited on the link through RESETTING arrive in MOUNTING: a malformed one is discarded and
PROTOCOL_FAULT latches; the first other one is owed an AGAIN, which holds the channel, and the rest wait on. -/
def State.waitedArrive : List (List Byte) → State → State
  | [], s => { s with port := { s.port with linkQueue := [] } }
  | b :: bs, s => match decodeRequest b with
    | none => State.waitedArrive bs { s with maint := { s.maint with flags := { s.maint.flags with protocolFault := true } } }
    | some r => { s with
        port := { s.port with againOwed := some r.tag, channel := .sendingAgain r.tag, linkQueue := bs },
        maint := { s.maint with counters := { s.maint.counters with
          againResponses := satAdvance s.maint.counters.againResponses } } }

/-- The reset values of every block but the maintenance port (R2, R38, R46, R73, R95, R112, R135, R151, R164), the
reset-cause record written. What waits on the link waits on (R136; log 11). -/
def State.blocksReset (s : State) (record : ResetRecord) (m : Maintenance) : State :=
  { s with
    staging := { slots := List.replicate 16 (Slot.freed 0), allocOrder := 0, stall := false, limitD := 12, highH := 10,
                 delayW := 50 },
    readPath := { pendingReads := [], demands := [], cache := [] },
    wb := { phase := .idle, eviction := [], barriers := [] },
    xlat := { remap := [], pages := [], freePool := [], eraseQueue := [], sequence := 1, erase := .idle,
              logicalPages := none },
    seq := { phase := .idle, inFlight := none, ops := [], arrival := 0, resyncUs := 0 },
    mount := { phase := .idle, readNumber := 1, copyA := .notRead, copyB := .notRead, cursor := none, largest := 0,
               arraySize := none, windows := [], named := [] },
    port := { table := [], readyOrder := [], againOwed := none, channel := .idle, linkQueue := s.port.linkQueue },
    guard := { windows := List.replicate 8 Window.disabled, captures := List.replicate 8 Capture.cleared },
    sup := { state := .resetting, cause := none, returnTo := none, pendingReset := none, drainClock := none,
             resetTimer := none, warning := if s.pins.pfwN then .clear else .qualifying 0, qualifyQ := 4, resetLimit := 100,
             record := record },
    maint := m }

/-- The maintenance port after a reset that is no power-on reset: counters, CONFIG_INVALID and STRAP_FAULT stay (R186, R187,
R198); the rest of a transaction in progress is ignored (R181). -/
def State.maintReset (s : State) : Maintenance :=
  { lastResponse := none, buffer := List.replicate 256 0, commitState := .idle, job := none, copyStatus := none,
    active := none, counters := s.maint.counters,
    flags := { s.maint.flags with protocolFault := false, mediaLoss := false }, loss := none, madr := s.pins.madr,
    transaction := match s.maint.transaction with
      | .none => .none
      | _ => .ignored }

/-- A mount has begun (R113, R178): MOUNTING, millisecond time 0, two flags cleared, READY WAIT waiting behind the link reset
sequence (R95) with the arrival counter's value before its advance (log 31). -/
def State.mountBegun (s : State) : State :=
  { s with
    sup := { s.sup with state := .mounting },
    clock := { s.clock with ms := 0 },
    maint := { s.maint with flags := { s.maint.flags with configInvalid := false, strapFault := false } },
    mount := { s.mount with phase := .readyWait },
    seq := { phase := .resync, inFlight := none,
             ops := s.seq.ops ++ [{ op := .readyWait, requester := .mount, arrival := s.seq.arrival }],
             arrival := s.seq.arrival + 1, resyncUs := 0 } }

/-- A reset has completed (R177, R178): the blocks hold their reset values, and where RESET_N is high the mount has begun and the
records that waited on the link have arrived (R136). -/
def State.resetDone (s : State) (record : ResetRecord) (m : Maintenance) : State :=
  if s.pins.resetN then State.waitedArrive s.port.linkQueue (s.blocksReset record m).mountBegun else s.blocksReset record m

/-! ## Layouts and codes of the maintenance reports (11_formats_and_signals.md) -/

/-- A field of two bytes, least significant byte first. -/
def le16 (n : Nat) : List Byte := [BitVec.ofNat 8 n, BitVec.ofNat 8 (n / 256)]

/-- A field of three bytes. -/
def le24 (n : Nat) : List Byte := [BitVec.ofNat 8 n, BitVec.ofNat 8 (n / 256), BitVec.ofNat 8 (n / 65536)]

/-- A field of four bytes. -/
def le32 (n : Nat) : List Byte :=
  [BitVec.ofNat 8 n, BitVec.ofNat 8 (n / 256), BitVec.ofNat 8 (n / 65536), BitVec.ofNat 8 (n / 16777216)]

/-- A flag: 0 clear, OFF or NO, 1 set, ON or YES. -/
def bit (b : Bool) : Byte := if b = true then 1 else 0

/-- The code of an operating state. -/
def OperatingState.code : OperatingState → Byte
  | .resetting => 0
  | .mounting => 1
  | .serving => 2
  | .readOnly => 3
  | .draining => 4
  | .halted => 5
  | .fault => 6

/-- The code of a physical page's state. -/
def PageState.code : PageState → Byte
  | .unscanned => 0
  | .free => 1
  | .programming => 2
  | .live => 3
  | .stale => 4
  | .erasing => 5
  | .bad => 6

/-- The code of a slot's state. -/
def SlotState.code : SlotState → Byte
  | .free => 0
  | .opened => 1
  | .sealed => 2
  | .writing => 3
  | .held => 4

/-- The 26 bytes of STATUS (R185): 0 operating state, 1 drain cause, 2 to 5 the flags, 6 to 10 the slot counts, 11 the free pool
count, 13 the erase queue count, 15 LIVE, 17 BAD, 19 STALE, 21 the sequence counter, 25 the commit state. In MOUNTING the two
collections count the pages classified so far (R132). -/
def State.statusLayout (s : State) : List Byte :=
  let slots := fun (st : SlotState) => BitVec.ofNat 8 (s.staging.slots.filter (fun sl => sl.state = st)).length
  let pages := fun (st : PageState) => (s.xlat.pages.filter (fun e => e.2.state = st)).length
  let mounting := s.sup.state = .mounting
  [s.sup.state.code,
    match s.sup.cause with
    | some .power => 0
    | some .reset => 1
    | some .maint => 2
    | none => 0xFF,
    bit s.maint.flags.configInvalid, bit s.maint.flags.protocolFault, bit s.maint.flags.strapFault,
    bit s.maint.flags.mediaLoss, slots .free, slots .opened, slots .sealed, slots .writing, slots .held] ++
  le16 (if mounting then pages .free else s.xlat.freePool.length) ++
  le16 (if mounting then pages .stale else s.xlat.eraseQueue.length) ++
  le16 (pages .live) ++ le16 (pages .bad) ++ le16 (pages .stale) ++ le32 s.xlat.sequence.toNat ++
  ([match s.maint.commitState with
    | .idle => 0
    | .busy => 1
    | .done => 2
    | .failed => 3] : List Byte)

/-- The 32 bytes of COUNTERS (R187): eight fields of four bytes, in this order. -/
def Counters.layout (c : Counters) : List Byte :=
  le32 c.programs.toNat ++ le32 c.erases.toNat ++ le32 c.mediaErrors.toNat ++ le32 c.mergeLosses.toNat ++
    le32 c.guardRefusals.toNat ++ le32 c.againResponses.toNat ++ le32 c.pagesRetired.toNat ++ le32 c.pfwGlitches.toNat

/-- The 5 bytes of RESET CAUSE (R177): cause, drain outcome, lost slots, drain duration. -/
def ResetRecord.layout (r : ResetRecord) : List Byte :=
  [match r.cause with
    | .powerOn => 0
    | .resetLine => 1
    | .maintenance => 2,
    match r.outcome with
    | .complete => 0
    | .timedOut => 1
    | .notAttempted => 2,
    BitVec.ofNat 8 r.lost] ++ le16 r.duration.toNat

/-- The 30 bytes of CAPTURE (R159): 0 latched, 1 kind, 2 requester, 3 address, 6 length, 7 data count, 8 the 16 data bytes, those
beyond the count 0, 24 time, 28 hit count. A cleared capture is 30 bytes of 0. -/
def Capture.layout (c : Capture) : List Byte :=
  match c.fields with
  | none => List.replicate 30 0
  | some f =>
    [1, if f.isWrite = true then 2 else 1, BitVec.ofNat 8 f.requester] ++ le24 f.address ++
      [BitVec.ofNat 8 f.length, BitVec.ofNat 8 f.data.length] ++ (f.data ++ List.replicate 16 0).take 16 ++
      le32 f.time.toNat ++ le16 c.hits.toNat

/-- The 21 bytes of a window record (R150, R200): 0 enabled, 1 kinds, 2 action, 3 pattern, 4 alert, 5 requester set, 7 low line,
10 high line, 13 match value, 17 match mask. -/
def Window.layout (w : Window) : List Byte :=
  [bit w.enabled,
    match w.kinds with
    | .read => 1
    | .write => 2
    | .readWrite => 3,
    match w.action with
    | .watch => 0
    | .block => 1,
    bit w.pattern, bit w.alert] ++
  le16 w.requesters.toNat ++ le24 w.low ++ le24 w.high ++ le32 w.matchValue.toNat ++ le32 w.matchMask.toNat

/-- R150, R200: 21 bytes whose fields all hold values in range: enabled, action, pattern and alert 0 or 1, kinds 1 to 3, low and high
line at most 262143. -/
def windowInRange (b : List Byte) : Prop :=
  (∀ k ∈ [0, 2, 3, 4], (byteAt b k).toNat ≤ 1) ∧ (1 ≤ (byteAt b 1).toNat ∧ (byteAt b 1).toNat ≤ 3) ∧
    (∀ k ∈ [7, 10], (byteAt b k).toNat + 256 * (byteAt b (k + 1)).toNat + 65536 * (byteAt b (k + 2)).toNat ≤ 262143)

/-- The 21 bytes of window k in a configuration record. -/
def windowBytes (b : List Byte) (k : Nat) : List Byte := (b.drop (17 + 21 * k)).take 21

/-- R117 item 5, R200: a configuration record whose fields all lie in their ranges for an array of n pages: D at offset 5, H at 6, Q
at 7, L at 12, W at 14, T_r at 16, the eight window records from 17. -/
def recordInRange (n : Nat) (b : List Byte) : Prop :=
  let byte := fun (k : Nat) => (byteAt b k).toNat
  let two := fun (k : Nat) => byte k + 256 * byte (k + 1)
  (2 ≤ byte 5 ∧ byte 5 ≤ 16) ∧ (1 ≤ byte 6 ∧ byte 6 ≤ byte 5) ∧ (1 ≤ byte 7 ∧ byte 7 ≤ 64) ∧
    (64 ≤ two 12 ∧ two 12 + 34 ≤ n) ∧ (1 ≤ two 14 ∧ two 14 ≤ 1000) ∧ byte 16 ≤ 250 ∧
    ∀ k < 8, windowInRange (windowBytes b k)

/-! ## The header scan -/

/-- R121 step 4, R122: a valid header: its check matches and its sequence number is one that the part programs. -/
def headerValid (spare : List Byte) : Prop :=
  headerMatches spare = true ∧ 1 ≤ spareSequence spare ∧ spareSequence spare ≤ 4294967294

/-- R120: a committed header whose check does not match. -/
def headerTorn (spare : List Byte) : Prop :=
  spareRetire spare = 0xFF ∧ spareClean spare = 0x5A ∧ spareCommit spare = 0x00 ∧ headerMatches spare = false

/-- R121 to R124: what the read of the spare area of page p gives: the translation tables, the largest sequence and the list of
sequence numbers by logical page that the scan then goes on with. A second FAIL makes the page STALE; else the first line of
the table applies: BAD, STALE, FREE, a candidate, STALE. A candidate at or beyond L is STALE, one for an unnamed page is LIVE
and named, and of two the higher sequence number is LIVE and named, the other STALE. A valid header feeds the largest
sequence. -/
def State.headerGives (s : State) (p l : Nat) (st : ArrayStatus) (spare : List Byte)
    (gives : Translation → Word32 → List (Nat × Word32) → Prop) : Prop :=
  let q := BitVec.ofNat 32 (spareSequence spare)
  let erased := ∀ b ∈ (spare.drop 1).take 13, b = (0xFF : Byte)
  let marked := fun (x : Translation) (state : PageState) => x.withPage p { state := state, pins := 0 }
  (st = .fail → gives (marked s.xlat .stale) s.mount.largest s.mount.named) ∧
  (st = .pass → ∀ largest, (headerValid spare ∧ s.mount.largest < q ∧ largest = q) ∨
      (¬(headerValid spare ∧ s.mount.largest < q) ∧ largest = s.mount.largest) →
    let is := fun (state : PageState) => gives (marked s.xlat state) largest s.mount.named
    (spareRetire spare ≠ 0xFF → is .bad) ∧
    (spareRetire spare = 0xFF → spareClean spare ≠ 0x5A → is .stale) ∧
    (spareRetire spare = 0xFF → spareClean spare = 0x5A →
      (erased → is .free) ∧
      (¬erased → ¬(headerValid spare ∧ spareCommit spare = 0x00) → is .stale) ∧
      (¬erased → headerValid spare → spareCommit spare = 0x00 →
        let x := spareLogical spare
        let named := fun (y : Translation) =>
          gives { (marked y .live) with remap := tableSet x p s.xlat.remap } largest (tableSet x q s.mount.named)
        (l ≤ x → is .stale) ∧
        (x < l → s.map x = none → named s.xlat) ∧
        (∀ old, x < l → s.map x = some old →
          ((tableGet x s.mount.named).getD 0 < q →
            named (s.xlat.withPage old { s.pageEntry old with state := .stale })) ∧
          (¬(tableGet x s.mount.named).getD 0 < q → is .stale)))))

/-! ## The arbiter -/

/-- R97, R85: the class in which an operation stands at a choice, by its requester. An operation of the erase engine is urgent while
the write-back engine is in PAGE WAIT. -/
def State.classNow (s : State) : Requester → Nat
  | .mount => 1
  | .eraseEngine => match s.wb.phase with
    | .pageWaitFirst => 2
    | .pageWaitRetry _ => 2
    | _ => 7
  | .demandRead => 3
  | .writeBack => 4
  | .retireMark => 4
  | .configCommit => 5
  | .mergeRead _ => 6

/-- R99: the classes in the ranking of an operating state, the highest first. -/
def OperatingState.ranking : OperatingState → List Nat
  | .draining => [1, 2, 4, 3, 5, 6, 7]
  | _ => [1, 2, 3, 4, 5, 6, 7]

/-- R98, R110: a waiting operation may be chosen: class 1 in MOUNTING, the others outside it, none in RESETTING and FAULT. -/
def State.choosable (s : State) (w : WaitingOp) : Prop :=
  w ∈ s.seq.ops ∧ match s.sup.state with
    | .resetting => False
    | .fault => False
    | .mounting => s.classNow w.requester = 1
    | _ => s.classNow w.requester ≠ 1

/-- R98, R94: a waiting operation goes before another: its class stands before the other's in the ranking, or the classes are one
and its arrival number lies at least as far back from the arrival counter. -/
def State.goesBefore (s : State) (w v : WaitingOp) : Prop :=
  let place := fun (o : WaitingOp) => s.sup.state.ranking.idxOf (s.classNow o.requester)
  place w < place v ∨
    s.classNow w.requester = s.classNow v.requester ∧ (s.seq.arrival - v.arrival).toNat ≤ (s.seq.arrival - w.arrival).toNat

/-! ## What follows an event, where something is due -/

/-- R49 to R51, R53: an IDLE engine, or one whose first attempt's wait is over (R52), takes the first ready slot i of page X in queue
order and acts on the answer to its page request. Ready is SEALED, merge-complete, no other slot of the page WRITING (R48). -/
def State.writeBackFollows (u v : State) : Prop :=
  u.writesBack ∧ u.linkFree ∧ ∃ (before after : List Nat) (i x : Nat), u.wb.eviction = before ++ i :: after ∧
    i < u.staging.slots.length ∧ (u.slot i).page = some x ∧ (∀ j ∈ before, u.ready j = false) ∧
    ((u.slot i).state = .sealed ∧ ((u.slot i).merge = some .noneNeeded ∨ (u.slot i).merge = some .complete) ∧
      ∀ j < 16, j ≠ i → ¬((u.slot j).state = .writing ∧ (u.slot j).page = some x)) ∧
    ((u.wb.phase = .idle ∨ u.wb.phase = .pageWaitFirst) ∧ (∃ p rest, u.xlat.freePool = p :: rest ∧ v = u.started i x p rest) ∨
     (u.wb.phase = .idle ∨ u.wb.phase = .pageWaitFirst) ∧ u.xlat.freePool = [] ∧ u.xlat.erase = .idle ∧
        u.xlat.eraseQueue = [] ∧
        v = ({ u with wb := { u.wb with eviction := u.wb.eviction.erase i } } : State).heldAs i x .noSpace ∨
     u.wb.phase = .idle ∧ u.xlat.freePool = [] ∧ (u.xlat.erase ≠ .idle ∨ u.xlat.eraseQueue ≠ []) ∧
        v = { u with wb := { u.wb with phase := .pageWaitFirst } })

/-- R52: a retry's PAGE WAIT ends: with the page at the head of the free pool it goes on; with no page to come the slot is HELD, its
failed page retired, READ_ONLY asked for. -/
def State.waitEndFollows (u v : State) : Prop :=
  u.writesBack ∧ u.linkFree ∧ ∃ (i x : Nat) (t : Target), u.wb.phase = .pageWaitRetry i ∧ i < u.staging.slots.length ∧
    (u.slot i).page = some x ∧ (u.slot i).target = some t ∧
    ((∃ q rest, u.xlat.freePool = q :: rest ∧ q ≠ t.page ∧ v = u.retried i x t.page q rest) ∨
     (u.xlat.freePool = [] ∧ u.xlat.erase = .idle ∧ u.xlat.eraseQueue = [] ∧ v = (u.withRetired t.page).heldAs i x .noSpace))

/-- R3: slot i is the oldest OPEN slot: its allocation order lies furthest behind the allocation order counter. -/
def State.oldestIs (u : State) (i : Nat) : Prop :=
  i < 16 ∧ (u.slot i).state = .opened ∧ ∀ j < 16, j ≠ i → (u.slot j).state = .opened →
    (u.staging.allocOrder - (u.slot j).order.getD 0).toNat < (u.staging.allocOrder - (u.slot i).order.getD 0).toNat

/-- R10: in SERVING or READ_ONLY, with H slots in use or a stall, and no slot SEALED or WRITING, the oldest OPEN slot is sealed. What
a seal does is said where a write-back timer's expiry is. -/
def State.pressureFollows (u v : State) : Prop :=
  u.ready_ ∧ u.wb.phase = .idle ∧ (u.staging.highH ≤ u.slotsInUse ∨ u.staging.stall = true) ∧ u.staging.slots.length = 16 ∧
    (∀ j < 16, (u.slot j).state ≠ .sealed ∧ (u.slot j).state ≠ .writing) ∧
    ∃ i, u.oldestIs i ∧ v = sealSlot i u

/-- R81, R82: the erase engine IDLE, the first page of the erase queue with no pin is taken, where no PAGE WAIT ends, no write-back
starts and no pressure seal is due. -/
def State.eraseFollows (u v : State) : Prop :=
  u.writesBack ∧ u.linkFree ∧ u.xlat.erase = .idle ∧ u.endWait = none ∧ u.engineStart = none ∧ u.pressure = false ∧
    ∃ (before after : List Nat) (p : Nat), u.xlat.eraseQueue = before ++ p :: after ∧
      (∀ q ∈ before, (u.pageEntry q).pins ≠ 0) ∧ (u.pageEntry p).pins = 0 ∧ v = u.eraseStarted p

/-- R171: with no slot OPEN, SEALED or WRITING and no reset pending a drain ends in HALTED where the power warning is ASSERTED, and
in the return state otherwise. -/
def State.drainEndFollows (u v : State) : Prop :=
  u.reexamine = none ∧ u.sup.state = .draining ∧ u.anyStaged = false ∧ u.sup.pendingReset = none ∧
    ((u.sup.warning = .asserted ∧
        v = { u with sup := { u.sup with state := .halted, cause := none, drainClock := none, resetTimer := none } }) ∨
     (u.sup.warning ≠ .asserted ∧ ∃ r, u.sup.returnTo = some r ∧
        v = { u with sup := { u.sup with
          state := match r with
            | .serving => .serving
            | .readOnly => .readOnly,
          cause := none, returnTo := none, drainClock := none, resetTimer := none } }))

/-- Nothing is due but, perhaps, placements and the arrivals of records that wait on the link. -/
def State.nothingElseDue (u : State) : Prop :=
  u.reexamine = none ∧ ¬(u.sup.state = .draining ∧ u.anyStaged = false) ∧ (u.seq.phase ≠ .issued ∨ u.seq.inFlight ≠ none)

/-- R143: between two moments a cause arose to present a stalled request of a kind again. -/
def causeArose (a u : State) (k : RequestKind) : Prop :=
  (a.sup.state ≠ u.sup.state ∨ a.sup.cause ≠ u.sup.cause ∨ a.sup.pendingReset.isSome ≠ u.sup.pendingReset.isSome) ∨
    (k = .write ∧ a.slotCount .free < u.slotCount .free) ∨
    (k = .persist ∧ u.wb.barriers.length < a.wb.barriers.length)

/-- The record of a slot given to a WRITE of page r.address / 256 (R3, R4). -/
def State.opensFor (s : State) (i : Nat) (r : Request) : Slot :=
  { state := .opened, page := some (r.address / 256), image := overlay (r.address % 256) r.data (s.slot i).image,
    valid := overlay (r.address % 256) (List.replicate r.data.length true) (List.replicate 256 false),
    order := some s.staging.allocOrder, incarnation := (s.slot i).incarnation + 1, stamp := some s.clock.ms,
    merge := none, mergeRead := none, attempts := some 0, target := none, hold := none }

/-- R4, R22: the record of a slot that a WRITE joins: its bytes and their offsets; a DEFERRED record that they fill is COMPLETE. -/
def Slot.joinedBy (sl : Slot) (r : Request) : Slot :=
  let valid := overlay (r.address % 256) (List.replicate r.data.length true) sl.valid
  { sl with
    image := overlay (r.address % 256) r.data sl.image, valid := valid,
    merge := if sl.merge = some .deferred ∧ isFull valid = true then some .complete else sl.merge }

/-- R25, R27: the sources of the bytes that a READ asks for, in address order. -/
def State.sourcesFor (s : State) (r : Request) : List Source :=
  (List.range r.length).map (fun k => (s.sourcesOf (r.address / 256)).lookup (r.address % 256 + k))

/-- R27, R43: the read path after a READ that is answered at once: the cache entry of its page is touched exactly where it gave at
least one byte. -/
def State.readThrough (s : State) (r : Request) : ReadPath :=
  { s.readPath with
    cache := if (s.sourcesFor r).any Source.isCache then cacheTouch (r.address / 256) s.readPath.cache else s.readPath.cache }

/-- R28: the pending read record of a READ at physical page p: the bytes that the snapshot supplies, absent where the array must. -/
def State.pendingFor (s : State) (r : Request) (p : Nat) : PendingRead :=
  { tag := r.tag, page := r.address / 256, first := r.address % 256, phys := p,
    bytes := (s.sourcesFor r).map (fun x => x.supplied) }

/-- R34: the bytes of the answer to a pending read: each offset of the need mask from the data, the others from the snapshot. -/
def PendingRead.answeredFrom (rec : PendingRead) (data : List Byte) : List Byte :=
  (List.range rec.bytes.length).map (fun k => match rec.bytes[k]? with
    | some (some b) => b
    | _ => (data[rec.first + k]?).getD 0xFF)

/-- R62, R63 case 4: every OPEN, SEALED or WRITING slot with its incarnation, in ascending slot number. -/
def State.stagedPairs (s : State) : List (Nat × Byte) :=
  ((List.range 16).filter (fun i =>
    (s.slot i).state = .opened ∨ (s.slot i).state = .sealed ∨ (s.slot i).state = .writing)).map
      (fun i => (i, (s.slot i).incarnation))

/-- R4 to R6, R27 to R31, R63, R142: what the serving block makes of a judged request whose entry stands in the table. A WRITE
joins the slot of its page, or is given a FREE one, or stalls; a READ is answered, or becomes pending; a PERSIST is decided by
the first case that applies. -/
def State.served (u : State) (r : Request) (v : State) : Prop :=
  let x := r.address / 256
  let answered := u.port.answer r.tag
  let waiting : Port := { u.port with table := u.port.table.map (fun e =>
    if e.request.tag = r.tag then { e with phase := .waiting } else e) }
  match r.kind with
  | .write =>
    (∃ i, lowestSlot (fun j => (u.slot j).accepts x = true) i ∧
      let rec' := (u.slot i).joinedBy r
      (¬((u.slot i).state = .opened ∧ isFull rec'.valid = true) ∧ v = { u with
          staging := { (u.staging.withSlot i rec') with stall := false }, port := answered .ok [] } ∨
       (u.slot i).state = .opened ∧ isFull rec'.valid = true ∧ v = { u with
          staging := { (u.staging.withSlot i { rec' with state := .sealed, merge := some .noneNeeded }) with stall := false },
          wb := { u.wb with eviction := u.wb.eviction ++ [i] }, port := answered .ok [] })) ∨
    (∀ j < 16, (u.slot j).accepts x = false) ∧
      (u.slotsInUse < u.staging.limitD ∧ (∃ i, i < u.staging.slots.length ∧ lowestSlot (fun j => (u.slot j).state = .free) i ∧
          isFull (u.opensFor i r).valid = false ∧ v = { u with
            staging := { (u.staging.withSlot i (u.opensFor i r)) with allocOrder := u.staging.allocOrder + 1, stall := false },
            port := answered .ok [] }) ∨
       u.staging.limitD ≤ u.slotsInUse ∧ v = { u with staging := { u.staging with stall := true } })
  | .read =>
    (∀ so ∈ u.sourcesFor r, so ≠ .array) ∧ v = { u with
        readPath := u.readThrough r,
        port := answered .ok ((u.sourcesFor r).map (fun so => so.supplied.getD 0xFF)) } ∨
    (∃ so ∈ u.sourcesFor r, so = .array) ∧ cacheFind x u.readPath.cache = none ∧ ∃ p, u.map x = some p ∧
      let pending := u.readPath.pendingReads ++ [u.pendingFor r p]
      ((∀ d ∈ u.readPath.demands, d.phys ≠ p) ∧ u.linkFree ∧ v = { u with
          readPath := { u.readPath with
            pendingReads := pending, demands := u.readPath.demands ++ [{ phys := p, number := 1 }] },
          xlat := u.xlat.withPage p { u.pageEntry p with pins := (u.pageEntry p).pins + 1 },
          seq := u.seq.asked (.pageRead p) .demandRead 3 200 u.clock, port := waiting } ∨
       (∃ d ∈ u.readPath.demands, d.phys = p) ∧ v = { u with
          readPath := { u.readPath with pendingReads := pending }, port := waiting })
  | .persist =>
    u.anyHeld = true ∧ v = { u with port := answered (.fail .lost) [] } ∨
    u.anyHeld = false ∧ u.anyStaged = false ∧ v = { u with port := answered .ok [] } ∨
    u.anyHeld = false ∧ u.anyStaged = true ∧ 4 ≤ u.wb.barriers.length ∧ v = u ∨
    u.anyHeld = false ∧ u.anyStaged = true ∧ u.wb.barriers.length < 4 ∧ v = sealAllOpen { u with
      wb := { u.wb with barriers := u.wb.barriers ++ [{ tag := r.tag, waitSet := u.stagedPairs }] }, port := waiting }

/-- R140 to R143, R154: what the placement of the head does. The state check comes first; a stalled request, whose judged mark is
set, and a PERSIST then go to the serving block; a READ or WRITE is checked for alignment and range and shown to the guard unit
before. A stalled WRITE that the state check refuses ends the stall indication (R6). -/
def State.placed (u : State) (e : Entry) (v : State) : Prop :=
  let r := e.request
  let failed := fun (reason : FailReason) => u.port.answer r.tag (.fail reason) []
  let marked : Port := { u.port with table := u.port.table.map (fun e =>
    if e.request.tag = r.tag then { e with judged := true } else e) }
  (∃ reason, u.sup.refuses r.kind reason ∧ v = { u with
    port := failed reason,
    staging := if e.judged = true ∧ r.kind = .write then { u.staging with stall := false } else u.staging }) ∨
  u.sup.passes r.kind ∧
    (e.judged = true ∧ u.served r v ∨
     e.judged = false ∧ r.kind = .persist ∧ ({ u with port := marked } : State).served r v ∨
     e.judged = false ∧ r.kind ≠ .persist ∧
      (¬r.aligned ∧ v = { u with port := failed .align } ∨
       r.aligned ∧ (∃ l, u.xlat.logicalPages = some l ∧ l * 256 ≤ r.address) ∧ v = { u with port := failed .range } ∨
       r.aligned ∧ u.inRange r ∧ (∃ w ∈ u.guard.windows, w.hits r = true ∧ w.action = .block) ∧ v = { u with
          guard := u.judged r, port := failed .guard,
          maint := { u.maint with counters := { u.maint.counters with
            guardRefusals := satAdvance u.maint.counters.guardRefusals } } } ∨
       r.aligned ∧ u.inRange r ∧ (∀ w ∈ u.guard.windows, w.hits r = true → w.action = .watch) ∧
          ({ u with guard := u.judged r, port := marked } : State).served r v))

/-- R139, R143: n placements lead from u to v, each followed by what it sets off (`settle`): the head is placed, or presented again
where a cause arose since the moment a, which then becomes the moment of that placement. At v no entry is QUEUED, or the head is
stalled and no cause arose. -/
def State.placesTo : Nat → State → State → State → Prop
  | 0, a, u, v => v = u ∧ ∀ e, u.head = some e → e.judged = true ∧ ¬causeArose a u e.request.kind
  | n + 1, a, u, v => ∃ e w, u.head = some e ∧ (e.judged = true → causeArose a u e.request.kind) ∧ u.placed e w ∧
      State.placesTo n u (settle w) v

end Sys2Proof.Machine

open Host Sys2Proof Sys2Proof.Machine

/-! ## The step -/

/-- A step takes the command at the front of the queue and executes it with the queue's rest. -/
def Obligations.StepRunsFrontCommand : Prop :=
  ∀ (c : Instr) (rest : List Instr) (s : State), step { s with pending := c :: rest } = exec c { s with pending := rest }

/-- The model's choice (log 1): on an empty queue, where no timed event is due, one 1 us tick passes. It moves the clock (R202),
the timer of the operation in flight or the time of the link reset sequence (R106, R107), the elapsed time of a QUALIFYING
warning (R168), and at each 1 ms tick the drain clock and the reset timer (R164, R174); it moves nothing else. -/
def Obligations.EmptyQueueStepIsOneTick : Prop :=
  ∀ s : State, s.pending = [] → (∀ c, ¬s.isDue c) →
    let atMs := 999 ≤ s.clock.us
    step s = .next { s with
      clock := if atMs then { ms := s.clock.ms + 1, us := 0 } else { s.clock with us := s.clock.us + 1 },
      seq := match s.seq.phase with
        | .issued => { s.seq with inFlight := s.seq.inFlight.map (fun f => { f with elapsed := f.elapsed + 1 }) }
        | .resync => { s.seq with resyncUs := s.seq.resyncUs + 1 }
        | _ => s.seq,
      sup := { s.sup with
        warning := match s.sup.warning with
          | .qualifying e => .qualifying (e + 1)
          | w => w,
        drainClock := if atMs then s.sup.drainClock.map satAdvance else s.sup.drainClock,
        resetTimer := if atMs then s.sup.resetTimer.map (fun n => n + 1) else s.sup.resetTimer } }

/-- The model's choice (log 1 and log 2): on an empty queue, where timed events are due, the step is exactly one of those that are
due, and time stands still; which one, where several are due, stays free (log 2: the free counter advances). Due are the
write-back timer of an OPEN slot whose age modulo 2^32 has reached W (R9), the qualification (R168), the reset timer (R174), the
timeouts (R107, R108) and the end of the link reset sequence (R107), each on the counts as they stand at the step. -/
def Obligations.EmptyQueueStepTakesADueEvent : Prop :=
  ∀ s : State, s.pending = [] → (∃ c, s.isDue c) →
    ∃ c, s.isDue c ∧ step s = exec c { s with freeCount := s.freeCount + 1 }

/-- The model's choice (log 21): exec is total, so every command, with any operands (ill-formed ones too) and in every state (those
that no run reaches too), answers a next state; where the event that the command names cannot take place, nothing happens
(log 3, log 4). It takes nothing from the queue, adds nothing to it and draws no free value; the free counter is the model's
own (log 2). -/
def Obligations.EveryCommandCompletes : Prop :=
  ∀ (c : Instr) (s : State), ∃ t, exec c s = .next t ∧ t.pending = s.pending ∧ t.freeCount = s.freeCount

/-- What follows an event (`finish`), and in which order, is the model's reading (log 13). Where nothing more is due it is the choice
that ends a completion event (R101), and where an operation is in flight or the phase is not ISSUED, nothing. Where something
is due it takes place, and what follows is what follows it, however many re-examinations (`settle`) that is: the end of a PAGE
WAIT (R52), the start of a write-back and its other answers (R49 to R51, R53), a pressure seal (R10), the start of an erase
(R82), the drain end (R171), the choice. Then come the placements, one after another (R139): the head presented again where a
cause arose, and the entries behind a head that leaves (R143); and last the arrival of the records that wait on the link
(R136; `arriveWaiting` stands where a response is accepted). The model's choices and readings in it: the causes of a
presentation again are found by comparing the two states (log 26); the sequence counter stays at its greatest value (log
16); a waiting operation takes the arrival counter's value before its advance (log 31); at a reset that ends a drain D, H
and W take the default record's values (log 8), the us count runs on where the mount begins (log 9) and the records that
wait on the link wait on (log 11). -/
def Obligations.WhatFollowsAnEvent : Prop :=
  (∀ a u : State, u.nothingDue →
    (u.seq.phase = .issued → u.seq.inFlight = none → finish a u = choose u) ∧
    (u.seq.phase ≠ .issued ∨ u.seq.inFlight ≠ none → finish a u = u)) ∧
  (∀ u : State, u.reexamine = none → settle u = u) ∧
  (∀ a u v : State, u.staging.slots.length = 16 ∨ v.reexamine = none →
    (u.writeBackFollows v ∨ u.waitEndFollows v ∨ u.pressureFollows v ∨ u.eraseFollows v →
      settle u = settle v ∧ finish a u = finish a v) ∧
    (u.drainEndFollows v → finish a u = finish a v)) ∧
  (∀ a u : State, u.reexamine = none → ¬(u.sup.state = .draining ∧ u.anyStaged = false) → u.seq.phase = .issued →
    u.seq.inFlight = none → finish a u = finish a (choose u)) ∧
  (∀ (a u v : State) (n : Nat), u.nothingElseDue → n ≤ 64 → State.placesTo n a u v →
    finish a u = arriveWaiting u.port.linkQueue v) ∧
  ∀ (a u : State) (c : PendingReset), u.reexamine = none → u.sup.state = .draining → u.anyStaged = false →
    u.sup.pendingReset = some c →
    finish a u = u.resetDone
      { cause := match c with
          | .resetLine => .resetLine
          | .maintenance => .maintenance,
        outcome := .complete, lost := u.slotsInUse, duration := u.sup.drainClock.getD 0 } u.maintReset

/-! ## Invariants -/

/-- Every step keeps the shape of every block: 16 slots of 256 bytes and 256 marks, at most four cache entries and no page
twice, at most four barriers, tables in canonical form, an in-flight record present in ISSUED and absent in IDLE and STOPPED
(RESYNC holds one after a first timeout and none at a mount's start), at most eight requests and no tag twice, eight windows
and captures, a buffer of 256 bytes, a commit job exactly while BUSY. -/
def Obligations.ShapeKeptByEveryStep : Prop := ∀ s t : State, s.shaped → step s = .next t → t.shaped

/-- Every step keeps the supervisor's fields legal: each conditional field present exactly in the states R164 names, Q and
T_r in range, MOUNTING exactly while a mount is under way. -/
def Obligations.SupervisorFieldsKeptLegal : Prop := ∀ s t : State, s.supervised → step s = .next t → t.supervised

/-- "The number of staging slots that are not FREE never exceeds the staging limit D in force" (R3): every step keeps it,
with the write-back record and the eviction queue in agreement with the slot states. D before the selection of a
configuration is the model's choice (log 8). -/
def Obligations.StagingLimitNeverExceeded : Prop :=
  ∀ s t : State, s.shaped → s.supervised → s.withinLimit → step s = .next t → t.withinLimit

/-- The state after reset has all three. It rests on the reset values that the model chose (log 5, log 8, log 9). -/
def Obligations.InvariantsHoldAfterReset : Prop := State.reset.shaped ∧ State.reset.supervised ∧ State.reset.withinLimit

/-! ## System link -/

/-- R201: a record carries a request exactly where kind, tag, requester and length bytes are in range and the byte count is
the one that kind and length give; the request then holds those bytes, the address little-endian. Whatever decodes begins with the
code of its kind and has the byte count of that kind. -/
def Obligations.RequestRecordDecoded : Prop :=
  (∀ t r : Byte, decodeRequest [3, t, r] =
    if t.toNat ≤ 15 ∧ r.toNat ≤ 15 then
      some { kind := .persist, tag := t.toNat, requester := r.toNat, address := 0, length := 0, data := [] }
    else none) ∧
  (∀ t r a0 a1 a2 len : Byte, decodeRequest [1, t, r, a0, a1, a2, len] =
    if t.toNat ≤ 15 ∧ r.toNat ≤ 15 ∧ len.toNat ≤ 127 then
      some { kind := .read, tag := t.toNat, requester := r.toNat,
             address := a0.toNat + 256 * a1.toNat + 65536 * a2.toNat, length := len.toNat, data := [] }
    else none) ∧
  (∀ (t r a0 a1 a2 len : Byte) (data : List Byte), decodeRequest ([2, t, r, a0, a1, a2, len] ++ data) =
    if t.toNat ≤ 15 ∧ r.toNat ≤ 15 ∧ len.toNat ≤ 127 ∧ data.length = len.toNat then
      some { kind := .write, tag := t.toNat, requester := r.toNat,
             address := a0.toNat + 256 * a1.toNat + 65536 * a2.toNat, length := len.toNat, data := data }
    else none) ∧
  (∀ (k : Byte) (rest : List Byte), k ≠ 1 → k ≠ 2 → k ≠ 3 → decodeRequest (k :: rest) = none) ∧
  (∀ b r, decodeRequest b = some r →
    b.head? = some (match r.kind with
      | .read => 1
      | .write => 2
      | .persist => 3) ∧
    b.length = match r.kind with
      | .persist => 3
      | .read => 7
      | .write => 7 + r.length)

/-- R137 case 1: on an open channel a malformed record, or one whose tag an entry of the table holds, is discarded without a
response, and PROTOCOL_FAULT latches; nothing else changes. -/
def Obligations.MalformedOrDuplicateRequestDiscarded : Prop :=
  ∀ (b : List Byte) (s : State), s.sup.state ≠ .resetting → s.port.againOwed = none → s.port.linkQueue = [] →
    (decodeRequest b = none ∨ ∃ r, decodeRequest b = some r ∧ ∃ e ∈ s.port.table, e.request.tag = r.tag) →
    exec (.requestArrival b) s =
      .next { s with maint := { s.maint with flags := { s.maint.flags with protocolFault := true } } }

/-- R137 case 2, R138: in MOUNTING, or with eight entries in the table, a well-formed request of a new tag is owed an AGAIN,
which an idle channel begins to send, and AGAIN_RESPONSES advances; the request is not entered. -/
def Obligations.RequestNotTakenIsAnsweredAgain : Prop :=
  ∀ (b : List Byte) (r : Request) (s : State), decodeRequest b = some r → s.sup.state ≠ .resetting →
    s.port.againOwed = none → s.port.linkQueue = [] → (∀ e ∈ s.port.table, e.request.tag ≠ r.tag) →
    s.sup.state = .mounting ∨ 8 ≤ s.port.table.length →
    exec (.requestArrival b) s = .next { s with
      port := { s.port with
        againOwed := some r.tag,
        channel := match s.port.channel with
          | .idle => .sendingAgain r.tag
          | c => c },
      maint := { s.maint with counters := { s.maint.counters with
        againResponses := satAdvance s.maint.counters.againResponses } } }

/-- R136: while the request channel is held, in RESETTING or while an AGAIN is owed, a record waits on the link behind
those that wait already, and no arrival takes place. R137 case 3, R143: while the head is stalled, a request that is taken
joins the tail of the table, QUEUED with its judged mark clear, and is not placed. That the waiting records form a list
without a bound is the model's choice (log 11). -/
def Obligations.RequestWaitsOnHoldOrStall : Prop :=
  ∀ (b : List Byte) (s : State),
    (s.sup.state = .resetting ∨ s.port.againOwed ≠ none →
      exec (.requestArrival b) s = .next { s with port := { s.port with linkQueue := s.port.linkQueue ++ [b] } }) ∧
    ∀ (r : Request) (e : Entry), decodeRequest b = some r → s.sup.state ≠ .resetting → s.sup.state ≠ .mounting →
      s.port.againOwed = none → s.port.linkQueue = [] → s.port.table.length < 8 →
      (∀ e ∈ s.port.table, e.request.tag ≠ r.tag) → s.head = some e → e.judged = true →
      exec (.requestArrival b) s = .next { s with port := { s.port with
        table := s.port.table ++ [{ request := r, phase := .queued, judged := false }] } }

/-- R140: a request placed in a state whose row of the table applies is READY with that row's reason. R141: a READ or WRITE
that passes the state check and is misaligned is answered FAIL ALIGN, an aligned one at or beyond L x 256 FAIL RANGE. Nothing
else changes: no capture, no counter. -/
def Obligations.PlacementChecksRefuseRequest : Prop :=
  ∀ (b : List Byte) (r : Request) (s : State), s.takes b r → s.reexamine = none →
    let fails := fun (reason : FailReason) =>
      exec (.requestArrival b) s = .next { s with port := s.port.withReady r (.fail reason) [] false }
    (s.sup.state = .fault → fails .fault) ∧
    (s.sup.state = .draining → s.sup.cause = some .reset ∨ s.sup.cause = some .maint ∨
      (s.sup.cause = some .power ∧ s.sup.pendingReset.isSome = true) → fails .reset) ∧
    (r.kind = .write → (s.sup.state = .draining ∧ s.sup.cause = some .power ∧ s.sup.pendingReset = none) ∨
      s.sup.state = .halted → fails .power) ∧
    (r.kind = .write → s.sup.state = .readOnly → fails .locked) ∧
    (r.kind ≠ .persist → s.sup.passes r.kind →
      (¬r.aligned → fails .align) ∧
      (r.aligned → ∀ l, s.xlat.logicalPages = some l → l * 256 ≤ r.address → fails .range))

/-- R154, R142: a request that matches a window with action BLOCK is answered FAIL GUARD; the captures of the windows that it
matched take the judgement, and GUARD_REFUSALS advances once. No slot, byte, pin or cache entry changes. -/
def Obligations.GuardRefusesMatchedRequest : Prop :=
  ∀ (b : List Byte) (r : Request) (w : Window) (s : State), s.takes b r → r.kind ≠ .persist → s.sup.passes r.kind →
    r.aligned → s.inRange r → w ∈ s.guard.windows → w.hits r = true → w.action = .block → s.reexamine = none →
    exec (.requestArrival b) s = .next { s with
      guard := s.judged r,
      maint := { s.maint with counters := { s.maint.counters with
        guardRefusals := satAdvance s.maint.counters.guardRefusals } },
      port := s.port.withReady r (.fail .guard) [] false }

/-- R4, R7, R22: a WRITE whose page has an OPEN or SEALED slot is placed there and answered OK: its bytes and their offsets join
the record, a DEFERRED record that they fill is COMPLETE, and no other field changes. An OPEN slot that stays partly valid
stays OPEN; one that they fill is SEALED at once, NONE-NEEDED, at the tail of the eviction queue. What that sets off takes place
in the same event (`settle`): with the engine IDLE the filled slot's write-back starts (R49 to R51). -/
def Obligations.WriteJoinsItsSlot : Prop :=
  ∀ (b : List Byte) (r : Request) (i : Nat) (s : State), s.admits b r → r.kind = .write →
    s.findSlot (fun sl => sl.accepts (r.address / 256)) = some i →
    let rec' := (s.slot i).joinedBy r
    let placedAs := fun (sl : Slot) (w : WriteBack) => exec (.requestArrival b) s = .next (settle { s with
      guard := s.judged r, staging := { (s.staging.withSlot i sl) with stall := false }, wb := w,
      port := s.port.withReady r .ok [] true })
    (¬((s.slot i).state = .opened ∧ isFull rec'.valid = true) → placedAs rec' s.wb) ∧
    ((s.slot i).state = .opened → isFull rec'.valid = true →
      placedAs { rec' with state := .sealed, merge := some .noneNeeded } { s.wb with eviction := s.wb.eviction ++ [i] })

/-- R3, R5, R6, R143: a WRITE whose page has no OPEN or SEALED slot: where fewer than D slots are in use it is given the
lowest-numbered FREE one, which becomes OPEN with page X, order and stamp of the moment, the next incarnation, attempt count 0
and the write's bytes only; where D or more are in use it stalls at the head, QUEUED and judged, the stall indication is set,
and no byte of it is kept. What either sets off takes place in the same event (`settle`), a pressure seal above all (R10); where
that gives a cause, the stalled WRITE is presented again (R143). -/
def Obligations.WriteOpensSlotOrStalls : Prop :=
  ∀ (b : List Byte) (r : Request) (s : State), s.admits b r → r.kind = .write →
    (∀ j < 16, (s.slot j).accepts (r.address / 256) = false) →
    (∀ i, s.slotsInUse < s.staging.limitD → i < s.staging.slots.length → i < 16 → (s.slot i).state = .free →
      (∀ j < i, (s.slot j).state ≠ .free) → isFull (s.opensFor i r).valid = false →
      exec (.requestArrival b) s = .next (settle { s with
        guard := s.judged r,
        staging := { (s.staging.withSlot i (s.opensFor i r)) with allocOrder := s.staging.allocOrder + 1, stall := false },
        port := s.port.withReady r .ok [] true })) ∧
    (s.staging.limitD ≤ s.slotsInUse →
      let u : State := { s with
        guard := s.judged r, staging := { s.staging with stall := true }, port := s.port.withEntry r .queued }
      ∀ n v, n ≤ 63 → State.placesTo n s (settle u) v → exec (.requestArrival b) s = .next v)

/-- R25: the source of the byte of page X at an offset, newest first: the OPEN or SEALED slot of X where it holds the offset; else
the WRITING slot of X, else its HELD slot; else the cache entry of X; else the erased value where X is UNMAPPED; else the
array. By R5 no page has two slots of one of these; the lowest number is taken. -/
def Obligations.CoherenceLookupOrder : Prop :=
  ∀ (s : State) (x off : Nat),
    let source := (s.sourcesOf x).lookup off
    let inState := fun (st : SlotState) (i : Nat) => (s.slot i).state = st ∧ (s.slot i).page = some x
    let accepting := lowestSlot (fun i => inState .opened i ∨ inState .sealed i)
    let writing := lowestSlot (inState .writing)
    let held := lowestSlot (inState .held)
    (∀ i, accepting i → (s.slot i).valid[off]? = some true → source = .slot (byteAt (s.slot i).image off)) ∧
    ((∀ i, accepting i → (s.slot i).valid[off]? ≠ some true) →
      (∀ i, writing i → source = .slot (byteAt (s.slot i).image off)) ∧
      ((∀ i, ¬writing i) →
        (∀ i, held i → source = .slot (byteAt (s.slot i).image off)) ∧
        ((∀ i, ¬held i) →
          (∀ (older newer : List CacheEntry) (e : CacheEntry), s.readPath.cache = older ++ e :: newer → e.page = x →
            (∀ o ∈ older, o.page ≠ x) → source = .cache (byteAt e.image off)) ∧
          ((∀ e ∈ s.readPath.cache, e.page ≠ x) → source = if s.map x = none then .erased else .array))))

/-- R27, R43: a READ that no offset needs from the array is answered OK at once with its bytes in address order; the cache
entry of its page is touched exactly where it gave at least one byte. What is due takes place in the same event. -/
def Obligations.ReadAnsweredAtPlacement : Prop :=
  ∀ (b : List Byte) (r : Request) (s : State), s.admits b r → r.kind = .read → (∀ so ∈ s.sourcesFor r, so ≠ .array) →
    exec (.requestArrival b) s = .next (settle { s with
      guard := s.judged r, readPath := s.readThrough r,
      port := s.port.withReady r .ok ((s.sourcesFor r).map (fun so => so.supplied.getD 0xFF)) true })

/-- R28, R30, R31: a READ with a needed offset becomes a pending read at the tail of the list, its snapshot taken, its
entry WAITING. Where no demand read of its physical page exists, one starts with read number 1: the pin rises and a PAGE
READ is passed, which joins the list or, on an IDLE link, is issued at once; where one exists the record is attached to
it, with no new pin and no new operation. What is due takes place in the same event. That a record is attached by its page is
the model's reading (log 18). That a waiting operation takes the arrival counter's value before its advance is the model's
choice (log 31). -/
def Obligations.ReadBecomesPending : Prop :=
  ∀ (b : List Byte) (r : Request) (p : Nat) (s : State), s.admits b r → r.kind = .read →
    s.map (r.address / 256) = some p → cacheFind (r.address / 256) s.readPath.cache = none →
    (∃ so ∈ s.sourcesFor r, so = .array) →
    let waits := fun (demands : List DemandRead) (x : Translation) (q : Sequencer) =>
      exec (.requestArrival b) s = .next (settle { s with
        guard := s.judged r,
        readPath := { s.readPath with pendingReads := s.readPath.pendingReads ++ [s.pendingFor r p], demands := demands },
        xlat := x, seq := q, port := s.port.withEntry r .waiting })
    ((∀ d ∈ s.readPath.demands, d.phys ≠ p) → s.linkFree →
      waits (s.readPath.demands ++ [{ phys := p, number := 1 }])
        (s.xlat.withPage p { s.pageEntry p with pins := (s.pageEntry p).pins + 1 })
        (s.seq.asked (.pageRead p) .demandRead 3 200 s.clock)) ∧
    (∀ d ∈ s.readPath.demands, d.phys = p → waits s.readPath.demands s.xlat s.seq)

/-- R63: a PERSIST by the first case that applies: FAIL LOST with a slot HELD; OK with nothing staged; stalled with four
barrier records; otherwise WAITING with a barrier record of every OPEN, SEALED or WRITING slot and its incarnation, in
ascending slot number (R62), every OPEN slot then sealed. What is due takes place in the same event; where that gives a cause, a
stalled PERSIST is presented again (R143). -/
def Obligations.PersistDecidedByFirstCase : Prop :=
  ∀ (b : List Byte) (r : Request) (s : State), s.takes b r → r.kind = .persist → s.sup.passes .persist →
    (s.anyHeld = true →
      exec (.requestArrival b) s = .next (settle { s with port := s.port.withReady r (.fail .lost) [] true })) ∧
    (s.anyHeld = false → s.anyStaged = false →
      exec (.requestArrival b) s = .next (settle { s with port := s.port.withReady r .ok [] true })) ∧
    (s.anyHeld = false → s.anyStaged = true → 4 ≤ s.wb.barriers.length →
      ∀ n v, n ≤ 63 → State.placesTo n s (settle { s with port := s.port.withEntry r .queued }) v →
        exec (.requestArrival b) s = .next v) ∧
    (s.anyHeld = false → s.anyStaged = true → s.wb.barriers.length < 4 →
      exec (.requestArrival b) s = .next (settle (sealAllOpen { s with
        wb := { s.wb with barriers := s.wb.barriers ++ [{ tag := r.tag, waitSet := s.stagedPairs }] },
        port := s.port.withEntry r .waiting })))

/-- R11: a request that seals every OPEN slot leaves none OPEN, whatever the seals set off; with no OPEN slot it changes nothing. It
seals them one after another, oldest first (R3): the oldest OPEN slot is sealed, as its write-back timer would seal it
(`sealSlot`), the write-back engine is looked at (R49), which changes nothing but where it is IDLE and a slot is ready, and the
rest is sealed after it. So it is in every operating state: a drain's entry seals in DRAINING (R170). That the engine is looked at
between two seals is the model's choice (log 14). -/
def Obligations.SealRequestLeavesNoSlotOpen : Prop :=
  ∀ s : State, s.staging.slots.length = 16 →
    (∀ i, ((sealAllOpen s).slot i).state ≠ .opened) ∧
    ((∀ j < 16, (s.slot j).state ≠ .opened) → sealAllOpen s = s) ∧
    ∀ i, s.oldestIs i →
      let t := sealSlot i s
      let looked := match t.engineStart with
        | some j => takeSlot j t
        | none => t
      sealAllOpen s = sealAllOpen looked ∧
      (∀ v, t.wb.phase = .idle → t.writeBackFollows v → looked = v) ∧
      (t.wb.phase ≠ .idle ∨ ¬t.writesBack ∨ (∀ j ∈ t.wb.eviction, t.ready j = false) → looked = t)

/-- R145: at the acceptance of the response being sent, an AGAIN is no longer owed, or the entry leaves table and ready order;
the channel is idle, or sends the next response: an owed AGAIN first, then the first of the ready order. An idle channel has
nothing to accept. R136: the records that wait on the link then arrive, one after another, while the channel is not held; each
arrival is the one that REQUEST_ARRIVAL makes on an open channel (R137). The list of waiting records is the model's (log 11). -/
def Obligations.AcceptedResponseLeaves : Prop :=
  (∀ s : State,
    let accepted := fun (p : Port) => exec .responseAcceptance s = .next (arriveWaiting s.port.linkQueue { s with port := p })
    (s.port.channel = .idle → s.port.linkQueue = [] → exec .responseAcceptance s = .next s) ∧
    (s.port.channel = .idle → s.sup.state = .resetting ∨ s.port.againOwed ≠ none → exec .responseAcceptance s = .next s) ∧
    (∀ t, s.port.channel = .sendingAgain t → accepted { s.port with
      againOwed := none,
      channel := match s.port.readyOrder with
        | [] => .idle
        | u :: _ => .sendingEntry u }) ∧
    (∀ t, s.port.channel = .sendingEntry t → accepted { s.port with
      table := s.port.table.filter (fun e => e.request.tag ≠ t), readyOrder := s.port.readyOrder.erase t,
      channel := match s.port.againOwed, s.port.readyOrder.erase t with
        | some a, _ => .sendingAgain a
        | none, u :: _ => .sendingEntry u
        | none, [] => .idle })) ∧
  ∀ (b : List Byte) (bs : List (List Byte)) (u : State),
    let held := u.sup.state = .resetting ∨ u.port.againOwed ≠ none
    arriveWaiting [] u = { u with port := { u.port with linkQueue := [] } } ∧
    (held → arriveWaiting (b :: bs) u = { u with port := { u.port with linkQueue := b :: bs } }) ∧
    (¬held → arriveWaiting (b :: bs) u = arriveWaiting bs (arrive b u)) ∧
    (¬held → u.port.linkQueue = [] → ∃ v, exec (.requestArrival b) u = .next v ∧
      v = { arrive b u with port := { (arrive b u).port with linkQueue := [] } })

/-! ## Read cache and guard unit -/

/-- R40: an insertion removes the entry of its page, places the new one as most recent, and where five would be held removes
the least recent. R43: a touch moves the entry of a page to most recent, its image unchanged, and does nothing where the page has
none. -/
def Obligations.CacheInsertionInThreeParts : Prop :=
  ∀ (x : Nat) (image : List Byte) (cache : List CacheEntry),
    let others := cache.filter (fun e => e.page ≠ x)
    let new : CacheEntry := { page := x, image := image }
    (cache.length ≤ 4 →
      (others.length < 4 → cacheInsert x image cache = others ++ [new]) ∧
      (others.length = 4 → cacheInsert x image cache = others.tail ++ [new])) ∧
    (∀ (older newer : List CacheEntry) (e : CacheEntry), cache = older ++ e :: newer → e.page = x →
      (∀ o ∈ older, o.page ≠ x) → cacheTouch x cache = others ++ [e]) ∧
    ((∀ e ∈ cache, e.page ≠ x) → cacheTouch x cache = cache)

/-- R153: a request matches a window exactly where the window is enabled, names its kind and requester, its line lies between
low and high line, and a pattern that is ON passes: a WRITE of at least four bytes whose write word agrees with the match
value in every bit that the mask selects. -/
def Obligations.WindowMatchConditions : Prop :=
  ∀ (w : Window) (r : Request), w.hits r = true ↔
    w.enabled = true ∧
    ((r.kind = .read ∧ (w.kinds = .read ∨ w.kinds = .readWrite)) ∨
      (r.kind = .write ∧ (w.kinds = .write ∨ w.kinds = .readWrite))) ∧
    w.requesters.getLsbD r.requester = true ∧
    (w.low ≤ r.address / 64 ∧ r.address / 64 ≤ w.high) ∧
    (w.pattern = true → r.kind = .write ∧ 4 ≤ r.length ∧
      ∀ i < 32, w.matchMask.getLsbD i = true → (leNat (r.data.take 4)).testBit i = w.matchValue.getLsbD i)

/-- R157: a match of a latched capture changes its hit count only, by one and not beyond 65535; each window's capture takes the
judgement by itself. With it R156's first match of a cleared capture, and no change without a match. -/
def Obligations.CapturesTakeTheJudgement : Prop :=
  ∀ (r : Request) (s : State) (n : Nat) (w : Window) (c : Capture), s.guard.windows[n]? = some w →
    s.guard.captures[n]? = some c →
    (w.hits r = false → (judge r s).guard.captures[n]? = some c) ∧
    (w.hits r = true → c.fields = none →
      let f : CaptureFields :=
        { isWrite := decide (r.kind = .write), requester := r.requester, address := r.address, length := r.length,
          data := if r.kind = .write then r.data.take 16 else [], time := s.clock.ms }
      (judge r s).guard.captures[n]? = some { hits := 1, fields := some f }) ∧
    (w.hits r = true → ∀ f, c.fields = some f →
      (judge r s).guard.captures[n]? =
        some { fields := some f, hits := if c.hits = 65535 then 65535 else c.hits + 1 })

/-- R179 and R197: READY is high in SERVING and READ_ONLY, SAFE in HALTED only; ALERT_N is low exactly while a window's capture
is latched with its alert ON, MEDIA_LOSS or PROTOCOL_FAULT is set, the state is READ_ONLY or a power drain or HALTED that
returns to READ_ONLY, or the state is FAULT. -/
def Obligations.OutputLinesFollowTheState : Prop :=
  ∀ s : State,
    (s.readyLine = true ↔ s.sup.state = .serving ∨ s.sup.state = .readOnly) ∧
    (s.safeLine = true ↔ s.sup.state = .halted) ∧
    (s.alertN = false ↔
      (∃ (n : Nat) (w : Window) (c : Capture), s.guard.windows[n]? = some w ∧ s.guard.captures[n]? = some c ∧ c.fields ≠ none ∧ w.alert = true) ∨
      s.maint.flags.mediaLoss = true ∨ s.maint.flags.protocolFault = true ∨
      (s.sup.state = .readOnly ∨ s.sup.returnTo = some .readOnly ∧
        (s.sup.state = .halted ∨ s.sup.state = .draining ∧ s.sup.cause = some .power)) ∨
      s.sup.state = .fault)

/-! ## Maintenance port -/

/-- R182 cases 1 to 3: a frame whose code names no command is answered BAD_COMMAND, one with a wrong number of argument
bytes BAD_ARGUMENT, and one of the right number that R184 does not accept BUSY; none has any effect. All sixteen commands.
R181: a start condition with the part's own address, 0x58 plus the sampled MADR straps, makes a transaction active, whatever
it was; with another address, the general call among them, the part ignores the transaction. The end of a frame that a reset
completion cut off or that is addressed elsewhere does nothing. How a frame carries its own start is the model's reading
(log 12). -/
def Obligations.FramesRefusedWithoutEffect : Prop :=
  ∀ (args : List Byte) (s : State),
    (s.frameEnds →
      (∀ code, code ∉ commandCodes →
        exec (.unknownCommand code args) s = .next { s with maint := s.maint.answered .badCommand [] }) ∧
      ∀ n : CommandName,
        (args.length ≠ argCount n → exec (n.frame args) s = .next { s with maint := s.maint.answered .badArgument [] }) ∧
        (args.length = argCount n → ¬acceptedIn s n →
          exec (n.frame args) s = .next { s with maint := s.maint.answered .busy [] })) ∧
    (∀ address : BitVec 7,
      (address.toNat = 0x58 + s.maint.madr.toNat →
        exec (.startCondition address) s = .next { s with maint := { s.maint with transaction := .active } }) ∧
      (address.toNat ≠ 0x58 + s.maint.madr.toNat →
        exec (.startCondition address) s = .next { s with maint := { s.maint with transaction := .ignored } })) ∧
    (s.maint.transaction = .ignored → (∀ n : CommandName, exec (n.frame args) s = .next s) ∧
      ∀ code, exec (.unknownCommand code args) s = .next s)

/-- R185, R187, R188, R191: STATUS reports the state as it stands and clears PROTOCOL_FAULT; LOSS READ returns the record, which
stays, and clears MEDIA_LOSS; COUNTERS returns the eight counters and CLEAR COUNTERS sets them to 0; RESET CAUSE returns the
record (R177). Every answer is written out byte by byte, at the offsets of Formats and Signals. Nothing else changes. -/
def Obligations.ReportCommandsAnswerAndClear : Prop :=
  ∀ s : State, s.frameEnds →
    let loss : List Byte := match s.maint.loss with
      | none => [0, 0, 0, 0, 0, 0, 0]
      | some l => le16 l.page ++ le32 l.time.toNat ++ [BitVec.ofNat 8 l.count]
    exec (.status []) s = .next { s with maint := { (s.maint.answered .ok s.statusLayout) with
      flags := { s.maint.flags with protocolFault := false } } } ∧
    exec (.resetCause []) s = .next { s with maint := s.maint.answered .ok s.sup.record.layout } ∧
    (s.mounted →
      exec (.lossRead []) s = .next { s with maint := { (s.maint.answered .ok loss) with
        flags := { s.maint.flags with mediaLoss := false } } } ∧
      exec (.counters []) s = .next { s with maint := s.maint.answered .ok s.maint.counters.layout } ∧
      exec (.clearCounters []) s = .next { s with maint := { (s.maint.answered .ok []) with counters :=
        { programs := 0, erases := 0, mediaErrors := 0, mergeLosses := 0, guardRefusals := 0, againResponses := 0,
          pagesRetired := 0, pfwGlitches := 0 } } })

/-- R159: CAPTURE and WINDOW READ return the capture and the record of the window as they stand and change nothing; CLEAR
CAPTURE clears that capture, and the records, the other captures and GUARD_REFUSALS stay. A number above 7 is BAD_ARGUMENT
(R190). The 30 bytes of a capture (R155) and the 21 of a window record (R150, R200) are written out at the offsets of
Formats and Signals. -/
def Obligations.CaptureAndWindowCommands : Prop :=
  ∀ (n : Byte) (s : State), s.frameEnds → s.mounted →
    (∀ w c, s.guard.windows[n.toNat]? = some w → s.guard.captures[n.toNat]? = some c → n.toNat < 8 →
      exec (.capture [n]) s = .next { s with maint := s.maint.answered .ok c.layout } ∧
      exec (.windowRead [n]) s = .next { s with maint := s.maint.answered .ok w.layout } ∧
      exec (.clearCapture [n]) s = .next { s with
        maint := s.maint.answered .ok [],
        guard := { s.guard with captures := s.guard.captures.set n.toNat { fields := none, hits := 0 } } }) ∧
    (8 ≤ n.toNat →
      exec (.capture [n]) s = .next { s with maint := s.maint.answered .badArgument [] } ∧
      exec (.windowRead [n]) s = .next { s with maint := s.maint.answered .badArgument [] } ∧
      exec (.clearCapture [n]) s = .next { s with maint := s.maint.answered .badArgument [] })

/-- R160: WINDOW SET with an in-range record replaces the window's record and clears its capture, and the other windows and
captures, the buffer and the active configuration stay; a record out of range is BAD_ARGUMENT and changes nothing. So is a
number above 7 (R190). -/
def Obligations.WindowSetReplacesWindow : Prop :=
  ∀ (n : Byte) (bytes : List Byte) (s : State), s.frameEnds → s.mounted → bytes.length = 21 →
    (n.toNat < 8 → ∀ w, decodeWindow bytes = some w →
      exec (.windowSet (n :: bytes)) s = .next { s with
        maint := s.maint.answered .ok [],
        guard := { windows := s.guard.windows.set n.toNat w,
                   captures := s.guard.captures.set n.toNat { fields := none, hits := 0 } } }) ∧
    (8 ≤ n.toNat ∨ decodeWindow bytes = none →
      exec (.windowSet (n :: bytes)) s = .next { s with maint := s.maint.answered .badArgument [] })

/-- R150, R200: the 21 bytes of every window record in range, at the offsets of Formats and Signals, decode to that record: no bit
of a field is dropped. 21 bytes decode exactly where enabled, action, pattern and alert hold 0 or 1, kinds 1 to 3, and low and
high line at most 262143; what decodes has those bytes. Every other record is out of range. -/
def Obligations.WindowRecordRoundTrip : Prop :=
  (∀ w : Window, encodeWindow w = w.layout ∧ (w.low ≤ 262143 → w.high ≤ 262143 → decodeWindow w.layout = some w)) ∧
  ∀ b : List Byte, b.length = 21 →
    (∀ w, decodeWindow b = some w → windowInRange b ∧ w.layout = b) ∧ (decodeWindow b = none → ¬windowInRange b)

/-- R189: MAP QUERY of a page below L returns map[X], the state of the page named, and number, state, merge status and hold
reason of each slot that holds X; X at L or above, or no L in force, is BAD_ARGUMENT. It changes nothing. -/
def Obligations.MapQueryReportsThePage : Prop :=
  ∀ (x0 x1 : Byte) (s : State), s.frameEnds → s.mounted →
    let x := x0.toNat + 256 * x1.toNat
    let holding := (List.range 16).filter (fun i => (s.slot i).page = some x)
    let mapped : List Byte := match s.map x with
      | none => [0xFF, 0xFF, 0xFF]
      | some p => le16 p ++ [(s.pageEntry p).state.code]
    let slots : List Byte := (holding.map (fun i => [BitVec.ofNat 8 i, (s.slot i).state.code,
      match (s.slot i).merge with
      | some .noneNeeded => 0
      | some .deferred => 1
      | some .reading => 2
      | some .complete => 3
      | none => 0xFF,
      match (s.slot i).hold with
      | some .media => 0
      | some .noSpace => 1
      | none => 0xFF])).flatten
    let report := mapped ++ [BitVec.ofNat 8 holding.length] ++ slots
    (∀ l, s.xlat.logicalPages = some l → x < l →
      exec (.mapQuery [x0, x1]) s = .next { s with maint := s.maint.answered .ok report }) ∧
    ((∀ l, s.xlat.logicalPages = some l → l ≤ x) →
      exec (.mapQuery [x0, x1]) s = .next { s with maint := s.maint.answered .badArgument [] })

/-- R69, R191: FLUSH in SERVING or READ_ONLY is answered OK in the event that seals every OPEN slot; where no slot is OPEN and
nothing is due, the answer is all that changes. -/
def Obligations.FlushSealsAndAnswersOk : Prop :=
  ∀ s : State, s.frameEnds → s.ready_ →
    let a : State := { s with maint := { s.maint with transaction := .none } }
    exec (.flush []) s = .next (finish a { sealAllOpen a with maint := s.maint.answered .ok [] }) ∧
    ((∀ i, (s.slot i).state ≠ .opened) → s.nothingDue → s.seq.phase ≠ .issued ∨ s.seq.inFlight ≠ none →
      exec (.flush []) s = .next { s with maint := s.maint.answered .ok [] })

/-- R184, R192: CONFIG LOAD copies the active configuration into the buffer, or answers BUSY where none has been selected; CONFIG
READ returns 16 bytes from an offset that is a multiple of 16, while a commit is BUSY as well; CONFIG WRITE replaces them; any
other offset is BAD_ARGUMENT. -/
def Obligations.ConfigBufferCommands : Prop :=
  ∀ (o : Byte) (bytes : List Byte) (s : State), s.frameEnds → s.mounted → bytes.length = 16 →
    (o.toNat % 16 = 0 → exec (.configRead [o]) s =
      .next { s with maint := s.maint.answered .ok ((s.maint.buffer.drop o.toNat).take 16) }) ∧
    (o.toNat % 16 ≠ 0 → exec (.configRead [o]) s = .next { s with maint := s.maint.answered .badArgument [] }) ∧
    (s.maint.commitState ≠ .busy →
      (∀ r, s.maint.active = some r →
        exec (.configLoad []) s = .next { s with maint := { (s.maint.answered .ok []) with buffer := r } }) ∧
      (s.maint.active = none → exec (.configLoad []) s = .next { s with maint := s.maint.answered .busy [] }) ∧
      (o.toNat % 16 = 0 → exec (.configWrite (o :: bytes)) s = .next { s with
        maint := { (s.maint.answered .ok []) with buffer := overlay o.toNat bytes s.maint.buffer } }) ∧
      (o.toNat % 16 ≠ 0 →
        exec (.configWrite (o :: bytes)) s = .next { s with maint := s.maint.answered .badArgument [] }))

/-- R194: CONFIG COMMIT of a buffer whose fields are in range, with a generation to follow: the target is an INVALID copy,
A first, else the one of the lower generation, else B; buffer and record take signature, version, generation and CRC; BUSY
in phase ERASE; the ERASE of the target's page is passed. Otherwise BAD_ARGUMENT and FAILED. That a waiting operation
takes the arrival counter's value before its advance is the model's choice (log 31). -/
def Obligations.ConfigCommitBeginsOrFails : Prop :=
  ∀ (n : Nat) (cs : CopyStatus) (s : State), s.frameEnds → s.ready_ → s.maint.commitState ≠ .busy →
    s.mount.arraySize = some n → s.maint.copyStatus = some cs →
    let inUse : Word32 := match cs.inUse with
      | none => 0
      | some .a => cs.a.getD 0
      | some .b => cs.b.getD 0
    let target : Copy := match cs.a, cs.b with
      | none, _ => .a
      | some _, none => .b
      | some ga, some gb => if ga < gb then .a else .b
    let record := stampRecord (inUse + 1) s.maint.buffer
    ((configFields n s.maint.buffer).isSome = true → inUse < 4294967295 → s.linkFree →
      exec (.configCommit []) s = .next { s with
        maint := { (s.maint.answered .ok []) with
          buffer := record, commitState := .busy,
          job := some { phase := .erase, target := target, record := record, generation := inUse + 1 } },
        seq := s.seq.asked (.erase (match target with
          | .a => 0
          | .b => 1)) .configCommit 5 25000 s.clock }) ∧
    ((configFields n s.maint.buffer).isSome = false ∨ 4294967295 ≤ inUse →
      exec (.configCommit []) s =
        .next { s with maint := { (s.maint.answered .badArgument []) with commitState := .failed } })

/-- R117, R194: a buffer whose fields are in range, once stamped with a generation, passes the whole validity test for the same
array, and holds that generation. The stamp writes signature, format version, generation and CRC and leaves the other bytes
(R194). The fields are in range exactly where D, H, Q, L, W, T_r and the eight window records are (R117, R200), and are read at the
offsets of Formats and Signals. A copy is valid where its read PASSed, it holds the signature UFSB, version 1 and the CRC of
offsets 0 to 251, and its fields are in range (R117). -/
def Obligations.StampedRecordIsValid : Prop :=
  (∀ (n : Nat) (g : Word32) (buffer : List Byte) (f : ConfigFields), buffer.length = 256 → configFields n buffer = some f →
    validRecord n (stampRecord g buffer) = some { f with generation := g }) ∧
  (∀ (g : Word32) (b : List Byte), b.length = 256 →
    let body := [0x55, 0x46, 0x53, 0x42, 1] ++ (b.drop 5).take 3 ++ le32 g.toNat ++ (b.drop 12).take 240
    stampRecord g b = body ++ le32 (crc32 body).toNat) ∧
  ∀ (n : Nat) (b : List Byte), b.length = 256 →
    (configFields n b = none → ¬recordInRange n b) ∧
    (∀ f, configFields n b = some f → recordInRange n b ∧
      f.d = (byteAt b 5).toNat ∧ f.h = (byteAt b 6).toNat ∧ f.q = (byteAt b 7).toNat ∧
      le32 f.generation.toNat = (b.drop 8).take 4 ∧ le16 f.l = (b.drop 12).take 2 ∧ le16 f.w = (b.drop 14).take 2 ∧
      f.tr = (byteAt b 16).toNat ∧ f.windows.map Window.layout = (List.range 8).map (windowBytes b)) ∧
    (∀ f, validCopy n .pass b = some f ↔
      b.take 5 = [0x55, 0x46, 0x53, 0x42, 1] ∧ b.drop 252 = le32 (crc32 (b.take 252)).toNat ∧ configFields n b = some f) ∧
    validCopy n .fail b = none

/-- R175: SOFT RESET, answered OK: in SERVING or READ_ONLY the entry into DRAINING(MAINT), the pending reset MAINTENANCE
and every OPEN slot sealed; in a drain with no reset pending only the pending reset, with one pending nothing; in HALTED
and FAULT the reset completes at once. D, H, W and the records that wait on the link after a reset are the model's choice
(log 8, log 11), and so is that the us count of the clock runs on where the mount begins (log 9, unsafe). That a waiting
operation takes the arrival counter's value before its advance is the model's choice (log 31). -/
def Obligations.SoftResetByOperatingState : Prop :=
  ∀ s : State, s.frameEnds →
    let a : State := { s with maint := { s.maint with transaction := .none } }
    let m := s.maint.answered .ok []
    (s.ready_ → exec (.softReset []) s = .next (finish a (sealAllOpen { s with
      maint := m,
      sup := { s.sup with state := .draining, cause := some .maint, pendingReset := some .maintenance,
                          drainClock := some 0 } }))) ∧
    (s.sup.state = .draining → s.sup.pendingReset = none →
      exec (.softReset []) s =
        .next (finish a { s with maint := m, sup := { s.sup with pendingReset := some .maintenance } })) ∧
    (s.sup.state = .draining → s.sup.pendingReset ≠ none → exec (.softReset []) s = .next (finish a { s with maint := m })) ∧
    (s.sup.state = .halted ∨ s.sup.state = .fault →
      exec (.softReset []) s = .next (s.resetDone
        { cause := .maintenance, outcome := .notAttempted, lost := s.slotsInUse, duration := 0 }
        { s.maintReset with transaction := .none }))

/-! ## Sideband, timers and resets -/

/-- R168: the moves of the power warning at the edges of PFW_N: CLEAR becomes QUALIFYING at a fall, QUALIFYING becomes CLEAR at
a rise with one advance of PFW_GLITCHES, ASSERTED becomes CLEAR at a rise. Outside HALTED nothing else moves; in HALTED the
recovery also gives the return state (R172). -/
def Obligations.PowerWarningFollowsThePin : Prop :=
  ∀ s : State,
    exec .pfwNFall s = .next { s with
      pins := { s.pins with pfwN := false },
      sup := { s.sup with warning := match s.sup.warning with
        | .clear => .qualifying 0
        | w => w } } ∧
    (s.sup.warning = .clear → exec .pfwNRise s = .next { s with pins := { s.pins with pfwN := true } }) ∧
    (∀ e, s.sup.warning = .qualifying e → exec .pfwNRise s = .next { s with
      pins := { s.pins with pfwN := true }, sup := { s.sup with warning := .clear },
      maint := { s.maint with counters := { s.maint.counters with
        pfwGlitches := satAdvance s.maint.counters.pfwGlitches } } }) ∧
    (s.sup.warning = .asserted →
      let a : State := { s with pins := { s.pins with pfwN := true }, sup := { s.sup with warning := .clear } }
      (s.sup.state ≠ .halted → exec .pfwNRise s = .next a) ∧
      (∀ r, s.sup.state = .halted → s.sup.returnTo = some r →
        let back : OperatingState := match r with
          | .serving => .serving
          | .readOnly => .readOnly
        exec .pfwNRise s = .next (finish a { a with sup := { a.sup with returnTo := none, state := back } })))

/-- R169, R170: the qualification: the warning becomes ASSERTED; in SERVING and READ_ONLY DRAINING(POWER) begins with the
state left as return state and every OPEN slot sealed, and where nothing is staged the drain ends in its entry event in
HALTED; in every other state nothing else changes. Without a QUALIFYING warning there is no qualification. That the
command does not look at the elapsed time is the model's choice (log 3). -/
def Obligations.QualificationByOperatingState : Prop :=
  ∀ s : State,
    ((∀ e, s.sup.warning ≠ .qualifying e) → exec .qualification s = .next s) ∧
    ∀ e, s.sup.warning = .qualifying e →
      let a : State := { s with sup := { s.sup with warning := .asserted } }
      let left : ReturnState := if s.sup.state = .readOnly then .readOnly else .serving
      let d : State := { s with sup := { s.sup with
        warning := .asserted, state := .draining, cause := some .power, returnTo := some left, drainClock := some 0 } }
      (¬s.ready_ → exec .qualification s = .next a) ∧
      (s.ready_ → exec .qualification s = .next (finish a (sealAllOpen d))) ∧
      (s.ready_ → s.anyStaged = false → s.sup.pendingReset = none → d.reexamine = none → s.head = none →
        s.port.linkQueue = [] → (s.seq.phase ≠ .issued ∨ s.seq.inFlight ≠ none) →
        exec .qualification s = .next { s with sup := { s.sup with
          warning := .asserted, state := .halted, cause := none, returnTo := some left, drainClock := none,
          resetTimer := none } })

/-- R173: the falling edge of RESET_N: with T_r 0, and in HALTED, FAULT, MOUNTING and RESETTING, reset completion at once;
in SERVING and READ_ONLY DRAINING(RESET) begins with the timer; in a drain with no reset pending the reset becomes pending
and the timer starts; with MAINTENANCE pending a stopped timer starts. A line that is low has no edge. That the event brings
the level of the MADR straps, which a reset completion samples (R202), and D, H, W and the records that wait on the link after
a reset are the model's choice (log 6, log 8, log 11). -/
def Obligations.ResetLineFallByOperatingState : Prop :=
  ∀ (madr : BitVec 2) (s : State),
    let w : State := { s with pins := { s.pins with madr := madr } }
    let a : State := { s with pins := { s.pins with madr := madr, resetN := false } }
    let record : ResetRecord :=
      { cause := .resetLine, outcome := .notAttempted, lost := s.slotsInUse, duration := 0 }
    (s.pins.resetN = false → exec (.resetNFall madr) s = .next w) ∧
    (s.pins.resetN = true →
      (s.sup.resetLimit = 0 ∨ s.sup.state = .halted ∨ s.sup.state = .fault ∨ s.sup.state = .mounting ∨
          s.sup.state = .resetting → exec (.resetNFall madr) s = .next (a.blocksReset record a.maintReset)) ∧
      (s.sup.resetLimit ≠ 0 →
        (s.ready_ → exec (.resetNFall madr) s = .next (finish w (sealAllOpen { a with sup := { s.sup with
          state := .draining, cause := some .reset, pendingReset := some .resetLine, resetTimer := some 0,
          drainClock := some 0 } }))) ∧
        (s.sup.state = .draining →
          (s.sup.pendingReset = none → exec (.resetNFall madr) s = .next (finish w { a with sup := { s.sup with
            pendingReset := some .resetLine, resetTimer := some 0 } })) ∧
          (s.sup.pendingReset = some .maintenance → s.sup.resetTimer = none →
            exec (.resetNFall madr) s = .next (finish w { a with sup := { s.sup with resetTimer := some 0 } })) ∧
          (s.sup.pendingReset = some .resetLine ∨ s.sup.pendingReset = some .maintenance ∧ s.sup.resetTimer ≠ none →
            exec (.resetNFall madr) s = .next (finish w a)))))

/-- R178, R113: the rising edge in RESETTING begins the mount, and the records that waited on the link arrive: the first
well-formed one is answered AGAIN and holds the rest (R136 to R138); in every other state the level changes and nothing
else. That the us count of the clock goes on, that the event brings the level of the MADR straps, and the list of waiting
records are the model's choice (log 9, log 6, log 11). That a waiting operation takes the arrival counter's value before
its advance is the model's choice (log 31). -/
def Obligations.ResetLineRiseBeginsTheMount : Prop :=
  ∀ (madr : BitVec 2) (s : State),
    let a : State := { s with pins := { s.pins with madr := madr, resetN := true } }
    (s.sup.state ≠ .resetting → exec (.resetNRise madr) s = .next a) ∧
    (s.sup.state = .resetting → s.port.table = [] → s.port.channel = .idle → s.port.againOwed = none →
      exec (.resetNRise madr) s = .next (State.waitedArrive s.port.linkQueue a.mountBegun))

/-- R176, R177: a power-on reset completes at once from any state: every block takes its reset values, the record holds
POWER_ON, NOT_ATTEMPTED, 0 lost slots and duration 0, counters and flags are cleared, the MADR straps are sampled, and the
mount begins where RESET_N is high. D, H, W and the records that wait on the link after a reset, that the event brings the
level of the straps, and what is left of a maintenance transaction are the model's choice (log 8, log 11, log 6, log 12),
and so is that the us count of the clock runs on where the mount begins (log 9, unsafe). That a waiting operation takes
the arrival counter's value before its advance is the model's choice (log 31). -/
def Obligations.PowerOnResetSetsEveryBlock : Prop :=
  ∀ (madr : BitVec 2) (s : State),
    exec (.powerOnReset madr) s = .next (({ s with pins := { s.pins with madr := madr } } : State).resetDone
      { cause := .powerOn, outcome := .notAttempted, lost := 0, duration := 0 }
      { lastResponse := none, buffer := List.replicate 256 0, commitState := .idle, job := none, copyStatus := none,
        active := none,
        counters := { programs := 0, erases := 0, mediaErrors := 0, mergeLosses := 0, guardRefusals := 0,
                      againResponses := 0, pagesRetired := 0, pfwGlitches := 0 },
        flags := { configInvalid := false, protocolFault := false, strapFault := false, mediaLoss := false },
        loss := none, madr := madr,
        transaction := match s.maint.transaction with
          | .none => .none
          | _ => .ignored })

/-- R174, R177: the expiry of the reset timer in DRAINING completes the reset at once: cause the pending reset, outcome
TIMED_OUT, lost slots every slot not FREE, duration the drain clock. A timer that is not running does not expire. That the
command does not look at the count, D, H, W and the waiting records after a reset, are the model's choice (log 3, log 8,
log 11), and so is that the us count of the clock runs on where the mount begins (log 9, unsafe). That a waiting operation
takes the arrival counter's value before its advance is the model's choice (log 31). -/
def Obligations.ResetTimerExpiryTimesOut : Prop :=
  ∀ s : State,
    (s.sup.state ≠ .draining ∨ s.sup.resetTimer = none → exec .resetTimerExpiry s = .next s) ∧
    (∀ n c, s.sup.state = .draining → s.sup.resetTimer = some n → s.sup.pendingReset = some c →
      exec .resetTimerExpiry s = .next (s.resetDone
        { cause := match c with
            | .resetLine => .resetLine
            | .maintenance => .maintenance,
          outcome := .timedOut, lost := s.slotsInUse, duration := s.sup.drainClock.getD 0 } s.maintReset))

/-- R8, R9, R13 to R15: the expiry of a slot's write-back timer in SERVING or READ_ONLY seals the slot where it is OPEN:
SEALED, at the tail of the eviction queue, with the merge status of the first case of R13 that applies: NONE-NEEDED where
the map is full; DEFERRED with a WRITING partner; COMPLETE from the image of a HELD partner, from the cache entry of the
page, which is touched (R43), or from the erased value of an UNMAPPED page; READING with a pin and a PAGE READ of the page
that map[X] names. A slot that is not OPEN is passed over. `sealSlot` is the seal of every other cause too (R7, R10, R11), in
every operating state that has OPEN slots, DRAINING among them (R170).
That the command does not look at the age is the model's choice (log 3). That a waiting operation takes the arrival
counter's value before its advance is the model's choice (log 31). -/
def Obligations.WriteBackTimerSealsSlot : Prop :=
  ∀ (i x : Nat) (s : State),
    ((s.slot i).state ≠ .opened ∨ ¬s.ready_ → exec (.writeBackTimerExpiry i) s = .next s) ∧
    ((s.slot i).state ≠ .opened → sealSlot i s = s) ∧
    ((s.slot i).state = .opened → (s.slot i).page = some x →
      let sl := s.slot i
      let partner := fun (st : SlotState) => lowestSlot (fun j => j ≠ i ∧ (s.slot j).page = some x ∧ (s.slot j).state = st)
      let is := fun (t : State) => sealSlot i s = t ∧ (s.ready_ → exec (.writeBackTimerExpiry i) s = .next (finish s t))
      let sealed := fun (rec : Slot) => ({ s with
        staging := s.staging.withSlot i { rec with state := .sealed },
        wb := { s.wb with eviction := s.wb.eviction ++ [i] } } : State)
      let filled := fun (base : List Byte) => sealed { sl with
        image := fillMissing sl.valid sl.image base, valid := List.replicate 256 true, merge := some .complete,
        mergeRead := none }
      (isFull sl.valid = true → is (sealed { sl with merge := some .noneNeeded })) ∧
      (isFull sl.valid = false →
        (∀ j, partner .writing j → is (sealed { sl with merge := some .deferred })) ∧
        ((∀ j, ¬partner .writing j) →
          (∀ j, partner .held j → is (filled (s.slot j).image)) ∧
          ((∀ j, ¬partner .held j) →
            (∀ e, cacheFind x s.readPath.cache = some e → is { filled e.image with
              readPath := { s.readPath with cache := cacheTouch x s.readPath.cache } }) ∧
            (cacheFind x s.readPath.cache = none →
              (s.map x = none → is (filled (List.replicate 256 0xFF))) ∧
              (∀ p, s.map x = some p → s.linkFree → s.mounted → s.sup.state ≠ .fault →
                is { sealed { sl with merge := some .reading, mergeRead := some { page := p, number := 1 } } with
                  xlat := s.xlat.withPage p { s.pageEntry p with pins := (s.pageEntry p).pins + 1 },
                  seq := s.seq.asked (.pageRead p) (.mergeRead i) 6 200 s.clock }))))))

/-! ## Array completions -/

/-- R14, R16, R20: a fill writes the missing offsets only: every offset of the valid map keeps its byte, every other takes the
byte of the base. -/
def Obligations.FillWritesMissingOffsetsOnly : Prop :=
  ∀ (valid : List Bool) (image base : List Byte), valid.length = image.length → base.length = image.length →
    ∀ k < image.length,
      (fillMissing valid image base)[k]? = if valid[k]? = some true then image[k]? else base[k]?

/-- R16 to R18: the completion of the merge read of slot i: good data fill the slot, COMPLETE, the pin released; a first
failure with a full map ends the merge without a repeat, and otherwise repeats it with the pin kept; a second failure
fills with 0xFF and reports a loss where at least one byte was missing. That a waiting operation takes the arrival
counter's value before its advance is the model's choice (log 31). -/
def Obligations.MergeReadCompletion : Prop :=
  ∀ (i p : Nat) (f : InFlight) (st : ArrayStatus) (data spare : List Byte) (s : State), s.serving f →
    f.requester = .mergeRead i → f.op = .pageRead p →
    let sl := s.slot i
    let filled := fun (base : List Byte) => s.staging.withSlot i { sl with
      image := fillMissing sl.valid sl.image base, valid := List.replicate 256 true, merge := some .complete,
      mergeRead := none }
    (goodPage st data spare = true →
      exec (.mergeReadCompletion st data spare) s = .next (finish s { s with
        seq := s.seq.released, staging := filled data, xlat := s.unpinned p })) ∧
    (goodPage st data spare = false → sl.mergeRead = some { page := p, number := 1 } → isFull sl.valid = true →
      exec (.mergeReadCompletion st data spare) s = .next (finish s { s with
        seq := s.seq.released, xlat := s.unpinned p,
        staging := s.staging.withSlot i { sl with merge := some .complete, mergeRead := none } })) ∧
    (goodPage st data spare = false → sl.mergeRead = some { page := p, number := 1 } → isFull sl.valid = false →
      exec (.mergeReadCompletion st data spare) s = .next (finish s { s with
        seq := s.seq.released.joined (.pageRead p) (.mergeRead i),
        staging := s.staging.withSlot i { sl with mergeRead := some { page := p, number := 2 } } })) ∧
    (goodPage st data spare = false → sl.mergeRead = some { page := p, number := 2 } →
      ∀ x, sl.page = some x →
      let lost : Maintenance := { s.maint with
        counters := { s.maint.counters with mergeLosses := satAdvance s.maint.counters.mergeLosses },
        loss := some { page := x, time := s.clock.ms, count := missingCount sl.valid },
        flags := { s.maint.flags with mediaLoss := true } }
      exec (.mergeReadCompletion st data spare) s = .next (finish s { s with
        seq := s.seq.released, staging := filled (List.replicate 256 0xFF), xlat := s.unpinned p,
        maint := if missingCount sl.valid = 0 then s.maint else lost }))

/-- R33 to R35, R41: the completion of the demand read of page p: good data answer every attached record OK in list order,
the needed offsets from the data and the others from the snapshot, and enter the cache where map[X] still names p; a first bad page is read again, pin and
records kept; a second answers every record FAIL MEDIA and advances MEDIA_ERRORS. At its end the pin is lowered. That the
attached records are those of the page is the model's reading (log 18). That a waiting operation takes the arrival
counter's value before its advance is the model's choice (log 31). -/
def Obligations.DemandReadCompletion : Prop :=
  ∀ (p n : Nat) (f : InFlight) (st : ArrayStatus) (data spare : List Byte) (s : State), s.serving f →
    f.requester = .demandRead → f.op = .pageRead p →
    s.readPath.demands.find? (fun d => d.phys = p) = some { phys := p, number := n } →
    let attached := s.readPath.pendingReads.filter (fun r => r.phys = p)
    let ended : ReadPath := { s.readPath with
      pendingReads := s.readPath.pendingReads.filter (fun r => r.phys ≠ p),
      demands := s.readPath.demands.filter (fun d => d.phys ≠ p) }
    (goodPage st data spare = true →
      let cache := match attached with
        | r :: _ => if s.map r.page = some p then cacheInsert r.page data s.readPath.cache else s.readPath.cache
        | [] => s.readPath.cache
      exec (.demandReadCompletion st data spare) s = .next (finish s { s with
        seq := s.seq.released, xlat := s.unpinned p, readPath := { ended with cache := cache },
        port := attached.foldl (fun q r => q.answer r.tag .ok (r.answeredFrom data)) s.port })) ∧
    (goodPage st data spare = false → n = 1 →
      exec (.demandReadCompletion st data spare) s = .next (finish s { s with
        seq := s.seq.released.joined (.pageRead p) .demandRead,
        readPath := { s.readPath with
          demands := s.readPath.demands.map (fun d => if d.phys = p then { d with number := 2 } else d) } })) ∧
    (goodPage st data spare = false → n = 2 →
      exec (.demandReadCompletion st data spare) s = .next (finish s { s with
        seq := s.seq.released, xlat := s.unpinned p, readPath := ended,
        port := attached.foldl (fun q r => q.answer r.tag (.fail .media) []) s.port,
        maint := { s.maint with counters := { s.maint.counters with
          mediaErrors := satAdvance s.maint.counters.mediaErrors } } }))

/-- R55, R56: a passed PAGE PROGRAM passes the MARK of the commit marker; a passed MARK commits the slot: map[X] names the
target, which is LIVE, the page that it named is STALE at the tail of the erase queue, the image enters the cache, the
partner is served, the pair leaves every wait set and the barriers left with none are answered OK, the slot is FREE,
PROGRAMS advances, the engine is IDLE. That a waiting operation takes the arrival counter's value before its advance is
the model's choice (log 31). -/
def Obligations.ProgramPassedAndCommit : Prop :=
  ∀ (i x : Nat) (t : Target) (f : InFlight) (s : State), s.serving f → f.requester = .writeBack →
    (s.slot i).page = some x → (s.slot i).target = some t →
    (s.wb.phase = .program i → f.op.isProgram = true →
      exec (.pageProgramCompletion .pass) s = .next (finish s { s with
        wb := { s.wb with phase := .commitMark i },
        seq := s.seq.released.joined (.mark t.page .commit 0x00) .writeBack })) ∧
    (s.wb.phase = .commitMark i → f.op.isMark = true → s.map x ≠ some t.page →
      let live := s.xlat.withPage t.page { s.pageEntry t.page with state := .live }
      let committed : Translation := match s.map x with
        | some q => { (live.withPage q { s.pageEntry q with state := .stale }) with
          eraseQueue := s.xlat.eraseQueue ++ [q], remap := tableSet x t.page s.xlat.remap }
        | none => { live with remap := tableSet x t.page s.xlat.remap }
      let waits := s.wb.barriers.map (fun b => { b with
        waitSet := b.waitSet.filter (fun pr => pr ≠ (i, (s.slot i).incarnation)) })
      exec (.commitMarkCompletion .pass) s = .next (finish s { s with
        seq := s.seq.released, xlat := committed,
        readPath := { s.readPath with cache := cacheInsert x (s.slot i).image s.readPath.cache },
        staging := (s.staging.partnerServed s i x (s.slot i).image).withSlot i (Slot.freed (s.slot i).incarnation),
        wb := { s.wb with phase := .idle, barriers := waits.filter (fun b => !b.waitSet.isEmpty) },
        port := (waits.filter (fun b => b.waitSet.isEmpty)).foldl (fun q b => q.answer b.tag .ok []) s.port,
        maint := { s.maint with counters := { s.maint.counters with
          programs := satAdvance s.maint.counters.programs } } }))

/-- R58, R59: a failed attempt advances the attempt count. With a page in the free pool the failed page is retired and the
slot goes on with that page and the next sequence number, the retire mark ahead of the PAGE PROGRAM; where a page must be
waited for the slot is kept in PAGE WAIT; at the fourth failure, or with no page to come, the slot is HELD, its page
retired, the barriers that wait on it answered FAIL LOST, and READ_ONLY asked for. That the sequence counter stays at its
greatest value is the model's choice (log 16). That a waiting operation takes the arrival counter's value before its
advance is the model's choice (log 31). -/
def Obligations.FailedAttemptRetriesOrHolds : Prop :=
  ∀ (i x n : Nat) (t : Target) (f : InFlight) (c : Instr) (s : State), s.serving f → f.requester = .writeBack →
    i < s.staging.slots.length → (s.slot i).page = some x → (s.slot i).target = some t → (s.slot i).attempts = some n →
    (s.wb.phase = .program i ∧ f.op.isProgram = true ∧ c = .pageProgramCompletion .fail ∨
      s.wb.phase = .commitMark i ∧ f.op.isMark = true ∧ c = .commitMarkCompletion .fail) →
    let u : State := { s with
      seq := s.seq.released, staging := s.staging.withSlot i { s.slot i with attempts := some (n + 1) } }
    (∀ q rest, n + 1 < 4 → s.xlat.freePool = q :: rest → q ≠ t.page →
      exec c s = .next (finish s (u.retried i x t.page q rest))) ∧
    (n + 1 < 4 → s.xlat.freePool = [] → s.xlat.erase ≠ .idle ∨ s.xlat.eraseQueue ≠ [] →
      exec c s = .next (finish s { u with wb := { s.wb with phase := .pageWaitRetry i } })) ∧
    (n + 1 < 4 → s.xlat.freePool = [] → s.xlat.erase = .idle → s.xlat.eraseQueue = [] →
      exec c s = .next (finish s ((u.withRetired t.page).heldAs i x .noSpace))) ∧
    (4 ≤ n + 1 → exec c s = .next (finish s ((u.withRetired t.page).heldAs i x .media)))

/-- R80, R83, R84: a retire mark's completion is noted and dropped; a passed ERASE advances ERASES and passes the clean
mark; a passed clean mark makes the page FREE at the tail of the pool; a failure of either makes it BAD, passes its retire
mark and advances PAGES_RETIRED, and asks for READ_ONLY where the bad-page reserve holds. That a waiting operation takes
the arrival counter's value before its advance is the model's choice (log 31). -/
def Obligations.EraseEngineCompletions : Prop :=
  ∀ (p : Nat) (st : ArrayStatus) (f : InFlight) (s : State), s.serving f →
    (f.requester = .retireMark →
      exec (.retireMarkCompletion st) s = .next (finish s { s with seq := s.seq.released })) ∧
    (f.requester = .eraseEngine →
      let u : State := { s with
        seq := s.seq.released.joined (.mark p .retire 0x00) .retireMark,
        xlat := { (s.retired p) with erase := .idle },
        maint := { s.maint with counters := { s.maint.counters with
          pagesRetired := satAdvance s.maint.counters.pagesRetired } } }
      let retired : State := { u with sup := if u.badPageReserve then s.sup.askedReadOnly else s.sup }
      (s.xlat.erase = .erase p → f.op = .erase p →
        exec (.eraseCompletion .pass) s = .next (finish s { s with
          seq := s.seq.released.joined (.mark p .clean 0x5A) .eraseEngine,
          xlat := { s.xlat with erase := .cleanMark p },
          maint := { s.maint with counters := { s.maint.counters with
            erases := satAdvance s.maint.counters.erases } } }) ∧
        exec (.eraseCompletion .fail) s = .next (finish s retired)) ∧
      (s.xlat.erase = .cleanMark p → f.op.isMark = true →
        exec (.cleanMarkCompletion .pass) s = .next (finish s { s with
          seq := s.seq.released,
          xlat := { s.xlat.withPage p { s.pageEntry p with state := .free } with
            erase := .idle, freePool := s.xlat.freePool ++ [p] } }) ∧
        exec (.cleanMarkCompletion .fail) s = .next (finish s retired)))

/-- R114, R115: the completion of the mount's READY WAIT makes the strap check with the ASZ level sampled now: codes 0, 1
and 2 name 1024, 2048 and 4096 pages, and the read of copy A is passed; code 3 latches STRAP_FAULT and gives FAULT. That
the event carries the strap level is the model's choice (log 6). That a waiting operation takes the arrival counter's
value before its advance is the model's choice (log 31). The entry into FAULT answers pending reads before barriers, the
model's choice (log 25). -/
def Obligations.ReadyWaitMakesTheStrapCheck : Prop :=
  ∀ (asz : BitVec 2) (f : InFlight) (s : State), s.serving f → f.requester = .mount → f.op = .readyWait →
    s.mount.phase = .readyWait →
    (asz ≠ 3 → exec (.readyWaitCompletion asz) s = .next (finish s { s with
      seq := s.seq.released.joined (.pageRead 0) .mount,
      mount := { s.mount with phase := .configA, arraySize := some (1024 * 2 ^ asz.toNat), readNumber := 1 } })) ∧
    (asz = 3 → s.sup.state = .mounting → s.sup.pendingReset = none →
      exec (.readyWaitCompletion asz) s = .next (finish s (({ s with
        seq := s.seq.released, mount := { s.mount with phase := .done },
        maint := { s.maint with flags := { s.maint.flags with strapFault := true } } } : State).faulted false)))

/-- R116 to R119: the completion of a read of a configuration copy: a first read that is not valid is made again; a valid
read settles VALID with its generation, a second that is not settles INVALID. After copy A the read of copy B is passed;
after copy B the configuration is selected: the VALID copy of the higher generation, A on equal ones, or the default
record with CONFIG_INVALID set. Its values are handed to the blocks and the scan begins at page 2. A warning of exactly
the new width is the model's reading (log 29). That a waiting operation takes the arrival counter's value before its
advance is the model's choice (log 31). The window records that the mount keeps until its end are the model's field (log
19). -/
def Obligations.ConfigCopyReadCompletion : Prop :=
  ∀ (st : ArrayStatus) (data spare : List Byte) (n : Nat) (r : CopyResult) (f : InFlight) (s : State), s.serving f →
    f.requester = .mount → f.op.isPageRead = true → s.mount.arraySize = some n →
    (validCopy n st data = none → s.mount.readNumber = 1 →
      (s.mount.phase = .configA → exec (.configCopyReadCompletion st data spare) s = .next (finish s { s with
        seq := s.seq.released.joined (.pageRead 0) .mount, mount := { s.mount with readNumber := 2 } })) ∧
      (s.mount.phase = .configB → exec (.configCopyReadCompletion st data spare) s = .next (finish s { s with
        seq := s.seq.released.joined (.pageRead 1) .mount, mount := { s.mount with readNumber := 2 } }))) ∧
    ((∃ c, validCopy n st data = some c ∧ r = .valid c.generation data) ∨
        (validCopy n st data = none ∧ s.mount.readNumber = 2 ∧ r = .invalid) →
      (s.mount.phase = .configA → exec (.configCopyReadCompletion st data spare) s = .next (finish s { s with
        seq := s.seq.released.joined (.pageRead 1) .mount,
        mount := { s.mount with copyA := r, phase := .configB, readNumber := 1 } })) ∧
      ∀ (v : ConfigFields) (record : List Byte) (chosen : Option Copy), s.mount.phase = .configB →
        (match s.mount.copyA, r with
          | .valid ga ra, .valid gb rb =>
            if ga < gb then configFields n rb = some v ∧ record = rb ∧ chosen = some .b
            else configFields n ra = some v ∧ record = ra ∧ chosen = some .a
          | .valid _ ra, _ => configFields n ra = some v ∧ record = ra ∧ chosen = some .a
          | _, .valid _ rb => configFields n rb = some v ∧ record = rb ∧ chosen = some .b
          | _, _ => v = { d := 12, h := 10, q := 4, generation := 0, l := n - 130, w := 50, tr := 100,
                          windows := List.replicate 8 Window.disabled } ∧ record = defaultRecord n ∧ chosen = none) →
        let gen : CopyResult → Option Word32 := fun c => match c with
          | .valid g _ => some g
          | _ => none
        exec (.configCopyReadCompletion st data spare) s = .next (finish s { s with
          seq := s.seq.released.joined (.headerRead 2) .mount,
          xlat := { s.xlat with logicalPages := some v.l },
          staging := { s.staging with limitD := v.d, highH := v.h, delayW := v.w },
          sup := { s.sup with
            qualifyQ := v.q, resetLimit := v.tr,
            warning := match s.sup.warning with
              | .qualifying e => if v.q * 16 ≤ e then .asserted else .qualifying e
              | w => w },
          mount := { s.mount with
            copyB := r, phase := .scan, cursor := some 2, readNumber := 1, windows := v.windows },
          maint := { s.maint with
            active := some record, copyStatus := some { a := gen s.mount.copyA, b := gen r, inUse := chosen },
            flags := { s.maint.flags with configInvalid := chosen.isNone } } }))

/-- R120 to R124: the completion of a HEADER READ. A first FAIL, or a first committed header whose check does not match,
is read again; otherwise, before the last page, the page is classified (BAD, STALE, FREE, LIVE and named, by the table of
R121 and the candidates of R124) and the scan goes on to the next one. That a waiting operation takes the arrival
counter's value before its advance is the model's choice (log 31). The list of the sequence numbers of named pages is the
model's field (log 19). -/
def Obligations.HeaderReadCompletion : Prop :=
  ∀ (p n l : Nat) (st : ArrayStatus) (spare : List Byte) (f : InFlight) (s : State), s.serving f → f.requester = .mount →
    f.op.isHeaderRead = true → s.mount.phase = .scan → s.mount.cursor = some p → s.mount.arraySize = some n →
    s.xlat.logicalPages = some l →
    (s.mount.readNumber = 1 → st = .fail ∨ headerTorn spare →
      exec (.headerReadCompletion st spare) s = .next (finish s { s with
        seq := s.seq.released.joined (.headerRead p) .mount, mount := { s.mount with readNumber := 2 } })) ∧
    (p + 1 < n → s.mount.readNumber = 2 ∨ (st = .pass ∧ ¬headerTorn spare) →
      s.headerGives p l st spare (fun x largest named => exec (.headerReadCompletion st spare) s = .next (finish s { s with
        seq := s.seq.released.joined (.headerRead (p + 1)) .mount, xlat := x,
        mount := { s.mount with cursor := some (p + 1), readNumber := 1, largest := largest, named := named } })))

/-- R121 to R127, R165, R169: the completion for the last page, whatever it is (BAD, STALE, FREE, a candidate, failed twice),
classifies it and ends the mount: the FREE pages form the free pool and the STALE pages the erase queue, both in ascending
order, the sequence counter is one above the largest, the windows of the configuration are in force with cleared captures, the
phase is DONE; the exit state is READ_ONLY where a reserve holds and SERVING where none does, HALTED with that return state
where the power warning is ASSERTED. The list of sequence numbers that ends here is the model's (log 19). -/
def Obligations.LastHeaderEndsTheMount : Prop :=
  ∀ (p n l : Nat) (st : ArrayStatus) (spare : List Byte) (f : InFlight) (s : State), s.serving f → f.requester = .mount →
    f.op.isHeaderRead = true → s.mount.phase = .scan → s.mount.cursor = some p → s.mount.arraySize = some n → n ≤ p + 1 →
    s.xlat.logicalPages = some l → s.mount.readNumber = 2 ∨ (st = .pass ∧ ¬headerTorn spare) →
    s.headerGives p l st spare (fun x largest _ =>
      let inState := fun (state : PageState) => (x.pages.filter (fun e => e.2.state = state)).map (fun e => e.1)
      let reserve := 4294967232 ≤ largest + 1 ∨ n - 2 - l - (inState .bad).length < s.staging.limitD + 4
      ∀ exit : ReturnState, (reserve ∧ exit = .readOnly) ∨ (¬reserve ∧ exit = .serving) →
        exec (.headerReadCompletion st spare) s = .next (finish s { s with
          seq := s.seq.released,
          xlat := { x with freePool := inState .free, eraseQueue := inState .stale, sequence := largest + 1 },
          guard := { windows := s.mount.windows, captures := List.replicate 8 { fields := none, hits := 0 } },
          mount := { s.mount with phase := .done, cursor := none, named := [], largest := largest },
          sup := match s.sup.warning with
            | .asserted => { s.sup with state := .halted, returnTo := some exit }
            | _ => { s.sup with
                state := match exit with
                  | .serving => .serving
                  | .readOnly => .readOnly } }))

/-- R54, R103, R104, R199: the spare bytes that the write-back engine hands over, once the sequencer has filled the checks, read
back as a good page with the logical page and sequence number that they were made with. R32, R105: a page is good exactly where its
read PASSed, the CRC-32 of its data is the data check and the CRC-16 of offsets 1 to 10 is the header check. R92, R199: a MARK programs one byte of
the spare area, the clean marker at offset 0, the commit marker at 13, the retire marker at 14; an ERASE leaves every byte
0xFF. -/
def Obligations.ProgrammedPageReadsGood : Prop :=
  (∀ (page : Nat) (seq : Word32) (data : List Byte), page < 65536 →
    let spare := fillChecks data (headerSpare page seq)
    spare.length = 16 ∧ goodPage .pass data spare = true ∧ spareLogical spare = page ∧
      spareSequence spare = seq.toNat ∧ spareClean spare = 0x5A ∧ spareCommit spare = 0xFF ∧ spareRetire spare = 0xFF) ∧
  (∀ (st : ArrayStatus) (data spare : List Byte), spare.length = 16 →
    (headerMatches spare = true ↔ (spare.drop 11).take 2 = le16 (crc16 ((spare.drop 1).take 10)).toNat) ∧
    (goodPage st data spare = true ↔
      st = .pass ∧ (spare.drop 7).take 4 = le32 (crc32 data).toNat ∧ headerMatches spare = true)) ∧
  ∀ (p : Nat) (field : MarkField) (value : Byte) (old : List Byte), old.length = 16 →
    (∀ k < 16, ((ArrayOp.mark p field value).spareAfter old)[k]? =
      if k = (match field with
        | .clean => 0
        | .commit => 13
        | .retire => 14) then some value else old[k]?) ∧
    (ArrayOp.erase p).spareAfter old = List.replicate 16 0xFF ∧
    ∀ data spare, (ArrayOp.pageProgram p data spare).spareAfter old = spare

/-- R195: the three completions of a configuration commit: a passed ERASE passes the PAGE PROGRAM of the record with 0xFF
in the spare area, a passed PROGRAM passes the read back, a read back that is valid with the new generation ends DONE with
the target in use; every failure ends FAILED with the target INVALID. That a waiting operation takes the arrival counter's
value before its advance is the model's choice (log 31). -/
def Obligations.ConfigCommitCompletions : Prop :=
  ∀ (st : ArrayStatus) (data spare : List Byte) (n : Nat) (job : CommitJob) (cs : CopyStatus) (f : InFlight) (s : State),
    s.serving f → f.requester = .configCommit → s.maint.job = some job → s.maint.copyStatus = some cs →
    s.mount.arraySize = some n →
    let page := match job.target with
      | .a => 0
      | .b => 1
    let result := fun (g : Option Word32) => match job.target with
      | .a => { cs with a := g }
      | .b => { cs with b := g }
    let failed := finish s { s with
      seq := s.seq.released,
      maint := { s.maint with commitState := .failed, job := none, copyStatus := some (result none) } }
    (f.op.isErase = true →
      exec (.configCommitEraseCompletion .fail) s = .next failed ∧
      exec (.configCommitEraseCompletion .pass) s = .next (finish s { s with
        seq := s.seq.released.joined (.pageProgram page job.record (List.replicate 16 0xFF)) .configCommit,
        maint := { s.maint with job := some { job with phase := .program } } })) ∧
    (f.op.isProgram = true →
      exec (.configCommitProgramCompletion .fail) s = .next failed ∧
      exec (.configCommitProgramCompletion .pass) s = .next (finish s { s with
        seq := s.seq.released.joined (.pageRead page) .configCommit,
        maint := { s.maint with job := some { job with phase := .readBack } } })) ∧
    (f.op.isPageRead = true →
      ((∀ c, validCopy n st data = some c → c.generation ≠ job.generation) →
        exec (.readBackCompletion st data spare) s = .next failed) ∧
      (∀ c, validCopy n st data = some c → c.generation = job.generation →
        exec (.readBackCompletion st data spare) s = .next (finish s { s with
          seq := s.seq.released,
          maint := { s.maint with
            commitState := .done, job := none,
            copyStatus := some { result (some job.generation) with inUse := some job.target } } })))

/-- R107, R108: a first timeout gives RESYNC with timeout count 1; at the end of the link reset sequence the same operation is
reissued with a fresh timer. A second timeout gives FAULT with the sequencer STOPPED and its list emptied, pending reads (R37)
and barriers (R67) answered FAIL FAULT and a commit under way FAILED (R196); in MOUNTING the mount ends first with what the
scan has given (R128); where a reset is pending the reset completes at once, TIMED_OUT, instead (R167, R177). Where a mount
waits behind the link reset sequence (R95), its end issues READY WAIT. The model's choices and readings in it: the commands do
not look at the counts (log 3); the time of issue becomes that of the reissue (log 30); pending reads are answered before
barriers (log 25); the list of sequence numbers ends with the mount (log 19); the duration that the record takes where a FAULT
meets a pending reset is the drain clock (log 20); D, H and W after a reset (log 8), the us count at a mount's start (log 9)
and the waiting records (log 11); a waiting operation takes the arrival counter's value before its advance (log 31). -/
def Obligations.TimeoutsAndLinkReset : Prop :=
  ∀ (f : InFlight) (s : State), s.seq.inFlight = some f →
    (s.seq.phase = .issued → f.timeouts = 0 → exec .firstTimeout s = .next { s with
      seq := { s.seq with phase := .resync, inFlight := some { f with timeouts := 1 }, resyncUs := 0 } }) ∧
    (s.seq.phase = .resync → exec .linkResetEnd s = .next { s with
      seq := { s.seq with
        phase := .issued, resyncUs := 0,
        inFlight := some { f with issuedMs := s.clock.ms, issuedUs := s.clock.us, elapsed := 0 } } }) ∧
    (s.seq.phase = .issued → f.timeouts = 1 →
      let ended : State := { s with
        mount := { s.mount with phase := .done, cursor := none, named := [] },
        xlat := if s.mount.phase = .scan then s.collected else s.xlat }
      (s.sup.state ≠ .mounting → s.sup.state ≠ .resetting → s.sup.pendingReset = none →
        exec .secondTimeout s = .next (finish s (s.faulted (f.requester = .configCommit)))) ∧
      (s.sup.state = .mounting → s.sup.pendingReset = none →
        exec .secondTimeout s = .next (finish s (ended.faulted (f.requester = .configCommit)))) ∧
      (∀ c, s.sup.state = .draining → s.sup.pendingReset = some c →
        exec .secondTimeout s = .next (s.resetDone
          { cause := match c with
              | .resetLine => .resetLine
              | .maintenance => .maintenance,
            outcome := .timedOut, lost := s.slotsInUse, duration := s.sup.drainClock.getD 0 } s.maintReset))) ∧
    ∀ (a : Word16) (u : State), u.seq.phase = .resync → u.seq.inFlight = none → u.sup.state = .mounting →
      u.seq.ops = [{ op := .readyWait, requester := .mount, arrival := a }] →
      exec .linkResetEnd u = .next { u with seq := { u.seq with
        phase := .issued, resyncUs := 0, ops := [],
        inFlight := some { op := .readyWait, requester := .mount, cls := 1, issuedMs := u.clock.ms,
                           issuedUs := u.clock.us, limit := 25000, elapsed := 0, timeouts := 0 } } }

/-- R91: a completion at any moment but while its operation is in flight reaches no block: DISCARDED_COMPLETION changes
nothing, and outside ISSUED no completion row and no timeout does. Which rows bring a completion is the model's reading
(log 4). -/
def Obligations.CompletionsAtOtherMomentsDiscarded : Prop :=
  ∀ (st : ArrayStatus) (data spare : List Byte) (asz : BitVec 2) (s : State),
    exec .discardedCompletion s = .next s ∧
    (s.seq.phase ≠ .issued →
      ∀ c ∈ [Instr.mergeReadCompletion st data spare, .demandReadCompletion st data spare, .pageProgramCompletion st,
        .commitMarkCompletion st, .retireMarkCompletion st, .eraseCompletion st, .cleanMarkCompletion st,
        .readyWaitCompletion asz, .configCopyReadCompletion st data spare, .headerReadCompletion st spare,
        .configCommitEraseCompletion st, .configCommitProgramCompletion st, .readBackCompletion st data spare,
        .firstTimeout, .secondTimeout], exec c s = .next s)

/-- R98: a choice. Of the waiting operations that may be chosen in the operating state (R98, R110) it takes one of the highest class
(R97, R85) in the ranking of the moment (R99), and of that class the oldest. That operation leaves the list and is the
in-flight record with its class, the time of the choice, its time limit (R106), a timer at 0 and timeout count 0, the phase
ISSUED (R100); a PAGE PROGRAM of a data-region page carries its checks (R104). Where none may be chosen the phase becomes
IDLE. Nothing else changes. -/
def Obligations.ChoiceTakesHighestClassThenOldest : Prop :=
  ∀ s : State,
    (∀ v, s.choosable v → ∃ w, s.choosable w ∧ (∀ x, s.choosable x → s.goesBefore w x) ∧ choose s = { s with
      seq := { s.seq with
        phase := .issued, ops := s.seq.ops.erase w,
        inFlight := some {
          op := match w.op with
            | .pageProgram p data spare => .pageProgram p data (if p < 2 then spare else fillChecks data spare)
            | op => op,
          requester := w.requester, cls := s.classNow w.requester, issuedMs := s.clock.ms, issuedUs := s.clock.us,
          limit := match w.op with
            | .headerRead _ => 100
            | .pageRead _ => 200
            | .pageProgram _ _ _ => 4000
            | .mark _ _ _ => 1000
            | .erase _ => 25000
            | .readyWait => 25000,
          elapsed := 0, timeouts := 0 } } }) ∧
    ((∀ v, ¬s.choosable v) → choose s = { s with seq := { s.seq with phase := .idle, inFlight := none } })
end

