-- ==== Sys2Proof/Laws/Bytes.lean ====
section
/-!
SUPPORT. Lengths and members of the byte operations.
-/
namespace Sys2Proof.Machine

@[simp] theorem overlay_length {α : Type} : ∀ (n : Nat) (ds os : List α), (overlay n ds os).length = os.length
  | 0, [], [] => rfl
  | 0, [], _ :: _ => rfl
  | 0, _ :: _, [] => rfl
  | 0, _ :: ds, _ :: os => by simp [overlay, overlay_length 0 ds os]
  | _ + 1, _, [] => rfl
  | n + 1, ds, _ :: os => by simp [overlay, overlay_length n ds os]

/-- What an overlay holds at a place: the new member where the new members reach, the old one elsewhere. -/
theorem overlay_getElem? {α : Type} (n : Nat) (ds os : List α) (k : Nat) (hk : k < os.length) :
    (overlay n ds os)[k]? = if n ≤ k ∧ k < n + ds.length then ds[k - n]? else os[k]? := by
  induction os generalizing n ds k with
  | nil => simp at hk
  | cons o os ih =>
    cases n with
    | zero =>
      cases ds with
      | nil => simp [overlay]
      | cons d ds =>
        cases k with
        | zero => simp [overlay]
        | succ k =>
          have h := ih 0 ds k (by simpa using hk)
          simp only [overlay, List.getElem?_cons_succ, h]
          simp
    | succ n =>
      cases k with
      | zero => simp [overlay]
      | succ k =>
        have h := ih n ds k (by simpa using hk)
        simp only [overlay, List.getElem?_cons_succ, h]
        have e : k + 1 - (n + 1) = k - n := by omega
        rw [e]
        by_cases c : n ≤ k ∧ k < n + ds.length
        · rw [if_pos c, if_pos (by omega)]
        · rw [if_neg c, if_neg (by omega)]

@[simp] theorem fillMissing_length : ∀ (vs : List Bool) (is bs : List Byte), (fillMissing vs is bs).length = is.length
  | true :: vs, i :: is, b :: bs => by simp [fillMissing, fillMissing_length vs is bs]
  | false :: vs, i :: is, b :: bs => by simp [fillMissing, fillMissing_length vs is bs]
  | [], _, _ => by simp [fillMissing]
  | true :: _, [], _ => by simp [fillMissing]
  | false :: _, [], _ => by simp [fillMissing]
  | true :: _, _ :: _, [] => by simp [fillMissing]
  | false :: _, _ :: _, [] => by simp [fillMissing]

/-- A fill keeps each valid byte and takes the base's byte at each missing offset (R14, R16, R20). -/
theorem fillMissing_getElem? (vs : List Bool) (is bs : List Byte) (k : Nat) (hv : k < vs.length) (hi : k < is.length)
    (hb : k < bs.length) :
    (fillMissing vs is bs)[k]? = if vs[k]? = some true then is[k]? else bs[k]? := by
  induction vs generalizing is bs k with
  | nil => simp at hv
  | cons v vs ih =>
    cases is with
    | nil => simp at hi
    | cons i is =>
      cases bs with
      | nil => simp at hb
      | cons b bs =>
        cases k with
        | zero => cases v <;> simp [fillMissing]
        | succ k =>
          have h := ih is bs k (by simpa using hv) (by simpa using hi) (by simpa using hb)
          cases v <;> simp [fillMissing, h]

@[simp] theorem leBytes_length : ∀ k n : Nat, (leBytes k n).length = k
  | 0, _ => rfl
  | k + 1, n => by simp [leBytes, leBytes_length k (n / 256)]

/-- Bytes laid out least significant first hold the number again, where it fits. -/
theorem leNat_leBytes : ∀ k n : Nat, n < 256 ^ k → leNat (leBytes k n) = n
  | 0, n, h => by simp at h; simp [leBytes, leNat, h]
  | k + 1, n, h => by
    have h1 : n / 256 < 256 ^ k := by
      rw [Nat.div_lt_iff_lt_mul (by decide)]; rw [Nat.pow_succ] at h; exact h
    simp only [leBytes, leNat, leNat_leBytes k _ h1, BitVec.toNat_ofNat]
    omega

theorem leNat_lt : ∀ l : List Byte, leNat l < 256 ^ l.length
  | [] => by simp [leNat]
  | b :: l => by
    have h := leNat_lt l
    have hb := b.isLt
    simp only [leNat, List.length_cons, Nat.pow_succ]
    omega

/-- The number of some bytes, laid out again, is those bytes. -/
theorem leBytes_leNat : ∀ l : List Byte, leBytes l.length (leNat l) = l
  | [] => rfl
  | b :: l => by
    have hb := b.isLt
    have h1 : (b.toNat + 256 * leNat l) / 256 = leNat l := by omega
    have h2 : BitVec.ofNat 8 (b.toNat + 256 * leNat l) = b := by
      apply BitVec.eq_of_toNat_eq; simp only [BitVec.toNat_ofNat]; omega
    simp only [List.length_cons, leBytes, leNat, h1, h2, leBytes_leNat l]

@[simp] theorem slice_length {α : Type} (off len : Nat) (l : List α) :
    (slice off len l).length = min len (l.length - off) := by simp [slice]

@[simp] theorem stampRecord_length (g : Word32) (b : List Byte) : (stampRecord g b).length = b.length := by
  simp [stampRecord]

@[simp] theorem encodeWindow_length (w : Window) : (encodeWindow w).length = 21 := by simp [encodeWindow]

@[simp] theorem defaultRecord_length (n : Nat) : (defaultRecord n).length = 256 := by
  have h : ((disabledWindows.map encodeWindow).flatten).length = 168 := by
    simp [disabledWindows]
  simp only [defaultRecord, defaultBody, signature, List.length_append, leBytes_length, h, List.length_replicate,
    List.length_cons, List.length_nil]

theorem decodeWindows_length : ∀ (n : Nat) (b : List Byte) (ws : List Window), decodeWindows n b = some ws → ws.length = n
  | 0, _, _, h => by simp [decodeWindows] at h; simp [← h]
  | n + 1, b, ws, h => by
    unfold decodeWindows at h
    split at h
    · rename_i w ws' _ h2
      cases h
      simp [decodeWindows_length n _ _ h2]
    · contradiction

/-- A selection's values lie in the ranges of R117. -/
def ConfigFields.inRange (f : ConfigFields) : Prop :=
  (1 ≤ f.q ∧ f.q ≤ 64) ∧ f.tr ≤ 250 ∧ f.windows.length = 8

theorem configFields_inRange (n : Nat) (b : List Byte) (f : ConfigFields) (h : configFields n b = some f) : f.inRange := by
  unfold configFields at h
  split at h
  · contradiction
  · rename_i ws hw
    dsimp only at h
    split at h
    · rename_i hr; cases h
      exact ⟨hr.2.2.1, hr.2.2.2.2.2, decodeWindows_length _ _ _ hw⟩
    · contradiction

theorem defaultFields_inRange (n : Nat) : (defaultFields n).inRange := by
  refine ⟨⟨by simp [defaultFields], by simp [defaultFields]⟩, by simp [defaultFields], by simp [defaultFields, disabledWindows]⟩

@[simp] theorem erasedImage_length : erasedImage.length = 256 := List.length_replicate
@[simp] theorem noneValid_length : noneValid.length = 256 := List.length_replicate
@[simp] theorem allValid_length : allValid.length = 256 := List.length_replicate
@[simp] theorem zeroBuffer_length : zeroBuffer.length = 256 := List.length_replicate

end Sys2Proof.Machine
end

