-- ==== Sys2Proof/Laws/State.lean ====
section
/-!
SUPPORT. One lemma for each field under each block replacement, true by rfl.
-/
namespace Sys2Proof.Machine

@[simp] theorem State.setStaging_staging (s : State) (v : Staging) : (s.setStaging v).staging = v := rfl
@[simp] theorem State.setStaging_readPath (s : State) (v : Staging) : (s.setStaging v).readPath = s.readPath := rfl
@[simp] theorem State.setStaging_wb (s : State) (v : Staging) : (s.setStaging v).wb = s.wb := rfl
@[simp] theorem State.setStaging_xlat (s : State) (v : Staging) : (s.setStaging v).xlat = s.xlat := rfl
@[simp] theorem State.setStaging_seq (s : State) (v : Staging) : (s.setStaging v).seq = s.seq := rfl
@[simp] theorem State.setStaging_mount (s : State) (v : Staging) : (s.setStaging v).mount = s.mount := rfl
@[simp] theorem State.setStaging_port (s : State) (v : Staging) : (s.setStaging v).port = s.port := rfl
@[simp] theorem State.setStaging_guard (s : State) (v : Staging) : (s.setStaging v).guard = s.guard := rfl
@[simp] theorem State.setStaging_sup (s : State) (v : Staging) : (s.setStaging v).sup = s.sup := rfl
@[simp] theorem State.setStaging_maint (s : State) (v : Staging) : (s.setStaging v).maint = s.maint := rfl
@[simp] theorem State.setStaging_pins (s : State) (v : Staging) : (s.setStaging v).pins = s.pins := rfl
@[simp] theorem State.setStaging_clock (s : State) (v : Staging) : (s.setStaging v).clock = s.clock := rfl
@[simp] theorem State.setStaging_freeCount (s : State) (v : Staging) : (s.setStaging v).freeCount = s.freeCount := rfl
@[simp] theorem State.setStaging_pending (s : State) (v : Staging) : (s.setStaging v).pending = s.pending := rfl
@[simp] theorem State.setReadPath_staging (s : State) (v : ReadPath) : (s.setReadPath v).staging = s.staging := rfl
@[simp] theorem State.setReadPath_readPath (s : State) (v : ReadPath) : (s.setReadPath v).readPath = v := rfl
@[simp] theorem State.setReadPath_wb (s : State) (v : ReadPath) : (s.setReadPath v).wb = s.wb := rfl
@[simp] theorem State.setReadPath_xlat (s : State) (v : ReadPath) : (s.setReadPath v).xlat = s.xlat := rfl
@[simp] theorem State.setReadPath_seq (s : State) (v : ReadPath) : (s.setReadPath v).seq = s.seq := rfl
@[simp] theorem State.setReadPath_mount (s : State) (v : ReadPath) : (s.setReadPath v).mount = s.mount := rfl
@[simp] theorem State.setReadPath_port (s : State) (v : ReadPath) : (s.setReadPath v).port = s.port := rfl
@[simp] theorem State.setReadPath_guard (s : State) (v : ReadPath) : (s.setReadPath v).guard = s.guard := rfl
@[simp] theorem State.setReadPath_sup (s : State) (v : ReadPath) : (s.setReadPath v).sup = s.sup := rfl
@[simp] theorem State.setReadPath_maint (s : State) (v : ReadPath) : (s.setReadPath v).maint = s.maint := rfl
@[simp] theorem State.setReadPath_pins (s : State) (v : ReadPath) : (s.setReadPath v).pins = s.pins := rfl
@[simp] theorem State.setReadPath_clock (s : State) (v : ReadPath) : (s.setReadPath v).clock = s.clock := rfl
@[simp] theorem State.setReadPath_freeCount (s : State) (v : ReadPath) : (s.setReadPath v).freeCount = s.freeCount := rfl
@[simp] theorem State.setReadPath_pending (s : State) (v : ReadPath) : (s.setReadPath v).pending = s.pending := rfl
@[simp] theorem State.setWb_staging (s : State) (v : WriteBack) : (s.setWb v).staging = s.staging := rfl
@[simp] theorem State.setWb_readPath (s : State) (v : WriteBack) : (s.setWb v).readPath = s.readPath := rfl
@[simp] theorem State.setWb_wb (s : State) (v : WriteBack) : (s.setWb v).wb = v := rfl
@[simp] theorem State.setWb_xlat (s : State) (v : WriteBack) : (s.setWb v).xlat = s.xlat := rfl
@[simp] theorem State.setWb_seq (s : State) (v : WriteBack) : (s.setWb v).seq = s.seq := rfl
@[simp] theorem State.setWb_mount (s : State) (v : WriteBack) : (s.setWb v).mount = s.mount := rfl
@[simp] theorem State.setWb_port (s : State) (v : WriteBack) : (s.setWb v).port = s.port := rfl
@[simp] theorem State.setWb_guard (s : State) (v : WriteBack) : (s.setWb v).guard = s.guard := rfl
@[simp] theorem State.setWb_sup (s : State) (v : WriteBack) : (s.setWb v).sup = s.sup := rfl
@[simp] theorem State.setWb_maint (s : State) (v : WriteBack) : (s.setWb v).maint = s.maint := rfl
@[simp] theorem State.setWb_pins (s : State) (v : WriteBack) : (s.setWb v).pins = s.pins := rfl
@[simp] theorem State.setWb_clock (s : State) (v : WriteBack) : (s.setWb v).clock = s.clock := rfl
@[simp] theorem State.setWb_freeCount (s : State) (v : WriteBack) : (s.setWb v).freeCount = s.freeCount := rfl
@[simp] theorem State.setWb_pending (s : State) (v : WriteBack) : (s.setWb v).pending = s.pending := rfl
@[simp] theorem State.setXlat_staging (s : State) (v : Translation) : (s.setXlat v).staging = s.staging := rfl
@[simp] theorem State.setXlat_readPath (s : State) (v : Translation) : (s.setXlat v).readPath = s.readPath := rfl
@[simp] theorem State.setXlat_wb (s : State) (v : Translation) : (s.setXlat v).wb = s.wb := rfl
@[simp] theorem State.setXlat_xlat (s : State) (v : Translation) : (s.setXlat v).xlat = v := rfl
@[simp] theorem State.setXlat_seq (s : State) (v : Translation) : (s.setXlat v).seq = s.seq := rfl
@[simp] theorem State.setXlat_mount (s : State) (v : Translation) : (s.setXlat v).mount = s.mount := rfl
@[simp] theorem State.setXlat_port (s : State) (v : Translation) : (s.setXlat v).port = s.port := rfl
@[simp] theorem State.setXlat_guard (s : State) (v : Translation) : (s.setXlat v).guard = s.guard := rfl
@[simp] theorem State.setXlat_sup (s : State) (v : Translation) : (s.setXlat v).sup = s.sup := rfl
@[simp] theorem State.setXlat_maint (s : State) (v : Translation) : (s.setXlat v).maint = s.maint := rfl
@[simp] theorem State.setXlat_pins (s : State) (v : Translation) : (s.setXlat v).pins = s.pins := rfl
@[simp] theorem State.setXlat_clock (s : State) (v : Translation) : (s.setXlat v).clock = s.clock := rfl
@[simp] theorem State.setXlat_freeCount (s : State) (v : Translation) : (s.setXlat v).freeCount = s.freeCount := rfl
@[simp] theorem State.setXlat_pending (s : State) (v : Translation) : (s.setXlat v).pending = s.pending := rfl
@[simp] theorem State.setSeq_staging (s : State) (v : Sequencer) : (s.setSeq v).staging = s.staging := rfl
@[simp] theorem State.setSeq_readPath (s : State) (v : Sequencer) : (s.setSeq v).readPath = s.readPath := rfl
@[simp] theorem State.setSeq_wb (s : State) (v : Sequencer) : (s.setSeq v).wb = s.wb := rfl
@[simp] theorem State.setSeq_xlat (s : State) (v : Sequencer) : (s.setSeq v).xlat = s.xlat := rfl
@[simp] theorem State.setSeq_seq (s : State) (v : Sequencer) : (s.setSeq v).seq = v := rfl
@[simp] theorem State.setSeq_mount (s : State) (v : Sequencer) : (s.setSeq v).mount = s.mount := rfl
@[simp] theorem State.setSeq_port (s : State) (v : Sequencer) : (s.setSeq v).port = s.port := rfl
@[simp] theorem State.setSeq_guard (s : State) (v : Sequencer) : (s.setSeq v).guard = s.guard := rfl
@[simp] theorem State.setSeq_sup (s : State) (v : Sequencer) : (s.setSeq v).sup = s.sup := rfl
@[simp] theorem State.setSeq_maint (s : State) (v : Sequencer) : (s.setSeq v).maint = s.maint := rfl
@[simp] theorem State.setSeq_pins (s : State) (v : Sequencer) : (s.setSeq v).pins = s.pins := rfl
@[simp] theorem State.setSeq_clock (s : State) (v : Sequencer) : (s.setSeq v).clock = s.clock := rfl
@[simp] theorem State.setSeq_freeCount (s : State) (v : Sequencer) : (s.setSeq v).freeCount = s.freeCount := rfl
@[simp] theorem State.setSeq_pending (s : State) (v : Sequencer) : (s.setSeq v).pending = s.pending := rfl
@[simp] theorem State.setMount_staging (s : State) (v : Mount) : (s.setMount v).staging = s.staging := rfl
@[simp] theorem State.setMount_readPath (s : State) (v : Mount) : (s.setMount v).readPath = s.readPath := rfl
@[simp] theorem State.setMount_wb (s : State) (v : Mount) : (s.setMount v).wb = s.wb := rfl
@[simp] theorem State.setMount_xlat (s : State) (v : Mount) : (s.setMount v).xlat = s.xlat := rfl
@[simp] theorem State.setMount_seq (s : State) (v : Mount) : (s.setMount v).seq = s.seq := rfl
@[simp] theorem State.setMount_mount (s : State) (v : Mount) : (s.setMount v).mount = v := rfl
@[simp] theorem State.setMount_port (s : State) (v : Mount) : (s.setMount v).port = s.port := rfl
@[simp] theorem State.setMount_guard (s : State) (v : Mount) : (s.setMount v).guard = s.guard := rfl
@[simp] theorem State.setMount_sup (s : State) (v : Mount) : (s.setMount v).sup = s.sup := rfl
@[simp] theorem State.setMount_maint (s : State) (v : Mount) : (s.setMount v).maint = s.maint := rfl
@[simp] theorem State.setMount_pins (s : State) (v : Mount) : (s.setMount v).pins = s.pins := rfl
@[simp] theorem State.setMount_clock (s : State) (v : Mount) : (s.setMount v).clock = s.clock := rfl
@[simp] theorem State.setMount_freeCount (s : State) (v : Mount) : (s.setMount v).freeCount = s.freeCount := rfl
@[simp] theorem State.setMount_pending (s : State) (v : Mount) : (s.setMount v).pending = s.pending := rfl
@[simp] theorem State.setPort_staging (s : State) (v : Port) : (s.setPort v).staging = s.staging := rfl
@[simp] theorem State.setPort_readPath (s : State) (v : Port) : (s.setPort v).readPath = s.readPath := rfl
@[simp] theorem State.setPort_wb (s : State) (v : Port) : (s.setPort v).wb = s.wb := rfl
@[simp] theorem State.setPort_xlat (s : State) (v : Port) : (s.setPort v).xlat = s.xlat := rfl
@[simp] theorem State.setPort_seq (s : State) (v : Port) : (s.setPort v).seq = s.seq := rfl
@[simp] theorem State.setPort_mount (s : State) (v : Port) : (s.setPort v).mount = s.mount := rfl
@[simp] theorem State.setPort_port (s : State) (v : Port) : (s.setPort v).port = v := rfl
@[simp] theorem State.setPort_guard (s : State) (v : Port) : (s.setPort v).guard = s.guard := rfl
@[simp] theorem State.setPort_sup (s : State) (v : Port) : (s.setPort v).sup = s.sup := rfl
@[simp] theorem State.setPort_maint (s : State) (v : Port) : (s.setPort v).maint = s.maint := rfl
@[simp] theorem State.setPort_pins (s : State) (v : Port) : (s.setPort v).pins = s.pins := rfl
@[simp] theorem State.setPort_clock (s : State) (v : Port) : (s.setPort v).clock = s.clock := rfl
@[simp] theorem State.setPort_freeCount (s : State) (v : Port) : (s.setPort v).freeCount = s.freeCount := rfl
@[simp] theorem State.setPort_pending (s : State) (v : Port) : (s.setPort v).pending = s.pending := rfl
@[simp] theorem State.setGuard_staging (s : State) (v : Guard) : (s.setGuard v).staging = s.staging := rfl
@[simp] theorem State.setGuard_readPath (s : State) (v : Guard) : (s.setGuard v).readPath = s.readPath := rfl
@[simp] theorem State.setGuard_wb (s : State) (v : Guard) : (s.setGuard v).wb = s.wb := rfl
@[simp] theorem State.setGuard_xlat (s : State) (v : Guard) : (s.setGuard v).xlat = s.xlat := rfl
@[simp] theorem State.setGuard_seq (s : State) (v : Guard) : (s.setGuard v).seq = s.seq := rfl
@[simp] theorem State.setGuard_mount (s : State) (v : Guard) : (s.setGuard v).mount = s.mount := rfl
@[simp] theorem State.setGuard_port (s : State) (v : Guard) : (s.setGuard v).port = s.port := rfl
@[simp] theorem State.setGuard_guard (s : State) (v : Guard) : (s.setGuard v).guard = v := rfl
@[simp] theorem State.setGuard_sup (s : State) (v : Guard) : (s.setGuard v).sup = s.sup := rfl
@[simp] theorem State.setGuard_maint (s : State) (v : Guard) : (s.setGuard v).maint = s.maint := rfl
@[simp] theorem State.setGuard_pins (s : State) (v : Guard) : (s.setGuard v).pins = s.pins := rfl
@[simp] theorem State.setGuard_clock (s : State) (v : Guard) : (s.setGuard v).clock = s.clock := rfl
@[simp] theorem State.setGuard_freeCount (s : State) (v : Guard) : (s.setGuard v).freeCount = s.freeCount := rfl
@[simp] theorem State.setGuard_pending (s : State) (v : Guard) : (s.setGuard v).pending = s.pending := rfl
@[simp] theorem State.setSup_staging (s : State) (v : Supervisor) : (s.setSup v).staging = s.staging := rfl
@[simp] theorem State.setSup_readPath (s : State) (v : Supervisor) : (s.setSup v).readPath = s.readPath := rfl
@[simp] theorem State.setSup_wb (s : State) (v : Supervisor) : (s.setSup v).wb = s.wb := rfl
@[simp] theorem State.setSup_xlat (s : State) (v : Supervisor) : (s.setSup v).xlat = s.xlat := rfl
@[simp] theorem State.setSup_seq (s : State) (v : Supervisor) : (s.setSup v).seq = s.seq := rfl
@[simp] theorem State.setSup_mount (s : State) (v : Supervisor) : (s.setSup v).mount = s.mount := rfl
@[simp] theorem State.setSup_port (s : State) (v : Supervisor) : (s.setSup v).port = s.port := rfl
@[simp] theorem State.setSup_guard (s : State) (v : Supervisor) : (s.setSup v).guard = s.guard := rfl
@[simp] theorem State.setSup_sup (s : State) (v : Supervisor) : (s.setSup v).sup = v := rfl
@[simp] theorem State.setSup_maint (s : State) (v : Supervisor) : (s.setSup v).maint = s.maint := rfl
@[simp] theorem State.setSup_pins (s : State) (v : Supervisor) : (s.setSup v).pins = s.pins := rfl
@[simp] theorem State.setSup_clock (s : State) (v : Supervisor) : (s.setSup v).clock = s.clock := rfl
@[simp] theorem State.setSup_freeCount (s : State) (v : Supervisor) : (s.setSup v).freeCount = s.freeCount := rfl
@[simp] theorem State.setSup_pending (s : State) (v : Supervisor) : (s.setSup v).pending = s.pending := rfl
@[simp] theorem State.setMaint_staging (s : State) (v : Maintenance) : (s.setMaint v).staging = s.staging := rfl
@[simp] theorem State.setMaint_readPath (s : State) (v : Maintenance) : (s.setMaint v).readPath = s.readPath := rfl
@[simp] theorem State.setMaint_wb (s : State) (v : Maintenance) : (s.setMaint v).wb = s.wb := rfl
@[simp] theorem State.setMaint_xlat (s : State) (v : Maintenance) : (s.setMaint v).xlat = s.xlat := rfl
@[simp] theorem State.setMaint_seq (s : State) (v : Maintenance) : (s.setMaint v).seq = s.seq := rfl
@[simp] theorem State.setMaint_mount (s : State) (v : Maintenance) : (s.setMaint v).mount = s.mount := rfl
@[simp] theorem State.setMaint_port (s : State) (v : Maintenance) : (s.setMaint v).port = s.port := rfl
@[simp] theorem State.setMaint_guard (s : State) (v : Maintenance) : (s.setMaint v).guard = s.guard := rfl
@[simp] theorem State.setMaint_sup (s : State) (v : Maintenance) : (s.setMaint v).sup = s.sup := rfl
@[simp] theorem State.setMaint_maint (s : State) (v : Maintenance) : (s.setMaint v).maint = v := rfl
@[simp] theorem State.setMaint_pins (s : State) (v : Maintenance) : (s.setMaint v).pins = s.pins := rfl
@[simp] theorem State.setMaint_clock (s : State) (v : Maintenance) : (s.setMaint v).clock = s.clock := rfl
@[simp] theorem State.setMaint_freeCount (s : State) (v : Maintenance) : (s.setMaint v).freeCount = s.freeCount := rfl
@[simp] theorem State.setMaint_pending (s : State) (v : Maintenance) : (s.setMaint v).pending = s.pending := rfl
@[simp] theorem State.setPins_staging (s : State) (v : Pins) : (s.setPins v).staging = s.staging := rfl
@[simp] theorem State.setPins_readPath (s : State) (v : Pins) : (s.setPins v).readPath = s.readPath := rfl
@[simp] theorem State.setPins_wb (s : State) (v : Pins) : (s.setPins v).wb = s.wb := rfl
@[simp] theorem State.setPins_xlat (s : State) (v : Pins) : (s.setPins v).xlat = s.xlat := rfl
@[simp] theorem State.setPins_seq (s : State) (v : Pins) : (s.setPins v).seq = s.seq := rfl
@[simp] theorem State.setPins_mount (s : State) (v : Pins) : (s.setPins v).mount = s.mount := rfl
@[simp] theorem State.setPins_port (s : State) (v : Pins) : (s.setPins v).port = s.port := rfl
@[simp] theorem State.setPins_guard (s : State) (v : Pins) : (s.setPins v).guard = s.guard := rfl
@[simp] theorem State.setPins_sup (s : State) (v : Pins) : (s.setPins v).sup = s.sup := rfl
@[simp] theorem State.setPins_maint (s : State) (v : Pins) : (s.setPins v).maint = s.maint := rfl
@[simp] theorem State.setPins_pins (s : State) (v : Pins) : (s.setPins v).pins = v := rfl
@[simp] theorem State.setPins_clock (s : State) (v : Pins) : (s.setPins v).clock = s.clock := rfl
@[simp] theorem State.setPins_freeCount (s : State) (v : Pins) : (s.setPins v).freeCount = s.freeCount := rfl
@[simp] theorem State.setPins_pending (s : State) (v : Pins) : (s.setPins v).pending = s.pending := rfl
@[simp] theorem State.setClock_staging (s : State) (v : Clock) : (s.setClock v).staging = s.staging := rfl
@[simp] theorem State.setClock_readPath (s : State) (v : Clock) : (s.setClock v).readPath = s.readPath := rfl
@[simp] theorem State.setClock_wb (s : State) (v : Clock) : (s.setClock v).wb = s.wb := rfl
@[simp] theorem State.setClock_xlat (s : State) (v : Clock) : (s.setClock v).xlat = s.xlat := rfl
@[simp] theorem State.setClock_seq (s : State) (v : Clock) : (s.setClock v).seq = s.seq := rfl
@[simp] theorem State.setClock_mount (s : State) (v : Clock) : (s.setClock v).mount = s.mount := rfl
@[simp] theorem State.setClock_port (s : State) (v : Clock) : (s.setClock v).port = s.port := rfl
@[simp] theorem State.setClock_guard (s : State) (v : Clock) : (s.setClock v).guard = s.guard := rfl
@[simp] theorem State.setClock_sup (s : State) (v : Clock) : (s.setClock v).sup = s.sup := rfl
@[simp] theorem State.setClock_maint (s : State) (v : Clock) : (s.setClock v).maint = s.maint := rfl
@[simp] theorem State.setClock_pins (s : State) (v : Clock) : (s.setClock v).pins = s.pins := rfl
@[simp] theorem State.setClock_clock (s : State) (v : Clock) : (s.setClock v).clock = v := rfl
@[simp] theorem State.setClock_freeCount (s : State) (v : Clock) : (s.setClock v).freeCount = s.freeCount := rfl
@[simp] theorem State.setClock_pending (s : State) (v : Clock) : (s.setClock v).pending = s.pending := rfl
@[simp] theorem State.setFreeCount_staging (s : State) (v : Nat) : (s.setFreeCount v).staging = s.staging := rfl
@[simp] theorem State.setFreeCount_readPath (s : State) (v : Nat) : (s.setFreeCount v).readPath = s.readPath := rfl
@[simp] theorem State.setFreeCount_wb (s : State) (v : Nat) : (s.setFreeCount v).wb = s.wb := rfl
@[simp] theorem State.setFreeCount_xlat (s : State) (v : Nat) : (s.setFreeCount v).xlat = s.xlat := rfl
@[simp] theorem State.setFreeCount_seq (s : State) (v : Nat) : (s.setFreeCount v).seq = s.seq := rfl
@[simp] theorem State.setFreeCount_mount (s : State) (v : Nat) : (s.setFreeCount v).mount = s.mount := rfl
@[simp] theorem State.setFreeCount_port (s : State) (v : Nat) : (s.setFreeCount v).port = s.port := rfl
@[simp] theorem State.setFreeCount_guard (s : State) (v : Nat) : (s.setFreeCount v).guard = s.guard := rfl
@[simp] theorem State.setFreeCount_sup (s : State) (v : Nat) : (s.setFreeCount v).sup = s.sup := rfl
@[simp] theorem State.setFreeCount_maint (s : State) (v : Nat) : (s.setFreeCount v).maint = s.maint := rfl
@[simp] theorem State.setFreeCount_pins (s : State) (v : Nat) : (s.setFreeCount v).pins = s.pins := rfl
@[simp] theorem State.setFreeCount_clock (s : State) (v : Nat) : (s.setFreeCount v).clock = s.clock := rfl
@[simp] theorem State.setFreeCount_freeCount (s : State) (v : Nat) : (s.setFreeCount v).freeCount = v := rfl
@[simp] theorem State.setFreeCount_pending (s : State) (v : Nat) : (s.setFreeCount v).pending = s.pending := rfl
@[simp] theorem State.setPending_staging (s : State) (v : List Instr) : (s.setPending v).staging = s.staging := rfl
@[simp] theorem State.setPending_readPath (s : State) (v : List Instr) : (s.setPending v).readPath = s.readPath := rfl
@[simp] theorem State.setPending_wb (s : State) (v : List Instr) : (s.setPending v).wb = s.wb := rfl
@[simp] theorem State.setPending_xlat (s : State) (v : List Instr) : (s.setPending v).xlat = s.xlat := rfl
@[simp] theorem State.setPending_seq (s : State) (v : List Instr) : (s.setPending v).seq = s.seq := rfl
@[simp] theorem State.setPending_mount (s : State) (v : List Instr) : (s.setPending v).mount = s.mount := rfl
@[simp] theorem State.setPending_port (s : State) (v : List Instr) : (s.setPending v).port = s.port := rfl
@[simp] theorem State.setPending_guard (s : State) (v : List Instr) : (s.setPending v).guard = s.guard := rfl
@[simp] theorem State.setPending_sup (s : State) (v : List Instr) : (s.setPending v).sup = s.sup := rfl
@[simp] theorem State.setPending_maint (s : State) (v : List Instr) : (s.setPending v).maint = s.maint := rfl
@[simp] theorem State.setPending_pins (s : State) (v : List Instr) : (s.setPending v).pins = s.pins := rfl
@[simp] theorem State.setPending_clock (s : State) (v : List Instr) : (s.setPending v).clock = s.clock := rfl
@[simp] theorem State.setPending_freeCount (s : State) (v : List Instr) : (s.setPending v).freeCount = s.freeCount := rfl
@[simp] theorem State.setPending_pending (s : State) (v : List Instr) : (s.setPending v).pending = v := rfl

end Sys2Proof.Machine
end

