-- ==== Sys2Proof/Laws/Frames.lean ====
section
/-!
SUPPORT. The frame of each operation: which blocks of the state it leaves as they are. Provers cite these in place of
unfolding an operation.
-/
namespace Sys2Proof.Machine

@[simp] theorem setPageState_keeps (p : Nat) (st : PageState) (s : State) :
    (setPageState p st s).staging = s.staging ∧ (setPageState p st s).readPath = s.readPath ∧
    (setPageState p st s).wb = s.wb ∧ (setPageState p st s).seq = s.seq ∧ (setPageState p st s).mount = s.mount ∧
    (setPageState p st s).port = s.port ∧ (setPageState p st s).guard = s.guard ∧ (setPageState p st s).sup = s.sup ∧
    (setPageState p st s).maint = s.maint ∧ (setPageState p st s).pins = s.pins ∧
    (setPageState p st s).clock = s.clock ∧ (setPageState p st s).freeCount = s.freeCount ∧
    (setPageState p st s).pending = s.pending := by
  unfold setPageState
  (try dsimp only) <;> (repeat' split) <;> simp

@[simp] theorem setPins_keeps (p n : Nat) (s : State) :
    (setPins p n s).staging = s.staging ∧ (setPins p n s).readPath = s.readPath ∧ (setPins p n s).wb = s.wb ∧
    (setPins p n s).seq = s.seq ∧ (setPins p n s).mount = s.mount ∧ (setPins p n s).port = s.port ∧
    (setPins p n s).guard = s.guard ∧ (setPins p n s).sup = s.sup ∧ (setPins p n s).maint = s.maint ∧
    (setPins p n s).pins = s.pins ∧ (setPins p n s).clock = s.clock ∧ (setPins p n s).freeCount = s.freeCount ∧
    (setPins p n s).pending = s.pending := by
  unfold setPins
  (try dsimp only) <;> (repeat' split) <;> simp

@[simp] theorem setSlot_keeps (i : Nat) (sl : Slot) (s : State) :
    (setSlot i sl s).readPath = s.readPath ∧ (setSlot i sl s).wb = s.wb ∧ (setSlot i sl s).xlat = s.xlat ∧
    (setSlot i sl s).seq = s.seq ∧ (setSlot i sl s).mount = s.mount ∧ (setSlot i sl s).port = s.port ∧
    (setSlot i sl s).guard = s.guard ∧ (setSlot i sl s).sup = s.sup ∧ (setSlot i sl s).maint = s.maint ∧
    (setSlot i sl s).pins = s.pins ∧ (setSlot i sl s).clock = s.clock ∧ (setSlot i sl s).freeCount = s.freeCount ∧
    (setSlot i sl s).pending = s.pending := by
  unfold setSlot
  (try dsimp only) <;> (repeat' split) <;> simp

@[simp] theorem freeSlot_keeps (i : Nat) (s : State) :
    (freeSlot i s).readPath = s.readPath ∧ (freeSlot i s).wb = s.wb ∧ (freeSlot i s).xlat = s.xlat ∧
    (freeSlot i s).seq = s.seq ∧ (freeSlot i s).mount = s.mount ∧ (freeSlot i s).port = s.port ∧
    (freeSlot i s).guard = s.guard ∧ (freeSlot i s).sup = s.sup ∧ (freeSlot i s).maint = s.maint ∧
    (freeSlot i s).pins = s.pins ∧ (freeSlot i s).clock = s.clock ∧ (freeSlot i s).freeCount = s.freeCount ∧
    (freeSlot i s).pending = s.pending := by
  unfold freeSlot
  (try dsimp only) <;> (repeat' split) <;> simp

@[simp] theorem setCounters_keeps (c : Counters) (s : State) :
    (setCounters c s).staging = s.staging ∧ (setCounters c s).readPath = s.readPath ∧ (setCounters c s).wb = s.wb ∧
    (setCounters c s).xlat = s.xlat ∧ (setCounters c s).seq = s.seq ∧ (setCounters c s).mount = s.mount ∧
    (setCounters c s).port = s.port ∧ (setCounters c s).guard = s.guard ∧ (setCounters c s).sup = s.sup ∧
    (setCounters c s).pins = s.pins ∧ (setCounters c s).clock = s.clock ∧ (setCounters c s).freeCount = s.freeCount ∧
    (setCounters c s).pending = s.pending := by
  unfold setCounters
  (try dsimp only) <;> (repeat' split) <;> simp

@[simp] theorem countProgram_keeps (s : State) :
    (countProgram s).staging = s.staging ∧ (countProgram s).readPath = s.readPath ∧ (countProgram s).wb = s.wb ∧
    (countProgram s).xlat = s.xlat ∧ (countProgram s).seq = s.seq ∧ (countProgram s).mount = s.mount ∧
    (countProgram s).port = s.port ∧ (countProgram s).guard = s.guard ∧ (countProgram s).sup = s.sup ∧
    (countProgram s).pins = s.pins ∧ (countProgram s).clock = s.clock ∧ (countProgram s).freeCount = s.freeCount ∧
    (countProgram s).pending = s.pending := by
  unfold countProgram
  (try dsimp only) <;> (repeat' split) <;> simp

@[simp] theorem countErase_keeps (s : State) :
    (countErase s).staging = s.staging ∧ (countErase s).readPath = s.readPath ∧ (countErase s).wb = s.wb ∧
    (countErase s).xlat = s.xlat ∧ (countErase s).seq = s.seq ∧ (countErase s).mount = s.mount ∧
    (countErase s).port = s.port ∧ (countErase s).guard = s.guard ∧ (countErase s).sup = s.sup ∧
    (countErase s).pins = s.pins ∧ (countErase s).clock = s.clock ∧ (countErase s).freeCount = s.freeCount ∧
    (countErase s).pending = s.pending := by
  unfold countErase
  (try dsimp only) <;> (repeat' split) <;> simp

@[simp] theorem countMediaError_keeps (s : State) :
    (countMediaError s).staging = s.staging ∧ (countMediaError s).readPath = s.readPath ∧
    (countMediaError s).wb = s.wb ∧ (countMediaError s).xlat = s.xlat ∧ (countMediaError s).seq = s.seq ∧
    (countMediaError s).mount = s.mount ∧ (countMediaError s).port = s.port ∧ (countMediaError s).guard = s.guard ∧
    (countMediaError s).sup = s.sup ∧ (countMediaError s).pins = s.pins ∧ (countMediaError s).clock = s.clock ∧
    (countMediaError s).freeCount = s.freeCount ∧ (countMediaError s).pending = s.pending := by
  unfold countMediaError
  (try dsimp only) <;> (repeat' split) <;> simp

@[simp] theorem countMergeLoss_keeps (s : State) :
    (countMergeLoss s).staging = s.staging ∧ (countMergeLoss s).readPath = s.readPath ∧ (countMergeLoss s).wb = s.wb ∧
    (countMergeLoss s).xlat = s.xlat ∧ (countMergeLoss s).seq = s.seq ∧ (countMergeLoss s).mount = s.mount ∧
    (countMergeLoss s).port = s.port ∧ (countMergeLoss s).guard = s.guard ∧ (countMergeLoss s).sup = s.sup ∧
    (countMergeLoss s).pins = s.pins ∧ (countMergeLoss s).clock = s.clock ∧
    (countMergeLoss s).freeCount = s.freeCount ∧ (countMergeLoss s).pending = s.pending := by
  unfold countMergeLoss
  (try dsimp only) <;> (repeat' split) <;> simp

@[simp] theorem countGuardRefusal_keeps (s : State) :
    (countGuardRefusal s).staging = s.staging ∧ (countGuardRefusal s).readPath = s.readPath ∧
    (countGuardRefusal s).wb = s.wb ∧ (countGuardRefusal s).xlat = s.xlat ∧ (countGuardRefusal s).seq = s.seq ∧
    (countGuardRefusal s).mount = s.mount ∧ (countGuardRefusal s).port = s.port ∧
    (countGuardRefusal s).guard = s.guard ∧ (countGuardRefusal s).sup = s.sup ∧ (countGuardRefusal s).pins = s.pins ∧
    (countGuardRefusal s).clock = s.clock ∧ (countGuardRefusal s).freeCount = s.freeCount ∧
    (countGuardRefusal s).pending = s.pending := by
  unfold countGuardRefusal
  (try dsimp only) <;> (repeat' split) <;> simp

@[simp] theorem countAgain_keeps (s : State) :
    (countAgain s).staging = s.staging ∧ (countAgain s).readPath = s.readPath ∧ (countAgain s).wb = s.wb ∧
    (countAgain s).xlat = s.xlat ∧ (countAgain s).seq = s.seq ∧ (countAgain s).mount = s.mount ∧
    (countAgain s).port = s.port ∧ (countAgain s).guard = s.guard ∧ (countAgain s).sup = s.sup ∧
    (countAgain s).pins = s.pins ∧ (countAgain s).clock = s.clock ∧ (countAgain s).freeCount = s.freeCount ∧
    (countAgain s).pending = s.pending := by
  unfold countAgain
  (try dsimp only) <;> (repeat' split) <;> simp

@[simp] theorem countRetired_keeps (s : State) :
    (countRetired s).staging = s.staging ∧ (countRetired s).readPath = s.readPath ∧ (countRetired s).wb = s.wb ∧
    (countRetired s).xlat = s.xlat ∧ (countRetired s).seq = s.seq ∧ (countRetired s).mount = s.mount ∧
    (countRetired s).port = s.port ∧ (countRetired s).guard = s.guard ∧ (countRetired s).sup = s.sup ∧
    (countRetired s).pins = s.pins ∧ (countRetired s).clock = s.clock ∧ (countRetired s).freeCount = s.freeCount ∧
    (countRetired s).pending = s.pending := by
  unfold countRetired
  (try dsimp only) <;> (repeat' split) <;> simp

@[simp] theorem countGlitch_keeps (s : State) :
    (countGlitch s).staging = s.staging ∧ (countGlitch s).readPath = s.readPath ∧ (countGlitch s).wb = s.wb ∧
    (countGlitch s).xlat = s.xlat ∧ (countGlitch s).seq = s.seq ∧ (countGlitch s).mount = s.mount ∧
    (countGlitch s).port = s.port ∧ (countGlitch s).guard = s.guard ∧ (countGlitch s).sup = s.sup ∧
    (countGlitch s).pins = s.pins ∧ (countGlitch s).clock = s.clock ∧ (countGlitch s).freeCount = s.freeCount ∧
    (countGlitch s).pending = s.pending := by
  unfold countGlitch
  (try dsimp only) <;> (repeat' split) <;> simp

@[simp] theorem latchProtocolFault_keeps (s : State) :
    (latchProtocolFault s).staging = s.staging ∧ (latchProtocolFault s).readPath = s.readPath ∧
    (latchProtocolFault s).wb = s.wb ∧ (latchProtocolFault s).xlat = s.xlat ∧ (latchProtocolFault s).seq = s.seq ∧
    (latchProtocolFault s).mount = s.mount ∧ (latchProtocolFault s).port = s.port ∧
    (latchProtocolFault s).guard = s.guard ∧ (latchProtocolFault s).sup = s.sup ∧
    (latchProtocolFault s).pins = s.pins ∧ (latchProtocolFault s).clock = s.clock ∧
    (latchProtocolFault s).freeCount = s.freeCount ∧ (latchProtocolFault s).pending = s.pending := by
  unfold latchProtocolFault
  (try dsimp only) <;> (repeat' split) <;> simp

@[simp] theorem beginSending_keeps (s : State) :
    (beginSending s).staging = s.staging ∧ (beginSending s).readPath = s.readPath ∧ (beginSending s).wb = s.wb ∧
    (beginSending s).xlat = s.xlat ∧ (beginSending s).seq = s.seq ∧ (beginSending s).mount = s.mount ∧
    (beginSending s).guard = s.guard ∧ (beginSending s).sup = s.sup ∧ (beginSending s).maint = s.maint ∧
    (beginSending s).pins = s.pins ∧ (beginSending s).clock = s.clock ∧ (beginSending s).freeCount = s.freeCount ∧
    (beginSending s).pending = s.pending := by
  unfold beginSending
  (try dsimp only) <;> (repeat' split) <;> simp

@[simp] theorem becomeReady_keeps (tag : Nat) (st : ResponseStatus) (d : List Byte) (s : State) :
    (becomeReady tag st d s).staging = s.staging ∧ (becomeReady tag st d s).readPath = s.readPath ∧
    (becomeReady tag st d s).wb = s.wb ∧ (becomeReady tag st d s).xlat = s.xlat ∧
    (becomeReady tag st d s).seq = s.seq ∧ (becomeReady tag st d s).mount = s.mount ∧
    (becomeReady tag st d s).guard = s.guard ∧ (becomeReady tag st d s).sup = s.sup ∧
    (becomeReady tag st d s).maint = s.maint ∧ (becomeReady tag st d s).pins = s.pins ∧
    (becomeReady tag st d s).clock = s.clock ∧ (becomeReady tag st d s).freeCount = s.freeCount ∧
    (becomeReady tag st d s).pending = s.pending := by
  unfold becomeReady
  (try dsimp only) <;> (repeat' split) <;> simp

@[simp] theorem becomeWaiting_keeps (tag : Nat) (s : State) :
    (becomeWaiting tag s).staging = s.staging ∧ (becomeWaiting tag s).readPath = s.readPath ∧
    (becomeWaiting tag s).wb = s.wb ∧ (becomeWaiting tag s).xlat = s.xlat ∧ (becomeWaiting tag s).seq = s.seq ∧
    (becomeWaiting tag s).mount = s.mount ∧ (becomeWaiting tag s).guard = s.guard ∧
    (becomeWaiting tag s).sup = s.sup ∧ (becomeWaiting tag s).maint = s.maint ∧ (becomeWaiting tag s).pins = s.pins ∧
    (becomeWaiting tag s).clock = s.clock ∧ (becomeWaiting tag s).freeCount = s.freeCount ∧
    (becomeWaiting tag s).pending = s.pending := by
  unfold becomeWaiting
  (try dsimp only) <;> (repeat' split) <;> simp

@[simp] theorem setJudged_keeps (tag : Nat) (s : State) :
    (setJudged tag s).staging = s.staging ∧ (setJudged tag s).readPath = s.readPath ∧ (setJudged tag s).wb = s.wb ∧
    (setJudged tag s).xlat = s.xlat ∧ (setJudged tag s).seq = s.seq ∧ (setJudged tag s).mount = s.mount ∧
    (setJudged tag s).guard = s.guard ∧ (setJudged tag s).sup = s.sup ∧ (setJudged tag s).maint = s.maint ∧
    (setJudged tag s).pins = s.pins ∧ (setJudged tag s).clock = s.clock ∧ (setJudged tag s).freeCount = s.freeCount ∧
    (setJudged tag s).pending = s.pending := by
  unfold setJudged
  (try dsimp only) <;> (repeat' split) <;> simp

@[simp] theorem setStall_keeps (b : Bool) (s : State) :
    (setStall b s).readPath = s.readPath ∧ (setStall b s).wb = s.wb ∧ (setStall b s).xlat = s.xlat ∧
    (setStall b s).seq = s.seq ∧ (setStall b s).mount = s.mount ∧ (setStall b s).port = s.port ∧
    (setStall b s).guard = s.guard ∧ (setStall b s).sup = s.sup ∧ (setStall b s).maint = s.maint ∧
    (setStall b s).pins = s.pins ∧ (setStall b s).clock = s.clock ∧ (setStall b s).freeCount = s.freeCount ∧
    (setStall b s).pending = s.pending := by
  unfold setStall
  (try dsimp only) <;> (repeat' split) <;> simp

@[simp] theorem choose_keeps (s : State) :
    (choose s).staging = s.staging ∧ (choose s).readPath = s.readPath ∧ (choose s).wb = s.wb ∧
    (choose s).xlat = s.xlat ∧ (choose s).mount = s.mount ∧ (choose s).port = s.port ∧ (choose s).guard = s.guard ∧
    (choose s).sup = s.sup ∧ (choose s).maint = s.maint ∧ (choose s).pins = s.pins ∧ (choose s).clock = s.clock ∧
    (choose s).freeCount = s.freeCount ∧ (choose s).pending = s.pending := by
  unfold choose
  (try dsimp only) <;> (repeat' split) <;> simp

@[simp] theorem joinList_keeps (op : ArrayOp) (r : Requester) (s : State) :
    (joinList op r s).staging = s.staging ∧ (joinList op r s).readPath = s.readPath ∧ (joinList op r s).wb = s.wb ∧
    (joinList op r s).xlat = s.xlat ∧ (joinList op r s).mount = s.mount ∧ (joinList op r s).port = s.port ∧
    (joinList op r s).guard = s.guard ∧ (joinList op r s).sup = s.sup ∧ (joinList op r s).maint = s.maint ∧
    (joinList op r s).pins = s.pins ∧ (joinList op r s).clock = s.clock ∧ (joinList op r s).freeCount = s.freeCount ∧
    (joinList op r s).pending = s.pending := by
  unfold joinList
  (try dsimp only) <;> (repeat' split) <;> simp

@[simp] theorem requestOp_keeps (op : ArrayOp) (r : Requester) (s : State) :
    (requestOp op r s).staging = s.staging ∧ (requestOp op r s).readPath = s.readPath ∧ (requestOp op r s).wb = s.wb ∧
    (requestOp op r s).xlat = s.xlat ∧ (requestOp op r s).mount = s.mount ∧ (requestOp op r s).port = s.port ∧
    (requestOp op r s).guard = s.guard ∧ (requestOp op r s).sup = s.sup ∧ (requestOp op r s).maint = s.maint ∧
    (requestOp op r s).pins = s.pins ∧ (requestOp op r s).clock = s.clock ∧
    (requestOp op r s).freeCount = s.freeCount ∧ (requestOp op r s).pending = s.pending := by
  unfold requestOp
  (try dsimp only) <;> (repeat' split) <;> simp

@[simp] theorem releaseOp_keeps (s : State) :
    (releaseOp s).staging = s.staging ∧ (releaseOp s).readPath = s.readPath ∧ (releaseOp s).wb = s.wb ∧
    (releaseOp s).xlat = s.xlat ∧ (releaseOp s).mount = s.mount ∧ (releaseOp s).port = s.port ∧
    (releaseOp s).guard = s.guard ∧ (releaseOp s).sup = s.sup ∧ (releaseOp s).maint = s.maint ∧
    (releaseOp s).pins = s.pins ∧ (releaseOp s).clock = s.clock ∧ (releaseOp s).freeCount = s.freeCount ∧
    (releaseOp s).pending = s.pending := by
  unfold releaseOp
  (try dsimp only) <;> (repeat' split) <;> simp

@[simp] theorem endCompletion_keeps (s : State) :
    (endCompletion s).staging = s.staging ∧ (endCompletion s).readPath = s.readPath ∧ (endCompletion s).wb = s.wb ∧
    (endCompletion s).xlat = s.xlat ∧ (endCompletion s).mount = s.mount ∧ (endCompletion s).port = s.port ∧
    (endCompletion s).guard = s.guard ∧ (endCompletion s).sup = s.sup ∧ (endCompletion s).maint = s.maint ∧
    (endCompletion s).pins = s.pins ∧ (endCompletion s).clock = s.clock ∧ (endCompletion s).freeCount = s.freeCount ∧
    (endCompletion s).pending = s.pending := by
  unfold endCompletion
  (try dsimp only) <;> (repeat' split) <;> simp

@[simp] theorem stopSequencer_keeps (s : State) :
    (stopSequencer s).staging = s.staging ∧ (stopSequencer s).readPath = s.readPath ∧ (stopSequencer s).wb = s.wb ∧
    (stopSequencer s).xlat = s.xlat ∧ (stopSequencer s).mount = s.mount ∧ (stopSequencer s).port = s.port ∧
    (stopSequencer s).guard = s.guard ∧ (stopSequencer s).sup = s.sup ∧ (stopSequencer s).maint = s.maint ∧
    (stopSequencer s).pins = s.pins ∧ (stopSequencer s).clock = s.clock ∧ (stopSequencer s).freeCount = s.freeCount ∧
    (stopSequencer s).pending = s.pending := by
  unfold stopSequencer
  (try dsimp only) <;> (repeat' split) <;> simp

@[simp] theorem requestReadOnly_keeps (s : State) :
    (requestReadOnly s).staging = s.staging ∧ (requestReadOnly s).readPath = s.readPath ∧
    (requestReadOnly s).wb = s.wb ∧ (requestReadOnly s).xlat = s.xlat ∧ (requestReadOnly s).seq = s.seq ∧
    (requestReadOnly s).mount = s.mount ∧ (requestReadOnly s).port = s.port ∧ (requestReadOnly s).guard = s.guard ∧
    (requestReadOnly s).maint = s.maint ∧ (requestReadOnly s).pins = s.pins ∧ (requestReadOnly s).clock = s.clock ∧
    (requestReadOnly s).freeCount = s.freeCount ∧ (requestReadOnly s).pending = s.pending := by
  unfold requestReadOnly
  (try dsimp only) <;> (repeat' split) <;> simp

@[simp] theorem beginMount_keeps (s : State) :
    (beginMount s).staging = s.staging ∧ (beginMount s).readPath = s.readPath ∧ (beginMount s).wb = s.wb ∧
    (beginMount s).xlat = s.xlat ∧ (beginMount s).port = s.port ∧ (beginMount s).guard = s.guard ∧
    (beginMount s).pins = s.pins ∧ (beginMount s).freeCount = s.freeCount ∧ (beginMount s).pending = s.pending := by
  unfold beginMount
  (try dsimp only) <;> (repeat' split) <;> simp

@[simp] theorem resetBlocks_keeps (c : ResetCause) (o : DrainOutcome) (s : State) :
    (resetBlocks c o s).pins = s.pins ∧ (resetBlocks c o s).clock = s.clock ∧
    (resetBlocks c o s).freeCount = s.freeCount ∧ (resetBlocks c o s).pending = s.pending := by
  unfold resetBlocks
  (try dsimp only) <;> (repeat' split) <;> simp

@[simp] theorem resetCompletion_keeps (c : ResetCause) (o : DrainOutcome) (s : State) :
    (resetCompletion c o s).pins = s.pins ∧ (resetCompletion c o s).freeCount = s.freeCount ∧
    (resetCompletion c o s).pending = s.pending := by
  unfold resetCompletion
  (try dsimp only) <;> (repeat' split) <;> simp

@[simp] theorem drainEnd_keeps (s : State) :
    (drainEnd s).pins = s.pins ∧ (drainEnd s).freeCount = s.freeCount ∧ (drainEnd s).pending = s.pending := by
  unfold drainEnd
  (try dsimp only) <;> (repeat' split) <;> simp

@[simp] theorem pinnedRead_keeps (p : Nat) (r : Requester) (s : State) :
    (pinnedRead p r s).staging = s.staging ∧ (pinnedRead p r s).readPath = s.readPath ∧ (pinnedRead p r s).wb = s.wb ∧
    (pinnedRead p r s).mount = s.mount ∧ (pinnedRead p r s).port = s.port ∧ (pinnedRead p r s).guard = s.guard ∧
    (pinnedRead p r s).sup = s.sup ∧ (pinnedRead p r s).maint = s.maint ∧ (pinnedRead p r s).pins = s.pins ∧
    (pinnedRead p r s).clock = s.clock ∧ (pinnedRead p r s).freeCount = s.freeCount ∧
    (pinnedRead p r s).pending = s.pending := by
  unfold pinnedRead
  (try dsimp only) <;> (repeat' split) <;> simp

@[simp] theorem lowerPin_keeps (p : Nat) (s : State) :
    (lowerPin p s).staging = s.staging ∧ (lowerPin p s).readPath = s.readPath ∧ (lowerPin p s).wb = s.wb ∧
    (lowerPin p s).seq = s.seq ∧ (lowerPin p s).mount = s.mount ∧ (lowerPin p s).port = s.port ∧
    (lowerPin p s).guard = s.guard ∧ (lowerPin p s).sup = s.sup ∧ (lowerPin p s).maint = s.maint ∧
    (lowerPin p s).pins = s.pins ∧ (lowerPin p s).clock = s.clock ∧ (lowerPin p s).freeCount = s.freeCount ∧
    (lowerPin p s).pending = s.pending := by
  unfold lowerPin
  (try dsimp only) <;> (repeat' split) <;> simp

@[simp] theorem examineBadPages_keeps (s : State) :
    (examineBadPages s).staging = s.staging ∧ (examineBadPages s).readPath = s.readPath ∧
    (examineBadPages s).wb = s.wb ∧ (examineBadPages s).xlat = s.xlat ∧ (examineBadPages s).seq = s.seq ∧
    (examineBadPages s).mount = s.mount ∧ (examineBadPages s).port = s.port ∧ (examineBadPages s).guard = s.guard ∧
    (examineBadPages s).maint = s.maint ∧ (examineBadPages s).pins = s.pins ∧ (examineBadPages s).clock = s.clock ∧
    (examineBadPages s).freeCount = s.freeCount ∧ (examineBadPages s).pending = s.pending := by
  unfold examineBadPages
  (try dsimp only) <;> (repeat' split) <;> simp

@[simp] theorem examineSequence_keeps (s : State) :
    (examineSequence s).staging = s.staging ∧ (examineSequence s).readPath = s.readPath ∧
    (examineSequence s).wb = s.wb ∧ (examineSequence s).xlat = s.xlat ∧ (examineSequence s).seq = s.seq ∧
    (examineSequence s).mount = s.mount ∧ (examineSequence s).port = s.port ∧ (examineSequence s).guard = s.guard ∧
    (examineSequence s).maint = s.maint ∧ (examineSequence s).pins = s.pins ∧ (examineSequence s).clock = s.clock ∧
    (examineSequence s).freeCount = s.freeCount ∧ (examineSequence s).pending = s.pending := by
  unfold examineSequence
  (try dsimp only) <;> (repeat' split) <;> simp

@[simp] theorem takePage_keeps (p : Nat) (s : State) :
    (takePage p s).staging = s.staging ∧ (takePage p s).readPath = s.readPath ∧ (takePage p s).wb = s.wb ∧
    (takePage p s).seq = s.seq ∧ (takePage p s).mount = s.mount ∧ (takePage p s).port = s.port ∧
    (takePage p s).guard = s.guard ∧ (takePage p s).maint = s.maint ∧ (takePage p s).pins = s.pins ∧
    (takePage p s).clock = s.clock ∧ (takePage p s).freeCount = s.freeCount ∧ (takePage p s).pending = s.pending := by
  unfold takePage
  (try dsimp only) <;> (repeat' split) <;> simp

@[simp] theorem commitMap_keeps (x p : Nat) (s : State) :
    (commitMap x p s).staging = s.staging ∧ (commitMap x p s).readPath = s.readPath ∧ (commitMap x p s).wb = s.wb ∧
    (commitMap x p s).seq = s.seq ∧ (commitMap x p s).mount = s.mount ∧ (commitMap x p s).port = s.port ∧
    (commitMap x p s).guard = s.guard ∧ (commitMap x p s).sup = s.sup ∧ (commitMap x p s).maint = s.maint ∧
    (commitMap x p s).pins = s.pins ∧ (commitMap x p s).clock = s.clock ∧ (commitMap x p s).freeCount = s.freeCount ∧
    (commitMap x p s).pending = s.pending := by
  unfold commitMap
  (try dsimp only) <;> (repeat' split) <;> simp

@[simp] theorem retirePage_keeps (p : Nat) (s : State) :
    (retirePage p s).staging = s.staging ∧ (retirePage p s).readPath = s.readPath ∧ (retirePage p s).wb = s.wb ∧
    (retirePage p s).mount = s.mount ∧ (retirePage p s).port = s.port ∧ (retirePage p s).guard = s.guard ∧
    (retirePage p s).pins = s.pins ∧ (retirePage p s).clock = s.clock ∧ (retirePage p s).freeCount = s.freeCount ∧
    (retirePage p s).pending = s.pending := by
  unfold retirePage
  (try dsimp only) <;> (repeat' split) <;> simp

@[simp] theorem startErase_keeps (p : Nat) (s : State) :
    (startErase p s).staging = s.staging ∧ (startErase p s).readPath = s.readPath ∧ (startErase p s).wb = s.wb ∧
    (startErase p s).mount = s.mount ∧ (startErase p s).port = s.port ∧ (startErase p s).guard = s.guard ∧
    (startErase p s).sup = s.sup ∧ (startErase p s).maint = s.maint ∧ (startErase p s).pins = s.pins ∧
    (startErase p s).clock = s.clock ∧ (startErase p s).freeCount = s.freeCount ∧ (startErase p s).pending = s.pending := by
  unfold startErase
  (try dsimp only) <;> (repeat' split) <;> simp

@[simp] theorem setCache_keeps (c : List CacheEntry) (s : State) :
    (setCache c s).staging = s.staging ∧ (setCache c s).wb = s.wb ∧ (setCache c s).xlat = s.xlat ∧
    (setCache c s).seq = s.seq ∧ (setCache c s).mount = s.mount ∧ (setCache c s).port = s.port ∧
    (setCache c s).guard = s.guard ∧ (setCache c s).sup = s.sup ∧ (setCache c s).maint = s.maint ∧
    (setCache c s).pins = s.pins ∧ (setCache c s).clock = s.clock ∧ (setCache c s).freeCount = s.freeCount ∧
    (setCache c s).pending = s.pending := by
  unfold setCache
  (try dsimp only) <;> (repeat' split) <;> simp

@[simp] theorem installCache_keeps (x : Nat) (image : List Byte) (s : State) :
    (installCache x image s).staging = s.staging ∧ (installCache x image s).wb = s.wb ∧
    (installCache x image s).xlat = s.xlat ∧ (installCache x image s).seq = s.seq ∧
    (installCache x image s).mount = s.mount ∧ (installCache x image s).port = s.port ∧
    (installCache x image s).guard = s.guard ∧ (installCache x image s).sup = s.sup ∧
    (installCache x image s).maint = s.maint ∧ (installCache x image s).pins = s.pins ∧
    (installCache x image s).clock = s.clock ∧ (installCache x image s).freeCount = s.freeCount ∧
    (installCache x image s).pending = s.pending := by
  unfold installCache
  (try dsimp only) <;> (repeat' split) <;> simp

@[simp] theorem touchCache_keeps (x : Nat) (s : State) :
    (touchCache x s).staging = s.staging ∧ (touchCache x s).wb = s.wb ∧ (touchCache x s).xlat = s.xlat ∧
    (touchCache x s).seq = s.seq ∧ (touchCache x s).mount = s.mount ∧ (touchCache x s).port = s.port ∧
    (touchCache x s).guard = s.guard ∧ (touchCache x s).sup = s.sup ∧ (touchCache x s).maint = s.maint ∧
    (touchCache x s).pins = s.pins ∧ (touchCache x s).clock = s.clock ∧ (touchCache x s).freeCount = s.freeCount ∧
    (touchCache x s).pending = s.pending := by
  unfold touchCache
  (try dsimp only) <;> (repeat' split) <;> simp

@[simp] theorem sealRecord_keeps (i x : Nat) (s : State) :
    (sealRecord i x s).wb = s.wb ∧ (sealRecord i x s).mount = s.mount ∧ (sealRecord i x s).port = s.port ∧
    (sealRecord i x s).guard = s.guard ∧ (sealRecord i x s).sup = s.sup ∧ (sealRecord i x s).maint = s.maint ∧
    (sealRecord i x s).pins = s.pins ∧ (sealRecord i x s).clock = s.clock ∧
    (sealRecord i x s).freeCount = s.freeCount ∧ (sealRecord i x s).pending = s.pending := by
  unfold sealRecord
  (try dsimp only) <;> (repeat' split) <;> simp

@[simp] theorem joinEviction_keeps (i : Nat) (s : State) :
    (joinEviction i s).staging = s.staging ∧ (joinEviction i s).readPath = s.readPath ∧
    (joinEviction i s).xlat = s.xlat ∧ (joinEviction i s).seq = s.seq ∧ (joinEviction i s).mount = s.mount ∧
    (joinEviction i s).port = s.port ∧ (joinEviction i s).guard = s.guard ∧ (joinEviction i s).sup = s.sup ∧
    (joinEviction i s).maint = s.maint ∧ (joinEviction i s).pins = s.pins ∧ (joinEviction i s).clock = s.clock ∧
    (joinEviction i s).freeCount = s.freeCount ∧ (joinEviction i s).pending = s.pending := by
  unfold joinEviction
  (try dsimp only) <;> (repeat' split) <;> simp

@[simp] theorem sealSlot_keeps (i : Nat) (s : State) :
    (sealSlot i s).mount = s.mount ∧ (sealSlot i s).port = s.port ∧ (sealSlot i s).guard = s.guard ∧
    (sealSlot i s).sup = s.sup ∧ (sealSlot i s).maint = s.maint ∧ (sealSlot i s).pins = s.pins ∧
    (sealSlot i s).clock = s.clock ∧ (sealSlot i s).freeCount = s.freeCount ∧ (sealSlot i s).pending = s.pending := by
  unfold sealSlot
  (try dsimp only) <;> (repeat' split) <;> simp

@[simp] theorem placeInSlot_keeps (i off : Nat) (d : List Byte) (s : State) :
    (placeInSlot i off d s).mount = s.mount ∧ (placeInSlot i off d s).port = s.port ∧
    (placeInSlot i off d s).guard = s.guard ∧ (placeInSlot i off d s).sup = s.sup ∧
    (placeInSlot i off d s).maint = s.maint ∧ (placeInSlot i off d s).pins = s.pins ∧
    (placeInSlot i off d s).clock = s.clock ∧ (placeInSlot i off d s).freeCount = s.freeCount ∧
    (placeInSlot i off d s).pending = s.pending := by
  unfold placeInSlot
  (try dsimp only) <;> (repeat' split) <;> simp

@[simp] theorem allocate_keeps (i x : Nat) (s : State) :
    (allocate i x s).readPath = s.readPath ∧ (allocate i x s).wb = s.wb ∧ (allocate i x s).xlat = s.xlat ∧
    (allocate i x s).seq = s.seq ∧ (allocate i x s).mount = s.mount ∧ (allocate i x s).port = s.port ∧
    (allocate i x s).guard = s.guard ∧ (allocate i x s).sup = s.sup ∧ (allocate i x s).maint = s.maint ∧
    (allocate i x s).pins = s.pins ∧ (allocate i x s).clock = s.clock ∧ (allocate i x s).freeCount = s.freeCount ∧
    (allocate i x s).pending = s.pending := by
  unfold allocate
  (try dsimp only) <;> (repeat' split) <;> simp

@[simp] theorem setWbPhase_keeps (ph : WbPhase) (s : State) :
    (setWbPhase ph s).staging = s.staging ∧ (setWbPhase ph s).readPath = s.readPath ∧
    (setWbPhase ph s).xlat = s.xlat ∧ (setWbPhase ph s).seq = s.seq ∧ (setWbPhase ph s).mount = s.mount ∧
    (setWbPhase ph s).port = s.port ∧ (setWbPhase ph s).guard = s.guard ∧ (setWbPhase ph s).sup = s.sup ∧
    (setWbPhase ph s).maint = s.maint ∧ (setWbPhase ph s).pins = s.pins ∧ (setWbPhase ph s).clock = s.clock ∧
    (setWbPhase ph s).freeCount = s.freeCount ∧ (setWbPhase ph s).pending = s.pending := by
  unfold setWbPhase
  (try dsimp only) <;> (repeat' split) <;> simp

@[simp] theorem setBarriers_keeps (b : List Barrier) (s : State) :
    (setBarriers b s).staging = s.staging ∧ (setBarriers b s).readPath = s.readPath ∧
    (setBarriers b s).xlat = s.xlat ∧ (setBarriers b s).seq = s.seq ∧ (setBarriers b s).mount = s.mount ∧
    (setBarriers b s).port = s.port ∧ (setBarriers b s).guard = s.guard ∧ (setBarriers b s).sup = s.sup ∧
    (setBarriers b s).maint = s.maint ∧ (setBarriers b s).pins = s.pins ∧ (setBarriers b s).clock = s.clock ∧
    (setBarriers b s).freeCount = s.freeCount ∧ (setBarriers b s).pending = s.pending := by
  unfold setBarriers
  (try dsimp only) <;> (repeat' split) <;> simp

@[simp] theorem answerPersists_keeps (st : ResponseStatus) (bs : List Barrier) (s : State) :
    (answerPersists st bs s).staging = s.staging ∧ (answerPersists st bs s).readPath = s.readPath ∧
    (answerPersists st bs s).wb = s.wb ∧ (answerPersists st bs s).xlat = s.xlat ∧
    (answerPersists st bs s).seq = s.seq ∧ (answerPersists st bs s).mount = s.mount ∧
    (answerPersists st bs s).guard = s.guard ∧ (answerPersists st bs s).sup = s.sup ∧
    (answerPersists st bs s).maint = s.maint ∧ (answerPersists st bs s).pins = s.pins ∧
    (answerPersists st bs s).clock = s.clock ∧ (answerPersists st bs s).freeCount = s.freeCount ∧
    (answerPersists st bs s).pending = s.pending := by
  unfold answerPersists
  induction bs generalizing s with
  | nil => simp
  | cons b bs ih => simp [ih]

@[simp] theorem commitBarriers_keeps (i : Nat) (inc : Byte) (s : State) :
    (commitBarriers i inc s).staging = s.staging ∧ (commitBarriers i inc s).readPath = s.readPath ∧
    (commitBarriers i inc s).xlat = s.xlat ∧ (commitBarriers i inc s).seq = s.seq ∧
    (commitBarriers i inc s).mount = s.mount ∧ (commitBarriers i inc s).guard = s.guard ∧
    (commitBarriers i inc s).sup = s.sup ∧ (commitBarriers i inc s).maint = s.maint ∧
    (commitBarriers i inc s).pins = s.pins ∧ (commitBarriers i inc s).clock = s.clock ∧
    (commitBarriers i inc s).freeCount = s.freeCount ∧ (commitBarriers i inc s).pending = s.pending := by
  unfold commitBarriers
  (try dsimp only) <;> (repeat' split) <;> simp

@[simp] theorem loseBarriers_keeps (i : Nat) (inc : Byte) (s : State) :
    (loseBarriers i inc s).staging = s.staging ∧ (loseBarriers i inc s).readPath = s.readPath ∧
    (loseBarriers i inc s).xlat = s.xlat ∧ (loseBarriers i inc s).seq = s.seq ∧
    (loseBarriers i inc s).mount = s.mount ∧ (loseBarriers i inc s).guard = s.guard ∧
    (loseBarriers i inc s).sup = s.sup ∧ (loseBarriers i inc s).maint = s.maint ∧
    (loseBarriers i inc s).pins = s.pins ∧ (loseBarriers i inc s).clock = s.clock ∧
    (loseBarriers i inc s).freeCount = s.freeCount ∧ (loseBarriers i inc s).pending = s.pending := by
  unfold loseBarriers
  (try dsimp only) <;> (repeat' split) <;> simp

@[simp] theorem heldPartner_keeps (i x : Nat) (s : State) :
    (heldPartner i x s).readPath = s.readPath ∧ (heldPartner i x s).wb = s.wb ∧ (heldPartner i x s).xlat = s.xlat ∧
    (heldPartner i x s).seq = s.seq ∧ (heldPartner i x s).mount = s.mount ∧ (heldPartner i x s).port = s.port ∧
    (heldPartner i x s).guard = s.guard ∧ (heldPartner i x s).sup = s.sup ∧ (heldPartner i x s).maint = s.maint ∧
    (heldPartner i x s).pins = s.pins ∧ (heldPartner i x s).clock = s.clock ∧
    (heldPartner i x s).freeCount = s.freeCount ∧ (heldPartner i x s).pending = s.pending := by
  unfold heldPartner
  (try dsimp only) <;> (repeat' split) <;> simp

@[simp] theorem becomeHeld_keeps (i : Nat) (r : HoldReason) (s : State) :
    (becomeHeld i r s).readPath = s.readPath ∧ (becomeHeld i r s).xlat = s.xlat ∧ (becomeHeld i r s).seq = s.seq ∧
    (becomeHeld i r s).mount = s.mount ∧ (becomeHeld i r s).guard = s.guard ∧ (becomeHeld i r s).maint = s.maint ∧
    (becomeHeld i r s).pins = s.pins ∧ (becomeHeld i r s).clock = s.clock ∧
    (becomeHeld i r s).freeCount = s.freeCount ∧ (becomeHeld i r s).pending = s.pending := by
  unfold becomeHeld
  (try dsimp only) <;> (repeat' split) <;> simp

@[simp] theorem holdSealed_keeps (i : Nat) (s : State) :
    (holdSealed i s).readPath = s.readPath ∧ (holdSealed i s).xlat = s.xlat ∧ (holdSealed i s).seq = s.seq ∧
    (holdSealed i s).mount = s.mount ∧ (holdSealed i s).guard = s.guard ∧ (holdSealed i s).maint = s.maint ∧
    (holdSealed i s).pins = s.pins ∧ (holdSealed i s).clock = s.clock ∧ (holdSealed i s).freeCount = s.freeCount ∧
    (holdSealed i s).pending = s.pending := by
  unfold holdSealed
  (try dsimp only) <;> (repeat' split) <;> simp

@[simp] theorem holdWriting_keeps (i : Nat) (r : HoldReason) (s : State) :
    (holdWriting i r s).readPath = s.readPath ∧ (holdWriting i r s).mount = s.mount ∧
    (holdWriting i r s).guard = s.guard ∧ (holdWriting i r s).pins = s.pins ∧ (holdWriting i r s).clock = s.clock ∧
    (holdWriting i r s).freeCount = s.freeCount ∧ (holdWriting i r s).pending = s.pending := by
  unfold holdWriting
  (try dsimp only) <;> (repeat' split) <;> simp

@[simp] theorem startWriteBack_keeps (i : Nat) (t : Target) (s : State) :
    (startWriteBack i t s).readPath = s.readPath ∧ (startWriteBack i t s).mount = s.mount ∧
    (startWriteBack i t s).port = s.port ∧ (startWriteBack i t s).guard = s.guard ∧
    (startWriteBack i t s).maint = s.maint ∧ (startWriteBack i t s).pins = s.pins ∧
    (startWriteBack i t s).clock = s.clock ∧ (startWriteBack i t s).freeCount = s.freeCount ∧
    (startWriteBack i t s).pending = s.pending := by
  unfold startWriteBack
  (try dsimp only) <;> (repeat' split) <;> simp

@[simp] theorem takeSlot_keeps (i : Nat) (s : State) :
    (takeSlot i s).readPath = s.readPath ∧ (takeSlot i s).mount = s.mount ∧ (takeSlot i s).guard = s.guard ∧
    (takeSlot i s).maint = s.maint ∧ (takeSlot i s).pins = s.pins ∧ (takeSlot i s).clock = s.clock ∧
    (takeSlot i s).freeCount = s.freeCount ∧ (takeSlot i s).pending = s.pending := by
  unfold takeSlot
  (try dsimp only) <;> (repeat' split) <;> simp

@[simp] theorem retryWith_keeps (i : Nat) (t : Target) (s : State) :
    (retryWith i t s).readPath = s.readPath ∧ (retryWith i t s).mount = s.mount ∧ (retryWith i t s).port = s.port ∧
    (retryWith i t s).guard = s.guard ∧ (retryWith i t s).pins = s.pins ∧ (retryWith i t s).clock = s.clock ∧
    (retryWith i t s).freeCount = s.freeCount ∧ (retryWith i t s).pending = s.pending := by
  unfold retryWith
  (try dsimp only) <;> (repeat' split) <;> simp

@[simp] theorem retryWriteBack_keeps (i : Nat) (s : State) :
    (retryWriteBack i s).readPath = s.readPath ∧ (retryWriteBack i s).mount = s.mount ∧
    (retryWriteBack i s).guard = s.guard ∧ (retryWriteBack i s).pins = s.pins ∧ (retryWriteBack i s).clock = s.clock ∧
    (retryWriteBack i s).freeCount = s.freeCount ∧ (retryWriteBack i s).pending = s.pending := by
  unfold retryWriteBack
  (try dsimp only) <;> (repeat' split) <;> simp

@[simp] theorem attemptFailed_keeps (i : Nat) (s : State) :
    (attemptFailed i s).readPath = s.readPath ∧ (attemptFailed i s).mount = s.mount ∧
    (attemptFailed i s).guard = s.guard ∧ (attemptFailed i s).pins = s.pins ∧ (attemptFailed i s).clock = s.clock ∧
    (attemptFailed i s).freeCount = s.freeCount ∧ (attemptFailed i s).pending = s.pending := by
  unfold attemptFailed
  (try dsimp only) <;> (repeat' split) <;> simp

@[simp] theorem commitPartner_keeps (i x : Nat) (s : State) :
    (commitPartner i x s).readPath = s.readPath ∧ (commitPartner i x s).wb = s.wb ∧
    (commitPartner i x s).xlat = s.xlat ∧ (commitPartner i x s).seq = s.seq ∧ (commitPartner i x s).mount = s.mount ∧
    (commitPartner i x s).port = s.port ∧ (commitPartner i x s).guard = s.guard ∧ (commitPartner i x s).sup = s.sup ∧
    (commitPartner i x s).maint = s.maint ∧ (commitPartner i x s).pins = s.pins ∧
    (commitPartner i x s).clock = s.clock ∧ (commitPartner i x s).freeCount = s.freeCount ∧
    (commitPartner i x s).pending = s.pending := by
  unfold commitPartner
  (try dsimp only) <;> (repeat' split) <;> simp

@[simp] theorem commitSlot_keeps (i : Nat) (s : State) :
    (commitSlot i s).seq = s.seq ∧ (commitSlot i s).mount = s.mount ∧ (commitSlot i s).guard = s.guard ∧
    (commitSlot i s).sup = s.sup ∧ (commitSlot i s).pins = s.pins ∧ (commitSlot i s).clock = s.clock ∧
    (commitSlot i s).freeCount = s.freeCount ∧ (commitSlot i s).pending = s.pending := by
  unfold commitSlot
  (try dsimp only) <;> (repeat' split) <;> simp

/-- One re-examination that has something to do keeps these blocks. -/
theorem endWait_keeps (s t : State) (h : s.endWait = some t) :
    (t).mount = s.mount ∧ (t).guard = s.guard ∧ (t).pins = s.pins ∧ (t).clock = s.clock ∧
    (t).freeCount = s.freeCount ∧ (t).pending = s.pending := by
  unfold State.endWait at h
  split at h
  · split at h <;> first | (cases h; simp) | contradiction
  · contradiction

theorem reexamine_keeps (s t : State) (h : s.reexamine = some t) :
    (t).mount = s.mount ∧ (t).guard = s.guard ∧ (t).pins = s.pins ∧ (t).clock = s.clock ∧
    (t).freeCount = s.freeCount ∧ (t).pending = s.pending := by
  unfold State.reexamine at h
  split at h
  · rename_i u hu; cases h; exact endWait_keeps s _ hu
  · split at h
    · cases h; simp
    · split at h
      · cases h; simp
      · split at h
        · cases h; simp
        · contradiction

theorem settleFor_keeps (k : Nat) : ∀ s : State,
    (settleFor k s).mount = s.mount ∧ (settleFor k s).guard = s.guard ∧ (settleFor k s).pins = s.pins ∧
    (settleFor k s).clock = s.clock ∧ (settleFor k s).freeCount = s.freeCount ∧ (settleFor k s).pending = s.pending := by
  induction k with
  | zero => intro s; simp [settleFor]
  | succ k ih =>
    intro s
    unfold settleFor
    split
    · rename_i t ht
      have h := ih t
      have g := reexamine_keeps s t ht
      simp only [h, g, and_self]
    · simp

@[simp] theorem settle_keeps (s : State) :
    (settle s).mount = s.mount ∧ (settle s).guard = s.guard ∧ (settle s).pins = s.pins ∧ (settle s).clock = s.clock ∧
    (settle s).freeCount = s.freeCount ∧ (settle s).pending = s.pending := settleFor_keeps 64 s

theorem sealAllFor_keeps (k : Nat) : ∀ s : State,
    (sealAllFor k s).mount = s.mount ∧ (sealAllFor k s).guard = s.guard ∧ (sealAllFor k s).maint = s.maint ∧
    (sealAllFor k s).pins = s.pins ∧ (sealAllFor k s).clock = s.clock ∧ (sealAllFor k s).freeCount = s.freeCount ∧
    (sealAllFor k s).pending = s.pending := by
  induction k with
  | zero => intro s; simp [sealAllFor]
  | succ k ih =>
    intro s
    unfold sealAllFor
    split
    · dsimp only; split <;> simp [ih]
    · simp

@[simp] theorem sealAllOpen_keeps (s : State) :
    (sealAllOpen s).mount = s.mount ∧ (sealAllOpen s).guard = s.guard ∧ (sealAllOpen s).maint = s.maint ∧
    (sealAllOpen s).pins = s.pins ∧ (sealAllOpen s).clock = s.clock ∧ (sealAllOpen s).freeCount = s.freeCount ∧
    (sealAllOpen s).pending = s.pending := sealAllFor_keeps _ s

@[simp] theorem judge_keeps (r : Request) (s : State) :
    (judge r s).staging = s.staging ∧ (judge r s).readPath = s.readPath ∧ (judge r s).wb = s.wb ∧
    (judge r s).xlat = s.xlat ∧ (judge r s).seq = s.seq ∧ (judge r s).mount = s.mount ∧ (judge r s).port = s.port ∧
    (judge r s).sup = s.sup ∧ (judge r s).pins = s.pins ∧ (judge r s).clock = s.clock ∧
    (judge r s).freeCount = s.freeCount ∧ (judge r s).pending = s.pending := by
  unfold judge
  (try dsimp only) <;> (repeat' split) <;> simp

@[simp] theorem clearCaptureOf_keeps (n : Nat) (s : State) :
    (clearCaptureOf n s).staging = s.staging ∧ (clearCaptureOf n s).readPath = s.readPath ∧
    (clearCaptureOf n s).wb = s.wb ∧ (clearCaptureOf n s).xlat = s.xlat ∧ (clearCaptureOf n s).seq = s.seq ∧
    (clearCaptureOf n s).mount = s.mount ∧ (clearCaptureOf n s).port = s.port ∧ (clearCaptureOf n s).sup = s.sup ∧
    (clearCaptureOf n s).maint = s.maint ∧ (clearCaptureOf n s).pins = s.pins ∧ (clearCaptureOf n s).clock = s.clock ∧
    (clearCaptureOf n s).freeCount = s.freeCount ∧ (clearCaptureOf n s).pending = s.pending := by
  unfold clearCaptureOf
  (try dsimp only) <;> (repeat' split) <;> simp

@[simp] theorem setWindow_keeps (n : Nat) (w : Window) (s : State) :
    (setWindow n w s).staging = s.staging ∧ (setWindow n w s).readPath = s.readPath ∧ (setWindow n w s).wb = s.wb ∧
    (setWindow n w s).xlat = s.xlat ∧ (setWindow n w s).seq = s.seq ∧ (setWindow n w s).mount = s.mount ∧
    (setWindow n w s).port = s.port ∧ (setWindow n w s).sup = s.sup ∧ (setWindow n w s).maint = s.maint ∧
    (setWindow n w s).pins = s.pins ∧ (setWindow n w s).clock = s.clock ∧ (setWindow n w s).freeCount = s.freeCount ∧
    (setWindow n w s).pending = s.pending := by
  unfold setWindow
  (try dsimp only) <;> (repeat' split) <;> simp

theorem writeSlot_keeps (s t : State) (x i : Nat) (h : s.writeSlot x = some (i, t)) :
    (t).readPath = s.readPath ∧ (t).wb = s.wb ∧ (t).xlat = s.xlat ∧ (t).seq = s.seq ∧ (t).mount = s.mount ∧
    (t).port = s.port ∧ (t).guard = s.guard ∧ (t).sup = s.sup ∧ (t).maint = s.maint ∧ (t).pins = s.pins ∧
    (t).clock = s.clock ∧ (t).freeCount = s.freeCount ∧ (t).pending = s.pending := by
  unfold State.writeSlot at h
  split at h
  · cases h; simp
  · split at h
    · cases h; simp
    · contradiction

@[simp] theorem serveWrite_keeps (r : Request) (s : State) :
    (serveWrite r s).mount = s.mount ∧ (serveWrite r s).guard = s.guard ∧ (serveWrite r s).sup = s.sup ∧
    (serveWrite r s).maint = s.maint ∧ (serveWrite r s).pins = s.pins ∧ (serveWrite r s).clock = s.clock ∧
    (serveWrite r s).freeCount = s.freeCount ∧ (serveWrite r s).pending = s.pending := by
  unfold serveWrite
  split
  · rename_i i t h
    simp [writeSlot_keeps s t _ i h]
  · simp

@[simp] theorem addPending_keeps (rec : PendingRead) (s : State) :
    (addPending rec s).staging = s.staging ∧ (addPending rec s).wb = s.wb ∧ (addPending rec s).mount = s.mount ∧
    (addPending rec s).port = s.port ∧ (addPending rec s).guard = s.guard ∧ (addPending rec s).sup = s.sup ∧
    (addPending rec s).maint = s.maint ∧ (addPending rec s).pins = s.pins ∧ (addPending rec s).clock = s.clock ∧
    (addPending rec s).freeCount = s.freeCount ∧ (addPending rec s).pending = s.pending := by
  unfold addPending
  (try dsimp only) <;> (repeat' split) <;> simp

@[simp] theorem serveRead_keeps (r : Request) (s : State) :
    (serveRead r s).staging = s.staging ∧ (serveRead r s).wb = s.wb ∧ (serveRead r s).mount = s.mount ∧
    (serveRead r s).guard = s.guard ∧ (serveRead r s).sup = s.sup ∧ (serveRead r s).maint = s.maint ∧
    (serveRead r s).pins = s.pins ∧ (serveRead r s).clock = s.clock ∧ (serveRead r s).freeCount = s.freeCount ∧
    (serveRead r s).pending = s.pending := by
  unfold serveRead
  (try dsimp only) <;> (repeat' split) <;> simp

@[simp] theorem servePersist_keeps (r : Request) (s : State) :
    (servePersist r s).mount = s.mount ∧ (servePersist r s).guard = s.guard ∧ (servePersist r s).maint = s.maint ∧
    (servePersist r s).pins = s.pins ∧ (servePersist r s).clock = s.clock ∧
    (servePersist r s).freeCount = s.freeCount ∧ (servePersist r s).pending = s.pending := by
  unfold servePersist
  (try dsimp only) <;> (repeat' split) <;> simp

@[simp] theorem serve_keeps (r : Request) (s : State) :
    (serve r s).mount = s.mount ∧ (serve r s).guard = s.guard ∧ (serve r s).maint = s.maint ∧
    (serve r s).pins = s.pins ∧ (serve r s).clock = s.clock ∧ (serve r s).freeCount = s.freeCount ∧
    (serve r s).pending = s.pending := by
  unfold serve
  (try dsimp only) <;> (repeat' split) <;> simp

@[simp] theorem refuseByState_keeps (e : Entry) (f : FailReason) (s : State) :
    (refuseByState e f s).readPath = s.readPath ∧ (refuseByState e f s).wb = s.wb ∧
    (refuseByState e f s).xlat = s.xlat ∧ (refuseByState e f s).seq = s.seq ∧ (refuseByState e f s).mount = s.mount ∧
    (refuseByState e f s).guard = s.guard ∧ (refuseByState e f s).sup = s.sup ∧
    (refuseByState e f s).maint = s.maint ∧ (refuseByState e f s).pins = s.pins ∧
    (refuseByState e f s).clock = s.clock ∧ (refuseByState e f s).freeCount = s.freeCount ∧
    (refuseByState e f s).pending = s.pending := by
  unfold refuseByState
  (try dsimp only) <;> (repeat' split) <;> simp

@[simp] theorem placeUnjudged_keeps (r : Request) (s : State) :
    (placeUnjudged r s).mount = s.mount ∧ (placeUnjudged r s).pins = s.pins ∧ (placeUnjudged r s).clock = s.clock ∧
    (placeUnjudged r s).freeCount = s.freeCount ∧ (placeUnjudged r s).pending = s.pending := by
  unfold placeUnjudged
  (try dsimp only) <;> (repeat' split) <;> simp

@[simp] theorem placeHead_keeps (e : Entry) (s : State) :
    (placeHead e s).mount = s.mount ∧ (placeHead e s).pins = s.pins ∧ (placeHead e s).clock = s.clock ∧
    (placeHead e s).freeCount = s.freeCount ∧ (placeHead e s).pending = s.pending := by
  unfold placeHead
  (try dsimp only) <;> (repeat' split) <;> simp

theorem placeFor_keeps (k : Nat) : ∀ a s : State,
    (placeFor k a s).mount = s.mount ∧ (placeFor k a s).pins = s.pins ∧ (placeFor k a s).clock = s.clock ∧
    (placeFor k a s).freeCount = s.freeCount ∧ (placeFor k a s).pending = s.pending := by
  induction k with
  | zero => intro a s; simp [placeFor]
  | succ k ih =>
    intro a s
    unfold placeFor
    split
    · simp
    · split
      · simp
      · simp [ih]

@[simp] theorem placements_keeps (a s : State) :
    (placements a s).mount = s.mount ∧ (placements a s).pins = s.pins ∧ (placements a s).clock = s.clock ∧
    (placements a s).freeCount = s.freeCount ∧ (placements a s).pending = s.pending := placeFor_keeps 64 a s

@[simp] theorem oweAgain_keeps (tag : Nat) (s : State) :
    (oweAgain tag s).staging = s.staging ∧ (oweAgain tag s).readPath = s.readPath ∧ (oweAgain tag s).wb = s.wb ∧
    (oweAgain tag s).xlat = s.xlat ∧ (oweAgain tag s).seq = s.seq ∧ (oweAgain tag s).mount = s.mount ∧
    (oweAgain tag s).guard = s.guard ∧ (oweAgain tag s).sup = s.sup ∧ (oweAgain tag s).pins = s.pins ∧
    (oweAgain tag s).clock = s.clock ∧ (oweAgain tag s).freeCount = s.freeCount ∧ (oweAgain tag s).pending = s.pending := by
  unfold oweAgain
  (try dsimp only) <;> (repeat' split) <;> simp

@[simp] theorem takeRequest_keeps (r : Request) (s : State) :
    (takeRequest r s).staging = s.staging ∧ (takeRequest r s).readPath = s.readPath ∧ (takeRequest r s).wb = s.wb ∧
    (takeRequest r s).xlat = s.xlat ∧ (takeRequest r s).seq = s.seq ∧ (takeRequest r s).mount = s.mount ∧
    (takeRequest r s).guard = s.guard ∧ (takeRequest r s).sup = s.sup ∧ (takeRequest r s).maint = s.maint ∧
    (takeRequest r s).pins = s.pins ∧ (takeRequest r s).clock = s.clock ∧ (takeRequest r s).freeCount = s.freeCount ∧
    (takeRequest r s).pending = s.pending := by
  unfold takeRequest
  (try dsimp only) <;> (repeat' split) <;> simp

@[simp] theorem arrive_keeps (record : List Byte) (s : State) :
    (arrive record s).mount = s.mount ∧ (arrive record s).pins = s.pins ∧ (arrive record s).clock = s.clock ∧
    (arrive record s).freeCount = s.freeCount ∧ (arrive record s).pending = s.pending := by
  unfold arrive
  (try dsimp only) <;> (repeat' split) <;> simp

@[simp] theorem setLinkQueue_keeps (q : List (List Byte)) (s : State) :
    (setLinkQueue q s).staging = s.staging ∧ (setLinkQueue q s).readPath = s.readPath ∧ (setLinkQueue q s).wb = s.wb ∧
    (setLinkQueue q s).xlat = s.xlat ∧ (setLinkQueue q s).seq = s.seq ∧ (setLinkQueue q s).mount = s.mount ∧
    (setLinkQueue q s).guard = s.guard ∧ (setLinkQueue q s).sup = s.sup ∧ (setLinkQueue q s).maint = s.maint ∧
    (setLinkQueue q s).pins = s.pins ∧ (setLinkQueue q s).clock = s.clock ∧
    (setLinkQueue q s).freeCount = s.freeCount ∧ (setLinkQueue q s).pending = s.pending := by
  unfold setLinkQueue
  (try dsimp only) <;> (repeat' split) <;> simp

@[simp] theorem arriveWaiting_keeps (q : List (List Byte)) : ∀ s : State,
    (arriveWaiting q s).mount = s.mount ∧ (arriveWaiting q s).pins = s.pins ∧ (arriveWaiting q s).clock = s.clock ∧
    (arriveWaiting q s).freeCount = s.freeCount ∧ (arriveWaiting q s).pending = s.pending := by
  induction q with
  | nil => intro s; simp [arriveWaiting]
  | cons a q ih =>
    intro s
    unfold arriveWaiting
    split <;> simp [ih]

@[simp] theorem presentRecord_keeps (record : List Byte) (s : State) :
    (presentRecord record s).mount = s.mount ∧ (presentRecord record s).pins = s.pins ∧
    (presentRecord record s).clock = s.clock ∧ (presentRecord record s).freeCount = s.freeCount ∧
    (presentRecord record s).pending = s.pending := by
  unfold presentRecord
  (try dsimp only) <;> (repeat' split) <;> simp

@[simp] theorem finish_keeps (a s : State) :
    (finish a s).pins = s.pins ∧ (finish a s).freeCount = s.freeCount ∧ (finish a s).pending = s.pending := by
  simp [finish]

@[simp] theorem beginDrain_keeps (c : DrainCause) (s : State) :
    (beginDrain c s).mount = s.mount ∧ (beginDrain c s).guard = s.guard ∧ (beginDrain c s).maint = s.maint ∧
    (beginDrain c s).pins = s.pins ∧ (beginDrain c s).clock = s.clock ∧ (beginDrain c s).freeCount = s.freeCount ∧
    (beginDrain c s).pending = s.pending := by
  unfold beginDrain
  (try dsimp only) <;> (repeat' split) <;> simp

theorem foldReads_keeps (st : PendingRead → ResponseStatus) (d : PendingRead → List Byte) (rs : List PendingRead) :
    ∀ s : State,
    (rs.foldl (fun t r => becomeReady r.tag (st r) (d r) t) s).staging = s.staging ∧
    (rs.foldl (fun t r => becomeReady r.tag (st r) (d r) t) s).readPath = s.readPath ∧
    (rs.foldl (fun t r => becomeReady r.tag (st r) (d r) t) s).wb = s.wb ∧
    (rs.foldl (fun t r => becomeReady r.tag (st r) (d r) t) s).xlat = s.xlat ∧
    (rs.foldl (fun t r => becomeReady r.tag (st r) (d r) t) s).seq = s.seq ∧
    (rs.foldl (fun t r => becomeReady r.tag (st r) (d r) t) s).mount = s.mount ∧
    (rs.foldl (fun t r => becomeReady r.tag (st r) (d r) t) s).guard = s.guard ∧
    (rs.foldl (fun t r => becomeReady r.tag (st r) (d r) t) s).sup = s.sup ∧
    (rs.foldl (fun t r => becomeReady r.tag (st r) (d r) t) s).maint = s.maint ∧
    (rs.foldl (fun t r => becomeReady r.tag (st r) (d r) t) s).pins = s.pins ∧
    (rs.foldl (fun t r => becomeReady r.tag (st r) (d r) t) s).clock = s.clock ∧
    (rs.foldl (fun t r => becomeReady r.tag (st r) (d r) t) s).freeCount = s.freeCount ∧
    (rs.foldl (fun t r => becomeReady r.tag (st r) (d r) t) s).pending = s.pending := by
  induction rs with
  | nil => intro s; simp
  | cons r rs ih => intro s; simp [ih]

@[simp] theorem faultReads_keeps (s : State) :
    (faultReads s).staging = s.staging ∧ (faultReads s).wb = s.wb ∧ (faultReads s).xlat = s.xlat ∧
    (faultReads s).seq = s.seq ∧ (faultReads s).mount = s.mount ∧ (faultReads s).guard = s.guard ∧
    (faultReads s).sup = s.sup ∧ (faultReads s).maint = s.maint ∧ (faultReads s).pins = s.pins ∧
    (faultReads s).clock = s.clock ∧ (faultReads s).freeCount = s.freeCount ∧ (faultReads s).pending = s.pending := by
  unfold faultReads
  simp [foldReads_keeps (fun _ => .fail .fault) (fun _ => [])]

@[simp] theorem faultBarriers_keeps (s : State) :
    (faultBarriers s).staging = s.staging ∧ (faultBarriers s).readPath = s.readPath ∧
    (faultBarriers s).xlat = s.xlat ∧ (faultBarriers s).seq = s.seq ∧ (faultBarriers s).mount = s.mount ∧
    (faultBarriers s).guard = s.guard ∧ (faultBarriers s).sup = s.sup ∧ (faultBarriers s).maint = s.maint ∧
    (faultBarriers s).pins = s.pins ∧ (faultBarriers s).clock = s.clock ∧ (faultBarriers s).freeCount = s.freeCount ∧
    (faultBarriers s).pending = s.pending := by
  unfold faultBarriers
  (try dsimp only) <;> (repeat' split) <;> simp

@[simp] theorem requestFault_keeps (s : State) :
    (requestFault s).pins = s.pins ∧ (requestFault s).freeCount = s.freeCount ∧ (requestFault s).pending = s.pending := by
  unfold requestFault
  (try dsimp only) <;> (repeat' split) <;> simp

@[simp] theorem resetLineLow_keeps (s : State) :
    (resetLineLow s).pins = s.pins ∧ (resetLineLow s).freeCount = s.freeCount ∧ (resetLineLow s).pending = s.pending := by
  unfold resetLineLow
  (try dsimp only) <;> (repeat' split) <;> simp

@[simp] theorem softResetActs_keeps (s : State) :
    (softResetActs s).pins = s.pins ∧ (softResetActs s).freeCount = s.freeCount ∧
    (softResetActs s).pending = s.pending := by
  unfold softResetActs
  (try dsimp only) <;> (repeat' split) <;> simp

@[simp] theorem strapCheck_keeps (asz : BitVec 2) (s : State) :
    (strapCheck asz s).pins = s.pins ∧ (strapCheck asz s).freeCount = s.freeCount ∧
    (strapCheck asz s).pending = s.pending := by
  unfold strapCheck
  (try dsimp only) <;> (repeat' split) <;> simp

@[simp] theorem readyWaitDone_keeps (asz : BitVec 2) (s : State) :
    (readyWaitDone asz s).pins = s.pins ∧ (readyWaitDone asz s).freeCount = s.freeCount ∧
    (readyWaitDone asz s).pending = s.pending := by
  unfold readyWaitDone
  (try dsimp only) <;> (repeat' split) <;> simp

@[simp] theorem applySelection_keeps (sel : Selection) (s : State) :
    (applySelection sel s).readPath = s.readPath ∧ (applySelection sel s).wb = s.wb ∧
    (applySelection sel s).port = s.port ∧ (applySelection sel s).guard = s.guard ∧
    (applySelection sel s).pins = s.pins ∧ (applySelection sel s).clock = s.clock ∧
    (applySelection sel s).freeCount = s.freeCount ∧ (applySelection sel s).pending = s.pending := by
  unfold applySelection
  (try dsimp only) <;> (repeat' split) <;> simp

@[simp] theorem selectActive_keeps (s : State) :
    (selectActive s).readPath = s.readPath ∧ (selectActive s).wb = s.wb ∧ (selectActive s).port = s.port ∧
    (selectActive s).guard = s.guard ∧ (selectActive s).pins = s.pins ∧ (selectActive s).clock = s.clock ∧
    (selectActive s).freeCount = s.freeCount ∧ (selectActive s).pending = s.pending := by
  unfold selectActive
  (try dsimp only) <;> (repeat' split) <;> simp

@[simp] theorem configCopyRead_keeps (st : ArrayStatus) (d : List Byte) (s : State) :
    (configCopyRead st d s).readPath = s.readPath ∧ (configCopyRead st d s).wb = s.wb ∧
    (configCopyRead st d s).port = s.port ∧ (configCopyRead st d s).guard = s.guard ∧
    (configCopyRead st d s).pins = s.pins ∧ (configCopyRead st d s).clock = s.clock ∧
    (configCopyRead st d s).freeCount = s.freeCount ∧ (configCopyRead st d s).pending = s.pending := by
  unfold configCopyRead
  (try dsimp only) <;> (repeat' split) <;> simp

@[simp] theorem feedLargest_keeps (spare : List Byte) (s : State) :
    (feedLargest spare s).staging = s.staging ∧ (feedLargest spare s).readPath = s.readPath ∧
    (feedLargest spare s).wb = s.wb ∧ (feedLargest spare s).xlat = s.xlat ∧ (feedLargest spare s).seq = s.seq ∧
    (feedLargest spare s).port = s.port ∧ (feedLargest spare s).guard = s.guard ∧ (feedLargest spare s).sup = s.sup ∧
    (feedLargest spare s).maint = s.maint ∧ (feedLargest spare s).pins = s.pins ∧
    (feedLargest spare s).clock = s.clock ∧ (feedLargest spare s).freeCount = s.freeCount ∧
    (feedLargest spare s).pending = s.pending := by
  unfold feedLargest
  (try dsimp only) <;> (repeat' split) <;> simp

@[simp] theorem classifyAs_keeps (p : Nat) (st : PageState) (s : State) :
    (classifyAs p st s).staging = s.staging ∧ (classifyAs p st s).readPath = s.readPath ∧
    (classifyAs p st s).wb = s.wb ∧ (classifyAs p st s).seq = s.seq ∧ (classifyAs p st s).mount = s.mount ∧
    (classifyAs p st s).port = s.port ∧ (classifyAs p st s).guard = s.guard ∧ (classifyAs p st s).sup = s.sup ∧
    (classifyAs p st s).maint = s.maint ∧ (classifyAs p st s).pins = s.pins ∧ (classifyAs p st s).clock = s.clock ∧
    (classifyAs p st s).freeCount = s.freeCount ∧ (classifyAs p st s).pending = s.pending := by
  unfold classifyAs
  (try dsimp only) <;> (repeat' split) <;> simp

@[simp] theorem nameCandidate_keeps (x p : Nat) (q : Word32) (s : State) :
    (nameCandidate x p q s).staging = s.staging ∧ (nameCandidate x p q s).readPath = s.readPath ∧
    (nameCandidate x p q s).wb = s.wb ∧ (nameCandidate x p q s).seq = s.seq ∧ (nameCandidate x p q s).port = s.port ∧
    (nameCandidate x p q s).guard = s.guard ∧ (nameCandidate x p q s).sup = s.sup ∧
    (nameCandidate x p q s).maint = s.maint ∧ (nameCandidate x p q s).pins = s.pins ∧
    (nameCandidate x p q s).clock = s.clock ∧ (nameCandidate x p q s).freeCount = s.freeCount ∧
    (nameCandidate x p q s).pending = s.pending := by
  unfold nameCandidate
  (try dsimp only) <;> (repeat' split) <;> simp

@[simp] theorem resolveCandidate_keeps (p x : Nat) (q : Word32) (s : State) :
    (resolveCandidate p x q s).staging = s.staging ∧ (resolveCandidate p x q s).readPath = s.readPath ∧
    (resolveCandidate p x q s).wb = s.wb ∧ (resolveCandidate p x q s).seq = s.seq ∧
    (resolveCandidate p x q s).port = s.port ∧ (resolveCandidate p x q s).guard = s.guard ∧
    (resolveCandidate p x q s).sup = s.sup ∧ (resolveCandidate p x q s).maint = s.maint ∧
    (resolveCandidate p x q s).pins = s.pins ∧ (resolveCandidate p x q s).clock = s.clock ∧
    (resolveCandidate p x q s).freeCount = s.freeCount ∧ (resolveCandidate p x q s).pending = s.pending := by
  unfold resolveCandidate
  (try dsimp only) <;> (repeat' split) <;> simp

@[simp] theorem classifyPage_keeps (p : Nat) (st : ArrayStatus) (spare : List Byte) (s : State) :
    (classifyPage p st spare s).staging = s.staging ∧ (classifyPage p st spare s).readPath = s.readPath ∧
    (classifyPage p st spare s).wb = s.wb ∧ (classifyPage p st spare s).seq = s.seq ∧
    (classifyPage p st spare s).port = s.port ∧ (classifyPage p st spare s).guard = s.guard ∧
    (classifyPage p st spare s).sup = s.sup ∧ (classifyPage p st spare s).maint = s.maint ∧
    (classifyPage p st spare s).pins = s.pins ∧ (classifyPage p st spare s).clock = s.clock ∧
    (classifyPage p st spare s).freeCount = s.freeCount ∧ (classifyPage p st spare s).pending = s.pending := by
  unfold classifyPage
  (try dsimp only) <;> (repeat' split) <;> simp

@[simp] theorem buildCollections_keeps (s : State) :
    (buildCollections s).staging = s.staging ∧ (buildCollections s).readPath = s.readPath ∧
    (buildCollections s).wb = s.wb ∧ (buildCollections s).seq = s.seq ∧ (buildCollections s).mount = s.mount ∧
    (buildCollections s).port = s.port ∧ (buildCollections s).guard = s.guard ∧ (buildCollections s).sup = s.sup ∧
    (buildCollections s).maint = s.maint ∧ (buildCollections s).pins = s.pins ∧ (buildCollections s).clock = s.clock ∧
    (buildCollections s).freeCount = s.freeCount ∧ (buildCollections s).pending = s.pending := by
  unfold buildCollections
  (try dsimp only) <;> (repeat' split) <;> simp

@[simp] theorem exitMount_keeps (s : State) :
    (exitMount s).staging = s.staging ∧ (exitMount s).readPath = s.readPath ∧ (exitMount s).wb = s.wb ∧
    (exitMount s).xlat = s.xlat ∧ (exitMount s).seq = s.seq ∧ (exitMount s).mount = s.mount ∧
    (exitMount s).port = s.port ∧ (exitMount s).guard = s.guard ∧ (exitMount s).maint = s.maint ∧
    (exitMount s).pins = s.pins ∧ (exitMount s).clock = s.clock ∧ (exitMount s).freeCount = s.freeCount ∧
    (exitMount s).pending = s.pending := by
  unfold exitMount
  (try dsimp only) <;> (repeat' split) <;> simp

@[simp] theorem mountExit_keeps (s : State) :
    (mountExit s).staging = s.staging ∧ (mountExit s).readPath = s.readPath ∧ (mountExit s).wb = s.wb ∧
    (mountExit s).seq = s.seq ∧ (mountExit s).port = s.port ∧ (mountExit s).maint = s.maint ∧
    (mountExit s).pins = s.pins ∧ (mountExit s).clock = s.clock ∧ (mountExit s).freeCount = s.freeCount ∧
    (mountExit s).pending = s.pending := by
  unfold mountExit
  (try dsimp only) <;> (repeat' split) <;> simp

@[simp] theorem advanceScan_keeps (p : Nat) (s : State) :
    (advanceScan p s).staging = s.staging ∧ (advanceScan p s).readPath = s.readPath ∧ (advanceScan p s).wb = s.wb ∧
    (advanceScan p s).port = s.port ∧ (advanceScan p s).maint = s.maint ∧ (advanceScan p s).pins = s.pins ∧
    (advanceScan p s).clock = s.clock ∧ (advanceScan p s).freeCount = s.freeCount ∧
    (advanceScan p s).pending = s.pending := by
  unfold advanceScan
  (try dsimp only) <;> (repeat' split) <;> simp

@[simp] theorem headerRead_keeps (st : ArrayStatus) (spare : List Byte) (s : State) :
    (headerRead st spare s).staging = s.staging ∧ (headerRead st spare s).readPath = s.readPath ∧
    (headerRead st spare s).wb = s.wb ∧ (headerRead st spare s).port = s.port ∧
    (headerRead st spare s).maint = s.maint ∧ (headerRead st spare s).pins = s.pins ∧
    (headerRead st spare s).clock = s.clock ∧ (headerRead st spare s).freeCount = s.freeCount ∧
    (headerRead st spare s).pending = s.pending := by
  unfold headerRead
  (try dsimp only) <;> (repeat' split) <;> simp

@[simp] theorem mountFaultEnd_keeps (s : State) :
    (mountFaultEnd s).staging = s.staging ∧ (mountFaultEnd s).readPath = s.readPath ∧ (mountFaultEnd s).wb = s.wb ∧
    (mountFaultEnd s).seq = s.seq ∧ (mountFaultEnd s).port = s.port ∧ (mountFaultEnd s).guard = s.guard ∧
    (mountFaultEnd s).sup = s.sup ∧ (mountFaultEnd s).maint = s.maint ∧ (mountFaultEnd s).pins = s.pins ∧
    (mountFaultEnd s).clock = s.clock ∧ (mountFaultEnd s).freeCount = s.freeCount ∧
    (mountFaultEnd s).pending = s.pending := by
  unfold mountFaultEnd
  (try dsimp only) <;> (repeat' split) <;> simp

@[simp] theorem respond_keeps (c : Completion) (d : List Byte) (s : State) :
    (respond c d s).staging = s.staging ∧ (respond c d s).readPath = s.readPath ∧ (respond c d s).wb = s.wb ∧
    (respond c d s).xlat = s.xlat ∧ (respond c d s).seq = s.seq ∧ (respond c d s).mount = s.mount ∧
    (respond c d s).port = s.port ∧ (respond c d s).guard = s.guard ∧ (respond c d s).sup = s.sup ∧
    (respond c d s).pins = s.pins ∧ (respond c d s).clock = s.clock ∧ (respond c d s).freeCount = s.freeCount ∧
    (respond c d s).pending = s.pending := by
  unfold respond
  (try dsimp only) <;> (repeat' split) <;> simp

@[simp] theorem setFlags_keeps (f : MaintFlags) (s : State) :
    (setFlags f s).staging = s.staging ∧ (setFlags f s).readPath = s.readPath ∧ (setFlags f s).wb = s.wb ∧
    (setFlags f s).xlat = s.xlat ∧ (setFlags f s).seq = s.seq ∧ (setFlags f s).mount = s.mount ∧
    (setFlags f s).port = s.port ∧ (setFlags f s).guard = s.guard ∧ (setFlags f s).sup = s.sup ∧
    (setFlags f s).pins = s.pins ∧ (setFlags f s).clock = s.clock ∧ (setFlags f s).freeCount = s.freeCount ∧
    (setFlags f s).pending = s.pending := by
  unfold setFlags
  (try dsimp only) <;> (repeat' split) <;> simp

@[simp] theorem setBuffer_keeps (b : List Byte) (s : State) :
    (setBuffer b s).staging = s.staging ∧ (setBuffer b s).readPath = s.readPath ∧ (setBuffer b s).wb = s.wb ∧
    (setBuffer b s).xlat = s.xlat ∧ (setBuffer b s).seq = s.seq ∧ (setBuffer b s).mount = s.mount ∧
    (setBuffer b s).port = s.port ∧ (setBuffer b s).guard = s.guard ∧ (setBuffer b s).sup = s.sup ∧
    (setBuffer b s).pins = s.pins ∧ (setBuffer b s).clock = s.clock ∧ (setBuffer b s).freeCount = s.freeCount ∧
    (setBuffer b s).pending = s.pending := by
  unfold setBuffer
  (try dsimp only) <;> (repeat' split) <;> simp

@[simp] theorem doStatus_keeps (s : State) :
    (doStatus s).staging = s.staging ∧ (doStatus s).readPath = s.readPath ∧ (doStatus s).wb = s.wb ∧
    (doStatus s).xlat = s.xlat ∧ (doStatus s).seq = s.seq ∧ (doStatus s).mount = s.mount ∧
    (doStatus s).port = s.port ∧ (doStatus s).guard = s.guard ∧ (doStatus s).sup = s.sup ∧
    (doStatus s).pins = s.pins ∧ (doStatus s).clock = s.clock ∧ (doStatus s).freeCount = s.freeCount ∧
    (doStatus s).pending = s.pending := by
  unfold doStatus
  (try dsimp only) <;> (repeat' split) <;> simp

@[simp] theorem doCounters_keeps (s : State) :
    (doCounters s).staging = s.staging ∧ (doCounters s).readPath = s.readPath ∧ (doCounters s).wb = s.wb ∧
    (doCounters s).xlat = s.xlat ∧ (doCounters s).seq = s.seq ∧ (doCounters s).mount = s.mount ∧
    (doCounters s).port = s.port ∧ (doCounters s).guard = s.guard ∧ (doCounters s).sup = s.sup ∧
    (doCounters s).pins = s.pins ∧ (doCounters s).clock = s.clock ∧ (doCounters s).freeCount = s.freeCount ∧
    (doCounters s).pending = s.pending := by
  unfold doCounters
  (try dsimp only) <;> (repeat' split) <;> simp

@[simp] theorem doClearCounters_keeps (s : State) :
    (doClearCounters s).staging = s.staging ∧ (doClearCounters s).readPath = s.readPath ∧
    (doClearCounters s).wb = s.wb ∧ (doClearCounters s).xlat = s.xlat ∧ (doClearCounters s).seq = s.seq ∧
    (doClearCounters s).mount = s.mount ∧ (doClearCounters s).port = s.port ∧ (doClearCounters s).guard = s.guard ∧
    (doClearCounters s).sup = s.sup ∧ (doClearCounters s).pins = s.pins ∧ (doClearCounters s).clock = s.clock ∧
    (doClearCounters s).freeCount = s.freeCount ∧ (doClearCounters s).pending = s.pending := by
  unfold doClearCounters
  (try dsimp only) <;> (repeat' split) <;> simp

@[simp] theorem doCapture_keeps (args : List Byte) (s : State) :
    (doCapture args s).staging = s.staging ∧ (doCapture args s).readPath = s.readPath ∧ (doCapture args s).wb = s.wb ∧
    (doCapture args s).xlat = s.xlat ∧ (doCapture args s).seq = s.seq ∧ (doCapture args s).mount = s.mount ∧
    (doCapture args s).port = s.port ∧ (doCapture args s).guard = s.guard ∧ (doCapture args s).sup = s.sup ∧
    (doCapture args s).pins = s.pins ∧ (doCapture args s).clock = s.clock ∧
    (doCapture args s).freeCount = s.freeCount ∧ (doCapture args s).pending = s.pending := by
  unfold doCapture
  (try dsimp only) <;> (repeat' split) <;> simp

@[simp] theorem doClearCapture_keeps (args : List Byte) (s : State) :
    (doClearCapture args s).staging = s.staging ∧ (doClearCapture args s).readPath = s.readPath ∧
    (doClearCapture args s).wb = s.wb ∧ (doClearCapture args s).xlat = s.xlat ∧ (doClearCapture args s).seq = s.seq ∧
    (doClearCapture args s).mount = s.mount ∧ (doClearCapture args s).port = s.port ∧
    (doClearCapture args s).sup = s.sup ∧ (doClearCapture args s).pins = s.pins ∧
    (doClearCapture args s).clock = s.clock ∧ (doClearCapture args s).freeCount = s.freeCount ∧
    (doClearCapture args s).pending = s.pending := by
  unfold doClearCapture
  (try dsimp only) <;> (repeat' split) <;> simp

@[simp] theorem doWindowRead_keeps (args : List Byte) (s : State) :
    (doWindowRead args s).staging = s.staging ∧ (doWindowRead args s).readPath = s.readPath ∧
    (doWindowRead args s).wb = s.wb ∧ (doWindowRead args s).xlat = s.xlat ∧ (doWindowRead args s).seq = s.seq ∧
    (doWindowRead args s).mount = s.mount ∧ (doWindowRead args s).port = s.port ∧
    (doWindowRead args s).guard = s.guard ∧ (doWindowRead args s).sup = s.sup ∧ (doWindowRead args s).pins = s.pins ∧
    (doWindowRead args s).clock = s.clock ∧ (doWindowRead args s).freeCount = s.freeCount ∧
    (doWindowRead args s).pending = s.pending := by
  unfold doWindowRead
  (try dsimp only) <;> (repeat' split) <;> simp

@[simp] theorem doWindowSet_keeps (args : List Byte) (s : State) :
    (doWindowSet args s).staging = s.staging ∧ (doWindowSet args s).readPath = s.readPath ∧
    (doWindowSet args s).wb = s.wb ∧ (doWindowSet args s).xlat = s.xlat ∧ (doWindowSet args s).seq = s.seq ∧
    (doWindowSet args s).mount = s.mount ∧ (doWindowSet args s).port = s.port ∧ (doWindowSet args s).sup = s.sup ∧
    (doWindowSet args s).pins = s.pins ∧ (doWindowSet args s).clock = s.clock ∧
    (doWindowSet args s).freeCount = s.freeCount ∧ (doWindowSet args s).pending = s.pending := by
  unfold doWindowSet
  (try dsimp only) <;> (repeat' split) <;> simp

@[simp] theorem doMapQuery_keeps (args : List Byte) (s : State) :
    (doMapQuery args s).staging = s.staging ∧ (doMapQuery args s).readPath = s.readPath ∧
    (doMapQuery args s).wb = s.wb ∧ (doMapQuery args s).xlat = s.xlat ∧ (doMapQuery args s).seq = s.seq ∧
    (doMapQuery args s).mount = s.mount ∧ (doMapQuery args s).port = s.port ∧ (doMapQuery args s).guard = s.guard ∧
    (doMapQuery args s).sup = s.sup ∧ (doMapQuery args s).pins = s.pins ∧ (doMapQuery args s).clock = s.clock ∧
    (doMapQuery args s).freeCount = s.freeCount ∧ (doMapQuery args s).pending = s.pending := by
  unfold doMapQuery
  (try dsimp only) <;> (repeat' split) <;> simp

@[simp] theorem doFlush_keeps (s : State) :
    (doFlush s).mount = s.mount ∧ (doFlush s).guard = s.guard ∧ (doFlush s).pins = s.pins ∧
    (doFlush s).clock = s.clock ∧ (doFlush s).freeCount = s.freeCount ∧ (doFlush s).pending = s.pending := by
  unfold doFlush
  (try dsimp only) <;> (repeat' split) <;> simp

@[simp] theorem doLossRead_keeps (s : State) :
    (doLossRead s).staging = s.staging ∧ (doLossRead s).readPath = s.readPath ∧ (doLossRead s).wb = s.wb ∧
    (doLossRead s).xlat = s.xlat ∧ (doLossRead s).seq = s.seq ∧ (doLossRead s).mount = s.mount ∧
    (doLossRead s).port = s.port ∧ (doLossRead s).guard = s.guard ∧ (doLossRead s).sup = s.sup ∧
    (doLossRead s).pins = s.pins ∧ (doLossRead s).clock = s.clock ∧ (doLossRead s).freeCount = s.freeCount ∧
    (doLossRead s).pending = s.pending := by
  unfold doLossRead
  (try dsimp only) <;> (repeat' split) <;> simp

@[simp] theorem doConfigLoad_keeps (s : State) :
    (doConfigLoad s).staging = s.staging ∧ (doConfigLoad s).readPath = s.readPath ∧ (doConfigLoad s).wb = s.wb ∧
    (doConfigLoad s).xlat = s.xlat ∧ (doConfigLoad s).seq = s.seq ∧ (doConfigLoad s).mount = s.mount ∧
    (doConfigLoad s).port = s.port ∧ (doConfigLoad s).guard = s.guard ∧ (doConfigLoad s).sup = s.sup ∧
    (doConfigLoad s).pins = s.pins ∧ (doConfigLoad s).clock = s.clock ∧ (doConfigLoad s).freeCount = s.freeCount ∧
    (doConfigLoad s).pending = s.pending := by
  unfold doConfigLoad
  (try dsimp only) <;> (repeat' split) <;> simp

@[simp] theorem doConfigRead_keeps (args : List Byte) (s : State) :
    (doConfigRead args s).staging = s.staging ∧ (doConfigRead args s).readPath = s.readPath ∧
    (doConfigRead args s).wb = s.wb ∧ (doConfigRead args s).xlat = s.xlat ∧ (doConfigRead args s).seq = s.seq ∧
    (doConfigRead args s).mount = s.mount ∧ (doConfigRead args s).port = s.port ∧
    (doConfigRead args s).guard = s.guard ∧ (doConfigRead args s).sup = s.sup ∧ (doConfigRead args s).pins = s.pins ∧
    (doConfigRead args s).clock = s.clock ∧ (doConfigRead args s).freeCount = s.freeCount ∧
    (doConfigRead args s).pending = s.pending := by
  unfold doConfigRead
  (try dsimp only) <;> (repeat' split) <;> simp

@[simp] theorem doConfigWrite_keeps (args : List Byte) (s : State) :
    (doConfigWrite args s).staging = s.staging ∧ (doConfigWrite args s).readPath = s.readPath ∧
    (doConfigWrite args s).wb = s.wb ∧ (doConfigWrite args s).xlat = s.xlat ∧ (doConfigWrite args s).seq = s.seq ∧
    (doConfigWrite args s).mount = s.mount ∧ (doConfigWrite args s).port = s.port ∧
    (doConfigWrite args s).guard = s.guard ∧ (doConfigWrite args s).sup = s.sup ∧
    (doConfigWrite args s).pins = s.pins ∧ (doConfigWrite args s).clock = s.clock ∧
    (doConfigWrite args s).freeCount = s.freeCount ∧ (doConfigWrite args s).pending = s.pending := by
  unfold doConfigWrite
  (try dsimp only) <;> (repeat' split) <;> simp

@[simp] theorem beginCommit_keeps (s : State) :
    (beginCommit s).staging = s.staging ∧ (beginCommit s).readPath = s.readPath ∧ (beginCommit s).wb = s.wb ∧
    (beginCommit s).xlat = s.xlat ∧ (beginCommit s).mount = s.mount ∧ (beginCommit s).port = s.port ∧
    (beginCommit s).guard = s.guard ∧ (beginCommit s).sup = s.sup ∧ (beginCommit s).pins = s.pins ∧
    (beginCommit s).clock = s.clock ∧ (beginCommit s).freeCount = s.freeCount ∧ (beginCommit s).pending = s.pending := by
  unfold beginCommit
  (try dsimp only) <;> (repeat' split) <;> simp

@[simp] theorem doConfigCommit_keeps (s : State) :
    (doConfigCommit s).staging = s.staging ∧ (doConfigCommit s).readPath = s.readPath ∧ (doConfigCommit s).wb = s.wb ∧
    (doConfigCommit s).xlat = s.xlat ∧ (doConfigCommit s).mount = s.mount ∧ (doConfigCommit s).port = s.port ∧
    (doConfigCommit s).guard = s.guard ∧ (doConfigCommit s).sup = s.sup ∧ (doConfigCommit s).pins = s.pins ∧
    (doConfigCommit s).clock = s.clock ∧ (doConfigCommit s).freeCount = s.freeCount ∧
    (doConfigCommit s).pending = s.pending := by
  unfold doConfigCommit
  (try dsimp only) <;> (repeat' split) <;> simp

@[simp] theorem doResetCause_keeps (s : State) :
    (doResetCause s).staging = s.staging ∧ (doResetCause s).readPath = s.readPath ∧ (doResetCause s).wb = s.wb ∧
    (doResetCause s).xlat = s.xlat ∧ (doResetCause s).seq = s.seq ∧ (doResetCause s).mount = s.mount ∧
    (doResetCause s).port = s.port ∧ (doResetCause s).guard = s.guard ∧ (doResetCause s).sup = s.sup ∧
    (doResetCause s).pins = s.pins ∧ (doResetCause s).clock = s.clock ∧ (doResetCause s).freeCount = s.freeCount ∧
    (doResetCause s).pending = s.pending := by
  unfold doResetCause
  (try dsimp only) <;> (repeat' split) <;> simp

@[simp] theorem doSoftReset_keeps (s : State) :
    (doSoftReset s).pins = s.pins ∧ (doSoftReset s).freeCount = s.freeCount ∧ (doSoftReset s).pending = s.pending := by
  unfold doSoftReset
  (try dsimp only) <;> (repeat' split) <;> simp

@[simp] theorem act_keeps (c : CommandName) (args : List Byte) (s : State) :
    (c.act args s).pins = s.pins ∧ (c.act args s).freeCount = s.freeCount ∧ (c.act args s).pending = s.pending := by
  cases c <;> simp [CommandName.act]

@[simp] theorem decideCommand_keeps (c : CommandName) (args : List Byte) (s : State) :
    (decideCommand c args s).pins = s.pins ∧ (decideCommand c args s).freeCount = s.freeCount ∧
    (decideCommand c args s).pending = s.pending := by
  unfold decideCommand
  (repeat' split) <;> simp

@[simp] theorem setTransaction_keeps (t : Transaction) (s : State) :
    (setTransaction t s).staging = s.staging ∧ (setTransaction t s).readPath = s.readPath ∧
    (setTransaction t s).wb = s.wb ∧ (setTransaction t s).xlat = s.xlat ∧ (setTransaction t s).seq = s.seq ∧
    (setTransaction t s).mount = s.mount ∧ (setTransaction t s).port = s.port ∧ (setTransaction t s).guard = s.guard ∧
    (setTransaction t s).sup = s.sup ∧ (setTransaction t s).pins = s.pins ∧ (setTransaction t s).clock = s.clock ∧
    (setTransaction t s).freeCount = s.freeCount ∧ (setTransaction t s).pending = s.pending := by
  unfold setTransaction
  (try dsimp only) <;> (repeat' split) <;> simp

@[simp] theorem decideFrame_keeps (c : Option CommandName) (args : List Byte) (s : State) :
    (decideFrame c args s).pins = s.pins ∧ (decideFrame c args s).freeCount = s.freeCount ∧
    (decideFrame c args s).pending = s.pending := by
  unfold decideFrame
  (try dsimp only) <;> (repeat' split) <;> simp

@[simp] theorem endFrame_keeps (c : Option CommandName) (args : List Byte) (s : State) :
    (endFrame c args s).pins = s.pins ∧ (endFrame c args s).freeCount = s.freeCount ∧
    (endFrame c args s).pending = s.pending := by
  unfold endFrame
  (try dsimp only) <;> (repeat' split) <;> simp

@[simp] theorem setPfwN_keeps (b : Bool) (s : State) :
    (setPfwN b s).staging = s.staging ∧ (setPfwN b s).readPath = s.readPath ∧ (setPfwN b s).wb = s.wb ∧
    (setPfwN b s).xlat = s.xlat ∧ (setPfwN b s).seq = s.seq ∧ (setPfwN b s).mount = s.mount ∧
    (setPfwN b s).port = s.port ∧ (setPfwN b s).guard = s.guard ∧ (setPfwN b s).sup = s.sup ∧
    (setPfwN b s).maint = s.maint ∧ (setPfwN b s).clock = s.clock ∧ (setPfwN b s).freeCount = s.freeCount ∧
    (setPfwN b s).pending = s.pending := by
  unfold setPfwN
  (try dsimp only) <;> (repeat' split) <;> simp

@[simp] theorem setMadr_keeps (m : BitVec 2) (s : State) :
    (setMadr m s).staging = s.staging ∧ (setMadr m s).readPath = s.readPath ∧ (setMadr m s).wb = s.wb ∧
    (setMadr m s).xlat = s.xlat ∧ (setMadr m s).seq = s.seq ∧ (setMadr m s).mount = s.mount ∧
    (setMadr m s).port = s.port ∧ (setMadr m s).guard = s.guard ∧ (setMadr m s).sup = s.sup ∧
    (setMadr m s).maint = s.maint ∧ (setMadr m s).clock = s.clock ∧ (setMadr m s).freeCount = s.freeCount ∧
    (setMadr m s).pending = s.pending := by
  unfold setMadr
  simp

@[simp] theorem setResetN_keeps (b : Bool) (s : State) :
    (setResetN b s).staging = s.staging ∧ (setResetN b s).readPath = s.readPath ∧ (setResetN b s).wb = s.wb ∧
    (setResetN b s).xlat = s.xlat ∧ (setResetN b s).seq = s.seq ∧ (setResetN b s).mount = s.mount ∧
    (setResetN b s).port = s.port ∧ (setResetN b s).guard = s.guard ∧ (setResetN b s).sup = s.sup ∧
    (setResetN b s).maint = s.maint ∧ (setResetN b s).clock = s.clock ∧ (setResetN b s).freeCount = s.freeCount ∧
    (setResetN b s).pending = s.pending := by
  unfold setResetN
  (try dsimp only) <;> (repeat' split) <;> simp

@[simp] theorem setWarning_keeps (w : PowerWarning) (s : State) :
    (setWarning w s).staging = s.staging ∧ (setWarning w s).readPath = s.readPath ∧ (setWarning w s).wb = s.wb ∧
    (setWarning w s).xlat = s.xlat ∧ (setWarning w s).seq = s.seq ∧ (setWarning w s).mount = s.mount ∧
    (setWarning w s).port = s.port ∧ (setWarning w s).guard = s.guard ∧ (setWarning w s).maint = s.maint ∧
    (setWarning w s).pins = s.pins ∧ (setWarning w s).clock = s.clock ∧ (setWarning w s).freeCount = s.freeCount ∧
    (setWarning w s).pending = s.pending := by
  unfold setWarning
  (try dsimp only) <;> (repeat' split) <;> simp

@[simp] theorem powerLow_keeps (s : State) :
    (powerLow s).staging = s.staging ∧ (powerLow s).readPath = s.readPath ∧ (powerLow s).wb = s.wb ∧
    (powerLow s).xlat = s.xlat ∧ (powerLow s).seq = s.seq ∧ (powerLow s).mount = s.mount ∧
    (powerLow s).port = s.port ∧ (powerLow s).guard = s.guard ∧ (powerLow s).maint = s.maint ∧
    (powerLow s).clock = s.clock ∧ (powerLow s).freeCount = s.freeCount ∧ (powerLow s).pending = s.pending := by
  unfold powerLow
  (try dsimp only) <;> (repeat' split) <;> simp

@[simp] theorem recover_keeps (s : State) :
    (recover s).pins = s.pins ∧ (recover s).freeCount = s.freeCount ∧ (recover s).pending = s.pending := by
  unfold recover
  (try dsimp only) <;> (repeat' split) <;> simp

@[simp] theorem powerHigh_keeps (s : State) :
    (powerHigh s).freeCount = s.freeCount ∧ (powerHigh s).pending = s.pending := by
  unfold powerHigh
  (try dsimp only) <;> (repeat' split) <;> simp

@[simp] theorem qualified_keeps (s : State) :
    (qualified s).pins = s.pins ∧ (qualified s).freeCount = s.freeCount ∧ (qualified s).pending = s.pending := by
  unfold qualified
  (try dsimp only) <;> (repeat' split) <;> simp

@[simp] theorem qualify_keeps (s : State) :
    (qualify s).pins = s.pins ∧ (qualify s).freeCount = s.freeCount ∧ (qualify s).pending = s.pending := by
  unfold qualify
  (try dsimp only) <;> (repeat' split) <;> simp

@[simp] theorem resetEdge_keeps (s : State) :
    (resetEdge s).freeCount = s.freeCount ∧ (resetEdge s).pending = s.pending := by
  unfold resetEdge
  (try dsimp only) <;> (repeat' split) <;> simp

@[simp] theorem resetRise_keeps (s : State) :
    (resetRise s).freeCount = s.freeCount ∧ (resetRise s).pending = s.pending := by
  unfold resetRise
  (try dsimp only) <;> (repeat' split) <;> simp

@[simp] theorem powerUp_keeps (s : State) :
    (powerUp s).freeCount = s.freeCount ∧ (powerUp s).pending = s.pending := by
  unfold powerUp
  simp

@[simp] theorem resetExpiry_keeps (s : State) :
    (resetExpiry s).pins = s.pins ∧ (resetExpiry s).freeCount = s.freeCount ∧ (resetExpiry s).pending = s.pending := by
  unfold resetExpiry
  (try dsimp only) <;> (repeat' split) <;> simp

@[simp] theorem slotExpiry_keeps (i : Nat) (s : State) :
    (slotExpiry i s).pins = s.pins ∧ (slotExpiry i s).freeCount = s.freeCount ∧ (slotExpiry i s).pending = s.pending := by
  unfold slotExpiry
  (try dsimp only) <;> (repeat' split) <;> simp

@[simp] theorem endMerge_keeps (i p : Nat) (sl : Slot) (s : State) :
    (endMerge i p sl s).readPath = s.readPath ∧ (endMerge i p sl s).wb = s.wb ∧ (endMerge i p sl s).seq = s.seq ∧
    (endMerge i p sl s).mount = s.mount ∧ (endMerge i p sl s).port = s.port ∧ (endMerge i p sl s).guard = s.guard ∧
    (endMerge i p sl s).sup = s.sup ∧ (endMerge i p sl s).maint = s.maint ∧ (endMerge i p sl s).pins = s.pins ∧
    (endMerge i p sl s).clock = s.clock ∧ (endMerge i p sl s).freeCount = s.freeCount ∧
    (endMerge i p sl s).pending = s.pending := by
  unfold endMerge
  (try dsimp only) <;> (repeat' split) <;> simp

@[simp] theorem reportLoss_keeps (x n : Nat) (s : State) :
    (reportLoss x n s).staging = s.staging ∧ (reportLoss x n s).readPath = s.readPath ∧ (reportLoss x n s).wb = s.wb ∧
    (reportLoss x n s).xlat = s.xlat ∧ (reportLoss x n s).seq = s.seq ∧ (reportLoss x n s).mount = s.mount ∧
    (reportLoss x n s).port = s.port ∧ (reportLoss x n s).guard = s.guard ∧ (reportLoss x n s).sup = s.sup ∧
    (reportLoss x n s).pins = s.pins ∧ (reportLoss x n s).clock = s.clock ∧
    (reportLoss x n s).freeCount = s.freeCount ∧ (reportLoss x n s).pending = s.pending := by
  unfold reportLoss
  (try dsimp only) <;> (repeat' split) <;> simp

@[simp] theorem repeatMerge_keeps (i p : Nat) (s : State) :
    (repeatMerge i p s).readPath = s.readPath ∧ (repeatMerge i p s).wb = s.wb ∧ (repeatMerge i p s).xlat = s.xlat ∧
    (repeatMerge i p s).mount = s.mount ∧ (repeatMerge i p s).port = s.port ∧ (repeatMerge i p s).guard = s.guard ∧
    (repeatMerge i p s).sup = s.sup ∧ (repeatMerge i p s).maint = s.maint ∧ (repeatMerge i p s).pins = s.pins ∧
    (repeatMerge i p s).clock = s.clock ∧ (repeatMerge i p s).freeCount = s.freeCount ∧
    (repeatMerge i p s).pending = s.pending := by
  unfold repeatMerge
  (try dsimp only) <;> (repeat' split) <;> simp

@[simp] theorem mergeDone_keeps (i p : Nat) (st : ArrayStatus) (d sp : List Byte) (s : State) :
    (mergeDone i p st d sp s).readPath = s.readPath ∧ (mergeDone i p st d sp s).wb = s.wb ∧
    (mergeDone i p st d sp s).mount = s.mount ∧ (mergeDone i p st d sp s).port = s.port ∧
    (mergeDone i p st d sp s).guard = s.guard ∧ (mergeDone i p st d sp s).sup = s.sup ∧
    (mergeDone i p st d sp s).pins = s.pins ∧ (mergeDone i p st d sp s).clock = s.clock ∧
    (mergeDone i p st d sp s).freeCount = s.freeCount ∧ (mergeDone i p st d sp s).pending = s.pending := by
  unfold mergeDone
  (try dsimp only) <;> (repeat' split) <;> simp

@[simp] theorem endDemand_keeps (p : Nat) (s : State) :
    (endDemand p s).staging = s.staging ∧ (endDemand p s).wb = s.wb ∧ (endDemand p s).xlat = s.xlat ∧
    (endDemand p s).seq = s.seq ∧ (endDemand p s).mount = s.mount ∧ (endDemand p s).port = s.port ∧
    (endDemand p s).guard = s.guard ∧ (endDemand p s).sup = s.sup ∧ (endDemand p s).maint = s.maint ∧
    (endDemand p s).pins = s.pins ∧ (endDemand p s).clock = s.clock ∧ (endDemand p s).freeCount = s.freeCount ∧
    (endDemand p s).pending = s.pending := by
  unfold endDemand
  (try dsimp only) <;> (repeat' split) <;> simp

@[simp] theorem offerCache_keeps (x p : Nat) (d : List Byte) (s : State) :
    (offerCache x p d s).staging = s.staging ∧ (offerCache x p d s).wb = s.wb ∧ (offerCache x p d s).xlat = s.xlat ∧
    (offerCache x p d s).seq = s.seq ∧ (offerCache x p d s).mount = s.mount ∧ (offerCache x p d s).port = s.port ∧
    (offerCache x p d s).guard = s.guard ∧ (offerCache x p d s).sup = s.sup ∧ (offerCache x p d s).maint = s.maint ∧
    (offerCache x p d s).pins = s.pins ∧ (offerCache x p d s).clock = s.clock ∧
    (offerCache x p d s).freeCount = s.freeCount ∧ (offerCache x p d s).pending = s.pending := by
  unfold offerCache
  (try dsimp only) <;> (repeat' split) <;> simp

@[simp] theorem offerFor_keeps (rs : List PendingRead) (p : Nat) (d : List Byte) (s : State) :
    (offerFor rs p d s).staging = s.staging ∧ (offerFor rs p d s).wb = s.wb ∧ (offerFor rs p d s).xlat = s.xlat ∧
    (offerFor rs p d s).seq = s.seq ∧ (offerFor rs p d s).mount = s.mount ∧ (offerFor rs p d s).port = s.port ∧
    (offerFor rs p d s).guard = s.guard ∧ (offerFor rs p d s).sup = s.sup ∧ (offerFor rs p d s).maint = s.maint ∧
    (offerFor rs p d s).pins = s.pins ∧ (offerFor rs p d s).clock = s.clock ∧
    (offerFor rs p d s).freeCount = s.freeCount ∧ (offerFor rs p d s).pending = s.pending := by
  unfold offerFor
  (try dsimp only) <;> (repeat' split) <;> simp

@[simp] theorem demandSuccess_keeps (p : Nat) (d : List Byte) (s : State) :
    (demandSuccess p d s).staging = s.staging ∧ (demandSuccess p d s).wb = s.wb ∧ (demandSuccess p d s).seq = s.seq ∧
    (demandSuccess p d s).mount = s.mount ∧ (demandSuccess p d s).guard = s.guard ∧
    (demandSuccess p d s).sup = s.sup ∧ (demandSuccess p d s).maint = s.maint ∧ (demandSuccess p d s).pins = s.pins ∧
    (demandSuccess p d s).clock = s.clock ∧ (demandSuccess p d s).freeCount = s.freeCount ∧
    (demandSuccess p d s).pending = s.pending := by
  unfold demandSuccess
  simp [foldReads_keeps (fun _ => .ok) (fun r => fillRecord r.first d r.bytes)]

@[simp] theorem demandFailure_keeps (p : Nat) (s : State) :
    (demandFailure p s).staging = s.staging ∧ (demandFailure p s).wb = s.wb ∧ (demandFailure p s).seq = s.seq ∧
    (demandFailure p s).mount = s.mount ∧ (demandFailure p s).guard = s.guard ∧ (demandFailure p s).sup = s.sup ∧
    (demandFailure p s).pins = s.pins ∧ (demandFailure p s).clock = s.clock ∧
    (demandFailure p s).freeCount = s.freeCount ∧ (demandFailure p s).pending = s.pending := by
  unfold demandFailure
  simp [foldReads_keeps (fun _ => .fail .media) (fun _ => [])]

@[simp] theorem repeatDemand_keeps (p : Nat) (s : State) :
    (repeatDemand p s).staging = s.staging ∧ (repeatDemand p s).wb = s.wb ∧ (repeatDemand p s).xlat = s.xlat ∧
    (repeatDemand p s).mount = s.mount ∧ (repeatDemand p s).port = s.port ∧ (repeatDemand p s).guard = s.guard ∧
    (repeatDemand p s).sup = s.sup ∧ (repeatDemand p s).maint = s.maint ∧ (repeatDemand p s).pins = s.pins ∧
    (repeatDemand p s).clock = s.clock ∧ (repeatDemand p s).freeCount = s.freeCount ∧
    (repeatDemand p s).pending = s.pending := by
  unfold repeatDemand
  (try dsimp only) <;> (repeat' split) <;> simp

@[simp] theorem demandDone_keeps (p : Nat) (st : ArrayStatus) (d sp : List Byte) (s : State) :
    (demandDone p st d sp s).staging = s.staging ∧ (demandDone p st d sp s).wb = s.wb ∧
    (demandDone p st d sp s).mount = s.mount ∧ (demandDone p st d sp s).guard = s.guard ∧
    (demandDone p st d sp s).sup = s.sup ∧ (demandDone p st d sp s).pins = s.pins ∧
    (demandDone p st d sp s).clock = s.clock ∧ (demandDone p st d sp s).freeCount = s.freeCount ∧
    (demandDone p st d sp s).pending = s.pending := by
  unfold demandDone
  (try dsimp only) <;> (repeat' split) <;> simp

@[simp] theorem programDone_keeps (st : ArrayStatus) (s : State) :
    (programDone st s).readPath = s.readPath ∧ (programDone st s).mount = s.mount ∧
    (programDone st s).guard = s.guard ∧ (programDone st s).pins = s.pins ∧ (programDone st s).clock = s.clock ∧
    (programDone st s).freeCount = s.freeCount ∧ (programDone st s).pending = s.pending := by
  unfold programDone
  (try dsimp only) <;> (repeat' split) <;> simp

@[simp] theorem commitMarkDone_keeps (st : ArrayStatus) (s : State) :
    (commitMarkDone st s).mount = s.mount ∧ (commitMarkDone st s).guard = s.guard ∧
    (commitMarkDone st s).pins = s.pins ∧ (commitMarkDone st s).clock = s.clock ∧
    (commitMarkDone st s).freeCount = s.freeCount ∧ (commitMarkDone st s).pending = s.pending := by
  unfold commitMarkDone
  (try dsimp only) <;> (repeat' split) <;> simp

@[simp] theorem setErasePhase_keeps (ph : ErasePhase) (s : State) :
    (setErasePhase ph s).staging = s.staging ∧ (setErasePhase ph s).readPath = s.readPath ∧
    (setErasePhase ph s).wb = s.wb ∧ (setErasePhase ph s).seq = s.seq ∧ (setErasePhase ph s).mount = s.mount ∧
    (setErasePhase ph s).port = s.port ∧ (setErasePhase ph s).guard = s.guard ∧ (setErasePhase ph s).sup = s.sup ∧
    (setErasePhase ph s).maint = s.maint ∧ (setErasePhase ph s).pins = s.pins ∧ (setErasePhase ph s).clock = s.clock ∧
    (setErasePhase ph s).freeCount = s.freeCount ∧ (setErasePhase ph s).pending = s.pending := by
  unfold setErasePhase
  (try dsimp only) <;> (repeat' split) <;> simp

@[simp] theorem eraseDone_keeps (st : ArrayStatus) (s : State) :
    (eraseDone st s).staging = s.staging ∧ (eraseDone st s).readPath = s.readPath ∧ (eraseDone st s).wb = s.wb ∧
    (eraseDone st s).mount = s.mount ∧ (eraseDone st s).port = s.port ∧ (eraseDone st s).guard = s.guard ∧
    (eraseDone st s).pins = s.pins ∧ (eraseDone st s).clock = s.clock ∧ (eraseDone st s).freeCount = s.freeCount ∧
    (eraseDone st s).pending = s.pending := by
  unfold eraseDone
  (try dsimp only) <;> (repeat' split) <;> simp

@[simp] theorem joinFreePool_keeps (p : Nat) (s : State) :
    (joinFreePool p s).staging = s.staging ∧ (joinFreePool p s).readPath = s.readPath ∧ (joinFreePool p s).wb = s.wb ∧
    (joinFreePool p s).seq = s.seq ∧ (joinFreePool p s).mount = s.mount ∧ (joinFreePool p s).port = s.port ∧
    (joinFreePool p s).guard = s.guard ∧ (joinFreePool p s).sup = s.sup ∧ (joinFreePool p s).maint = s.maint ∧
    (joinFreePool p s).pins = s.pins ∧ (joinFreePool p s).clock = s.clock ∧
    (joinFreePool p s).freeCount = s.freeCount ∧ (joinFreePool p s).pending = s.pending := by
  unfold joinFreePool
  (try dsimp only) <;> (repeat' split) <;> simp

@[simp] theorem cleanMarkDone_keeps (st : ArrayStatus) (s : State) :
    (cleanMarkDone st s).staging = s.staging ∧ (cleanMarkDone st s).readPath = s.readPath ∧
    (cleanMarkDone st s).wb = s.wb ∧ (cleanMarkDone st s).mount = s.mount ∧ (cleanMarkDone st s).port = s.port ∧
    (cleanMarkDone st s).guard = s.guard ∧ (cleanMarkDone st s).pins = s.pins ∧ (cleanMarkDone st s).clock = s.clock ∧
    (cleanMarkDone st s).freeCount = s.freeCount ∧ (cleanMarkDone st s).pending = s.pending := by
  unfold cleanMarkDone
  (try dsimp only) <;> (repeat' split) <;> simp

@[simp] theorem setCommitPhase_keeps (job : CommitJob) (ph : CommitPhase) (s : State) :
    (setCommitPhase job ph s).staging = s.staging ∧ (setCommitPhase job ph s).readPath = s.readPath ∧
    (setCommitPhase job ph s).wb = s.wb ∧ (setCommitPhase job ph s).xlat = s.xlat ∧
    (setCommitPhase job ph s).seq = s.seq ∧ (setCommitPhase job ph s).mount = s.mount ∧
    (setCommitPhase job ph s).port = s.port ∧ (setCommitPhase job ph s).guard = s.guard ∧
    (setCommitPhase job ph s).sup = s.sup ∧ (setCommitPhase job ph s).pins = s.pins ∧
    (setCommitPhase job ph s).clock = s.clock ∧ (setCommitPhase job ph s).freeCount = s.freeCount ∧
    (setCommitPhase job ph s).pending = s.pending := by
  unfold setCommitPhase
  (try dsimp only) <;> (repeat' split) <;> simp

@[simp] theorem commitFails_keeps (job : CommitJob) (s : State) :
    (commitFails job s).staging = s.staging ∧ (commitFails job s).readPath = s.readPath ∧
    (commitFails job s).wb = s.wb ∧ (commitFails job s).xlat = s.xlat ∧ (commitFails job s).seq = s.seq ∧
    (commitFails job s).mount = s.mount ∧ (commitFails job s).port = s.port ∧ (commitFails job s).guard = s.guard ∧
    (commitFails job s).sup = s.sup ∧ (commitFails job s).pins = s.pins ∧ (commitFails job s).clock = s.clock ∧
    (commitFails job s).freeCount = s.freeCount ∧ (commitFails job s).pending = s.pending := by
  unfold commitFails
  (try dsimp only) <;> (repeat' split) <;> simp

@[simp] theorem commitSucceeds_keeps (job : CommitJob) (s : State) :
    (commitSucceeds job s).staging = s.staging ∧ (commitSucceeds job s).readPath = s.readPath ∧
    (commitSucceeds job s).wb = s.wb ∧ (commitSucceeds job s).xlat = s.xlat ∧ (commitSucceeds job s).seq = s.seq ∧
    (commitSucceeds job s).mount = s.mount ∧ (commitSucceeds job s).port = s.port ∧
    (commitSucceeds job s).guard = s.guard ∧ (commitSucceeds job s).sup = s.sup ∧
    (commitSucceeds job s).pins = s.pins ∧ (commitSucceeds job s).clock = s.clock ∧
    (commitSucceeds job s).freeCount = s.freeCount ∧ (commitSucceeds job s).pending = s.pending := by
  unfold commitSucceeds
  (try dsimp only) <;> (repeat' split) <;> simp

@[simp] theorem commitEraseDone_keeps (st : ArrayStatus) (s : State) :
    (commitEraseDone st s).staging = s.staging ∧ (commitEraseDone st s).readPath = s.readPath ∧
    (commitEraseDone st s).wb = s.wb ∧ (commitEraseDone st s).xlat = s.xlat ∧ (commitEraseDone st s).mount = s.mount ∧
    (commitEraseDone st s).port = s.port ∧ (commitEraseDone st s).guard = s.guard ∧
    (commitEraseDone st s).sup = s.sup ∧ (commitEraseDone st s).pins = s.pins ∧
    (commitEraseDone st s).clock = s.clock ∧ (commitEraseDone st s).freeCount = s.freeCount ∧
    (commitEraseDone st s).pending = s.pending := by
  unfold commitEraseDone
  (try dsimp only) <;> (repeat' split) <;> simp

@[simp] theorem commitProgramDone_keeps (st : ArrayStatus) (s : State) :
    (commitProgramDone st s).staging = s.staging ∧ (commitProgramDone st s).readPath = s.readPath ∧
    (commitProgramDone st s).wb = s.wb ∧ (commitProgramDone st s).xlat = s.xlat ∧
    (commitProgramDone st s).mount = s.mount ∧ (commitProgramDone st s).port = s.port ∧
    (commitProgramDone st s).guard = s.guard ∧ (commitProgramDone st s).sup = s.sup ∧
    (commitProgramDone st s).pins = s.pins ∧ (commitProgramDone st s).clock = s.clock ∧
    (commitProgramDone st s).freeCount = s.freeCount ∧ (commitProgramDone st s).pending = s.pending := by
  unfold commitProgramDone
  (try dsimp only) <;> (repeat' split) <;> simp

@[simp] theorem readBackDone_keeps (st : ArrayStatus) (d : List Byte) (s : State) :
    (readBackDone st d s).staging = s.staging ∧ (readBackDone st d s).readPath = s.readPath ∧
    (readBackDone st d s).wb = s.wb ∧ (readBackDone st d s).xlat = s.xlat ∧ (readBackDone st d s).seq = s.seq ∧
    (readBackDone st d s).mount = s.mount ∧ (readBackDone st d s).port = s.port ∧
    (readBackDone st d s).guard = s.guard ∧ (readBackDone st d s).sup = s.sup ∧ (readBackDone st d s).pins = s.pins ∧
    (readBackDone st d s).clock = s.clock ∧ (readBackDone st d s).freeCount = s.freeCount ∧
    (readBackDone st d s).pending = s.pending := by
  unfold readBackDone
  (try dsimp only) <;> (repeat' split) <;> simp

@[simp] theorem timeoutOnce_keeps (s : State) :
    (timeoutOnce s).staging = s.staging ∧ (timeoutOnce s).readPath = s.readPath ∧ (timeoutOnce s).wb = s.wb ∧
    (timeoutOnce s).xlat = s.xlat ∧ (timeoutOnce s).mount = s.mount ∧ (timeoutOnce s).port = s.port ∧
    (timeoutOnce s).guard = s.guard ∧ (timeoutOnce s).sup = s.sup ∧ (timeoutOnce s).maint = s.maint ∧
    (timeoutOnce s).pins = s.pins ∧ (timeoutOnce s).clock = s.clock ∧ (timeoutOnce s).freeCount = s.freeCount ∧
    (timeoutOnce s).pending = s.pending := by
  unfold timeoutOnce
  (try dsimp only) <;> (repeat' split) <;> simp

@[simp] theorem timeoutTwice_keeps (s : State) :
    (timeoutTwice s).pins = s.pins ∧ (timeoutTwice s).freeCount = s.freeCount ∧ (timeoutTwice s).pending = s.pending := by
  unfold timeoutTwice
  (try dsimp only) <;> (repeat' split) <;> simp

@[simp] theorem resyncEnd_keeps (s : State) :
    (resyncEnd s).staging = s.staging ∧ (resyncEnd s).readPath = s.readPath ∧ (resyncEnd s).wb = s.wb ∧
    (resyncEnd s).xlat = s.xlat ∧ (resyncEnd s).mount = s.mount ∧ (resyncEnd s).port = s.port ∧
    (resyncEnd s).guard = s.guard ∧ (resyncEnd s).sup = s.sup ∧ (resyncEnd s).maint = s.maint ∧
    (resyncEnd s).pins = s.pins ∧ (resyncEnd s).clock = s.clock ∧ (resyncEnd s).freeCount = s.freeCount ∧
    (resyncEnd s).pending = s.pending := by
  unfold resyncEnd
  (try dsimp only) <;> (repeat' split) <;> simp

@[simp] theorem acceptResponse_keeps (s : State) :
    (acceptResponse s).staging = s.staging ∧ (acceptResponse s).readPath = s.readPath ∧ (acceptResponse s).wb = s.wb ∧
    (acceptResponse s).xlat = s.xlat ∧ (acceptResponse s).seq = s.seq ∧ (acceptResponse s).mount = s.mount ∧
    (acceptResponse s).guard = s.guard ∧ (acceptResponse s).sup = s.sup ∧ (acceptResponse s).maint = s.maint ∧
    (acceptResponse s).pins = s.pins ∧ (acceptResponse s).clock = s.clock ∧
    (acceptResponse s).freeCount = s.freeCount ∧ (acceptResponse s).pending = s.pending := by
  unfold acceptResponse
  (try dsimp only) <;> (repeat' split) <;> simp

end Sys2Proof.Machine
end

