-- ==== Sys2Proof/Laws/Events.lean ====
section
/-!
SUPPORT. Everything that the repeated operations can do, said once: the re-examinations, sealing every OPEN slot, the
placements, the arrivals that waited, and what follows an event. Each comes with the rule that a property kept by the single
moves is kept by the whole.
-/
namespace Sys2Proof.Machine

/-- Every re-examination that has something to do is one of five moves (R52, R49, R10, R81). -/
theorem reexamine_cases (s t : State) (h : s.reexamine = some t) :
    (s.writing = true ∧ s.wb.phase = .pageWaitFirst ∧ t = setWbPhase .idle s) ∨
    (∃ i, s.writing = true ∧ s.wb.phase = .pageWaitRetry i ∧ t = retryWriteBack i s) ∨
    (∃ i, s.writing = true ∧ s.wb.phase = .idle ∧ s.firstReady = some i ∧ t = takeSlot i s) ∨
    (∃ i, s.pressure = true ∧ s.oldestOpen = some i ∧ t = sealSlot i s) ∨
    (∃ p, s.eraseStart = some p ∧ t = startErase p s) := by
  unfold State.reexamine at h
  split at h
  · rename_i u hu
    cases h
    unfold State.endWait at hu
    split at hu
    · rename_i hw
      simp only [Bool.and_eq_true] at hw
      split at hu
      · rename_i hp; cases hu; exact Or.inl ⟨hw.1, hp, rfl⟩
      · rename_i i hp; cases hu; exact Or.inr (Or.inl ⟨i, hw.1, hp, rfl⟩)
      · contradiction
    · contradiction
  · split at h
    · rename_i i hi
      cases h
      unfold State.engineStart at hi
      split at hi
      · rename_i hp
        split at hi
        · rename_i hw; exact Or.inr (Or.inr (Or.inl ⟨i, hw, hp, hi, rfl⟩))
        · contradiction
      · contradiction
    · split at h
      · rename_i i hi
        cases h
        split at hi
        · rename_i hp; exact Or.inr (Or.inr (Or.inr (Or.inl ⟨i, hp, hi, rfl⟩)))
        · contradiction
      · split at h
        · rename_i p hp; cases h; exact Or.inr (Or.inr (Or.inr (Or.inr ⟨p, hp, rfl⟩)))
        · contradiction

/-- A property that each re-examination keeps is kept by all that follow an event. -/
theorem settle_induct {Q : State → Prop} (h : ∀ s t : State, s.reexamine = some t → Q s → Q t) (s : State) (hs : Q s) :
    Q (settle s) := by
  have all : ∀ (k : Nat) (s : State), Q s → Q (settleFor k s) := by
    intro k
    induction k with
    | zero => intro s hs; exact hs
    | succ k ih =>
      intro s hs
      unfold settleFor
      split
      · rename_i t ht; exact ih t (h s t ht hs)
      · exact hs
  exact all 64 s hs

/-- Where nothing is due, the re-examinations do nothing. -/
theorem settle_of_none (s : State) (h : s.reexamine = none) : settle s = s := by
  unfold settle settleFor
  rw [h]

/-- A property that one seal and one start of a write-back keep is kept by sealing every OPEN slot (R11). -/
theorem sealAllOpen_induct {Q : State → Prop} (hseal : ∀ (s : State) (i : Nat), s.oldestOpen = some i → Q s → Q (sealSlot i s))
    (htake : ∀ (s : State) (i : Nat), s.engineStart = some i → Q s → Q (takeSlot i s)) (s : State) (hs : Q s) :
    Q (sealAllOpen s) := by
  have all : ∀ (k : Nat) (s : State), Q s → Q (sealAllFor k s) := by
    intro k
    induction k with
    | zero => intro s hs; exact hs
    | succ k ih =>
      intro s hs
      unfold sealAllFor
      split
      · rename_i i hi
        have h1 := hseal s i hi hs
        dsimp only
        split
        · rename_i j hj; exact ih _ (htake _ j hj h1)
        · exact ih _ h1
      · exact hs
  exact all _ s hs

/-- With no OPEN slot there is nothing to seal. -/
theorem sealAllOpen_of_none (s : State) (h : s.oldestOpen = none) : sealAllOpen s = s := by
  show sealAllFor (15 + 1) s = s
  unfold sealAllFor
  rw [h]

/-- A property that one placement and the re-examinations keep is kept by the placements that follow an event. -/
theorem placements_induct {Q : State → Prop} (hplace : ∀ (s : State) (e : Entry), s.head = some e → Q s → Q (placeHead e s))
    (hsettle : ∀ s : State, Q s → Q (settle s)) (before s : State) (hs : Q s) : Q (placements before s) := by
  have all : ∀ (k : Nat) (a s : State), Q s → Q (placeFor k a s) := by
    intro k
    induction k with
    | zero => intro a s hs; exact hs
    | succ k ih =>
      intro a s hs
      unfold placeFor
      split
      · exact hs
      · rename_i e he
        split
        · exact hs
        · exact ih _ _ (hsettle _ (hplace s e he hs))
  exact all 64 before s hs

/-- With no QUEUED entry nothing is placed. -/
theorem placements_of_no_head (before s : State) (h : s.head = none) : placements before s = s := by
  unfold placements placeFor
  rw [h]

/-- A stalled head without a cause is not presented again (R143). -/
theorem placements_of_stalled (before s : State) (e : Entry) (h : s.head = some e) (hj : e.judged = true)
    (hc : presentCause before s e.request.kind = false) : placements before s = s := by
  unfold placements placeFor
  rw [h]
  simp only [hj, hc, and_self, if_true]

/-- A property that one arrival keeps, and that does not look at the link, is kept by the arrivals that waited. -/
theorem arriveWaiting_induct {Q : State → Prop} (harrive : ∀ (s : State) (b : List Byte), s.requestHeld = false → Q s → Q (arrive b s))
    (hlink : ∀ (s : State) (q : List (List Byte)), Q s → Q (setLinkQueue q s)) :
    ∀ (q : List (List Byte)) (s : State), Q s → Q (arriveWaiting q s) := by
  intro q
  induction q with
  | nil => intro s hs; exact hlink s [] hs
  | cons b q ih =>
    intro s hs
    unfold arriveWaiting
    split
    · exact hlink s _ hs
    · rename_i hh; exact ih _ (harrive s b (by simpa using hh) hs)

/-- Nothing waits on the link: nothing arrives. -/
theorem arriveWaiting_nil (s : State) (h : s.port.linkQueue = []) : arriveWaiting [] s = s := by
  unfold arriveWaiting setLinkQueue State.setPort
  have e : ({ s.port with linkQueue := [] } : Port) = s.port := by rw [← h]
  rw [e]

/-- While the channel is held, what waits on the link keeps waiting (R136). -/
theorem arriveWaiting_held (s : State) (h : s.requestHeld = true) : arriveWaiting s.port.linkQueue s = s := by
  cases hq : s.port.linkQueue with
  | nil => exact arriveWaiting_nil s hq
  | cons b q =>
    unfold arriveWaiting setLinkQueue State.setPort
    rw [if_pos h]
    have e : ({ s.port with linkQueue := b :: q } : Port) = s.port := by rw [← hq]
    rw [e]

/-- No drain is under way, or a slot is still to be written back: there is no drain end (R171). -/
theorem drainEnd_of_running (s : State) (h : s.sup.state ≠ .draining ∨ s.anyStaged = true) : drainEnd s = s := by
  unfold drainEnd
  rw [if_neg]
  rintro ⟨h1, h2⟩
  rcases h with h | h
  · exact h h1
  · rw [h2] at h; contradiction

/-- A choice is due only where a completion has released its record (R101). -/
theorem endCompletion_of_done (s : State) (h : s.seq.phase ≠ .issued ∨ s.seq.inFlight.isSome = true) :
    endCompletion s = s := by
  unfold endCompletion
  split
  · rename_i h1 h2
    rcases h with h | h
    · exact absurd h1 h
    · simp [h2] at h
  · rfl

/-- Nothing follows from an event after which nothing is due, no drain is at its end, no request is QUEUED and nothing
waits on the link, except the choice that ends a completion. -/
theorem finish_quiet (before s : State) (hr : s.reexamine = none) (hd : s.sup.state ≠ .draining ∨ s.anyStaged = true)
    (hh : s.head = none) (hq : s.port.linkQueue = []) : finish before s = endCompletion s := by
  have hp : (endCompletion s).port = s.port := by simp
  have hh' : (endCompletion s).head = none := by simpa [State.head] using hh
  unfold finish
  dsimp only
  rw [settle_of_none s hr, drainEnd_of_running s hd, placements_of_no_head _ _ hh', hp, hq]
  exact arriveWaiting_nil _ (by rw [hp, hq])

/-- A property kept by the re-examinations, the drain end, the choice, the placements and the arrivals is kept by all that
follows an event. -/
theorem finish_induct {Q : State → Prop} (hsettle : ∀ s : State, Q s → Q (settle s)) (hdrain : ∀ s : State, Q s → Q (drainEnd s))
    (hend : ∀ s : State, Q s → Q (endCompletion s)) (hplace : ∀ a s : State, Q s → Q (placements a s))
    (harrive : ∀ (q : List (List Byte)) (s : State), Q s → Q (arriveWaiting q s)) (before s : State) (hs : Q s) :
    Q (finish before s) :=
  harrive _ _ (hplace _ _ (hend _ (hdrain _ (hsettle _ hs))))

end Sys2Proof.Machine
end

