-- ==== Sys2Proof/Laws/Tables.lean ====
section
/-!
SUPPORT. The sparse tables: what a set and an erase do, and that both keep the canonical form.
-/
namespace Sys2Proof.Machine

/-- What a table holds at a key after a set. -/
theorem tableGet_tableSet {α : Type} (k j : Nat) (v : α) : ∀ l : List (Nat × α), keysRise l = true →
    tableGet j (tableSet k v l) = if j = k then some v else tableGet j l := by
  intro l hl
  induction l with
  | nil => by_cases h : k = j <;> simp [tableSet, tableGet, h, eq_comm]
  | cons e l ih =>
    obtain ⟨a, w⟩ := e
    have hl' : keysRise l = true := by
      cases l with
      | nil => rfl
      | cons e' l' => simp [keysRise] at hl; exact hl.2
    unfold tableSet
    split
    · rename_i h
      by_cases hj : j = k
      · subst hj; simp [tableGet]
      · simp [tableGet, hj, Ne.symm hj]
    · split
      · rename_i h1 h2; subst h2
        by_cases hj : j = k
        · subst hj; simp [tableGet]
        · simp [tableGet, hj, Ne.symm hj]
      · rename_i h1 h2
        by_cases ha : a = j
        · subst ha; simp [tableGet, Ne.symm h2]
        · simp [tableGet, ha, ih hl']

/-- The keys of a list are all above a number. -/
theorem keysRise_cons {α : Type} (k : Nat) (v : α) : ∀ l : List (Nat × α),
    keysRise ((k, v) :: l) = true ↔ (∀ e ∈ l, k < e.1) ∧ keysRise l = true := by
  intro l
  induction l generalizing k v with
  | nil => simp [keysRise]
  | cons e l ih =>
    obtain ⟨a, w⟩ := e
    simp only [keysRise, Bool.and_eq_true, decide_eq_true_eq, List.mem_cons, forall_eq_or_imp]
    constructor
    · rintro ⟨h1, h2⟩
      refine ⟨⟨h1, fun e he => ?_⟩, h2⟩
      have := ((ih a w).1 h2).1 e he
      omega
    · rintro ⟨⟨h1, _⟩, h2⟩
      exact ⟨h1, h2⟩

theorem mem_tableSet {α : Type} (k : Nat) (v : α) (e : Nat × α) : ∀ l : List (Nat × α),
    e ∈ tableSet k v l → e = (k, v) ∨ e ∈ l := by
  intro l
  induction l with
  | nil => intro h; simp [tableSet] at h; exact Or.inl h
  | cons x l ih =>
    obtain ⟨a, w⟩ := x
    intro h
    unfold tableSet at h
    split at h
    · simpa using h
    · split at h
      · rcases List.mem_cons.1 h with h | h
        · exact Or.inl h
        · exact Or.inr (List.mem_cons_of_mem _ h)
      · rcases List.mem_cons.1 h with h | h
        · exact Or.inr (by simp [h])
        · rcases ih h with h | h
          · exact Or.inl h
          · exact Or.inr (List.mem_cons_of_mem _ h)

theorem mem_tableErase {α : Type} (k : Nat) (e : Nat × α) : ∀ l : List (Nat × α), e ∈ tableErase k l → e ∈ l := by
  intro l
  induction l with
  | nil => intro h; simp [tableErase] at h
  | cons x l ih =>
    obtain ⟨a, w⟩ := x
    intro h
    unfold tableErase at h
    split at h
    · exact List.mem_cons_of_mem _ h
    · rcases List.mem_cons.1 h with h | h
      · simp [h]
      · exact List.mem_cons_of_mem _ (ih h)

/-- A set keeps the keys rising. -/
theorem keysRise_tableSet {α : Type} (k : Nat) (v : α) : ∀ l : List (Nat × α), keysRise l = true →
    keysRise (tableSet k v l) = true := by
  intro l
  induction l with
  | nil => intro _; rfl
  | cons x l ih =>
    obtain ⟨a, w⟩ := x
    intro h
    have hx := (keysRise_cons a w l).1 h
    unfold tableSet
    split
    · rename_i hk
      simp only [keysRise, Bool.and_eq_true, decide_eq_true_eq]
      exact ⟨hk, h⟩
    · split
      · rename_i _ hk
        subst hk
        exact (keysRise_cons _ _ _).2 hx
      · rename_i h1 h2
        refine (keysRise_cons _ _ _).2 ⟨fun e he => ?_, ih hx.2⟩
        rcases mem_tableSet k v e l he with h | h
        · subst h; simp only; omega
        · exact hx.1 e h

/-- An erase keeps the keys rising. -/
theorem keysRise_tableErase {α : Type} (k : Nat) : ∀ l : List (Nat × α), keysRise l = true →
    keysRise (tableErase k l) = true := by
  intro l
  induction l with
  | nil => intro _; rfl
  | cons x l ih =>
    obtain ⟨a, w⟩ := x
    intro h
    have hx := (keysRise_cons a w l).1 h
    unfold tableErase
    split
    · exact hx.2
    · exact (keysRise_cons _ _ _).2 ⟨fun e he => hx.1 e (mem_tableErase k e l he), ih hx.2⟩

/-- What a table with rising keys holds at a key after an erase. -/
theorem tableGet_tableErase {α : Type} (k j : Nat) : ∀ l : List (Nat × α), keysRise l = true →
    tableGet j (tableErase k l) = if j = k then none else tableGet j l := by
  intro l
  induction l with
  | nil => intro _; simp [tableErase, tableGet]
  | cons x l ih =>
    obtain ⟨a, w⟩ := x
    intro h
    have hx := (keysRise_cons a w l).1 h
    have above : ∀ (l : List (Nat × α)), (∀ e ∈ l, a < e.1) → tableGet a l = none := by
      intro l
      induction l with
      | nil => intro _; rfl
      | cons y l ih =>
        obtain ⟨b, u⟩ := y
        intro h
        have hb : a < b := h (b, u) (by simp)
        have : b ≠ a := by omega
        simp [tableGet, this]
        exact ih (fun e he => h e (List.mem_cons_of_mem _ he))
    unfold tableErase
    split
    · rename_i hk
      subst hk
      by_cases hj : j = a
      · subst hj; simp [above l hx.1]
      · simp [tableGet, hj, Ne.symm hj]
    · rename_i hk
      by_cases ha : a = j
      · subst ha; simp [tableGet, hk]
      · simp [tableGet, ha, ih hx.2]

/-- What the physical page table holds at a page after one entry is replaced (R72). -/
theorem pagesSet_get (p q : Nat) (e : PageEntry) (l : List (Nat × PageEntry)) (h : keysRise l = true) :
    (tableGet q (pagesSet p e l)).getD PageEntry.reset =
      if q = p then e else (tableGet q l).getD PageEntry.reset := by
  unfold pagesSet
  split
  · rename_i he
    rw [tableGet_tableErase _ _ _ h]
    by_cases hq : q = p <;> simp [hq, he]
  · rw [tableGet_tableSet _ _ _ _ h]
    by_cases hq : q = p <;> simp [hq]

theorem keysRise_pagesSet (p : Nat) (e : PageEntry) (l : List (Nat × PageEntry)) (h : keysRise l = true) :
    keysRise (pagesSet p e l) = true := by
  unfold pagesSet
  split
  · exact keysRise_tableErase _ _ h
  · exact keysRise_tableSet _ _ _ h

theorem mem_pagesSet (p : Nat) (e : PageEntry) (l : List (Nat × PageEntry)) (h : ∀ x ∈ l, x.2 ≠ PageEntry.reset) :
    ∀ x ∈ pagesSet p e l, x.2 ≠ PageEntry.reset := by
  intro x hx
  unfold pagesSet at hx
  split at hx
  · exact h x (mem_tableErase _ _ _ hx)
  · rename_i he
    rcases mem_tableSet _ _ _ _ hx with h' | h'
    · subst h'; exact he
    · exact h x h'

end Sys2Proof.Machine
end

