-- ==== Sys2Proof/Laws/Shape.lean ====
section
/-!
SUPPORT. Every operation keeps the shape of every block that it touches: one lemma `<operation>_<block>Shaped` for each pair
(`_cacheShaped` for the read cache, `_seqOkay` and `_supOkay` for sequencer and supervisor). Frames.lean says which blocks an
operation does not touch.
-/
namespace Sys2Proof.Machine

@[simp] theorem freed_shaped (inc : Byte) : (Slot.freed inc).shaped := ⟨erasedImage_length, noneValid_length⟩

section
/-! ## staging -/


/-- A slot record replaced by a shaped one keeps the shape. -/
@[simp] theorem setSlot_stagingShaped (i : Nat) (sl : Slot) (s : State) (h : s.staging.shaped) (hs : sl.shaped) :
    (setSlot i sl s).staging.shaped := by
  refine ⟨by simp [setSlot, h.1], fun x hx => ?_⟩
  simp only [setSlot, State.setStaging_staging] at hx
  rcases List.mem_or_eq_of_mem_set hx with hx | hx
  · exact h.2 x hx
  · exact hx ▸ hs

/-- Every slot record that a number names is shaped. -/
@[simp] theorem slot_shaped (i : Nat) (s : State) (h : s.staging.shaped) : (s.slot i).shaped := by
  unfold State.slot
  by_cases hi : i < s.staging.slots.length
  · simp only [List.getD_eq_getElem?_getD, List.getElem?_eq_getElem hi, Option.getD_some]
    exact h.2 _ (List.getElem_mem hi)
  · simp [List.getD_eq_getElem?_getD, List.getElem?_eq_none (by omega : s.staging.slots.length ≤ i)]

@[simp] theorem filledFrom_shaped (sl : Slot) (base : List Byte) (h : sl.shaped) : (sl.filledFrom base).shaped := by
  simp [Slot.filledFrom, Slot.shaped, h.1]

@[simp] theorem placed_shaped (sl : Slot) (off : Nat) (d : List Byte) (h : sl.shaped) : (sl.placed off d).shaped := by
  simp [Slot.placed, Slot.shaped, h.1, h.2]

@[simp] theorem slot_image_length (i : Nat) (s : State) (h : s.staging.shaped) : (s.slot i).image.length = 256 :=
  (slot_shaped i s h).1

@[simp] theorem slot_valid_length (i : Nat) (s : State) (h : s.staging.shaped) : (s.slot i).valid.length = 256 :=
  (slot_shaped i s h).2

/-- The shape of a slot looks at its image and its valid map only. -/
@[simp] theorem slot_mk_shaped (st : SlotState) (pg : Option Nat) (im : List Byte) (v : List Bool) (o : Option Word32)
    (inc : Byte) (stamp : Option Word32) (m : Option MergeStatus) (mr : Option MergeRead) (a : Option Nat)
    (t : Option Target) (hr : Option HoldReason) :
    Slot.shaped { state := st, page := pg, image := im, valid := v, order := o, incarnation := inc, stamp := stamp,
                  merge := m, mergeRead := mr, attempts := a, target := t, hold := hr } ↔
      im.length = 256 ∧ v.length = 256 := Iff.rfl

@[simp] theorem freeSlot_stagingShaped (i : Nat) (s : State) (h : s.staging.shaped) : (freeSlot i s).staging.shaped := by
  unfold freeSlot
  (try dsimp only) <;> (repeat' split) <;> first | (simp (maxDischargeDepth := 9) (implicitDefEqProofs := false) [h]; done) | (simp_all (maxDischargeDepth := 9) (implicitDefEqProofs := false) [Staging.shaped]; done)

@[simp] theorem setStall_stagingShaped (b : Bool) (s : State) (h : s.staging.shaped) :
    (setStall b s).staging.shaped := h

theorem staging_reset_shaped : Staging.reset.shaped := by
  refine ⟨List.length_replicate, fun sl h => ?_⟩
  rw [List.eq_of_mem_replicate h]
  exact freed_shaped 0

@[simp] theorem resetBlocks_stagingShaped (c : ResetCause) (o : DrainOutcome) (s : State) :
    (resetBlocks c o s).staging.shaped := staging_reset_shaped

@[simp] theorem resetCompletion_stagingShaped (c : ResetCause) (o : DrainOutcome) (s : State) (h : s.staging.shaped) : (resetCompletion c o s).staging.shaped := by
  unfold resetCompletion
  (try dsimp only) <;> (repeat' split) <;> first | (simp (maxDischargeDepth := 9) (implicitDefEqProofs := false) [h]; done) | (simp_all (maxDischargeDepth := 9) (implicitDefEqProofs := false) [Staging.shaped]; done)

@[simp] theorem drainEnd_stagingShaped (s : State) (h : s.staging.shaped) : (drainEnd s).staging.shaped := by
  unfold drainEnd
  (try dsimp only) <;> (repeat' split) <;> first | (simp (maxDischargeDepth := 9) (implicitDefEqProofs := false) [h]; done) | (simp_all (maxDischargeDepth := 9) (implicitDefEqProofs := false) [Staging.shaped]; done)

@[simp] theorem sealRecord_stagingShaped (i x : Nat) (s : State) (h : s.staging.shaped) : (sealRecord i x s).staging.shaped := by
  unfold sealRecord
  (try dsimp only) <;> (repeat' split) <;> first | (simp (maxDischargeDepth := 9) (implicitDefEqProofs := false) [h]; done) | (simp_all (maxDischargeDepth := 9) (implicitDefEqProofs := false) [Staging.shaped]; done)

@[simp] theorem sealSlot_stagingShaped (i : Nat) (s : State) (h : s.staging.shaped) : (sealSlot i s).staging.shaped := by
  unfold sealSlot
  (try dsimp only) <;> (repeat' split) <;> first | (simp (maxDischargeDepth := 9) (implicitDefEqProofs := false) [h]; done) | (simp_all (maxDischargeDepth := 9) (implicitDefEqProofs := false) [Staging.shaped]; done)

@[simp] theorem placeInSlot_stagingShaped (i off : Nat) (d : List Byte) (s : State) (h : s.staging.shaped) : (placeInSlot i off d s).staging.shaped := by
  unfold placeInSlot
  (try dsimp only) <;> (repeat' split) <;> first | (simp (maxDischargeDepth := 9) (implicitDefEqProofs := false) [h]; done) | (simp_all (maxDischargeDepth := 9) (implicitDefEqProofs := false) [Staging.shaped]; done)

@[simp] theorem allocate_stagingShaped (i x : Nat) (s : State) (h : s.staging.shaped) :
    (allocate i x s).staging.shaped := by
  have hs : (s.allocated i x).shaped := ⟨(slot_shaped i s h).1, noneValid_length⟩
  exact setSlot_stagingShaped i _ s h hs

@[simp] theorem heldPartner_stagingShaped (i x : Nat) (s : State) (h : s.staging.shaped) : (heldPartner i x s).staging.shaped := by
  unfold heldPartner
  (try dsimp only) <;> (repeat' split) <;> first | (simp (maxDischargeDepth := 9) (implicitDefEqProofs := false) [h]; done) | (simp_all (maxDischargeDepth := 9) (implicitDefEqProofs := false) [Staging.shaped]; done)

@[simp] theorem becomeHeld_stagingShaped (i : Nat) (r : HoldReason) (s : State) (h : s.staging.shaped) : (becomeHeld i r s).staging.shaped := by
  unfold becomeHeld
  (try dsimp only) <;> (repeat' split) <;> first | (simp (maxDischargeDepth := 9) (implicitDefEqProofs := false) [h]; done) | (simp_all (maxDischargeDepth := 9) (implicitDefEqProofs := false) [Staging.shaped]; done)

@[simp] theorem holdSealed_stagingShaped (i : Nat) (s : State) (h : s.staging.shaped) : (holdSealed i s).staging.shaped := by
  unfold holdSealed
  (try dsimp only) <;> (repeat' split) <;> first | (simp (maxDischargeDepth := 9) (implicitDefEqProofs := false) [h]; done) | (simp_all (maxDischargeDepth := 9) (implicitDefEqProofs := false) [Staging.shaped]; done)

@[simp] theorem holdWriting_stagingShaped (i : Nat) (r : HoldReason) (s : State) (h : s.staging.shaped) : (holdWriting i r s).staging.shaped := by
  unfold holdWriting
  (try dsimp only) <;> (repeat' split) <;> first | (simp (maxDischargeDepth := 9) (implicitDefEqProofs := false) [h]; done) | (simp_all (maxDischargeDepth := 9) (implicitDefEqProofs := false) [Staging.shaped]; done)

@[simp] theorem startWriteBack_stagingShaped (i : Nat) (t : Target) (s : State) (h : s.staging.shaped) : (startWriteBack i t s).staging.shaped := by
  unfold startWriteBack
  (try dsimp only) <;> (repeat' split) <;> first | (simp (maxDischargeDepth := 9) (implicitDefEqProofs := false) [h]; done) | (simp_all (maxDischargeDepth := 9) (implicitDefEqProofs := false) [Staging.shaped]; done)

@[simp] theorem takeSlot_stagingShaped (i : Nat) (s : State) (h : s.staging.shaped) : (takeSlot i s).staging.shaped := by
  unfold takeSlot
  (try dsimp only) <;> (repeat' split) <;> first | (simp (maxDischargeDepth := 9) (implicitDefEqProofs := false) [h]; done) | (simp_all (maxDischargeDepth := 9) (implicitDefEqProofs := false) [Staging.shaped]; done)

@[simp] theorem retryWith_stagingShaped (i : Nat) (t : Target) (s : State) (h : s.staging.shaped) : (retryWith i t s).staging.shaped := by
  unfold retryWith
  (try dsimp only) <;> (repeat' split) <;> first | (simp (maxDischargeDepth := 9) (implicitDefEqProofs := false) [h]; done) | (simp_all (maxDischargeDepth := 9) (implicitDefEqProofs := false) [Staging.shaped]; done)

@[simp] theorem retryWriteBack_stagingShaped (i : Nat) (s : State) (h : s.staging.shaped) : (retryWriteBack i s).staging.shaped := by
  unfold retryWriteBack
  (try dsimp only) <;> (repeat' split) <;> first | (simp (maxDischargeDepth := 9) (implicitDefEqProofs := false) [h]; done) | (simp_all (maxDischargeDepth := 9) (implicitDefEqProofs := false) [Staging.shaped]; done)

@[simp] theorem attemptFailed_stagingShaped (i : Nat) (s : State) (h : s.staging.shaped) : (attemptFailed i s).staging.shaped := by
  unfold attemptFailed
  (try dsimp only) <;> (repeat' split) <;> first | (simp (maxDischargeDepth := 9) (implicitDefEqProofs := false) [h]; done) | (simp_all (maxDischargeDepth := 9) (implicitDefEqProofs := false) [Staging.shaped]; done)

@[simp] theorem commitPartner_stagingShaped (i x : Nat) (s : State) (h : s.staging.shaped) : (commitPartner i x s).staging.shaped := by
  unfold commitPartner
  (try dsimp only) <;> (repeat' split) <;> first | (simp (maxDischargeDepth := 9) (implicitDefEqProofs := false) [h]; done) | (simp_all (maxDischargeDepth := 9) (implicitDefEqProofs := false) [Staging.shaped]; done)

@[simp] theorem commitSlot_stagingShaped (i : Nat) (s : State) (h : s.staging.shaped) : (commitSlot i s).staging.shaped := by
  unfold commitSlot
  (try dsimp only) <;> (repeat' split) <;> first | (simp (maxDischargeDepth := 9) (implicitDefEqProofs := false) [h]; done) | (simp_all (maxDischargeDepth := 9) (implicitDefEqProofs := false) [Staging.shaped]; done)

@[simp] theorem settle_stagingShaped (s : State) (h : s.staging.shaped) : (settle s).staging.shaped :=
  settle_induct (Q := fun s => s.staging.shaped) (fun s t ht h => by
    rcases reexamine_cases s t ht with ⟨_, _, rfl⟩ | ⟨i, _, _, rfl⟩ | ⟨i, _, _, _, rfl⟩ | ⟨i, _, _, rfl⟩ | ⟨p, _, rfl⟩ <;>
      simp (implicitDefEqProofs := false) [h]) s h

@[simp] theorem sealAllOpen_stagingShaped (s : State) (h : s.staging.shaped) : (sealAllOpen s).staging.shaped :=
  sealAllOpen_induct (Q := fun s => s.staging.shaped) (fun s i _ h => by simp (implicitDefEqProofs := false) [h]) (fun s i _ h => by simp (implicitDefEqProofs := false) [h]) s h

@[simp] theorem serveWrite_stagingShaped (r : Request) (s : State) (h : s.staging.shaped) : (serveWrite r s).staging.shaped := by
  unfold serveWrite
  split
  · rename_i i t ht
    unfold State.writeSlot at ht
    split at ht
    · cases ht; simp (implicitDefEqProofs := false) [h]
    · split at ht
      · cases ht; simp (maxDischargeDepth := 9) (implicitDefEqProofs := false) [h]
      · contradiction
  · simp (implicitDefEqProofs := false) [h]

@[simp] theorem servePersist_stagingShaped (r : Request) (s : State) (h : s.staging.shaped) : (servePersist r s).staging.shaped := by
  unfold servePersist
  (try dsimp only) <;> (repeat' split) <;> first | (simp (maxDischargeDepth := 9) (implicitDefEqProofs := false) [h]; done) | (simp_all (maxDischargeDepth := 9) (implicitDefEqProofs := false) [Staging.shaped]; done)

@[simp] theorem serve_stagingShaped (r : Request) (s : State) (h : s.staging.shaped) : (serve r s).staging.shaped := by
  unfold serve
  (try dsimp only) <;> (repeat' split) <;> first | (simp (maxDischargeDepth := 9) (implicitDefEqProofs := false) [h]; done) | (simp_all (maxDischargeDepth := 9) (implicitDefEqProofs := false) [Staging.shaped]; done)

@[simp] theorem refuseByState_stagingShaped (e : Entry) (f : FailReason) (s : State) (h : s.staging.shaped) : (refuseByState e f s).staging.shaped := by
  unfold refuseByState
  (try dsimp only) <;> (repeat' split) <;> first | (simp (maxDischargeDepth := 9) (implicitDefEqProofs := false) [h]; done) | (simp_all (maxDischargeDepth := 9) (implicitDefEqProofs := false) [Staging.shaped]; done)

@[simp] theorem placeUnjudged_stagingShaped (r : Request) (s : State) (h : s.staging.shaped) : (placeUnjudged r s).staging.shaped := by
  unfold placeUnjudged
  (try dsimp only) <;> (repeat' split) <;> first | (simp (maxDischargeDepth := 9) (implicitDefEqProofs := false) [h]; done) | (simp_all (maxDischargeDepth := 9) (implicitDefEqProofs := false) [Staging.shaped]; done)

@[simp] theorem placeHead_stagingShaped (e : Entry) (s : State) (h : s.staging.shaped) : (placeHead e s).staging.shaped := by
  unfold placeHead
  (try dsimp only) <;> (repeat' split) <;> first | (simp (maxDischargeDepth := 9) (implicitDefEqProofs := false) [h]; done) | (simp_all (maxDischargeDepth := 9) (implicitDefEqProofs := false) [Staging.shaped]; done)

@[simp] theorem placements_stagingShaped (a s : State) (h : s.staging.shaped) : (placements a s).staging.shaped :=
  placements_induct (Q := fun s => s.staging.shaped) (fun s e _ h => by simp (implicitDefEqProofs := false) [h]) (fun s h => by simp (implicitDefEqProofs := false) [h]) a s h

@[simp] theorem arrive_stagingShaped (record : List Byte) (s : State) (h : s.staging.shaped) : (arrive record s).staging.shaped := by
  unfold arrive
  (try dsimp only) <;> (repeat' split) <;> first | (simp (maxDischargeDepth := 9) (implicitDefEqProofs := false) [h]; done) | (simp_all (maxDischargeDepth := 9) (implicitDefEqProofs := false) [Staging.shaped]; done)

@[simp] theorem arriveWaiting_stagingShaped (q : List (List Byte)) (s : State) (h : s.staging.shaped) : (arriveWaiting q s).staging.shaped :=
  arriveWaiting_induct (Q := fun s => s.staging.shaped) (fun s b _ h => by simp (implicitDefEqProofs := false) [h]) (fun s q h => by simp (implicitDefEqProofs := false) [h]) q s h

@[simp] theorem presentRecord_stagingShaped (record : List Byte) (s : State) (h : s.staging.shaped) : (presentRecord record s).staging.shaped := by
  unfold presentRecord
  (try dsimp only) <;> (repeat' split) <;> first | (simp (maxDischargeDepth := 9) (implicitDefEqProofs := false) [h]; done) | (simp_all (maxDischargeDepth := 9) (implicitDefEqProofs := false) [Staging.shaped]; done)

@[simp] theorem finish_stagingShaped (a s : State) (h : s.staging.shaped) : (finish a s).staging.shaped := by
  simp (maxDischargeDepth := 9) (implicitDefEqProofs := false) [finish, h]

@[simp] theorem beginDrain_stagingShaped (c : DrainCause) (s : State) (h : s.staging.shaped) : (beginDrain c s).staging.shaped := by
  unfold beginDrain
  (try dsimp only) <;> (repeat' split) <;> first | (simp (maxDischargeDepth := 9) (implicitDefEqProofs := false) [h]; done) | (simp_all (maxDischargeDepth := 9) (implicitDefEqProofs := false) [Staging.shaped]; done)

@[simp] theorem requestFault_stagingShaped (s : State) (h : s.staging.shaped) : (requestFault s).staging.shaped := by
  unfold requestFault
  (try dsimp only) <;> (repeat' split) <;> first | (simp (maxDischargeDepth := 9) (implicitDefEqProofs := false) [h]; done) | (simp_all (maxDischargeDepth := 9) (implicitDefEqProofs := false) [Staging.shaped]; done)

@[simp] theorem resetLineLow_stagingShaped (s : State) (h : s.staging.shaped) : (resetLineLow s).staging.shaped := by
  unfold resetLineLow
  (try dsimp only) <;> (repeat' split) <;> first | (simp (maxDischargeDepth := 9) (implicitDefEqProofs := false) [h]; done) | (simp_all (maxDischargeDepth := 9) (implicitDefEqProofs := false) [Staging.shaped]; done)

@[simp] theorem softResetActs_stagingShaped (s : State) (h : s.staging.shaped) : (softResetActs s).staging.shaped := by
  unfold softResetActs
  (try dsimp only) <;> (repeat' split) <;> first | (simp (maxDischargeDepth := 9) (implicitDefEqProofs := false) [h]; done) | (simp_all (maxDischargeDepth := 9) (implicitDefEqProofs := false) [Staging.shaped]; done)

@[simp] theorem strapCheck_stagingShaped (asz : BitVec 2) (s : State) (h : s.staging.shaped) : (strapCheck asz s).staging.shaped := by
  unfold strapCheck
  (try dsimp only) <;> (repeat' split) <;> first | (simp (maxDischargeDepth := 9) (implicitDefEqProofs := false) [h]; done) | (simp_all (maxDischargeDepth := 9) (implicitDefEqProofs := false) [Staging.shaped]; done)

@[simp] theorem readyWaitDone_stagingShaped (asz : BitVec 2) (s : State) (h : s.staging.shaped) : (readyWaitDone asz s).staging.shaped := by
  unfold readyWaitDone
  (try dsimp only) <;> (repeat' split) <;> first | (simp (maxDischargeDepth := 9) (implicitDefEqProofs := false) [h]; done) | (simp_all (maxDischargeDepth := 9) (implicitDefEqProofs := false) [Staging.shaped]; done)

@[simp] theorem applySelection_stagingShaped (sel : Selection) (s : State) (h : s.staging.shaped) : (applySelection sel s).staging.shaped := by
  unfold applySelection
  (try dsimp only) <;> (repeat' split) <;> first | (simp (maxDischargeDepth := 9) (implicitDefEqProofs := false) [h]; done) | (simp_all (maxDischargeDepth := 9) (implicitDefEqProofs := false) [Staging.shaped]; done)

@[simp] theorem selectActive_stagingShaped (s : State) (h : s.staging.shaped) : (selectActive s).staging.shaped := by
  unfold selectActive
  (try dsimp only) <;> (repeat' split) <;> first | (simp (maxDischargeDepth := 9) (implicitDefEqProofs := false) [h]; done) | (simp_all (maxDischargeDepth := 9) (implicitDefEqProofs := false) [Staging.shaped]; done)

@[simp] theorem configCopyRead_stagingShaped (st : ArrayStatus) (d : List Byte) (s : State) (h : s.staging.shaped) : (configCopyRead st d s).staging.shaped := by
  unfold configCopyRead
  (try dsimp only) <;> (repeat' split) <;> first | (simp (maxDischargeDepth := 9) (implicitDefEqProofs := false) [h]; done) | (simp_all (maxDischargeDepth := 9) (implicitDefEqProofs := false) [Staging.shaped]; done)

@[simp] theorem doFlush_stagingShaped (s : State) (h : s.staging.shaped) : (doFlush s).staging.shaped := by
  unfold doFlush
  (try dsimp only) <;> (repeat' split) <;> first | (simp (maxDischargeDepth := 9) (implicitDefEqProofs := false) [h]; done) | (simp_all (maxDischargeDepth := 9) (implicitDefEqProofs := false) [Staging.shaped]; done)

@[simp] theorem doSoftReset_stagingShaped (s : State) (h : s.staging.shaped) : (doSoftReset s).staging.shaped := by
  unfold doSoftReset
  (try dsimp only) <;> (repeat' split) <;> first | (simp (maxDischargeDepth := 9) (implicitDefEqProofs := false) [h]; done) | (simp_all (maxDischargeDepth := 9) (implicitDefEqProofs := false) [Staging.shaped]; done)

@[simp] theorem act_stagingShaped (c : CommandName) (args : List Byte) (s : State) (h : s.staging.shaped) :
    (c.act args s).staging.shaped := by
  cases c <;> simp (maxDischargeDepth := 9) (implicitDefEqProofs := false) [CommandName.act, h]

@[simp] theorem decideCommand_stagingShaped (c : CommandName) (args : List Byte) (s : State) (h : s.staging.shaped) :
    (decideCommand c args s).staging.shaped := by
  unfold decideCommand
  (repeat' split) <;> simp (implicitDefEqProofs := false) [h]

@[simp] theorem decideFrame_stagingShaped (c : Option CommandName) (args : List Byte) (s : State) (h : s.staging.shaped) : (decideFrame c args s).staging.shaped := by
  unfold decideFrame
  (try dsimp only) <;> (repeat' split) <;> first | (simp (maxDischargeDepth := 9) (implicitDefEqProofs := false) [h]; done) | (simp_all (maxDischargeDepth := 9) (implicitDefEqProofs := false) [Staging.shaped]; done)

@[simp] theorem endFrame_stagingShaped (c : Option CommandName) (args : List Byte) (s : State) (h : s.staging.shaped) : (endFrame c args s).staging.shaped := by
  unfold endFrame
  (try dsimp only) <;> (repeat' split) <;> first | (simp (maxDischargeDepth := 9) (implicitDefEqProofs := false) [h]; done) | (simp_all (maxDischargeDepth := 9) (implicitDefEqProofs := false) [Staging.shaped]; done)

@[simp] theorem recover_stagingShaped (s : State) (h : s.staging.shaped) : (recover s).staging.shaped := by
  unfold recover
  (try dsimp only) <;> (repeat' split) <;> first | (simp (maxDischargeDepth := 9) (implicitDefEqProofs := false) [h]; done) | (simp_all (maxDischargeDepth := 9) (implicitDefEqProofs := false) [Staging.shaped]; done)

@[simp] theorem powerHigh_stagingShaped (s : State) (h : s.staging.shaped) : (powerHigh s).staging.shaped := by
  unfold powerHigh
  (try dsimp only) <;> (repeat' split) <;> first | (simp (maxDischargeDepth := 9) (implicitDefEqProofs := false) [h]; done) | (simp_all (maxDischargeDepth := 9) (implicitDefEqProofs := false) [Staging.shaped]; done)

@[simp] theorem qualified_stagingShaped (s : State) (h : s.staging.shaped) : (qualified s).staging.shaped := by
  unfold qualified
  (try dsimp only) <;> (repeat' split) <;> first | (simp (maxDischargeDepth := 9) (implicitDefEqProofs := false) [h]; done) | (simp_all (maxDischargeDepth := 9) (implicitDefEqProofs := false) [Staging.shaped]; done)

@[simp] theorem qualify_stagingShaped (s : State) (h : s.staging.shaped) : (qualify s).staging.shaped := by
  unfold qualify
  (try dsimp only) <;> (repeat' split) <;> first | (simp (maxDischargeDepth := 9) (implicitDefEqProofs := false) [h]; done) | (simp_all (maxDischargeDepth := 9) (implicitDefEqProofs := false) [Staging.shaped]; done)

@[simp] theorem resetEdge_stagingShaped (s : State) (h : s.staging.shaped) : (resetEdge s).staging.shaped := by
  unfold resetEdge
  (try dsimp only) <;> (repeat' split) <;> first | (simp (maxDischargeDepth := 9) (implicitDefEqProofs := false) [h]; done) | (simp_all (maxDischargeDepth := 9) (implicitDefEqProofs := false) [Staging.shaped]; done)

@[simp] theorem resetRise_stagingShaped (s : State) (h : s.staging.shaped) : (resetRise s).staging.shaped := by
  unfold resetRise
  (try dsimp only) <;> (repeat' split) <;> first | (simp (maxDischargeDepth := 9) (implicitDefEqProofs := false) [h]; done) | (simp_all (maxDischargeDepth := 9) (implicitDefEqProofs := false) [Staging.shaped]; done)

@[simp] theorem powerUp_stagingShaped (s : State) (h : s.staging.shaped) : (powerUp s).staging.shaped := by
  unfold powerUp
  simp (maxDischargeDepth := 9) (implicitDefEqProofs := false) [h]

@[simp] theorem resetExpiry_stagingShaped (s : State) (h : s.staging.shaped) : (resetExpiry s).staging.shaped := by
  unfold resetExpiry
  (try dsimp only) <;> (repeat' split) <;> first | (simp (maxDischargeDepth := 9) (implicitDefEqProofs := false) [h]; done) | (simp_all (maxDischargeDepth := 9) (implicitDefEqProofs := false) [Staging.shaped]; done)

@[simp] theorem slotExpiry_stagingShaped (i : Nat) (s : State) (h : s.staging.shaped) : (slotExpiry i s).staging.shaped := by
  unfold slotExpiry
  (try dsimp only) <;> (repeat' split) <;> first | (simp (maxDischargeDepth := 9) (implicitDefEqProofs := false) [h]; done) | (simp_all (maxDischargeDepth := 9) (implicitDefEqProofs := false) [Staging.shaped]; done)

@[simp] theorem endMerge_stagingShaped (i p : Nat) (sl : Slot) (s : State) (h : s.staging.shaped) (hs : sl.shaped) :
    (endMerge i p sl s).staging.shaped := by
  simp [endMerge, h, hs]

@[simp] theorem repeatMerge_stagingShaped (i p : Nat) (s : State) (h : s.staging.shaped) : (repeatMerge i p s).staging.shaped := by
  unfold repeatMerge
  (try dsimp only) <;> (repeat' split) <;> first | (simp (maxDischargeDepth := 9) (implicitDefEqProofs := false) [h]; done) | (simp_all (maxDischargeDepth := 9) (implicitDefEqProofs := false) [Staging.shaped]; done)

@[simp] theorem mergeDone_stagingShaped (i p : Nat) (st : ArrayStatus) (d sp : List Byte) (s : State) (h : s.staging.shaped) : (mergeDone i p st d sp s).staging.shaped := by
  unfold mergeDone
  (try dsimp only) <;> (repeat' split) <;> first | (simp (maxDischargeDepth := 9) (implicitDefEqProofs := false) [h]; done) | (simp_all (maxDischargeDepth := 9) (implicitDefEqProofs := false) [Staging.shaped]; done)

@[simp] theorem programDone_stagingShaped (st : ArrayStatus) (s : State) (h : s.staging.shaped) : (programDone st s).staging.shaped := by
  unfold programDone
  (try dsimp only) <;> (repeat' split) <;> first | (simp (maxDischargeDepth := 9) (implicitDefEqProofs := false) [h]; done) | (simp_all (maxDischargeDepth := 9) (implicitDefEqProofs := false) [Staging.shaped]; done)

@[simp] theorem commitMarkDone_stagingShaped (st : ArrayStatus) (s : State) (h : s.staging.shaped) : (commitMarkDone st s).staging.shaped := by
  unfold commitMarkDone
  (try dsimp only) <;> (repeat' split) <;> first | (simp (maxDischargeDepth := 9) (implicitDefEqProofs := false) [h]; done) | (simp_all (maxDischargeDepth := 9) (implicitDefEqProofs := false) [Staging.shaped]; done)

@[simp] theorem timeoutTwice_stagingShaped (s : State) (h : s.staging.shaped) : (timeoutTwice s).staging.shaped := by
  unfold timeoutTwice
  (try dsimp only) <;> (repeat' split) <;> first | (simp (maxDischargeDepth := 9) (implicitDefEqProofs := false) [h]; done) | (simp_all (maxDischargeDepth := 9) (implicitDefEqProofs := false) [Staging.shaped]; done)

end

section
/-! ## wb -/

@[simp] theorem wb_mk_shaped (ph : WbPhase) (ev : List Nat) (bs : List Barrier) :
    WriteBack.shaped { phase := ph, eviction := ev, barriers := bs } ↔ bs.length ≤ 4 := Iff.rfl

@[simp] theorem wb_barriers_le (w : WriteBack) (h : w.shaped) : w.barriers.length ≤ 4 := h


@[simp] theorem resetBlocks_wbShaped (c : ResetCause) (o : DrainOutcome) (s : State) : (resetBlocks c o s).wb.shaped :=
  Nat.zero_le 4

@[simp] theorem resetCompletion_wbShaped (c : ResetCause) (o : DrainOutcome) (s : State) (h : s.wb.shaped) : (resetCompletion c o s).wb.shaped := by
  unfold resetCompletion
  (try dsimp only) <;> (repeat' split) <;> first | (simp (maxDischargeDepth := 9) (implicitDefEqProofs := false) [h]; done) | (simp_all (maxDischargeDepth := 9) (implicitDefEqProofs := false) [WriteBack.shaped]; done)

@[simp] theorem drainEnd_wbShaped (s : State) (h : s.wb.shaped) : (drainEnd s).wb.shaped := by
  unfold drainEnd
  (try dsimp only) <;> (repeat' split) <;> first | (simp (maxDischargeDepth := 9) (implicitDefEqProofs := false) [h]; done) | (simp_all (maxDischargeDepth := 9) (implicitDefEqProofs := false) [WriteBack.shaped]; done)

@[simp] theorem joinEviction_wbShaped (i : Nat) (s : State) (h : s.wb.shaped) : (joinEviction i s).wb.shaped := by
  unfold joinEviction
  (try dsimp only) <;> (repeat' split) <;> first | (simp (maxDischargeDepth := 9) (implicitDefEqProofs := false) [h]; done) | (simp_all (maxDischargeDepth := 9) (implicitDefEqProofs := false) [WriteBack.shaped]; done)

@[simp] theorem sealSlot_wbShaped (i : Nat) (s : State) (h : s.wb.shaped) : (sealSlot i s).wb.shaped := by
  unfold sealSlot
  (try dsimp only) <;> (repeat' split) <;> first | (simp (maxDischargeDepth := 9) (implicitDefEqProofs := false) [h]; done) | (simp_all (maxDischargeDepth := 9) (implicitDefEqProofs := false) [WriteBack.shaped]; done)

@[simp] theorem placeInSlot_wbShaped (i off : Nat) (d : List Byte) (s : State) (h : s.wb.shaped) : (placeInSlot i off d s).wb.shaped := by
  unfold placeInSlot
  (try dsimp only) <;> (repeat' split) <;> first | (simp (maxDischargeDepth := 9) (implicitDefEqProofs := false) [h]; done) | (simp_all (maxDischargeDepth := 9) (implicitDefEqProofs := false) [WriteBack.shaped]; done)

@[simp] theorem setWbPhase_wbShaped (ph : WbPhase) (s : State) (h : s.wb.shaped) : (setWbPhase ph s).wb.shaped := by
  unfold setWbPhase
  (try dsimp only) <;> (repeat' split) <;> first | (simp (maxDischargeDepth := 9) (implicitDefEqProofs := false) [h]; done) | (simp_all (maxDischargeDepth := 9) (implicitDefEqProofs := false) [WriteBack.shaped]; done)

@[simp] theorem setBarriers_wbShaped (b : List Barrier) (s : State) (h : b.length ≤ 4) : (setBarriers b s).wb.shaped := h

@[simp] theorem commitBarriers_wbShaped (i : Nat) (inc : Byte) (s : State) (h : s.wb.shaped) :
    (commitBarriers i inc s).wb.shaped := by
  have g : (List.filter (fun b => !b.waitSet.isEmpty) (dropPair i inc s.wb.barriers)).length ≤ 4 :=
    Nat.le_trans (List.length_filter_le _ _) (by simpa [dropPair] using wb_barriers_le _ h)
  unfold commitBarriers
  dsimp only
  simp only [answerPersists_keeps]
  exact g

@[simp] theorem loseBarriers_wbShaped (i : Nat) (inc : Byte) (s : State) (h : s.wb.shaped) :
    (loseBarriers i inc s).wb.shaped := by
  have g : ∀ p, (List.filter p s.wb.barriers).length ≤ 4 := fun p => Nat.le_trans (List.length_filter_le _ _) h
  unfold loseBarriers
  dsimp only
  simp only [answerPersists_keeps]
  exact g _

@[simp] theorem becomeHeld_wbShaped (i : Nat) (r : HoldReason) (s : State) (h : s.wb.shaped) : (becomeHeld i r s).wb.shaped := by
  unfold becomeHeld
  (try dsimp only) <;> (repeat' split) <;> first | (simp (maxDischargeDepth := 9) (implicitDefEqProofs := false) [h]; done) | (simp_all (maxDischargeDepth := 9) (implicitDefEqProofs := false) [WriteBack.shaped]; done)

@[simp] theorem holdSealed_wbShaped (i : Nat) (s : State) (h : s.wb.shaped) : (holdSealed i s).wb.shaped := by
  unfold holdSealed
  (try dsimp only) <;> (repeat' split) <;> first | (simp (maxDischargeDepth := 9) (implicitDefEqProofs := false) [h]; done) | (simp_all (maxDischargeDepth := 9) (implicitDefEqProofs := false) [WriteBack.shaped]; done)

@[simp] theorem holdWriting_wbShaped (i : Nat) (r : HoldReason) (s : State) (h : s.wb.shaped) : (holdWriting i r s).wb.shaped := by
  unfold holdWriting
  (try dsimp only) <;> (repeat' split) <;> first | (simp (maxDischargeDepth := 9) (implicitDefEqProofs := false) [h]; done) | (simp_all (maxDischargeDepth := 9) (implicitDefEqProofs := false) [WriteBack.shaped]; done)

@[simp] theorem startWriteBack_wbShaped (i : Nat) (t : Target) (s : State) (h : s.wb.shaped) : (startWriteBack i t s).wb.shaped := by
  unfold startWriteBack
  (try dsimp only) <;> (repeat' split) <;> first | (simp (maxDischargeDepth := 9) (implicitDefEqProofs := false) [h]; done) | (simp_all (maxDischargeDepth := 9) (implicitDefEqProofs := false) [WriteBack.shaped]; done)

@[simp] theorem takeSlot_wbShaped (i : Nat) (s : State) (h : s.wb.shaped) : (takeSlot i s).wb.shaped := by
  unfold takeSlot
  (try dsimp only) <;> (repeat' split) <;> first | (simp (maxDischargeDepth := 9) (implicitDefEqProofs := false) [h]; done) | (simp_all (maxDischargeDepth := 9) (implicitDefEqProofs := false) [WriteBack.shaped]; done)

@[simp] theorem retryWith_wbShaped (i : Nat) (t : Target) (s : State) (h : s.wb.shaped) : (retryWith i t s).wb.shaped := by
  unfold retryWith
  (try dsimp only) <;> (repeat' split) <;> first | (simp (maxDischargeDepth := 9) (implicitDefEqProofs := false) [h]; done) | (simp_all (maxDischargeDepth := 9) (implicitDefEqProofs := false) [WriteBack.shaped]; done)

@[simp] theorem retryWriteBack_wbShaped (i : Nat) (s : State) (h : s.wb.shaped) : (retryWriteBack i s).wb.shaped := by
  unfold retryWriteBack
  (try dsimp only) <;> (repeat' split) <;> first | (simp (maxDischargeDepth := 9) (implicitDefEqProofs := false) [h]; done) | (simp_all (maxDischargeDepth := 9) (implicitDefEqProofs := false) [WriteBack.shaped]; done)

@[simp] theorem attemptFailed_wbShaped (i : Nat) (s : State) (h : s.wb.shaped) : (attemptFailed i s).wb.shaped := by
  unfold attemptFailed
  (try dsimp only) <;> (repeat' split) <;> first | (simp (maxDischargeDepth := 9) (implicitDefEqProofs := false) [h]; done) | (simp_all (maxDischargeDepth := 9) (implicitDefEqProofs := false) [WriteBack.shaped]; done)

@[simp] theorem commitSlot_wbShaped (i : Nat) (s : State) (h : s.wb.shaped) : (commitSlot i s).wb.shaped := by
  unfold commitSlot
  (try dsimp only) <;> (repeat' split) <;> first | (simp (maxDischargeDepth := 9) (implicitDefEqProofs := false) [h]; done) | (simp_all (maxDischargeDepth := 9) (implicitDefEqProofs := false) [WriteBack.shaped]; done)

@[simp] theorem settle_wbShaped (s : State) (h : s.wb.shaped) : (settle s).wb.shaped :=
  settle_induct (Q := fun s => s.wb.shaped) (fun s t ht h => by
    rcases reexamine_cases s t ht with ⟨_, _, rfl⟩ | ⟨i, _, _, rfl⟩ | ⟨i, _, _, _, rfl⟩ | ⟨i, _, _, rfl⟩ | ⟨p, _, rfl⟩ <;>
      simp (implicitDefEqProofs := false) [h]) s h

@[simp] theorem sealAllOpen_wbShaped (s : State) (h : s.wb.shaped) : (sealAllOpen s).wb.shaped :=
  sealAllOpen_induct (Q := fun s => s.wb.shaped) (fun s i _ h => by simp (implicitDefEqProofs := false) [h]) (fun s i _ h => by simp (implicitDefEqProofs := false) [h]) s h

@[simp] theorem serveWrite_wbShaped (r : Request) (s : State) (h : s.wb.shaped) : (serveWrite r s).wb.shaped := by
  unfold serveWrite
  split
  · rename_i i t ht
    unfold State.writeSlot at ht
    split at ht
    · cases ht; simp (implicitDefEqProofs := false) [h]
    · split at ht
      · cases ht; simp (maxDischargeDepth := 9) (implicitDefEqProofs := false) [h]
      · contradiction
  · simp (implicitDefEqProofs := false) [h]

@[simp] theorem servePersist_wbShaped (r : Request) (s : State) (h : s.wb.shaped) : (servePersist r s).wb.shaped := by
  unfold servePersist
  split
  · simp [h]
  · split
    · simp [h]
    · split
      · exact h
      · rename_i hb
        have g : s.wb.barriers.length + 1 ≤ 4 := by simp [Config.barrierSize] at hb; omega
        apply sealAllOpen_wbShaped
        simp only [becomeWaiting_keeps]
        apply setBarriers_wbShaped
        simpa using g

@[simp] theorem serve_wbShaped (r : Request) (s : State) (h : s.wb.shaped) : (serve r s).wb.shaped := by
  unfold serve
  (try dsimp only) <;> (repeat' split) <;> first | (simp (maxDischargeDepth := 9) (implicitDefEqProofs := false) [h]; done) | (simp_all (maxDischargeDepth := 9) (implicitDefEqProofs := false) [WriteBack.shaped]; done)

@[simp] theorem placeUnjudged_wbShaped (r : Request) (s : State) (h : s.wb.shaped) : (placeUnjudged r s).wb.shaped := by
  unfold placeUnjudged
  (try dsimp only) <;> (repeat' split) <;> first | (simp (maxDischargeDepth := 9) (implicitDefEqProofs := false) [h]; done) | (simp_all (maxDischargeDepth := 9) (implicitDefEqProofs := false) [WriteBack.shaped]; done)

@[simp] theorem placeHead_wbShaped (e : Entry) (s : State) (h : s.wb.shaped) : (placeHead e s).wb.shaped := by
  unfold placeHead
  (try dsimp only) <;> (repeat' split) <;> first | (simp (maxDischargeDepth := 9) (implicitDefEqProofs := false) [h]; done) | (simp_all (maxDischargeDepth := 9) (implicitDefEqProofs := false) [WriteBack.shaped]; done)

@[simp] theorem placements_wbShaped (a s : State) (h : s.wb.shaped) : (placements a s).wb.shaped :=
  placements_induct (Q := fun s => s.wb.shaped) (fun s e _ h => by simp (implicitDefEqProofs := false) [h]) (fun s h => by simp (implicitDefEqProofs := false) [h]) a s h

@[simp] theorem arrive_wbShaped (record : List Byte) (s : State) (h : s.wb.shaped) : (arrive record s).wb.shaped := by
  unfold arrive
  (try dsimp only) <;> (repeat' split) <;> first | (simp (maxDischargeDepth := 9) (implicitDefEqProofs := false) [h]; done) | (simp_all (maxDischargeDepth := 9) (implicitDefEqProofs := false) [WriteBack.shaped]; done)

@[simp] theorem arriveWaiting_wbShaped (q : List (List Byte)) (s : State) (h : s.wb.shaped) : (arriveWaiting q s).wb.shaped :=
  arriveWaiting_induct (Q := fun s => s.wb.shaped) (fun s b _ h => by simp (implicitDefEqProofs := false) [h]) (fun s q h => by simp (implicitDefEqProofs := false) [h]) q s h

@[simp] theorem presentRecord_wbShaped (record : List Byte) (s : State) (h : s.wb.shaped) : (presentRecord record s).wb.shaped := by
  unfold presentRecord
  (try dsimp only) <;> (repeat' split) <;> first | (simp (maxDischargeDepth := 9) (implicitDefEqProofs := false) [h]; done) | (simp_all (maxDischargeDepth := 9) (implicitDefEqProofs := false) [WriteBack.shaped]; done)

@[simp] theorem finish_wbShaped (a s : State) (h : s.wb.shaped) : (finish a s).wb.shaped := by
  simp (maxDischargeDepth := 9) (implicitDefEqProofs := false) [finish, h]

@[simp] theorem beginDrain_wbShaped (c : DrainCause) (s : State) (h : s.wb.shaped) : (beginDrain c s).wb.shaped := by
  unfold beginDrain
  (try dsimp only) <;> (repeat' split) <;> first | (simp (maxDischargeDepth := 9) (implicitDefEqProofs := false) [h]; done) | (simp_all (maxDischargeDepth := 9) (implicitDefEqProofs := false) [WriteBack.shaped]; done)

@[simp] theorem faultBarriers_wbShaped (s : State) : (faultBarriers s).wb.shaped := by
  simp [faultBarriers]

@[simp] theorem requestFault_wbShaped (s : State) (h : s.wb.shaped) : (requestFault s).wb.shaped := by
  unfold requestFault
  (try dsimp only) <;> (repeat' split) <;> first | (simp (maxDischargeDepth := 9) (implicitDefEqProofs := false) [h]; done) | (simp_all (maxDischargeDepth := 9) (implicitDefEqProofs := false) [WriteBack.shaped]; done)

@[simp] theorem resetLineLow_wbShaped (s : State) (h : s.wb.shaped) : (resetLineLow s).wb.shaped := by
  unfold resetLineLow
  (try dsimp only) <;> (repeat' split) <;> first | (simp (maxDischargeDepth := 9) (implicitDefEqProofs := false) [h]; done) | (simp_all (maxDischargeDepth := 9) (implicitDefEqProofs := false) [WriteBack.shaped]; done)

@[simp] theorem softResetActs_wbShaped (s : State) (h : s.wb.shaped) : (softResetActs s).wb.shaped := by
  unfold softResetActs
  (try dsimp only) <;> (repeat' split) <;> first | (simp (maxDischargeDepth := 9) (implicitDefEqProofs := false) [h]; done) | (simp_all (maxDischargeDepth := 9) (implicitDefEqProofs := false) [WriteBack.shaped]; done)

@[simp] theorem strapCheck_wbShaped (asz : BitVec 2) (s : State) (h : s.wb.shaped) : (strapCheck asz s).wb.shaped := by
  unfold strapCheck
  (try dsimp only) <;> (repeat' split) <;> first | (simp (maxDischargeDepth := 9) (implicitDefEqProofs := false) [h]; done) | (simp_all (maxDischargeDepth := 9) (implicitDefEqProofs := false) [WriteBack.shaped]; done)

@[simp] theorem readyWaitDone_wbShaped (asz : BitVec 2) (s : State) (h : s.wb.shaped) : (readyWaitDone asz s).wb.shaped := by
  unfold readyWaitDone
  (try dsimp only) <;> (repeat' split) <;> first | (simp (maxDischargeDepth := 9) (implicitDefEqProofs := false) [h]; done) | (simp_all (maxDischargeDepth := 9) (implicitDefEqProofs := false) [WriteBack.shaped]; done)

@[simp] theorem doFlush_wbShaped (s : State) (h : s.wb.shaped) : (doFlush s).wb.shaped := by
  unfold doFlush
  (try dsimp only) <;> (repeat' split) <;> first | (simp (maxDischargeDepth := 9) (implicitDefEqProofs := false) [h]; done) | (simp_all (maxDischargeDepth := 9) (implicitDefEqProofs := false) [WriteBack.shaped]; done)

@[simp] theorem doSoftReset_wbShaped (s : State) (h : s.wb.shaped) : (doSoftReset s).wb.shaped := by
  unfold doSoftReset
  (try dsimp only) <;> (repeat' split) <;> first | (simp (maxDischargeDepth := 9) (implicitDefEqProofs := false) [h]; done) | (simp_all (maxDischargeDepth := 9) (implicitDefEqProofs := false) [WriteBack.shaped]; done)

@[simp] theorem act_wbShaped (c : CommandName) (args : List Byte) (s : State) (h : s.wb.shaped) :
    (c.act args s).wb.shaped := by
  cases c <;> simp (maxDischargeDepth := 9) (implicitDefEqProofs := false) [CommandName.act, h]

@[simp] theorem decideCommand_wbShaped (c : CommandName) (args : List Byte) (s : State) (h : s.wb.shaped) :
    (decideCommand c args s).wb.shaped := by
  unfold decideCommand
  (repeat' split) <;> simp (implicitDefEqProofs := false) [h]

@[simp] theorem decideFrame_wbShaped (c : Option CommandName) (args : List Byte) (s : State) (h : s.wb.shaped) : (decideFrame c args s).wb.shaped := by
  unfold decideFrame
  (try dsimp only) <;> (repeat' split) <;> first | (simp (maxDischargeDepth := 9) (implicitDefEqProofs := false) [h]; done) | (simp_all (maxDischargeDepth := 9) (implicitDefEqProofs := false) [WriteBack.shaped]; done)

@[simp] theorem endFrame_wbShaped (c : Option CommandName) (args : List Byte) (s : State) (h : s.wb.shaped) : (endFrame c args s).wb.shaped := by
  unfold endFrame
  (try dsimp only) <;> (repeat' split) <;> first | (simp (maxDischargeDepth := 9) (implicitDefEqProofs := false) [h]; done) | (simp_all (maxDischargeDepth := 9) (implicitDefEqProofs := false) [WriteBack.shaped]; done)

@[simp] theorem recover_wbShaped (s : State) (h : s.wb.shaped) : (recover s).wb.shaped := by
  unfold recover
  (try dsimp only) <;> (repeat' split) <;> first | (simp (maxDischargeDepth := 9) (implicitDefEqProofs := false) [h]; done) | (simp_all (maxDischargeDepth := 9) (implicitDefEqProofs := false) [WriteBack.shaped]; done)

@[simp] theorem powerHigh_wbShaped (s : State) (h : s.wb.shaped) : (powerHigh s).wb.shaped := by
  unfold powerHigh
  (try dsimp only) <;> (repeat' split) <;> first | (simp (maxDischargeDepth := 9) (implicitDefEqProofs := false) [h]; done) | (simp_all (maxDischargeDepth := 9) (implicitDefEqProofs := false) [WriteBack.shaped]; done)

@[simp] theorem qualified_wbShaped (s : State) (h : s.wb.shaped) : (qualified s).wb.shaped := by
  unfold qualified
  (try dsimp only) <;> (repeat' split) <;> first | (simp (maxDischargeDepth := 9) (implicitDefEqProofs := false) [h]; done) | (simp_all (maxDischargeDepth := 9) (implicitDefEqProofs := false) [WriteBack.shaped]; done)

@[simp] theorem qualify_wbShaped (s : State) (h : s.wb.shaped) : (qualify s).wb.shaped := by
  unfold qualify
  (try dsimp only) <;> (repeat' split) <;> first | (simp (maxDischargeDepth := 9) (implicitDefEqProofs := false) [h]; done) | (simp_all (maxDischargeDepth := 9) (implicitDefEqProofs := false) [WriteBack.shaped]; done)

@[simp] theorem resetEdge_wbShaped (s : State) (h : s.wb.shaped) : (resetEdge s).wb.shaped := by
  unfold resetEdge
  (try dsimp only) <;> (repeat' split) <;> first | (simp (maxDischargeDepth := 9) (implicitDefEqProofs := false) [h]; done) | (simp_all (maxDischargeDepth := 9) (implicitDefEqProofs := false) [WriteBack.shaped]; done)

@[simp] theorem resetRise_wbShaped (s : State) (h : s.wb.shaped) : (resetRise s).wb.shaped := by
  unfold resetRise
  (try dsimp only) <;> (repeat' split) <;> first | (simp (maxDischargeDepth := 9) (implicitDefEqProofs := false) [h]; done) | (simp_all (maxDischargeDepth := 9) (implicitDefEqProofs := false) [WriteBack.shaped]; done)

@[simp] theorem powerUp_wbShaped (s : State) (h : s.wb.shaped) : (powerUp s).wb.shaped := by
  unfold powerUp
  simp (maxDischargeDepth := 9) (implicitDefEqProofs := false) [h]

@[simp] theorem resetExpiry_wbShaped (s : State) (h : s.wb.shaped) : (resetExpiry s).wb.shaped := by
  unfold resetExpiry
  (try dsimp only) <;> (repeat' split) <;> first | (simp (maxDischargeDepth := 9) (implicitDefEqProofs := false) [h]; done) | (simp_all (maxDischargeDepth := 9) (implicitDefEqProofs := false) [WriteBack.shaped]; done)

@[simp] theorem slotExpiry_wbShaped (i : Nat) (s : State) (h : s.wb.shaped) : (slotExpiry i s).wb.shaped := by
  unfold slotExpiry
  (try dsimp only) <;> (repeat' split) <;> first | (simp (maxDischargeDepth := 9) (implicitDefEqProofs := false) [h]; done) | (simp_all (maxDischargeDepth := 9) (implicitDefEqProofs := false) [WriteBack.shaped]; done)

@[simp] theorem programDone_wbShaped (st : ArrayStatus) (s : State) (h : s.wb.shaped) : (programDone st s).wb.shaped := by
  unfold programDone
  (try dsimp only) <;> (repeat' split) <;> first | (simp (maxDischargeDepth := 9) (implicitDefEqProofs := false) [h]; done) | (simp_all (maxDischargeDepth := 9) (implicitDefEqProofs := false) [WriteBack.shaped]; done)

@[simp] theorem commitMarkDone_wbShaped (st : ArrayStatus) (s : State) (h : s.wb.shaped) : (commitMarkDone st s).wb.shaped := by
  unfold commitMarkDone
  (try dsimp only) <;> (repeat' split) <;> first | (simp (maxDischargeDepth := 9) (implicitDefEqProofs := false) [h]; done) | (simp_all (maxDischargeDepth := 9) (implicitDefEqProofs := false) [WriteBack.shaped]; done)

@[simp] theorem timeoutTwice_wbShaped (s : State) (h : s.wb.shaped) : (timeoutTwice s).wb.shaped := by
  unfold timeoutTwice
  (try dsimp only) <;> (repeat' split) <;> first | (simp (maxDischargeDepth := 9) (implicitDefEqProofs := false) [h]; done) | (simp_all (maxDischargeDepth := 9) (implicitDefEqProofs := false) [WriteBack.shaped]; done)

end

section
/-! ## xlat -/

/-- The physical page table in its canonical form. -/
def pagesCanonical (l : List (Nat × PageEntry)) : Prop := keysRise l = true ∧ ∀ e ∈ l, e.2 ≠ PageEntry.reset

/-- The remap table in its canonical form. -/
def remapCanonical (l : List (Nat × Nat)) : Prop := keysRise l = true

@[simp] theorem xlat_mk_shaped (m : List (Nat × Nat)) (pg : List (Nat × PageEntry)) (fp eq : List Nat) (q : Word32)
    (e : ErasePhase) (l : Option Nat) :
    Translation.shaped { remap := m, pages := pg, freePool := fp, eraseQueue := eq, sequence := q, erase := e,
                         logicalPages := l } ↔ remapCanonical m ∧ pagesCanonical pg := Iff.rfl

@[simp] theorem xlat_remap_canonical (x : Translation) (h : x.shaped) : remapCanonical x.remap := h.1
@[simp] theorem xlat_pages_canonical (x : Translation) (h : x.shaped) : pagesCanonical x.pages := h.2

@[simp] theorem pagesSet_canonical (p : Nat) (e : PageEntry) (l : List (Nat × PageEntry)) (h : pagesCanonical l) :
    pagesCanonical (pagesSet p e l) := ⟨keysRise_pagesSet p e l h.1, mem_pagesSet p e l h.2⟩

@[simp] theorem tableSet_canonical (x p : Nat) (l : List (Nat × Nat)) (h : remapCanonical l) :
    remapCanonical (tableSet x p l) := keysRise_tableSet x p l h


@[simp] theorem setPageState_xlatShaped (p : Nat) (st : PageState) (s : State) (h : s.xlat.shaped) : (setPageState p st s).xlat.shaped := by
  unfold setPageState
  (try dsimp only) <;> (repeat' split) <;> first | (simp (maxDischargeDepth := 9) (implicitDefEqProofs := false) [h]; done) | (simp_all (maxDischargeDepth := 9) (implicitDefEqProofs := false) [Translation.shaped]; done)

@[simp] theorem setPins_xlatShaped (p n : Nat) (s : State) (h : s.xlat.shaped) : (setPins p n s).xlat.shaped := by
  unfold setPins
  (try dsimp only) <;> (repeat' split) <;> first | (simp (maxDischargeDepth := 9) (implicitDefEqProofs := false) [h]; done) | (simp_all (maxDischargeDepth := 9) (implicitDefEqProofs := false) [Translation.shaped]; done)

@[simp] theorem resetBlocks_xlatShaped (c : ResetCause) (o : DrainOutcome) (s : State) : (resetBlocks c o s).xlat.shaped := by
  refine ⟨rfl, rfl, fun e he => ?_⟩
  exact absurd he List.not_mem_nil

@[simp] theorem resetCompletion_xlatShaped (c : ResetCause) (o : DrainOutcome) (s : State) (h : s.xlat.shaped) : (resetCompletion c o s).xlat.shaped := by
  unfold resetCompletion
  (try dsimp only) <;> (repeat' split) <;> first | (simp (maxDischargeDepth := 9) (implicitDefEqProofs := false) [h]; done) | (simp_all (maxDischargeDepth := 9) (implicitDefEqProofs := false) [Translation.shaped]; done)

@[simp] theorem drainEnd_xlatShaped (s : State) (h : s.xlat.shaped) : (drainEnd s).xlat.shaped := by
  unfold drainEnd
  (try dsimp only) <;> (repeat' split) <;> first | (simp (maxDischargeDepth := 9) (implicitDefEqProofs := false) [h]; done) | (simp_all (maxDischargeDepth := 9) (implicitDefEqProofs := false) [Translation.shaped]; done)

@[simp] theorem pinnedRead_xlatShaped (p : Nat) (r : Requester) (s : State) (h : s.xlat.shaped) : (pinnedRead p r s).xlat.shaped := by
  unfold pinnedRead
  (try dsimp only) <;> (repeat' split) <;> first | (simp (maxDischargeDepth := 9) (implicitDefEqProofs := false) [h]; done) | (simp_all (maxDischargeDepth := 9) (implicitDefEqProofs := false) [Translation.shaped]; done)

@[simp] theorem lowerPin_xlatShaped (p : Nat) (s : State) (h : s.xlat.shaped) : (lowerPin p s).xlat.shaped := by
  unfold lowerPin
  (try dsimp only) <;> (repeat' split) <;> first | (simp (maxDischargeDepth := 9) (implicitDefEqProofs := false) [h]; done) | (simp_all (maxDischargeDepth := 9) (implicitDefEqProofs := false) [Translation.shaped]; done)

@[simp] theorem takePage_xlatShaped (p : Nat) (s : State) (h : s.xlat.shaped) : (takePage p s).xlat.shaped := by
  unfold takePage
  (try dsimp only) <;> (repeat' split) <;> first | (simp (maxDischargeDepth := 9) (implicitDefEqProofs := false) [h]; done) | (simp_all (maxDischargeDepth := 9) (implicitDefEqProofs := false) [Translation.shaped]; done)

@[simp] theorem commitMap_xlatShaped (x p : Nat) (s : State) (h : s.xlat.shaped) : (commitMap x p s).xlat.shaped := by
  unfold commitMap
  (try dsimp only) <;> (repeat' split) <;> first | (simp (maxDischargeDepth := 9) (implicitDefEqProofs := false) [h]; done) | (simp_all (maxDischargeDepth := 9) (implicitDefEqProofs := false) [Translation.shaped]; done)

@[simp] theorem retirePage_xlatShaped (p : Nat) (s : State) (h : s.xlat.shaped) : (retirePage p s).xlat.shaped := by
  unfold retirePage
  (try dsimp only) <;> (repeat' split) <;> first | (simp (maxDischargeDepth := 9) (implicitDefEqProofs := false) [h]; done) | (simp_all (maxDischargeDepth := 9) (implicitDefEqProofs := false) [Translation.shaped]; done)

@[simp] theorem startErase_xlatShaped (p : Nat) (s : State) (h : s.xlat.shaped) : (startErase p s).xlat.shaped := by
  unfold startErase
  (try dsimp only) <;> (repeat' split) <;> first | (simp (maxDischargeDepth := 9) (implicitDefEqProofs := false) [h]; done) | (simp_all (maxDischargeDepth := 9) (implicitDefEqProofs := false) [Translation.shaped]; done)

@[simp] theorem sealRecord_xlatShaped (i x : Nat) (s : State) (h : s.xlat.shaped) : (sealRecord i x s).xlat.shaped := by
  unfold sealRecord
  (try dsimp only) <;> (repeat' split) <;> first | (simp (maxDischargeDepth := 9) (implicitDefEqProofs := false) [h]; done) | (simp_all (maxDischargeDepth := 9) (implicitDefEqProofs := false) [Translation.shaped]; done)

@[simp] theorem sealSlot_xlatShaped (i : Nat) (s : State) (h : s.xlat.shaped) : (sealSlot i s).xlat.shaped := by
  unfold sealSlot
  (try dsimp only) <;> (repeat' split) <;> first | (simp (maxDischargeDepth := 9) (implicitDefEqProofs := false) [h]; done) | (simp_all (maxDischargeDepth := 9) (implicitDefEqProofs := false) [Translation.shaped]; done)

@[simp] theorem placeInSlot_xlatShaped (i off : Nat) (d : List Byte) (s : State) (h : s.xlat.shaped) : (placeInSlot i off d s).xlat.shaped := by
  unfold placeInSlot
  (try dsimp only) <;> (repeat' split) <;> first | (simp (maxDischargeDepth := 9) (implicitDefEqProofs := false) [h]; done) | (simp_all (maxDischargeDepth := 9) (implicitDefEqProofs := false) [Translation.shaped]; done)

@[simp] theorem holdWriting_xlatShaped (i : Nat) (r : HoldReason) (s : State) (h : s.xlat.shaped) : (holdWriting i r s).xlat.shaped := by
  unfold holdWriting
  (try dsimp only) <;> (repeat' split) <;> first | (simp (maxDischargeDepth := 9) (implicitDefEqProofs := false) [h]; done) | (simp_all (maxDischargeDepth := 9) (implicitDefEqProofs := false) [Translation.shaped]; done)

@[simp] theorem startWriteBack_xlatShaped (i : Nat) (t : Target) (s : State) (h : s.xlat.shaped) : (startWriteBack i t s).xlat.shaped := by
  unfold startWriteBack
  (try dsimp only) <;> (repeat' split) <;> first | (simp (maxDischargeDepth := 9) (implicitDefEqProofs := false) [h]; done) | (simp_all (maxDischargeDepth := 9) (implicitDefEqProofs := false) [Translation.shaped]; done)

@[simp] theorem takeSlot_xlatShaped (i : Nat) (s : State) (h : s.xlat.shaped) : (takeSlot i s).xlat.shaped := by
  unfold takeSlot
  (try dsimp only) <;> (repeat' split) <;> first | (simp (maxDischargeDepth := 9) (implicitDefEqProofs := false) [h]; done) | (simp_all (maxDischargeDepth := 9) (implicitDefEqProofs := false) [Translation.shaped]; done)

@[simp] theorem retryWith_xlatShaped (i : Nat) (t : Target) (s : State) (h : s.xlat.shaped) : (retryWith i t s).xlat.shaped := by
  unfold retryWith
  (try dsimp only) <;> (repeat' split) <;> first | (simp (maxDischargeDepth := 9) (implicitDefEqProofs := false) [h]; done) | (simp_all (maxDischargeDepth := 9) (implicitDefEqProofs := false) [Translation.shaped]; done)

@[simp] theorem retryWriteBack_xlatShaped (i : Nat) (s : State) (h : s.xlat.shaped) : (retryWriteBack i s).xlat.shaped := by
  unfold retryWriteBack
  (try dsimp only) <;> (repeat' split) <;> first | (simp (maxDischargeDepth := 9) (implicitDefEqProofs := false) [h]; done) | (simp_all (maxDischargeDepth := 9) (implicitDefEqProofs := false) [Translation.shaped]; done)

@[simp] theorem attemptFailed_xlatShaped (i : Nat) (s : State) (h : s.xlat.shaped) : (attemptFailed i s).xlat.shaped := by
  unfold attemptFailed
  (try dsimp only) <;> (repeat' split) <;> first | (simp (maxDischargeDepth := 9) (implicitDefEqProofs := false) [h]; done) | (simp_all (maxDischargeDepth := 9) (implicitDefEqProofs := false) [Translation.shaped]; done)

@[simp] theorem commitSlot_xlatShaped (i : Nat) (s : State) (h : s.xlat.shaped) : (commitSlot i s).xlat.shaped := by
  unfold commitSlot
  (try dsimp only) <;> (repeat' split) <;> first | (simp (maxDischargeDepth := 9) (implicitDefEqProofs := false) [h]; done) | (simp_all (maxDischargeDepth := 9) (implicitDefEqProofs := false) [Translation.shaped]; done)

@[simp] theorem settle_xlatShaped (s : State) (h : s.xlat.shaped) : (settle s).xlat.shaped :=
  settle_induct (Q := fun s => s.xlat.shaped) (fun s t ht h => by
    rcases reexamine_cases s t ht with ⟨_, _, rfl⟩ | ⟨i, _, _, rfl⟩ | ⟨i, _, _, _, rfl⟩ | ⟨i, _, _, rfl⟩ | ⟨p, _, rfl⟩ <;>
      simp (implicitDefEqProofs := false) [h]) s h

@[simp] theorem sealAllOpen_xlatShaped (s : State) (h : s.xlat.shaped) : (sealAllOpen s).xlat.shaped :=
  sealAllOpen_induct (Q := fun s => s.xlat.shaped) (fun s i _ h => by simp (implicitDefEqProofs := false) [h]) (fun s i _ h => by simp (implicitDefEqProofs := false) [h]) s h

@[simp] theorem serveWrite_xlatShaped (r : Request) (s : State) (h : s.xlat.shaped) : (serveWrite r s).xlat.shaped := by
  unfold serveWrite
  split
  · rename_i i t ht
    unfold State.writeSlot at ht
    split at ht
    · cases ht; simp (implicitDefEqProofs := false) [h]
    · split at ht
      · cases ht; simp (maxDischargeDepth := 9) (implicitDefEqProofs := false) [h]
      · contradiction
  · simp (implicitDefEqProofs := false) [h]

@[simp] theorem addPending_xlatShaped (rec : PendingRead) (s : State) (h : s.xlat.shaped) : (addPending rec s).xlat.shaped := by
  unfold addPending
  (try dsimp only) <;> (repeat' split) <;> first | (simp (maxDischargeDepth := 9) (implicitDefEqProofs := false) [h]; done) | (simp_all (maxDischargeDepth := 9) (implicitDefEqProofs := false) [Translation.shaped]; done)

@[simp] theorem serveRead_xlatShaped (r : Request) (s : State) (h : s.xlat.shaped) : (serveRead r s).xlat.shaped := by
  unfold serveRead
  (try dsimp only) <;> (repeat' split) <;> first | (simp (maxDischargeDepth := 9) (implicitDefEqProofs := false) [h]; done) | (simp_all (maxDischargeDepth := 9) (implicitDefEqProofs := false) [Translation.shaped]; done)

@[simp] theorem servePersist_xlatShaped (r : Request) (s : State) (h : s.xlat.shaped) : (servePersist r s).xlat.shaped := by
  unfold servePersist
  (try dsimp only) <;> (repeat' split) <;> first | (simp (maxDischargeDepth := 9) (implicitDefEqProofs := false) [h]; done) | (simp_all (maxDischargeDepth := 9) (implicitDefEqProofs := false) [Translation.shaped]; done)

@[simp] theorem serve_xlatShaped (r : Request) (s : State) (h : s.xlat.shaped) : (serve r s).xlat.shaped := by
  unfold serve
  (try dsimp only) <;> (repeat' split) <;> first | (simp (maxDischargeDepth := 9) (implicitDefEqProofs := false) [h]; done) | (simp_all (maxDischargeDepth := 9) (implicitDefEqProofs := false) [Translation.shaped]; done)

@[simp] theorem placeUnjudged_xlatShaped (r : Request) (s : State) (h : s.xlat.shaped) : (placeUnjudged r s).xlat.shaped := by
  unfold placeUnjudged
  (try dsimp only) <;> (repeat' split) <;> first | (simp (maxDischargeDepth := 9) (implicitDefEqProofs := false) [h]; done) | (simp_all (maxDischargeDepth := 9) (implicitDefEqProofs := false) [Translation.shaped]; done)

@[simp] theorem placeHead_xlatShaped (e : Entry) (s : State) (h : s.xlat.shaped) : (placeHead e s).xlat.shaped := by
  unfold placeHead
  (try dsimp only) <;> (repeat' split) <;> first | (simp (maxDischargeDepth := 9) (implicitDefEqProofs := false) [h]; done) | (simp_all (maxDischargeDepth := 9) (implicitDefEqProofs := false) [Translation.shaped]; done)

@[simp] theorem placements_xlatShaped (a s : State) (h : s.xlat.shaped) : (placements a s).xlat.shaped :=
  placements_induct (Q := fun s => s.xlat.shaped) (fun s e _ h => by simp (implicitDefEqProofs := false) [h]) (fun s h => by simp (implicitDefEqProofs := false) [h]) a s h

@[simp] theorem arrive_xlatShaped (record : List Byte) (s : State) (h : s.xlat.shaped) : (arrive record s).xlat.shaped := by
  unfold arrive
  (try dsimp only) <;> (repeat' split) <;> first | (simp (maxDischargeDepth := 9) (implicitDefEqProofs := false) [h]; done) | (simp_all (maxDischargeDepth := 9) (implicitDefEqProofs := false) [Translation.shaped]; done)

@[simp] theorem arriveWaiting_xlatShaped (q : List (List Byte)) (s : State) (h : s.xlat.shaped) : (arriveWaiting q s).xlat.shaped :=
  arriveWaiting_induct (Q := fun s => s.xlat.shaped) (fun s b _ h => by simp (implicitDefEqProofs := false) [h]) (fun s q h => by simp (implicitDefEqProofs := false) [h]) q s h

@[simp] theorem presentRecord_xlatShaped (record : List Byte) (s : State) (h : s.xlat.shaped) : (presentRecord record s).xlat.shaped := by
  unfold presentRecord
  (try dsimp only) <;> (repeat' split) <;> first | (simp (maxDischargeDepth := 9) (implicitDefEqProofs := false) [h]; done) | (simp_all (maxDischargeDepth := 9) (implicitDefEqProofs := false) [Translation.shaped]; done)

@[simp] theorem finish_xlatShaped (a s : State) (h : s.xlat.shaped) : (finish a s).xlat.shaped := by
  simp (maxDischargeDepth := 9) (implicitDefEqProofs := false) [finish, h]

@[simp] theorem beginDrain_xlatShaped (c : DrainCause) (s : State) (h : s.xlat.shaped) : (beginDrain c s).xlat.shaped := by
  unfold beginDrain
  (try dsimp only) <;> (repeat' split) <;> first | (simp (maxDischargeDepth := 9) (implicitDefEqProofs := false) [h]; done) | (simp_all (maxDischargeDepth := 9) (implicitDefEqProofs := false) [Translation.shaped]; done)

@[simp] theorem requestFault_xlatShaped (s : State) (h : s.xlat.shaped) : (requestFault s).xlat.shaped := by
  unfold requestFault
  (try dsimp only) <;> (repeat' split) <;> first | (simp (maxDischargeDepth := 9) (implicitDefEqProofs := false) [h]; done) | (simp_all (maxDischargeDepth := 9) (implicitDefEqProofs := false) [Translation.shaped]; done)

@[simp] theorem resetLineLow_xlatShaped (s : State) (h : s.xlat.shaped) : (resetLineLow s).xlat.shaped := by
  unfold resetLineLow
  (try dsimp only) <;> (repeat' split) <;> first | (simp (maxDischargeDepth := 9) (implicitDefEqProofs := false) [h]; done) | (simp_all (maxDischargeDepth := 9) (implicitDefEqProofs := false) [Translation.shaped]; done)

@[simp] theorem softResetActs_xlatShaped (s : State) (h : s.xlat.shaped) : (softResetActs s).xlat.shaped := by
  unfold softResetActs
  (try dsimp only) <;> (repeat' split) <;> first | (simp (maxDischargeDepth := 9) (implicitDefEqProofs := false) [h]; done) | (simp_all (maxDischargeDepth := 9) (implicitDefEqProofs := false) [Translation.shaped]; done)

@[simp] theorem strapCheck_xlatShaped (asz : BitVec 2) (s : State) (h : s.xlat.shaped) : (strapCheck asz s).xlat.shaped := by
  unfold strapCheck
  (try dsimp only) <;> (repeat' split) <;> first | (simp (maxDischargeDepth := 9) (implicitDefEqProofs := false) [h]; done) | (simp_all (maxDischargeDepth := 9) (implicitDefEqProofs := false) [Translation.shaped]; done)

@[simp] theorem readyWaitDone_xlatShaped (asz : BitVec 2) (s : State) (h : s.xlat.shaped) : (readyWaitDone asz s).xlat.shaped := by
  unfold readyWaitDone
  (try dsimp only) <;> (repeat' split) <;> first | (simp (maxDischargeDepth := 9) (implicitDefEqProofs := false) [h]; done) | (simp_all (maxDischargeDepth := 9) (implicitDefEqProofs := false) [Translation.shaped]; done)

@[simp] theorem applySelection_xlatShaped (sel : Selection) (s : State) (h : s.xlat.shaped) : (applySelection sel s).xlat.shaped := by
  unfold applySelection
  (try dsimp only) <;> (repeat' split) <;> first | (simp (maxDischargeDepth := 9) (implicitDefEqProofs := false) [h]; done) | (simp_all (maxDischargeDepth := 9) (implicitDefEqProofs := false) [Translation.shaped]; done)

@[simp] theorem selectActive_xlatShaped (s : State) (h : s.xlat.shaped) : (selectActive s).xlat.shaped := by
  unfold selectActive
  (try dsimp only) <;> (repeat' split) <;> first | (simp (maxDischargeDepth := 9) (implicitDefEqProofs := false) [h]; done) | (simp_all (maxDischargeDepth := 9) (implicitDefEqProofs := false) [Translation.shaped]; done)

@[simp] theorem configCopyRead_xlatShaped (st : ArrayStatus) (d : List Byte) (s : State) (h : s.xlat.shaped) : (configCopyRead st d s).xlat.shaped := by
  unfold configCopyRead
  (try dsimp only) <;> (repeat' split) <;> first | (simp (maxDischargeDepth := 9) (implicitDefEqProofs := false) [h]; done) | (simp_all (maxDischargeDepth := 9) (implicitDefEqProofs := false) [Translation.shaped]; done)

@[simp] theorem classifyAs_xlatShaped (p : Nat) (st : PageState) (s : State) (h : s.xlat.shaped) : (classifyAs p st s).xlat.shaped := by
  unfold classifyAs
  (try dsimp only) <;> (repeat' split) <;> first | (simp (maxDischargeDepth := 9) (implicitDefEqProofs := false) [h]; done) | (simp_all (maxDischargeDepth := 9) (implicitDefEqProofs := false) [Translation.shaped]; done)

@[simp] theorem nameCandidate_xlatShaped (x p : Nat) (q : Word32) (s : State) (h : s.xlat.shaped) : (nameCandidate x p q s).xlat.shaped := by
  unfold nameCandidate
  (try dsimp only) <;> (repeat' split) <;> first | (simp (maxDischargeDepth := 9) (implicitDefEqProofs := false) [h]; done) | (simp_all (maxDischargeDepth := 9) (implicitDefEqProofs := false) [Translation.shaped]; done)

@[simp] theorem resolveCandidate_xlatShaped (p x : Nat) (q : Word32) (s : State) (h : s.xlat.shaped) : (resolveCandidate p x q s).xlat.shaped := by
  unfold resolveCandidate
  (try dsimp only) <;> (repeat' split) <;> first | (simp (maxDischargeDepth := 9) (implicitDefEqProofs := false) [h]; done) | (simp_all (maxDischargeDepth := 9) (implicitDefEqProofs := false) [Translation.shaped]; done)

@[simp] theorem classifyPage_xlatShaped (p : Nat) (st : ArrayStatus) (spare : List Byte) (s : State) (h : s.xlat.shaped) : (classifyPage p st spare s).xlat.shaped := by
  unfold classifyPage
  (try dsimp only) <;> (repeat' split) <;> first | (simp (maxDischargeDepth := 9) (implicitDefEqProofs := false) [h]; done) | (simp_all (maxDischargeDepth := 9) (implicitDefEqProofs := false) [Translation.shaped]; done)

@[simp] theorem buildCollections_xlatShaped (s : State) (h : s.xlat.shaped) : (buildCollections s).xlat.shaped := by
  unfold buildCollections
  (try dsimp only) <;> (repeat' split) <;> first | (simp (maxDischargeDepth := 9) (implicitDefEqProofs := false) [h]; done) | (simp_all (maxDischargeDepth := 9) (implicitDefEqProofs := false) [Translation.shaped]; done)

@[simp] theorem mountExit_xlatShaped (s : State) (h : s.xlat.shaped) : (mountExit s).xlat.shaped := by
  unfold mountExit
  (try dsimp only) <;> (repeat' split) <;> first | (simp (maxDischargeDepth := 9) (implicitDefEqProofs := false) [h]; done) | (simp_all (maxDischargeDepth := 9) (implicitDefEqProofs := false) [Translation.shaped]; done)

@[simp] theorem advanceScan_xlatShaped (p : Nat) (s : State) (h : s.xlat.shaped) : (advanceScan p s).xlat.shaped := by
  unfold advanceScan
  (try dsimp only) <;> (repeat' split) <;> first | (simp (maxDischargeDepth := 9) (implicitDefEqProofs := false) [h]; done) | (simp_all (maxDischargeDepth := 9) (implicitDefEqProofs := false) [Translation.shaped]; done)

@[simp] theorem headerRead_xlatShaped (st : ArrayStatus) (spare : List Byte) (s : State) (h : s.xlat.shaped) : (headerRead st spare s).xlat.shaped := by
  unfold headerRead
  (try dsimp only) <;> (repeat' split) <;> first | (simp (maxDischargeDepth := 9) (implicitDefEqProofs := false) [h]; done) | (simp_all (maxDischargeDepth := 9) (implicitDefEqProofs := false) [Translation.shaped]; done)

@[simp] theorem mountFaultEnd_xlatShaped (s : State) (h : s.xlat.shaped) : (mountFaultEnd s).xlat.shaped := by
  unfold mountFaultEnd
  (try dsimp only) <;> (repeat' split) <;> first | (simp (maxDischargeDepth := 9) (implicitDefEqProofs := false) [h]; done) | (simp_all (maxDischargeDepth := 9) (implicitDefEqProofs := false) [Translation.shaped]; done)

@[simp] theorem doFlush_xlatShaped (s : State) (h : s.xlat.shaped) : (doFlush s).xlat.shaped := by
  unfold doFlush
  (try dsimp only) <;> (repeat' split) <;> first | (simp (maxDischargeDepth := 9) (implicitDefEqProofs := false) [h]; done) | (simp_all (maxDischargeDepth := 9) (implicitDefEqProofs := false) [Translation.shaped]; done)

@[simp] theorem doSoftReset_xlatShaped (s : State) (h : s.xlat.shaped) : (doSoftReset s).xlat.shaped := by
  unfold doSoftReset
  (try dsimp only) <;> (repeat' split) <;> first | (simp (maxDischargeDepth := 9) (implicitDefEqProofs := false) [h]; done) | (simp_all (maxDischargeDepth := 9) (implicitDefEqProofs := false) [Translation.shaped]; done)

@[simp] theorem act_xlatShaped (c : CommandName) (args : List Byte) (s : State) (h : s.xlat.shaped) :
    (c.act args s).xlat.shaped := by
  cases c <;> simp (maxDischargeDepth := 9) (implicitDefEqProofs := false) [CommandName.act, h]

@[simp] theorem decideCommand_xlatShaped (c : CommandName) (args : List Byte) (s : State) (h : s.xlat.shaped) :
    (decideCommand c args s).xlat.shaped := by
  unfold decideCommand
  (repeat' split) <;> simp (implicitDefEqProofs := false) [h]

@[simp] theorem decideFrame_xlatShaped (c : Option CommandName) (args : List Byte) (s : State) (h : s.xlat.shaped) : (decideFrame c args s).xlat.shaped := by
  unfold decideFrame
  (try dsimp only) <;> (repeat' split) <;> first | (simp (maxDischargeDepth := 9) (implicitDefEqProofs := false) [h]; done) | (simp_all (maxDischargeDepth := 9) (implicitDefEqProofs := false) [Translation.shaped]; done)

@[simp] theorem endFrame_xlatShaped (c : Option CommandName) (args : List Byte) (s : State) (h : s.xlat.shaped) : (endFrame c args s).xlat.shaped := by
  unfold endFrame
  (try dsimp only) <;> (repeat' split) <;> first | (simp (maxDischargeDepth := 9) (implicitDefEqProofs := false) [h]; done) | (simp_all (maxDischargeDepth := 9) (implicitDefEqProofs := false) [Translation.shaped]; done)

@[simp] theorem recover_xlatShaped (s : State) (h : s.xlat.shaped) : (recover s).xlat.shaped := by
  unfold recover
  (try dsimp only) <;> (repeat' split) <;> first | (simp (maxDischargeDepth := 9) (implicitDefEqProofs := false) [h]; done) | (simp_all (maxDischargeDepth := 9) (implicitDefEqProofs := false) [Translation.shaped]; done)

@[simp] theorem powerHigh_xlatShaped (s : State) (h : s.xlat.shaped) : (powerHigh s).xlat.shaped := by
  unfold powerHigh
  (try dsimp only) <;> (repeat' split) <;> first | (simp (maxDischargeDepth := 9) (implicitDefEqProofs := false) [h]; done) | (simp_all (maxDischargeDepth := 9) (implicitDefEqProofs := false) [Translation.shaped]; done)

@[simp] theorem qualified_xlatShaped (s : State) (h : s.xlat.shaped) : (qualified s).xlat.shaped := by
  unfold qualified
  (try dsimp only) <;> (repeat' split) <;> first | (simp (maxDischargeDepth := 9) (implicitDefEqProofs := false) [h]; done) | (simp_all (maxDischargeDepth := 9) (implicitDefEqProofs := false) [Translation.shaped]; done)

@[simp] theorem qualify_xlatShaped (s : State) (h : s.xlat.shaped) : (qualify s).xlat.shaped := by
  unfold qualify
  (try dsimp only) <;> (repeat' split) <;> first | (simp (maxDischargeDepth := 9) (implicitDefEqProofs := false) [h]; done) | (simp_all (maxDischargeDepth := 9) (implicitDefEqProofs := false) [Translation.shaped]; done)

@[simp] theorem resetEdge_xlatShaped (s : State) (h : s.xlat.shaped) : (resetEdge s).xlat.shaped := by
  unfold resetEdge
  (try dsimp only) <;> (repeat' split) <;> first | (simp (maxDischargeDepth := 9) (implicitDefEqProofs := false) [h]; done) | (simp_all (maxDischargeDepth := 9) (implicitDefEqProofs := false) [Translation.shaped]; done)

@[simp] theorem resetRise_xlatShaped (s : State) (h : s.xlat.shaped) : (resetRise s).xlat.shaped := by
  unfold resetRise
  (try dsimp only) <;> (repeat' split) <;> first | (simp (maxDischargeDepth := 9) (implicitDefEqProofs := false) [h]; done) | (simp_all (maxDischargeDepth := 9) (implicitDefEqProofs := false) [Translation.shaped]; done)

@[simp] theorem powerUp_xlatShaped (s : State) (h : s.xlat.shaped) : (powerUp s).xlat.shaped := by
  unfold powerUp
  simp (maxDischargeDepth := 9) (implicitDefEqProofs := false) [h]

@[simp] theorem resetExpiry_xlatShaped (s : State) (h : s.xlat.shaped) : (resetExpiry s).xlat.shaped := by
  unfold resetExpiry
  (try dsimp only) <;> (repeat' split) <;> first | (simp (maxDischargeDepth := 9) (implicitDefEqProofs := false) [h]; done) | (simp_all (maxDischargeDepth := 9) (implicitDefEqProofs := false) [Translation.shaped]; done)

@[simp] theorem slotExpiry_xlatShaped (i : Nat) (s : State) (h : s.xlat.shaped) : (slotExpiry i s).xlat.shaped := by
  unfold slotExpiry
  (try dsimp only) <;> (repeat' split) <;> first | (simp (maxDischargeDepth := 9) (implicitDefEqProofs := false) [h]; done) | (simp_all (maxDischargeDepth := 9) (implicitDefEqProofs := false) [Translation.shaped]; done)

@[simp] theorem endMerge_xlatShaped (i p : Nat) (sl : Slot) (s : State) (h : s.xlat.shaped) : (endMerge i p sl s).xlat.shaped := by
  unfold endMerge
  (try dsimp only) <;> (repeat' split) <;> first | (simp (maxDischargeDepth := 9) (implicitDefEqProofs := false) [h]; done) | (simp_all (maxDischargeDepth := 9) (implicitDefEqProofs := false) [Translation.shaped]; done)

@[simp] theorem mergeDone_xlatShaped (i p : Nat) (st : ArrayStatus) (d sp : List Byte) (s : State) (h : s.xlat.shaped) : (mergeDone i p st d sp s).xlat.shaped := by
  unfold mergeDone
  (try dsimp only) <;> (repeat' split) <;> first | (simp (maxDischargeDepth := 9) (implicitDefEqProofs := false) [h]; done) | (simp_all (maxDischargeDepth := 9) (implicitDefEqProofs := false) [Translation.shaped]; done)

@[simp] theorem demandSuccess_xlatShaped (p : Nat) (d : List Byte) (s : State) (h : s.xlat.shaped) :
    (demandSuccess p d s).xlat.shaped := by
  unfold demandSuccess
  simp (implicitDefEqProofs := false) [foldReads_keeps (fun _ => .ok) (fun r => fillRecord r.first d r.bytes), h]

@[simp] theorem demandFailure_xlatShaped (p : Nat) (s : State) (h : s.xlat.shaped) : (demandFailure p s).xlat.shaped := by
  unfold demandFailure
  simp (implicitDefEqProofs := false) [foldReads_keeps (fun _ => .fail .media) (fun _ => []), h]

@[simp] theorem demandDone_xlatShaped (p : Nat) (st : ArrayStatus) (d sp : List Byte) (s : State) (h : s.xlat.shaped) : (demandDone p st d sp s).xlat.shaped := by
  unfold demandDone
  (try dsimp only) <;> (repeat' split) <;> first | (simp (maxDischargeDepth := 9) (implicitDefEqProofs := false) [h]; done) | (simp_all (maxDischargeDepth := 9) (implicitDefEqProofs := false) [Translation.shaped]; done)

@[simp] theorem programDone_xlatShaped (st : ArrayStatus) (s : State) (h : s.xlat.shaped) : (programDone st s).xlat.shaped := by
  unfold programDone
  (try dsimp only) <;> (repeat' split) <;> first | (simp (maxDischargeDepth := 9) (implicitDefEqProofs := false) [h]; done) | (simp_all (maxDischargeDepth := 9) (implicitDefEqProofs := false) [Translation.shaped]; done)

@[simp] theorem commitMarkDone_xlatShaped (st : ArrayStatus) (s : State) (h : s.xlat.shaped) : (commitMarkDone st s).xlat.shaped := by
  unfold commitMarkDone
  (try dsimp only) <;> (repeat' split) <;> first | (simp (maxDischargeDepth := 9) (implicitDefEqProofs := false) [h]; done) | (simp_all (maxDischargeDepth := 9) (implicitDefEqProofs := false) [Translation.shaped]; done)

@[simp] theorem setErasePhase_xlatShaped (ph : ErasePhase) (s : State) (h : s.xlat.shaped) : (setErasePhase ph s).xlat.shaped := by
  unfold setErasePhase
  (try dsimp only) <;> (repeat' split) <;> first | (simp (maxDischargeDepth := 9) (implicitDefEqProofs := false) [h]; done) | (simp_all (maxDischargeDepth := 9) (implicitDefEqProofs := false) [Translation.shaped]; done)

@[simp] theorem eraseDone_xlatShaped (st : ArrayStatus) (s : State) (h : s.xlat.shaped) : (eraseDone st s).xlat.shaped := by
  unfold eraseDone
  (try dsimp only) <;> (repeat' split) <;> first | (simp (maxDischargeDepth := 9) (implicitDefEqProofs := false) [h]; done) | (simp_all (maxDischargeDepth := 9) (implicitDefEqProofs := false) [Translation.shaped]; done)

@[simp] theorem joinFreePool_xlatShaped (p : Nat) (s : State) (h : s.xlat.shaped) : (joinFreePool p s).xlat.shaped := by
  unfold joinFreePool
  (try dsimp only) <;> (repeat' split) <;> first | (simp (maxDischargeDepth := 9) (implicitDefEqProofs := false) [h]; done) | (simp_all (maxDischargeDepth := 9) (implicitDefEqProofs := false) [Translation.shaped]; done)

@[simp] theorem cleanMarkDone_xlatShaped (st : ArrayStatus) (s : State) (h : s.xlat.shaped) : (cleanMarkDone st s).xlat.shaped := by
  unfold cleanMarkDone
  (try dsimp only) <;> (repeat' split) <;> first | (simp (maxDischargeDepth := 9) (implicitDefEqProofs := false) [h]; done) | (simp_all (maxDischargeDepth := 9) (implicitDefEqProofs := false) [Translation.shaped]; done)

@[simp] theorem timeoutTwice_xlatShaped (s : State) (h : s.xlat.shaped) : (timeoutTwice s).xlat.shaped := by
  unfold timeoutTwice
  (try dsimp only) <;> (repeat' split) <;> first | (simp (maxDischargeDepth := 9) (implicitDefEqProofs := false) [h]; done) | (simp_all (maxDischargeDepth := 9) (implicitDefEqProofs := false) [Translation.shaped]; done)

end

section
/-! ## port -/

/-- At most eight entries, no two with one tag. -/
def tableShaped (t : List Entry) : Prop := t.length ≤ 8 ∧ (t.map (fun e => e.request.tag)).Nodup

@[simp] theorem port_mk_shaped (t : List Entry) (ro : List Nat) (a : Option Nat) (c : Channel) (q : List (List Byte)) :
    Port.shaped { table := t, readyOrder := ro, againOwed := a, channel := c, linkQueue := q } ↔ tableShaped t := Iff.rfl

@[simp] theorem port_table_shaped (p : Port) (h : p.shaped) : tableShaped p.table := h

theorem tableShaped_map (f : Entry → Entry) (hf : ∀ e, (f e).request.tag = e.request.tag) (t : List Entry)
    (h : tableShaped t) : tableShaped (t.map f) := by
  refine ⟨by simpa using h.1, ?_⟩
  have e : ((t.map f).map (fun e => e.request.tag)) = t.map (fun e => e.request.tag) := by simp [hf]
  rw [e]
  exact h.2

@[simp] theorem setPhase_shaped (tag : Nat) (ph : EntryPhase) (t : List Entry) (h : tableShaped t) :
    tableShaped (setPhase tag ph t) :=
  tableShaped_map _ (fun e => by split <;> rfl) t h

theorem tableShaped_filter (p : Entry → Bool) (t : List Entry) (h : tableShaped t) : tableShaped (t.filter p) :=
  ⟨Nat.le_trans (List.length_filter_le _ _) h.1, List.Nodup.sublist (List.Sublist.map _ List.filter_sublist) h.2⟩


@[simp] theorem beginSending_portShaped (s : State) (h : s.port.shaped) : (beginSending s).port.shaped := by
  unfold beginSending
  (try dsimp only) <;> (repeat' split) <;> first | (simp (maxDischargeDepth := 9) (implicitDefEqProofs := false) [h]; done) | (simp_all (maxDischargeDepth := 9) (implicitDefEqProofs := false) [Port.shaped]; done)

@[simp] theorem becomeReady_portShaped (tag : Nat) (st : ResponseStatus) (d : List Byte) (s : State) (h : s.port.shaped) : (becomeReady tag st d s).port.shaped := by
  unfold becomeReady
  (try dsimp only) <;> (repeat' split) <;> first | (simp (maxDischargeDepth := 9) (implicitDefEqProofs := false) [h]; done) | (simp_all (maxDischargeDepth := 9) (implicitDefEqProofs := false) [Port.shaped]; done)

@[simp] theorem becomeWaiting_portShaped (tag : Nat) (s : State) (h : s.port.shaped) : (becomeWaiting tag s).port.shaped := by
  unfold becomeWaiting
  (try dsimp only) <;> (repeat' split) <;> first | (simp (maxDischargeDepth := 9) (implicitDefEqProofs := false) [h]; done) | (simp_all (maxDischargeDepth := 9) (implicitDefEqProofs := false) [Port.shaped]; done)

@[simp] theorem setJudged_portShaped (tag : Nat) (s : State) (h : s.port.shaped) : (setJudged tag s).port.shaped :=
  tableShaped_map _ (fun e => by split <;> rfl) _ h

@[simp] theorem resetBlocks_portShaped (c : ResetCause) (o : DrainOutcome) (s : State) : (resetBlocks c o s).port.shaped :=
  ⟨Nat.zero_le 8, List.nodup_nil⟩

@[simp] theorem resetCompletion_portShaped (c : ResetCause) (o : DrainOutcome) (s : State) (h : s.port.shaped) : (resetCompletion c o s).port.shaped := by
  unfold resetCompletion
  (try dsimp only) <;> (repeat' split) <;> first | (simp (maxDischargeDepth := 9) (implicitDefEqProofs := false) [h]; done) | (simp_all (maxDischargeDepth := 9) (implicitDefEqProofs := false) [Port.shaped]; done)

@[simp] theorem drainEnd_portShaped (s : State) (h : s.port.shaped) : (drainEnd s).port.shaped := by
  unfold drainEnd
  (try dsimp only) <;> (repeat' split) <;> first | (simp (maxDischargeDepth := 9) (implicitDefEqProofs := false) [h]; done) | (simp_all (maxDischargeDepth := 9) (implicitDefEqProofs := false) [Port.shaped]; done)

@[simp] theorem answerPersists_portShaped (st : ResponseStatus) (bs : List Barrier) (s : State) (h : s.port.shaped) :
    (answerPersists st bs s).port.shaped := by
  unfold answerPersists
  induction bs generalizing s with
  | nil => exact h
  | cons b bs ih => exact ih _ (by simp (implicitDefEqProofs := false) [h])

@[simp] theorem commitBarriers_portShaped (i : Nat) (inc : Byte) (s : State) (h : s.port.shaped) : (commitBarriers i inc s).port.shaped := by
  unfold commitBarriers
  (try dsimp only) <;> (repeat' split) <;> first | (simp (maxDischargeDepth := 9) (implicitDefEqProofs := false) [h]; done) | (simp_all (maxDischargeDepth := 9) (implicitDefEqProofs := false) [Port.shaped]; done)

@[simp] theorem loseBarriers_portShaped (i : Nat) (inc : Byte) (s : State) (h : s.port.shaped) : (loseBarriers i inc s).port.shaped := by
  unfold loseBarriers
  (try dsimp only) <;> (repeat' split) <;> first | (simp (maxDischargeDepth := 9) (implicitDefEqProofs := false) [h]; done) | (simp_all (maxDischargeDepth := 9) (implicitDefEqProofs := false) [Port.shaped]; done)

@[simp] theorem becomeHeld_portShaped (i : Nat) (r : HoldReason) (s : State) (h : s.port.shaped) : (becomeHeld i r s).port.shaped := by
  unfold becomeHeld
  (try dsimp only) <;> (repeat' split) <;> first | (simp (maxDischargeDepth := 9) (implicitDefEqProofs := false) [h]; done) | (simp_all (maxDischargeDepth := 9) (implicitDefEqProofs := false) [Port.shaped]; done)

@[simp] theorem holdSealed_portShaped (i : Nat) (s : State) (h : s.port.shaped) : (holdSealed i s).port.shaped := by
  unfold holdSealed
  (try dsimp only) <;> (repeat' split) <;> first | (simp (maxDischargeDepth := 9) (implicitDefEqProofs := false) [h]; done) | (simp_all (maxDischargeDepth := 9) (implicitDefEqProofs := false) [Port.shaped]; done)

@[simp] theorem holdWriting_portShaped (i : Nat) (r : HoldReason) (s : State) (h : s.port.shaped) : (holdWriting i r s).port.shaped := by
  unfold holdWriting
  (try dsimp only) <;> (repeat' split) <;> first | (simp (maxDischargeDepth := 9) (implicitDefEqProofs := false) [h]; done) | (simp_all (maxDischargeDepth := 9) (implicitDefEqProofs := false) [Port.shaped]; done)

@[simp] theorem takeSlot_portShaped (i : Nat) (s : State) (h : s.port.shaped) : (takeSlot i s).port.shaped := by
  unfold takeSlot
  (try dsimp only) <;> (repeat' split) <;> first | (simp (maxDischargeDepth := 9) (implicitDefEqProofs := false) [h]; done) | (simp_all (maxDischargeDepth := 9) (implicitDefEqProofs := false) [Port.shaped]; done)

@[simp] theorem retryWriteBack_portShaped (i : Nat) (s : State) (h : s.port.shaped) : (retryWriteBack i s).port.shaped := by
  unfold retryWriteBack
  (try dsimp only) <;> (repeat' split) <;> first | (simp (maxDischargeDepth := 9) (implicitDefEqProofs := false) [h]; done) | (simp_all (maxDischargeDepth := 9) (implicitDefEqProofs := false) [Port.shaped]; done)

@[simp] theorem attemptFailed_portShaped (i : Nat) (s : State) (h : s.port.shaped) : (attemptFailed i s).port.shaped := by
  unfold attemptFailed
  (try dsimp only) <;> (repeat' split) <;> first | (simp (maxDischargeDepth := 9) (implicitDefEqProofs := false) [h]; done) | (simp_all (maxDischargeDepth := 9) (implicitDefEqProofs := false) [Port.shaped]; done)

@[simp] theorem commitSlot_portShaped (i : Nat) (s : State) (h : s.port.shaped) : (commitSlot i s).port.shaped := by
  unfold commitSlot
  (try dsimp only) <;> (repeat' split) <;> first | (simp (maxDischargeDepth := 9) (implicitDefEqProofs := false) [h]; done) | (simp_all (maxDischargeDepth := 9) (implicitDefEqProofs := false) [Port.shaped]; done)

@[simp] theorem settle_portShaped (s : State) (h : s.port.shaped) : (settle s).port.shaped :=
  settle_induct (Q := fun s => s.port.shaped) (fun s t ht h => by
    rcases reexamine_cases s t ht with ⟨_, _, rfl⟩ | ⟨i, _, _, rfl⟩ | ⟨i, _, _, _, rfl⟩ | ⟨i, _, _, rfl⟩ | ⟨p, _, rfl⟩ <;>
      simp (implicitDefEqProofs := false) [h]) s h

@[simp] theorem sealAllOpen_portShaped (s : State) (h : s.port.shaped) : (sealAllOpen s).port.shaped :=
  sealAllOpen_induct (Q := fun s => s.port.shaped) (fun s i _ h => by simp (implicitDefEqProofs := false) [h]) (fun s i _ h => by simp (implicitDefEqProofs := false) [h]) s h

@[simp] theorem serveWrite_portShaped (r : Request) (s : State) (h : s.port.shaped) : (serveWrite r s).port.shaped := by
  unfold serveWrite
  split
  · rename_i i t ht
    unfold State.writeSlot at ht
    split at ht
    · cases ht; simp (implicitDefEqProofs := false) [h]
    · split at ht
      · cases ht; simp (maxDischargeDepth := 9) (implicitDefEqProofs := false) [h]
      · contradiction
  · simp (implicitDefEqProofs := false) [h]

@[simp] theorem serveRead_portShaped (r : Request) (s : State) (h : s.port.shaped) : (serveRead r s).port.shaped := by
  unfold serveRead
  (try dsimp only) <;> (repeat' split) <;> first | (simp (maxDischargeDepth := 9) (implicitDefEqProofs := false) [h]; done) | (simp_all (maxDischargeDepth := 9) (implicitDefEqProofs := false) [Port.shaped]; done)

@[simp] theorem servePersist_portShaped (r : Request) (s : State) (h : s.port.shaped) : (servePersist r s).port.shaped := by
  unfold servePersist
  (try dsimp only) <;> (repeat' split) <;> first | (simp (maxDischargeDepth := 9) (implicitDefEqProofs := false) [h]; done) | (simp_all (maxDischargeDepth := 9) (implicitDefEqProofs := false) [Port.shaped]; done)

@[simp] theorem serve_portShaped (r : Request) (s : State) (h : s.port.shaped) : (serve r s).port.shaped := by
  unfold serve
  (try dsimp only) <;> (repeat' split) <;> first | (simp (maxDischargeDepth := 9) (implicitDefEqProofs := false) [h]; done) | (simp_all (maxDischargeDepth := 9) (implicitDefEqProofs := false) [Port.shaped]; done)

@[simp] theorem refuseByState_portShaped (e : Entry) (f : FailReason) (s : State) (h : s.port.shaped) : (refuseByState e f s).port.shaped := by
  unfold refuseByState
  (try dsimp only) <;> (repeat' split) <;> first | (simp (maxDischargeDepth := 9) (implicitDefEqProofs := false) [h]; done) | (simp_all (maxDischargeDepth := 9) (implicitDefEqProofs := false) [Port.shaped]; done)

@[simp] theorem placeUnjudged_portShaped (r : Request) (s : State) (h : s.port.shaped) : (placeUnjudged r s).port.shaped := by
  unfold placeUnjudged
  (try dsimp only) <;> (repeat' split) <;> first | (simp (maxDischargeDepth := 9) (implicitDefEqProofs := false) [h]; done) | (simp_all (maxDischargeDepth := 9) (implicitDefEqProofs := false) [Port.shaped]; done)

@[simp] theorem placeHead_portShaped (e : Entry) (s : State) (h : s.port.shaped) : (placeHead e s).port.shaped := by
  unfold placeHead
  (try dsimp only) <;> (repeat' split) <;> first | (simp (maxDischargeDepth := 9) (implicitDefEqProofs := false) [h]; done) | (simp_all (maxDischargeDepth := 9) (implicitDefEqProofs := false) [Port.shaped]; done)

@[simp] theorem placements_portShaped (a s : State) (h : s.port.shaped) : (placements a s).port.shaped :=
  placements_induct (Q := fun s => s.port.shaped) (fun s e _ h => by simp (implicitDefEqProofs := false) [h]) (fun s h => by simp (implicitDefEqProofs := false) [h]) a s h

@[simp] theorem oweAgain_portShaped (tag : Nat) (s : State) (h : s.port.shaped) : (oweAgain tag s).port.shaped := by
  unfold oweAgain
  (try dsimp only) <;> (repeat' split) <;> first | (simp (maxDischargeDepth := 9) (implicitDefEqProofs := false) [h]; done) | (simp_all (maxDischargeDepth := 9) (implicitDefEqProofs := false) [Port.shaped]; done)

/-- A request is taken where the table has room and the tag is new. -/
theorem takeRequest_portShaped (r : Request) (s : State) (h : s.port.shaped) (hl : s.port.table.length < 8)
    (ht : ∀ e ∈ s.port.table, e.request.tag ≠ r.tag) : (takeRequest r s).port.shaped := by
  refine ⟨by simp only [takeRequest, State.setPort_port, List.length_append, List.length_cons, List.length_nil]; omega, ?_⟩
  simp only [takeRequest, State.setPort_port, List.map_append, List.map_cons, List.map_nil]
  refine List.nodup_append.2 ⟨h.2, by simp, fun a ha b hb => ?_⟩
  simp only [List.mem_singleton] at hb
  obtain ⟨e, he, rfl⟩ := List.mem_map.1 ha
  rw [hb]
  exact ht e he

@[simp] theorem arrive_portShaped (record : List Byte) (s : State) (h : s.port.shaped) : (arrive record s).port.shaped := by
  unfold arrive
  split
  · simp [h]
  · rename_i r _
    split
    · simp [h]
    · rename_i hd
      split
      · simp [h]
      · rename_i hf
        apply placements_portShaped
        simp only [not_or, Config.tableSize] at hf
        refine takeRequest_portShaped r s h (by omega) (fun e he hc => hd ?_)
        simp only [List.any_eq_true, decide_eq_true_eq]
        exact ⟨e, he, hc⟩

@[simp] theorem setLinkQueue_portShaped (q : List (List Byte)) (s : State) (h : s.port.shaped) : (setLinkQueue q s).port.shaped := by
  unfold setLinkQueue
  (try dsimp only) <;> (repeat' split) <;> first | (simp (maxDischargeDepth := 9) (implicitDefEqProofs := false) [h]; done) | (simp_all (maxDischargeDepth := 9) (implicitDefEqProofs := false) [Port.shaped]; done)

@[simp] theorem arriveWaiting_portShaped (q : List (List Byte)) (s : State) (h : s.port.shaped) : (arriveWaiting q s).port.shaped :=
  arriveWaiting_induct (Q := fun s => s.port.shaped) (fun s b _ h => by simp (implicitDefEqProofs := false) [h]) (fun s q h => by simp (implicitDefEqProofs := false) [h]) q s h

@[simp] theorem presentRecord_portShaped (record : List Byte) (s : State) (h : s.port.shaped) : (presentRecord record s).port.shaped := by
  unfold presentRecord
  (try dsimp only) <;> (repeat' split) <;> first | (simp (maxDischargeDepth := 9) (implicitDefEqProofs := false) [h]; done) | (simp_all (maxDischargeDepth := 9) (implicitDefEqProofs := false) [Port.shaped]; done)

@[simp] theorem finish_portShaped (a s : State) (h : s.port.shaped) : (finish a s).port.shaped := by
  simp (maxDischargeDepth := 9) (implicitDefEqProofs := false) [finish, h]

@[simp] theorem beginDrain_portShaped (c : DrainCause) (s : State) (h : s.port.shaped) : (beginDrain c s).port.shaped := by
  unfold beginDrain
  (try dsimp only) <;> (repeat' split) <;> first | (simp (maxDischargeDepth := 9) (implicitDefEqProofs := false) [h]; done) | (simp_all (maxDischargeDepth := 9) (implicitDefEqProofs := false) [Port.shaped]; done)

theorem foldReads_portShaped (st : PendingRead → ResponseStatus) (d : PendingRead → List Byte) (rs : List PendingRead) :
    ∀ s : State, s.port.shaped → (rs.foldl (fun t r => becomeReady r.tag (st r) (d r) t) s).port.shaped := by
  induction rs with
  | nil => intro s h; exact h
  | cons r rs ih => intro s h; exact ih _ (by simp (implicitDefEqProofs := false) [h])

@[simp] theorem faultReads_portShaped (s : State) (h : s.port.shaped) : (faultReads s).port.shaped := by
  unfold faultReads
  exact foldReads_portShaped (fun _ => .fail .fault) (fun _ => []) _ _ (by simp (implicitDefEqProofs := false) [h])

@[simp] theorem faultBarriers_portShaped (s : State) (h : s.port.shaped) : (faultBarriers s).port.shaped := by
  unfold faultBarriers
  (try dsimp only) <;> (repeat' split) <;> first | (simp (maxDischargeDepth := 9) (implicitDefEqProofs := false) [h]; done) | (simp_all (maxDischargeDepth := 9) (implicitDefEqProofs := false) [Port.shaped]; done)

@[simp] theorem requestFault_portShaped (s : State) (h : s.port.shaped) : (requestFault s).port.shaped := by
  unfold requestFault
  (try dsimp only) <;> (repeat' split) <;> first | (simp (maxDischargeDepth := 9) (implicitDefEqProofs := false) [h]; done) | (simp_all (maxDischargeDepth := 9) (implicitDefEqProofs := false) [Port.shaped]; done)

@[simp] theorem resetLineLow_portShaped (s : State) (h : s.port.shaped) : (resetLineLow s).port.shaped := by
  unfold resetLineLow
  (try dsimp only) <;> (repeat' split) <;> first | (simp (maxDischargeDepth := 9) (implicitDefEqProofs := false) [h]; done) | (simp_all (maxDischargeDepth := 9) (implicitDefEqProofs := false) [Port.shaped]; done)

@[simp] theorem softResetActs_portShaped (s : State) (h : s.port.shaped) : (softResetActs s).port.shaped := by
  unfold softResetActs
  (try dsimp only) <;> (repeat' split) <;> first | (simp (maxDischargeDepth := 9) (implicitDefEqProofs := false) [h]; done) | (simp_all (maxDischargeDepth := 9) (implicitDefEqProofs := false) [Port.shaped]; done)

@[simp] theorem strapCheck_portShaped (asz : BitVec 2) (s : State) (h : s.port.shaped) : (strapCheck asz s).port.shaped := by
  unfold strapCheck
  (try dsimp only) <;> (repeat' split) <;> first | (simp (maxDischargeDepth := 9) (implicitDefEqProofs := false) [h]; done) | (simp_all (maxDischargeDepth := 9) (implicitDefEqProofs := false) [Port.shaped]; done)

@[simp] theorem readyWaitDone_portShaped (asz : BitVec 2) (s : State) (h : s.port.shaped) : (readyWaitDone asz s).port.shaped := by
  unfold readyWaitDone
  (try dsimp only) <;> (repeat' split) <;> first | (simp (maxDischargeDepth := 9) (implicitDefEqProofs := false) [h]; done) | (simp_all (maxDischargeDepth := 9) (implicitDefEqProofs := false) [Port.shaped]; done)

@[simp] theorem doFlush_portShaped (s : State) (h : s.port.shaped) : (doFlush s).port.shaped := by
  unfold doFlush
  (try dsimp only) <;> (repeat' split) <;> first | (simp (maxDischargeDepth := 9) (implicitDefEqProofs := false) [h]; done) | (simp_all (maxDischargeDepth := 9) (implicitDefEqProofs := false) [Port.shaped]; done)

@[simp] theorem doSoftReset_portShaped (s : State) (h : s.port.shaped) : (doSoftReset s).port.shaped := by
  unfold doSoftReset
  (try dsimp only) <;> (repeat' split) <;> first | (simp (maxDischargeDepth := 9) (implicitDefEqProofs := false) [h]; done) | (simp_all (maxDischargeDepth := 9) (implicitDefEqProofs := false) [Port.shaped]; done)

@[simp] theorem act_portShaped (c : CommandName) (args : List Byte) (s : State) (h : s.port.shaped) :
    (c.act args s).port.shaped := by
  cases c <;> simp (maxDischargeDepth := 9) (implicitDefEqProofs := false) [CommandName.act, h]

@[simp] theorem decideCommand_portShaped (c : CommandName) (args : List Byte) (s : State) (h : s.port.shaped) :
    (decideCommand c args s).port.shaped := by
  unfold decideCommand
  (repeat' split) <;> simp (implicitDefEqProofs := false) [h]

@[simp] theorem decideFrame_portShaped (c : Option CommandName) (args : List Byte) (s : State) (h : s.port.shaped) : (decideFrame c args s).port.shaped := by
  unfold decideFrame
  (try dsimp only) <;> (repeat' split) <;> first | (simp (maxDischargeDepth := 9) (implicitDefEqProofs := false) [h]; done) | (simp_all (maxDischargeDepth := 9) (implicitDefEqProofs := false) [Port.shaped]; done)

@[simp] theorem endFrame_portShaped (c : Option CommandName) (args : List Byte) (s : State) (h : s.port.shaped) : (endFrame c args s).port.shaped := by
  unfold endFrame
  (try dsimp only) <;> (repeat' split) <;> first | (simp (maxDischargeDepth := 9) (implicitDefEqProofs := false) [h]; done) | (simp_all (maxDischargeDepth := 9) (implicitDefEqProofs := false) [Port.shaped]; done)

@[simp] theorem recover_portShaped (s : State) (h : s.port.shaped) : (recover s).port.shaped := by
  unfold recover
  (try dsimp only) <;> (repeat' split) <;> first | (simp (maxDischargeDepth := 9) (implicitDefEqProofs := false) [h]; done) | (simp_all (maxDischargeDepth := 9) (implicitDefEqProofs := false) [Port.shaped]; done)

@[simp] theorem powerHigh_portShaped (s : State) (h : s.port.shaped) : (powerHigh s).port.shaped := by
  unfold powerHigh
  (try dsimp only) <;> (repeat' split) <;> first | (simp (maxDischargeDepth := 9) (implicitDefEqProofs := false) [h]; done) | (simp_all (maxDischargeDepth := 9) (implicitDefEqProofs := false) [Port.shaped]; done)

@[simp] theorem qualified_portShaped (s : State) (h : s.port.shaped) : (qualified s).port.shaped := by
  unfold qualified
  (try dsimp only) <;> (repeat' split) <;> first | (simp (maxDischargeDepth := 9) (implicitDefEqProofs := false) [h]; done) | (simp_all (maxDischargeDepth := 9) (implicitDefEqProofs := false) [Port.shaped]; done)

@[simp] theorem qualify_portShaped (s : State) (h : s.port.shaped) : (qualify s).port.shaped := by
  unfold qualify
  (try dsimp only) <;> (repeat' split) <;> first | (simp (maxDischargeDepth := 9) (implicitDefEqProofs := false) [h]; done) | (simp_all (maxDischargeDepth := 9) (implicitDefEqProofs := false) [Port.shaped]; done)

@[simp] theorem resetEdge_portShaped (s : State) (h : s.port.shaped) : (resetEdge s).port.shaped := by
  unfold resetEdge
  (try dsimp only) <;> (repeat' split) <;> first | (simp (maxDischargeDepth := 9) (implicitDefEqProofs := false) [h]; done) | (simp_all (maxDischargeDepth := 9) (implicitDefEqProofs := false) [Port.shaped]; done)

@[simp] theorem resetRise_portShaped (s : State) (h : s.port.shaped) : (resetRise s).port.shaped := by
  unfold resetRise
  (try dsimp only) <;> (repeat' split) <;> first | (simp (maxDischargeDepth := 9) (implicitDefEqProofs := false) [h]; done) | (simp_all (maxDischargeDepth := 9) (implicitDefEqProofs := false) [Port.shaped]; done)

@[simp] theorem powerUp_portShaped (s : State) (h : s.port.shaped) : (powerUp s).port.shaped := by
  unfold powerUp
  simp (maxDischargeDepth := 9) (implicitDefEqProofs := false) [h]

@[simp] theorem resetExpiry_portShaped (s : State) (h : s.port.shaped) : (resetExpiry s).port.shaped := by
  unfold resetExpiry
  (try dsimp only) <;> (repeat' split) <;> first | (simp (maxDischargeDepth := 9) (implicitDefEqProofs := false) [h]; done) | (simp_all (maxDischargeDepth := 9) (implicitDefEqProofs := false) [Port.shaped]; done)

@[simp] theorem slotExpiry_portShaped (i : Nat) (s : State) (h : s.port.shaped) : (slotExpiry i s).port.shaped := by
  unfold slotExpiry
  (try dsimp only) <;> (repeat' split) <;> first | (simp (maxDischargeDepth := 9) (implicitDefEqProofs := false) [h]; done) | (simp_all (maxDischargeDepth := 9) (implicitDefEqProofs := false) [Port.shaped]; done)

@[simp] theorem demandSuccess_portShaped (p : Nat) (d : List Byte) (s : State) (h : s.port.shaped) :
    (demandSuccess p d s).port.shaped := by
  unfold demandSuccess
  have g := foldReads_portShaped (fun _ => .ok) (fun r => fillRecord r.first d r.bytes) (s.attached p) (endDemand p s) (by simp (implicitDefEqProofs := false) [h])
  simp [g]

@[simp] theorem demandFailure_portShaped (p : Nat) (s : State) (h : s.port.shaped) : (demandFailure p s).port.shaped := by
  unfold demandFailure
  have g := foldReads_portShaped (fun _ => .fail .media) (fun _ => []) (s.attached p) (endDemand p s) (by simp (implicitDefEqProofs := false) [h])
  simp [g]

@[simp] theorem demandDone_portShaped (p : Nat) (st : ArrayStatus) (d sp : List Byte) (s : State) (h : s.port.shaped) : (demandDone p st d sp s).port.shaped := by
  unfold demandDone
  (try dsimp only) <;> (repeat' split) <;> first | (simp (maxDischargeDepth := 9) (implicitDefEqProofs := false) [h]; done) | (simp_all (maxDischargeDepth := 9) (implicitDefEqProofs := false) [Port.shaped]; done)

@[simp] theorem programDone_portShaped (st : ArrayStatus) (s : State) (h : s.port.shaped) : (programDone st s).port.shaped := by
  unfold programDone
  (try dsimp only) <;> (repeat' split) <;> first | (simp (maxDischargeDepth := 9) (implicitDefEqProofs := false) [h]; done) | (simp_all (maxDischargeDepth := 9) (implicitDefEqProofs := false) [Port.shaped]; done)

@[simp] theorem commitMarkDone_portShaped (st : ArrayStatus) (s : State) (h : s.port.shaped) : (commitMarkDone st s).port.shaped := by
  unfold commitMarkDone
  (try dsimp only) <;> (repeat' split) <;> first | (simp (maxDischargeDepth := 9) (implicitDefEqProofs := false) [h]; done) | (simp_all (maxDischargeDepth := 9) (implicitDefEqProofs := false) [Port.shaped]; done)

@[simp] theorem timeoutTwice_portShaped (s : State) (h : s.port.shaped) : (timeoutTwice s).port.shaped := by
  unfold timeoutTwice
  (try dsimp only) <;> (repeat' split) <;> first | (simp (maxDischargeDepth := 9) (implicitDefEqProofs := false) [h]; done) | (simp_all (maxDischargeDepth := 9) (implicitDefEqProofs := false) [Port.shaped]; done)

@[simp] theorem acceptResponse_portShaped (s : State) (h : s.port.shaped) : (acceptResponse s).port.shaped := by
  unfold acceptResponse
  split
  · exact h
  · simp (maxDischargeDepth := 9) (implicitDefEqProofs := false) [h]
  · have g := tableShaped_filter (fun e => decide (e.request.tag ≠ ‹Nat›)) s.port.table h
    apply beginSending_portShaped
    exact g

end

section
/-! ## mount -/

@[simp] theorem mount_mk_shaped (ph : MountPhase) (n : Nat) (a b : CopyResult) (c : Option Nat) (l : Word32)
    (sz : Option Nat) (ws : List Window) (nm : List (Nat × Word32)) :
    Mount.shaped { phase := ph, readNumber := n, copyA := a, copyB := b, cursor := c, largest := l, arraySize := sz,
                   windows := ws, named := nm } ↔ a.shaped ∧ b.shaped ∧ (ph = .scan → ws.length = 8) := Iff.rfl

@[simp] theorem mount_copyA_shaped (m : Mount) (h : m.shaped) : m.copyA.shaped := h.1
@[simp] theorem mount_copyB_shaped (m : Mount) (h : m.shaped) : m.copyB.shaped := h.2.1

theorem fieldsOr_inRange (n : Nat) (r : List Byte) : (fieldsOr n r).inRange := by
  unfold fieldsOr
  cases h : configFields n r with
  | none => exact defaultFields_inRange n
  | some f => exact configFields_inRange n r f h

/-- Every selection holds values in their ranges (R117, R118). -/
theorem selectConfig_inRange (n : Nat) (a b : CopyResult) : (selectConfig n a b).fields.inRange := by
  unfold selectConfig
  (repeat' split) <;> first | exact fieldsOr_inRange _ _ | exact defaultFields_inRange _

/-- Every selection hands over a record of 256 bytes (R119). -/
theorem selectConfig_record_length (n : Nat) (a b : CopyResult) (ha : a.shaped) (hb : b.shaped) :
    (selectConfig n a b).record.length = 256 := by
  unfold selectConfig
  (repeat' split) <;> first | exact ha | exact hb | exact defaultRecord_length n

/-- A verdict of VALID keeps bytes that came with a PASS. -/
theorem copyVerdict_shaped (s : State) (st : ArrayStatus) (d : List Byte) (r : CopyResult) (hd : st = .pass → d.length = 256)
    (h : s.copyVerdict st d = some r) : r.shaped := by
  unfold State.copyVerdict at h
  split at h
  · rename_i f hf
    cases h
    apply hd
    cases st
    · rfl
    · simp [validCopy] at hf
  · split at h
    · contradiction
    · cases h; exact trivial


@[simp] theorem beginMount_mountShaped (s : State) (h : s.mount.shaped) : (beginMount s).mount.shaped := by
  simp [beginMount, h]

@[simp] theorem resetBlocks_mountShaped (c : ResetCause) (o : DrainOutcome) (s : State) : (resetBlocks c o s).mount.shaped := by
  simp [resetBlocks, Mount.reset, CopyResult.shaped]

@[simp] theorem resetCompletion_mountShaped (c : ResetCause) (o : DrainOutcome) (s : State) (h : s.mount.shaped) : (resetCompletion c o s).mount.shaped := by
  unfold resetCompletion
  (try dsimp only) <;> (repeat' split) <;> first | (simp (maxDischargeDepth := 9) (implicitDefEqProofs := false) [h]; done) | (simp_all (maxDischargeDepth := 9) (implicitDefEqProofs := false) [Mount.shaped, CopyResult.shaped]; done)

@[simp] theorem drainEnd_mountShaped (s : State) (h : s.mount.shaped) : (drainEnd s).mount.shaped := by
  unfold drainEnd
  (try dsimp only) <;> (repeat' split) <;> first | (simp (maxDischargeDepth := 9) (implicitDefEqProofs := false) [h]; done) | (simp_all (maxDischargeDepth := 9) (implicitDefEqProofs := false) [Mount.shaped, CopyResult.shaped]; done)

@[simp] theorem finish_mountShaped (a s : State) (h : s.mount.shaped) : (finish a s).mount.shaped := by
  simp (maxDischargeDepth := 9) (implicitDefEqProofs := false) [finish, h]

@[simp] theorem requestFault_mountShaped (s : State) (h : s.mount.shaped) : (requestFault s).mount.shaped := by
  unfold requestFault
  (try dsimp only) <;> (repeat' split) <;> first | (simp (maxDischargeDepth := 9) (implicitDefEqProofs := false) [h]; done) | (simp_all (maxDischargeDepth := 9) (implicitDefEqProofs := false) [Mount.shaped, CopyResult.shaped]; done)

@[simp] theorem resetLineLow_mountShaped (s : State) (h : s.mount.shaped) : (resetLineLow s).mount.shaped := by
  unfold resetLineLow
  (try dsimp only) <;> (repeat' split) <;> first | (simp (maxDischargeDepth := 9) (implicitDefEqProofs := false) [h]; done) | (simp_all (maxDischargeDepth := 9) (implicitDefEqProofs := false) [Mount.shaped, CopyResult.shaped]; done)

@[simp] theorem softResetActs_mountShaped (s : State) (h : s.mount.shaped) : (softResetActs s).mount.shaped := by
  unfold softResetActs
  (try dsimp only) <;> (repeat' split) <;> first | (simp (maxDischargeDepth := 9) (implicitDefEqProofs := false) [h]; done) | (simp_all (maxDischargeDepth := 9) (implicitDefEqProofs := false) [Mount.shaped, CopyResult.shaped]; done)

@[simp] theorem strapCheck_mountShaped (asz : BitVec 2) (s : State) (h : s.mount.shaped) : (strapCheck asz s).mount.shaped := by
  unfold strapCheck
  split
  · simp [h]
  · apply requestFault_mountShaped
    simp [h]

@[simp] theorem readyWaitDone_mountShaped (asz : BitVec 2) (s : State) (h : s.mount.shaped) : (readyWaitDone asz s).mount.shaped := by
  unfold readyWaitDone
  (try dsimp only) <;> (repeat' split) <;> first | (simp (maxDischargeDepth := 9) (implicitDefEqProofs := false) [h]; done) | (simp_all (maxDischargeDepth := 9) (implicitDefEqProofs := false) [Mount.shaped, CopyResult.shaped]; done)

@[simp] theorem applySelection_mountShaped (sel : Selection) (s : State) (h : s.mount.shaped)
    (hs : sel.fields.windows.length = 8) : (applySelection sel s).mount.shaped := by
  simp [applySelection, h, hs]

@[simp] theorem selectActive_mountShaped (s : State) (h : s.mount.shaped) : (selectActive s).mount.shaped :=
  applySelection_mountShaped _ s h (selectConfig_inRange _ _ _).2.2

theorem configCopyRead_mountShaped (st : ArrayStatus) (d : List Byte) (s : State) (h : s.mount.shaped)
    (hd : st = .pass → d.length = 256) : (configCopyRead st d s).mount.shaped := by
  unfold configCopyRead
  split
  · rename_i hp _; simp [h, hp]
  · rename_i r hp hr
    have g := copyVerdict_shaped s st d r hd hr
    simp [h, g]
  · rename_i hp _; simp [h, hp]
  · rename_i r hp hr
    have g := copyVerdict_shaped s st d r hd hr
    apply selectActive_mountShaped
    simp [h, g, hp]
  · exact h

@[simp] theorem classifyPage_windows (p : Nat) (st : ArrayStatus) (spare : List Byte) (s : State) :
    (classifyPage p st spare s).mount.windows = s.mount.windows ∧ (classifyPage p st spare s).mount.phase = s.mount.phase ∧
      (classifyPage p st spare s).mount.copyA = s.mount.copyA ∧
      (classifyPage p st spare s).mount.copyB = s.mount.copyB := by
  unfold classifyPage
  split
  · simp
  · dsimp only
    have f : (feedLargest spare s).mount.windows = s.mount.windows ∧ (feedLargest spare s).mount.phase = s.mount.phase ∧
        (feedLargest spare s).mount.copyA = s.mount.copyA ∧ (feedLargest spare s).mount.copyB = s.mount.copyB := by
      unfold feedLargest; dsimp only; split <;> simp
    split
    · simp [f]
    · simp [f]
    · simp [f]
    · unfold resolveCandidate nameCandidate
      (repeat' split) <;> simp [f]

@[simp] theorem classifyPage_mountShaped (p : Nat) (st : ArrayStatus) (spare : List Byte) (s : State) (h : s.mount.shaped) :
    (classifyPage p st spare s).mount.shaped := by
  simp only [Mount.shaped, classifyPage_windows]
  exact h

@[simp] theorem mountExit_mountShaped (s : State) (h : s.mount.shaped) : (mountExit s).mount.shaped := by
  simp [mountExit, h]

@[simp] theorem advanceScan_mountShaped (p : Nat) (s : State) (h : s.mount.shaped) : (advanceScan p s).mount.shaped := by
  unfold advanceScan
  split
  · simp only [requestOp_keeps, State.setMount_mount, mount_mk_shaped]
    exact h
  · exact mountExit_mountShaped s h

@[simp] theorem headerRead_mountShaped (st : ArrayStatus) (spare : List Byte) (s : State) (h : s.mount.shaped) :
    (headerRead st spare s).mount.shaped := by
  unfold headerRead
  split
  · split
    · simp only [requestOp_keeps, State.setMount_mount, mount_mk_shaped]
      exact h
    · exact advanceScan_mountShaped _ _ (classifyPage_mountShaped _ _ _ _ h)
  · exact h

@[simp] theorem mountFaultEnd_mountShaped (s : State) (h : s.mount.shaped) : (mountFaultEnd s).mount.shaped := by
  unfold mountFaultEnd
  dsimp only
  split <;> simp [h]

@[simp] theorem doSoftReset_mountShaped (s : State) (h : s.mount.shaped) : (doSoftReset s).mount.shaped := by
  unfold doSoftReset
  (try dsimp only) <;> (repeat' split) <;> first | (simp (maxDischargeDepth := 9) (implicitDefEqProofs := false) [h]; done) | (simp_all (maxDischargeDepth := 9) (implicitDefEqProofs := false) [Mount.shaped, CopyResult.shaped]; done)

@[simp] theorem act_mountShaped (c : CommandName) (args : List Byte) (s : State) (h : s.mount.shaped) :
    (c.act args s).mount.shaped := by
  cases c <;> simp (maxDischargeDepth := 9) (implicitDefEqProofs := false) [CommandName.act, h]

@[simp] theorem decideCommand_mountShaped (c : CommandName) (args : List Byte) (s : State) (h : s.mount.shaped) :
    (decideCommand c args s).mount.shaped := by
  unfold decideCommand
  (repeat' split) <;> simp (implicitDefEqProofs := false) [h]

@[simp] theorem decideFrame_mountShaped (c : Option CommandName) (args : List Byte) (s : State) (h : s.mount.shaped) : (decideFrame c args s).mount.shaped := by
  unfold decideFrame
  (try dsimp only) <;> (repeat' split) <;> first | (simp (maxDischargeDepth := 9) (implicitDefEqProofs := false) [h]; done) | (simp_all (maxDischargeDepth := 9) (implicitDefEqProofs := false) [Mount.shaped, CopyResult.shaped]; done)

@[simp] theorem endFrame_mountShaped (c : Option CommandName) (args : List Byte) (s : State) (h : s.mount.shaped) : (endFrame c args s).mount.shaped := by
  unfold endFrame
  (try dsimp only) <;> (repeat' split) <;> first | (simp (maxDischargeDepth := 9) (implicitDefEqProofs := false) [h]; done) | (simp_all (maxDischargeDepth := 9) (implicitDefEqProofs := false) [Mount.shaped, CopyResult.shaped]; done)

@[simp] theorem recover_mountShaped (s : State) (h : s.mount.shaped) : (recover s).mount.shaped := by
  unfold recover
  (try dsimp only) <;> (repeat' split) <;> first | (simp (maxDischargeDepth := 9) (implicitDefEqProofs := false) [h]; done) | (simp_all (maxDischargeDepth := 9) (implicitDefEqProofs := false) [Mount.shaped, CopyResult.shaped]; done)

@[simp] theorem powerHigh_mountShaped (s : State) (h : s.mount.shaped) : (powerHigh s).mount.shaped := by
  unfold powerHigh
  (try dsimp only) <;> (repeat' split) <;> first | (simp (maxDischargeDepth := 9) (implicitDefEqProofs := false) [h]; done) | (simp_all (maxDischargeDepth := 9) (implicitDefEqProofs := false) [Mount.shaped, CopyResult.shaped]; done)

@[simp] theorem qualified_mountShaped (s : State) (h : s.mount.shaped) : (qualified s).mount.shaped := by
  unfold qualified
  (try dsimp only) <;> (repeat' split) <;> first | (simp (maxDischargeDepth := 9) (implicitDefEqProofs := false) [h]; done) | (simp_all (maxDischargeDepth := 9) (implicitDefEqProofs := false) [Mount.shaped, CopyResult.shaped]; done)

@[simp] theorem qualify_mountShaped (s : State) (h : s.mount.shaped) : (qualify s).mount.shaped := by
  unfold qualify
  (try dsimp only) <;> (repeat' split) <;> first | (simp (maxDischargeDepth := 9) (implicitDefEqProofs := false) [h]; done) | (simp_all (maxDischargeDepth := 9) (implicitDefEqProofs := false) [Mount.shaped, CopyResult.shaped]; done)

@[simp] theorem resetEdge_mountShaped (s : State) (h : s.mount.shaped) : (resetEdge s).mount.shaped := by
  unfold resetEdge
  (try dsimp only) <;> (repeat' split) <;> first | (simp (maxDischargeDepth := 9) (implicitDefEqProofs := false) [h]; done) | (simp_all (maxDischargeDepth := 9) (implicitDefEqProofs := false) [Mount.shaped, CopyResult.shaped]; done)

@[simp] theorem resetRise_mountShaped (s : State) (h : s.mount.shaped) : (resetRise s).mount.shaped := by
  unfold resetRise
  (try dsimp only) <;> (repeat' split) <;> first | (simp (maxDischargeDepth := 9) (implicitDefEqProofs := false) [h]; done) | (simp_all (maxDischargeDepth := 9) (implicitDefEqProofs := false) [Mount.shaped, CopyResult.shaped]; done)

@[simp] theorem powerUp_mountShaped (s : State) (h : s.mount.shaped) : (powerUp s).mount.shaped := by
  unfold powerUp
  simp (maxDischargeDepth := 9) (implicitDefEqProofs := false) [h]

@[simp] theorem resetExpiry_mountShaped (s : State) (h : s.mount.shaped) : (resetExpiry s).mount.shaped := by
  unfold resetExpiry
  (try dsimp only) <;> (repeat' split) <;> first | (simp (maxDischargeDepth := 9) (implicitDefEqProofs := false) [h]; done) | (simp_all (maxDischargeDepth := 9) (implicitDefEqProofs := false) [Mount.shaped, CopyResult.shaped]; done)

@[simp] theorem slotExpiry_mountShaped (i : Nat) (s : State) (h : s.mount.shaped) : (slotExpiry i s).mount.shaped := by
  unfold slotExpiry
  (try dsimp only) <;> (repeat' split) <;> first | (simp (maxDischargeDepth := 9) (implicitDefEqProofs := false) [h]; done) | (simp_all (maxDischargeDepth := 9) (implicitDefEqProofs := false) [Mount.shaped, CopyResult.shaped]; done)

@[simp] theorem timeoutTwice_mountShaped (s : State) (h : s.mount.shaped) : (timeoutTwice s).mount.shaped := by
  unfold timeoutTwice
  (try dsimp only) <;> (repeat' split) <;> first | (simp (maxDischargeDepth := 9) (implicitDefEqProofs := false) [h]; done) | (simp_all (maxDischargeDepth := 9) (implicitDefEqProofs := false) [Mount.shaped, CopyResult.shaped]; done)

end

section
/-! ## guard -/

theorem capture_cleared_shaped : Capture.cleared.shaped := by simp [Capture.shaped, Capture.cleared]

/-- A match never leaves a latched capture with a hit count of 0 (R156, R157). -/
theorem advanced_shaped (c : Capture) (t : Word32) (r : Request) (h : c.shaped) : (c.advanced t r).shaped := by
  unfold Capture.advanced
  split
  · simp [Capture.shaped]
  · rename_i f hf
    have h0 : c.hits ≠ 0 := h.1 (by simp [hf])
    simp only [Capture.shaped, Option.isSome_some, true_iff, satAdvance]
    split
    · exact h0
    · rename_i hm
      intro hz
      apply hm
      have e : c.hits.toNat + 1 = 2 ^ 16 ∨ c.hits.toNat + 1 < 2 ^ 16 := by have := c.hits.isLt; omega
      have z : (c.hits.toNat + 1) % 2 ^ 16 = 0 := by
        have := congrArg BitVec.toNat hz
        simpa [BitVec.toNat_add] using this
      apply BitVec.eq_of_toNat_eq
      rw [BitVec.toNat_allOnes]
      omega

/-- Eight captures, each latched exactly when its hit count is not 0. -/
def capturesShaped (l : List Capture) : Prop := l.length = 8 ∧ ∀ c ∈ l, c.shaped

@[simp] theorem guard_mk_shaped (ws : List Window) (cs : List Capture) :
    Guard.shaped { windows := ws, captures := cs } ↔ ws.length = 8 ∧ capturesShaped cs := Iff.rfl

@[simp] theorem guard_windows_length (g : Guard) (h : g.shaped) : g.windows.length = 8 := h.1
@[simp] theorem guard_captures_shaped (g : Guard) (h : g.shaped) : capturesShaped g.captures := h.2

@[simp] theorem capturesShaped_set (n : Nat) (l : List Capture) (h : capturesShaped l) :
    capturesShaped (l.set n Capture.cleared) := by
  refine ⟨by simpa using h.1, fun c hc => ?_⟩
  rcases List.mem_or_eq_of_mem_set hc with hc | hc
  · exact h.2 c hc
  · exact hc ▸ capture_cleared_shaped

@[simp] theorem capturesShaped_cleared : capturesShaped clearedCaptures :=
  ⟨List.length_replicate, fun c hc => by rw [List.eq_of_mem_replicate hc]; exact capture_cleared_shaped⟩

@[simp] theorem capturesShaped_judged (ws : List Window) (cs : List Capture) (t : Word32) (r : Request) (hw : ws.length = 8)
    (h : capturesShaped cs) : capturesShaped (judgedCaptures ws cs t r) := by
  refine ⟨by simp [judgedCaptures, hw, h.1], fun c hc => ?_⟩
  obtain ⟨w, c', _, hc', rfl⟩ : ∃ w c', w ∈ ws ∧ c' ∈ cs ∧ c = if w.hits r then c'.advanced t r else c' := by
    unfold judgedCaptures at hc
    rw [← List.map_uncurry_zip_eq_zipWith] at hc
    obtain ⟨⟨w, c'⟩, hm, rfl⟩ := List.mem_map.1 hc
    exact ⟨w, c', (List.of_mem_zip hm).1, (List.of_mem_zip hm).2, rfl⟩
  split
  · exact advanced_shaped c' t r (h.2 c' hc')
  · exact h.2 c' hc'


@[simp] theorem resetBlocks_guardShaped (c : ResetCause) (o : DrainOutcome) (s : State) : (resetBlocks c o s).guard.shaped :=
  ⟨List.length_replicate, capturesShaped_cleared⟩

@[simp] theorem resetCompletion_guardShaped (c : ResetCause) (o : DrainOutcome) (s : State) (h : s.guard.shaped) : (resetCompletion c o s).guard.shaped := by
  unfold resetCompletion
  (try dsimp only) <;> (repeat' split) <;> first | (simp (maxDischargeDepth := 9) (implicitDefEqProofs := false) [h]; done) | (simp_all (maxDischargeDepth := 9) (implicitDefEqProofs := false) [Guard.shaped, Capture.shaped]; done)

@[simp] theorem drainEnd_guardShaped (s : State) (h : s.guard.shaped) : (drainEnd s).guard.shaped := by
  unfold drainEnd
  (try dsimp only) <;> (repeat' split) <;> first | (simp (maxDischargeDepth := 9) (implicitDefEqProofs := false) [h]; done) | (simp_all (maxDischargeDepth := 9) (implicitDefEqProofs := false) [Guard.shaped, Capture.shaped]; done)

@[simp] theorem judge_guardShaped (r : Request) (s : State) (h : s.guard.shaped) : (judge r s).guard.shaped := by
  have g := capturesShaped_judged s.guard.windows s.guard.captures s.clock.ms r h.1 h.2
  unfold judge
  dsimp only
  split <;> exact ⟨h.1, g⟩

@[simp] theorem clearCaptureOf_guardShaped (n : Nat) (s : State) (h : s.guard.shaped) : (clearCaptureOf n s).guard.shaped := by
  unfold clearCaptureOf
  (try dsimp only) <;> (repeat' split) <;> first | (simp (maxDischargeDepth := 9) (implicitDefEqProofs := false) [h]; done) | (simp_all (maxDischargeDepth := 9) (implicitDefEqProofs := false) [Guard.shaped, Capture.shaped]; done)

@[simp] theorem setWindow_guardShaped (n : Nat) (w : Window) (s : State) (h : s.guard.shaped) : (setWindow n w s).guard.shaped := by
  unfold setWindow
  (try dsimp only) <;> (repeat' split) <;> first | (simp (maxDischargeDepth := 9) (implicitDefEqProofs := false) [h]; done) | (simp_all (maxDischargeDepth := 9) (implicitDefEqProofs := false) [Guard.shaped, Capture.shaped]; done)

@[simp] theorem placeUnjudged_guardShaped (r : Request) (s : State) (h : s.guard.shaped) : (placeUnjudged r s).guard.shaped := by
  unfold placeUnjudged
  (try dsimp only) <;> (repeat' split) <;> first | (simp (maxDischargeDepth := 9) (implicitDefEqProofs := false) [h]; done) | (simp_all (maxDischargeDepth := 9) (implicitDefEqProofs := false) [Guard.shaped, Capture.shaped]; done)

@[simp] theorem placeHead_guardShaped (e : Entry) (s : State) (h : s.guard.shaped) : (placeHead e s).guard.shaped := by
  unfold placeHead
  (try dsimp only) <;> (repeat' split) <;> first | (simp (maxDischargeDepth := 9) (implicitDefEqProofs := false) [h]; done) | (simp_all (maxDischargeDepth := 9) (implicitDefEqProofs := false) [Guard.shaped, Capture.shaped]; done)

@[simp] theorem placements_guardShaped (a s : State) (h : s.guard.shaped) : (placements a s).guard.shaped :=
  placements_induct (Q := fun s => s.guard.shaped) (fun s e _ h => by simp (implicitDefEqProofs := false) [h]) (fun s h => by simp (implicitDefEqProofs := false) [h]) a s h

@[simp] theorem arrive_guardShaped (record : List Byte) (s : State) (h : s.guard.shaped) : (arrive record s).guard.shaped := by
  unfold arrive
  (try dsimp only) <;> (repeat' split) <;> first | (simp (maxDischargeDepth := 9) (implicitDefEqProofs := false) [h]; done) | (simp_all (maxDischargeDepth := 9) (implicitDefEqProofs := false) [Guard.shaped, Capture.shaped]; done)

@[simp] theorem arriveWaiting_guardShaped (q : List (List Byte)) (s : State) (h : s.guard.shaped) : (arriveWaiting q s).guard.shaped :=
  arriveWaiting_induct (Q := fun s => s.guard.shaped) (fun s b _ h => by simp (implicitDefEqProofs := false) [h]) (fun s q h => by simp (implicitDefEqProofs := false) [h]) q s h

@[simp] theorem presentRecord_guardShaped (record : List Byte) (s : State) (h : s.guard.shaped) : (presentRecord record s).guard.shaped := by
  unfold presentRecord
  (try dsimp only) <;> (repeat' split) <;> first | (simp (maxDischargeDepth := 9) (implicitDefEqProofs := false) [h]; done) | (simp_all (maxDischargeDepth := 9) (implicitDefEqProofs := false) [Guard.shaped, Capture.shaped]; done)

@[simp] theorem finish_guardShaped (a s : State) (h : s.guard.shaped) : (finish a s).guard.shaped := by
  simp (maxDischargeDepth := 9) (implicitDefEqProofs := false) [finish, h]

@[simp] theorem requestFault_guardShaped (s : State) (h : s.guard.shaped) : (requestFault s).guard.shaped := by
  unfold requestFault
  (try dsimp only) <;> (repeat' split) <;> first | (simp (maxDischargeDepth := 9) (implicitDefEqProofs := false) [h]; done) | (simp_all (maxDischargeDepth := 9) (implicitDefEqProofs := false) [Guard.shaped, Capture.shaped]; done)

@[simp] theorem resetLineLow_guardShaped (s : State) (h : s.guard.shaped) : (resetLineLow s).guard.shaped := by
  unfold resetLineLow
  (try dsimp only) <;> (repeat' split) <;> first | (simp (maxDischargeDepth := 9) (implicitDefEqProofs := false) [h]; done) | (simp_all (maxDischargeDepth := 9) (implicitDefEqProofs := false) [Guard.shaped, Capture.shaped]; done)

@[simp] theorem softResetActs_guardShaped (s : State) (h : s.guard.shaped) : (softResetActs s).guard.shaped := by
  unfold softResetActs
  (try dsimp only) <;> (repeat' split) <;> first | (simp (maxDischargeDepth := 9) (implicitDefEqProofs := false) [h]; done) | (simp_all (maxDischargeDepth := 9) (implicitDefEqProofs := false) [Guard.shaped, Capture.shaped]; done)

@[simp] theorem strapCheck_guardShaped (asz : BitVec 2) (s : State) (h : s.guard.shaped) : (strapCheck asz s).guard.shaped := by
  unfold strapCheck
  (try dsimp only) <;> (repeat' split) <;> first | (simp (maxDischargeDepth := 9) (implicitDefEqProofs := false) [h]; done) | (simp_all (maxDischargeDepth := 9) (implicitDefEqProofs := false) [Guard.shaped, Capture.shaped]; done)

@[simp] theorem readyWaitDone_guardShaped (asz : BitVec 2) (s : State) (h : s.guard.shaped) : (readyWaitDone asz s).guard.shaped := by
  unfold readyWaitDone
  (try dsimp only) <;> (repeat' split) <;> first | (simp (maxDischargeDepth := 9) (implicitDefEqProofs := false) [h]; done) | (simp_all (maxDischargeDepth := 9) (implicitDefEqProofs := false) [Guard.shaped, Capture.shaped]; done)

@[simp] theorem mountExit_guardShaped (s : State) (h : s.mount.windows.length = 8) : (mountExit s).guard.shaped := by
  simp [mountExit, h]

@[simp] theorem advanceScan_guardShaped (p : Nat) (s : State) (h : s.guard.shaped) (hm : s.mount.windows.length = 8) :
    (advanceScan p s).guard.shaped := by
  unfold advanceScan
  split <;> simp (implicitDefEqProofs := false) [h, hm]

@[simp] theorem headerRead_guardShaped (st : ArrayStatus) (spare : List Byte) (s : State) (h : s.guard.shaped)
    (hm : s.mount.shaped) : (headerRead st spare s).guard.shaped := by
  unfold headerRead
  split
  · rename_i hp _
    split
    · simp [h]
    · have hw : s.mount.windows.length = 8 := hm.2.2 hp
      simp (implicitDefEqProofs := false) [h, hw]
  · exact h

@[simp] theorem doClearCapture_guardShaped (args : List Byte) (s : State) (h : s.guard.shaped) : (doClearCapture args s).guard.shaped := by
  unfold doClearCapture
  (try dsimp only) <;> (repeat' split) <;> first | (simp (maxDischargeDepth := 9) (implicitDefEqProofs := false) [h]; done) | (simp_all (maxDischargeDepth := 9) (implicitDefEqProofs := false) [Guard.shaped, Capture.shaped]; done)

@[simp] theorem doWindowSet_guardShaped (args : List Byte) (s : State) (h : s.guard.shaped) : (doWindowSet args s).guard.shaped := by
  unfold doWindowSet
  (try dsimp only) <;> (repeat' split) <;> first | (simp (maxDischargeDepth := 9) (implicitDefEqProofs := false) [h]; done) | (simp_all (maxDischargeDepth := 9) (implicitDefEqProofs := false) [Guard.shaped, Capture.shaped]; done)

@[simp] theorem doSoftReset_guardShaped (s : State) (h : s.guard.shaped) : (doSoftReset s).guard.shaped := by
  unfold doSoftReset
  (try dsimp only) <;> (repeat' split) <;> first | (simp (maxDischargeDepth := 9) (implicitDefEqProofs := false) [h]; done) | (simp_all (maxDischargeDepth := 9) (implicitDefEqProofs := false) [Guard.shaped, Capture.shaped]; done)

@[simp] theorem act_guardShaped (c : CommandName) (args : List Byte) (s : State) (h : s.guard.shaped) :
    (c.act args s).guard.shaped := by
  cases c <;> simp (maxDischargeDepth := 9) (implicitDefEqProofs := false) [CommandName.act, h]

@[simp] theorem decideCommand_guardShaped (c : CommandName) (args : List Byte) (s : State) (h : s.guard.shaped) :
    (decideCommand c args s).guard.shaped := by
  unfold decideCommand
  (repeat' split) <;> simp (implicitDefEqProofs := false) [h]

@[simp] theorem decideFrame_guardShaped (c : Option CommandName) (args : List Byte) (s : State) (h : s.guard.shaped) : (decideFrame c args s).guard.shaped := by
  unfold decideFrame
  (try dsimp only) <;> (repeat' split) <;> first | (simp (maxDischargeDepth := 9) (implicitDefEqProofs := false) [h]; done) | (simp_all (maxDischargeDepth := 9) (implicitDefEqProofs := false) [Guard.shaped, Capture.shaped]; done)

@[simp] theorem endFrame_guardShaped (c : Option CommandName) (args : List Byte) (s : State) (h : s.guard.shaped) : (endFrame c args s).guard.shaped := by
  unfold endFrame
  (try dsimp only) <;> (repeat' split) <;> first | (simp (maxDischargeDepth := 9) (implicitDefEqProofs := false) [h]; done) | (simp_all (maxDischargeDepth := 9) (implicitDefEqProofs := false) [Guard.shaped, Capture.shaped]; done)

@[simp] theorem recover_guardShaped (s : State) (h : s.guard.shaped) : (recover s).guard.shaped := by
  unfold recover
  (try dsimp only) <;> (repeat' split) <;> first | (simp (maxDischargeDepth := 9) (implicitDefEqProofs := false) [h]; done) | (simp_all (maxDischargeDepth := 9) (implicitDefEqProofs := false) [Guard.shaped, Capture.shaped]; done)

@[simp] theorem powerHigh_guardShaped (s : State) (h : s.guard.shaped) : (powerHigh s).guard.shaped := by
  unfold powerHigh
  (try dsimp only) <;> (repeat' split) <;> first | (simp (maxDischargeDepth := 9) (implicitDefEqProofs := false) [h]; done) | (simp_all (maxDischargeDepth := 9) (implicitDefEqProofs := false) [Guard.shaped, Capture.shaped]; done)

@[simp] theorem qualified_guardShaped (s : State) (h : s.guard.shaped) : (qualified s).guard.shaped := by
  unfold qualified
  (try dsimp only) <;> (repeat' split) <;> first | (simp (maxDischargeDepth := 9) (implicitDefEqProofs := false) [h]; done) | (simp_all (maxDischargeDepth := 9) (implicitDefEqProofs := false) [Guard.shaped, Capture.shaped]; done)

@[simp] theorem qualify_guardShaped (s : State) (h : s.guard.shaped) : (qualify s).guard.shaped := by
  unfold qualify
  (try dsimp only) <;> (repeat' split) <;> first | (simp (maxDischargeDepth := 9) (implicitDefEqProofs := false) [h]; done) | (simp_all (maxDischargeDepth := 9) (implicitDefEqProofs := false) [Guard.shaped, Capture.shaped]; done)

@[simp] theorem resetEdge_guardShaped (s : State) (h : s.guard.shaped) : (resetEdge s).guard.shaped := by
  unfold resetEdge
  (try dsimp only) <;> (repeat' split) <;> first | (simp (maxDischargeDepth := 9) (implicitDefEqProofs := false) [h]; done) | (simp_all (maxDischargeDepth := 9) (implicitDefEqProofs := false) [Guard.shaped, Capture.shaped]; done)

@[simp] theorem resetRise_guardShaped (s : State) (h : s.guard.shaped) : (resetRise s).guard.shaped := by
  unfold resetRise
  (try dsimp only) <;> (repeat' split) <;> first | (simp (maxDischargeDepth := 9) (implicitDefEqProofs := false) [h]; done) | (simp_all (maxDischargeDepth := 9) (implicitDefEqProofs := false) [Guard.shaped, Capture.shaped]; done)

@[simp] theorem powerUp_guardShaped (s : State) (h : s.guard.shaped) : (powerUp s).guard.shaped := by
  unfold powerUp
  simp (maxDischargeDepth := 9) (implicitDefEqProofs := false) [h]

@[simp] theorem resetExpiry_guardShaped (s : State) (h : s.guard.shaped) : (resetExpiry s).guard.shaped := by
  unfold resetExpiry
  (try dsimp only) <;> (repeat' split) <;> first | (simp (maxDischargeDepth := 9) (implicitDefEqProofs := false) [h]; done) | (simp_all (maxDischargeDepth := 9) (implicitDefEqProofs := false) [Guard.shaped, Capture.shaped]; done)

@[simp] theorem slotExpiry_guardShaped (i : Nat) (s : State) (h : s.guard.shaped) : (slotExpiry i s).guard.shaped := by
  unfold slotExpiry
  (try dsimp only) <;> (repeat' split) <;> first | (simp (maxDischargeDepth := 9) (implicitDefEqProofs := false) [h]; done) | (simp_all (maxDischargeDepth := 9) (implicitDefEqProofs := false) [Guard.shaped, Capture.shaped]; done)

@[simp] theorem timeoutTwice_guardShaped (s : State) (h : s.guard.shaped) : (timeoutTwice s).guard.shaped := by
  unfold timeoutTwice
  (try dsimp only) <;> (repeat' split) <;> first | (simp (maxDischargeDepth := 9) (implicitDefEqProofs := false) [h]; done) | (simp_all (maxDischargeDepth := 9) (implicitDefEqProofs := false) [Guard.shaped, Capture.shaped]; done)

end

section
/-! ## readPath -/

theorem cacheDrop_pages (x : Nat) (c : List CacheEntry) (h : (c.map (fun e => e.page)).Nodup) :
    ((cacheDrop x c).map (fun e => e.page)).Nodup := List.Nodup.sublist (List.Sublist.map _ List.filter_sublist) h

theorem cacheDrop_append_nodup (x : Nat) (e : CacheEntry) (he : e.page = x) (c : List CacheEntry)
    (h : (c.map (fun e => e.page)).Nodup) : ((cacheDrop x c ++ [e]).map (fun e => e.page)).Nodup := by
  rw [List.map_append]
  refine List.nodup_append.2 ⟨cacheDrop_pages x c h, by simp, fun a ha b hb => ?_⟩
  simp only [List.map_cons, List.map_nil, List.mem_singleton] at hb
  obtain ⟨e', he', rfl⟩ := List.mem_map.1 ha
  simp only [cacheDrop, List.mem_filter, decide_eq_true_eq] at he'
  rw [hb, he]
  exact he'.2

/-- An insertion of 256 bytes keeps the cache within four entries, no page twice (R39, R40). -/
theorem cacheInsert_shaped (x : Nat) (im : List Byte) (c : List CacheEntry) (h : cacheShaped c) (hi : im.length = 256) :
    cacheShaped (cacheInsert x im c) := by
  have hl : (cacheDrop x c).length ≤ 4 := Nat.le_trans (List.length_filter_le _ _) h.1
  have hn := cacheDrop_append_nodup x { page := x, image := im } rfl c h.2.1
  have hm : ∀ e ∈ cacheDrop x c ++ [{ page := x, image := im }], e.image.length = 256 := by
    intro e he
    rcases List.mem_append.1 he with he | he
    · exact h.2.2 e ((List.mem_filter.1 he).1)
    · simp only [List.mem_singleton] at he; rw [he]; exact hi
  unfold cacheInsert cacheTrim
  split
  · refine ⟨by simp; omega, ?_, fun e he => hm e (List.mem_of_mem_tail he)⟩
    rw [List.map_tail]
    exact List.Nodup.sublist (List.tail_sublist _) hn
  · rename_i hc
    exact ⟨by simp only [Config.cacheSize] at hc; omega, hn, hm⟩

/-- A touch keeps the cache's shape (R43). -/
theorem cacheTouch_shaped (x : Nat) (c : List CacheEntry) (h : cacheShaped c) : cacheShaped (cacheTouch x c) := by
  unfold cacheTouch
  split
  · rename_i e he
    have hx : e.page = x := by simpa [cacheFind] using List.find?_some he
    have hmem : e ∈ c := List.mem_of_find?_eq_some he
    refine ⟨?_, cacheDrop_append_nodup x e hx c h.2.1, fun e' he' => ?_⟩
    · have hlt : (cacheDrop x c).length < c.length := by
        refine Nat.lt_of_le_of_ne (List.length_filter_le _ _) (fun hc => ?_)
        have := (List.length_filter_eq_length_iff.1 hc) e hmem
        simp [hx] at this
      have := h.1
      simp only [List.length_append, List.length_cons, List.length_nil]
      omega
    · rcases List.mem_append.1 he' with he' | he'
      · exact h.2.2 e' ((List.mem_filter.1 he').1)
      · simp only [List.mem_singleton] at he'; rw [he']; exact h.2.2 e hmem
  · exact h


@[simp] theorem resetBlocks_cacheShaped (c : ResetCause) (o : DrainOutcome) (s : State) :
    cacheShaped (resetBlocks c o s).readPath.cache := ⟨Nat.zero_le 4, List.nodup_nil, fun _ h => absurd h List.not_mem_nil⟩

@[simp] theorem resetCompletion_cacheShaped (c : ResetCause) (o : DrainOutcome) (s : State) (h : cacheShaped s.readPath.cache) : cacheShaped (resetCompletion c o s).readPath.cache := by
  unfold resetCompletion
  (try dsimp only) <;> (repeat' split) <;> first | (simp (maxDischargeDepth := 9) (implicitDefEqProofs := false) [h]; done) | (simp_all (maxDischargeDepth := 9) (implicitDefEqProofs := false) [cacheShaped]; done)

@[simp] theorem drainEnd_cacheShaped (s : State) (h : cacheShaped s.readPath.cache) : cacheShaped (drainEnd s).readPath.cache := by
  unfold drainEnd
  (try dsimp only) <;> (repeat' split) <;> first | (simp (maxDischargeDepth := 9) (implicitDefEqProofs := false) [h]; done) | (simp_all (maxDischargeDepth := 9) (implicitDefEqProofs := false) [cacheShaped]; done)

@[simp] theorem setCache_cacheShaped (c : List CacheEntry) (s : State) (h : cacheShaped c) :
    cacheShaped (setCache c s).readPath.cache := h

@[simp] theorem installCache_cacheShaped (x : Nat) (im : List Byte) (s : State) (h : cacheShaped s.readPath.cache)
    (hi : im.length = 256) : cacheShaped (installCache x im s).readPath.cache := cacheInsert_shaped x im _ h hi

@[simp] theorem touchCache_cacheShaped (x : Nat) (s : State) (h : cacheShaped s.readPath.cache) :
    cacheShaped (touchCache x s).readPath.cache := cacheTouch_shaped x _ h

@[simp] theorem sealRecord_cacheShaped (i x : Nat) (s : State) (h : cacheShaped s.readPath.cache) : cacheShaped (sealRecord i x s).readPath.cache := by
  unfold sealRecord
  (try dsimp only) <;> (repeat' split) <;> first | (simp (maxDischargeDepth := 9) (implicitDefEqProofs := false) [h]; done) | (simp_all (maxDischargeDepth := 9) (implicitDefEqProofs := false) [cacheShaped]; done)

@[simp] theorem sealSlot_cacheShaped (i : Nat) (s : State) (h : cacheShaped s.readPath.cache) : cacheShaped (sealSlot i s).readPath.cache := by
  unfold sealSlot
  (try dsimp only) <;> (repeat' split) <;> first | (simp (maxDischargeDepth := 9) (implicitDefEqProofs := false) [h]; done) | (simp_all (maxDischargeDepth := 9) (implicitDefEqProofs := false) [cacheShaped]; done)

@[simp] theorem placeInSlot_cacheShaped (i off : Nat) (d : List Byte) (s : State) (h : cacheShaped s.readPath.cache) : cacheShaped (placeInSlot i off d s).readPath.cache := by
  unfold placeInSlot
  (try dsimp only) <;> (repeat' split) <;> first | (simp (maxDischargeDepth := 9) (implicitDefEqProofs := false) [h]; done) | (simp_all (maxDischargeDepth := 9) (implicitDefEqProofs := false) [cacheShaped]; done)

@[simp] theorem commitSlot_cacheShaped (i : Nat) (s : State) (h : cacheShaped s.readPath.cache) (hs : s.staging.shaped) :
    cacheShaped (commitSlot i s).readPath.cache := by
  simp (implicitDefEqProofs := false) [commitSlot, h, hs]

@[simp] theorem settle_cacheShaped (s : State) (h : cacheShaped s.readPath.cache) : cacheShaped (settle s).readPath.cache :=
  settle_induct (Q := fun s => cacheShaped s.readPath.cache) (fun s t ht h => by
    rcases reexamine_cases s t ht with ⟨_, _, rfl⟩ | ⟨i, _, _, rfl⟩ | ⟨i, _, _, _, rfl⟩ | ⟨i, _, _, rfl⟩ | ⟨p, _, rfl⟩ <;>
      simp (implicitDefEqProofs := false) [h]) s h

@[simp] theorem sealAllOpen_cacheShaped (s : State) (h : cacheShaped s.readPath.cache) : cacheShaped (sealAllOpen s).readPath.cache :=
  sealAllOpen_induct (Q := fun s => cacheShaped s.readPath.cache) (fun s i _ h => by simp (implicitDefEqProofs := false) [h]) (fun s i _ h => by simp (implicitDefEqProofs := false) [h]) s h

@[simp] theorem serveWrite_cacheShaped (r : Request) (s : State) (h : cacheShaped s.readPath.cache) : cacheShaped (serveWrite r s).readPath.cache := by
  unfold serveWrite
  split
  · rename_i i t ht
    unfold State.writeSlot at ht
    split at ht
    · cases ht; simp (implicitDefEqProofs := false) [h]
    · split at ht
      · cases ht; simp (maxDischargeDepth := 9) (implicitDefEqProofs := false) [h]
      · contradiction
  · simp (implicitDefEqProofs := false) [h]

@[simp] theorem addPending_cacheShaped (rec : PendingRead) (s : State) (h : cacheShaped s.readPath.cache) : cacheShaped (addPending rec s).readPath.cache := by
  unfold addPending
  (try dsimp only) <;> (repeat' split) <;> first | (simp (maxDischargeDepth := 9) (implicitDefEqProofs := false) [h]; done) | (simp_all (maxDischargeDepth := 9) (implicitDefEqProofs := false) [cacheShaped]; done)

@[simp] theorem serveRead_cacheShaped (r : Request) (s : State) (h : cacheShaped s.readPath.cache) : cacheShaped (serveRead r s).readPath.cache := by
  unfold serveRead
  (try dsimp only) <;> (repeat' split) <;> first | (simp (maxDischargeDepth := 9) (implicitDefEqProofs := false) [h]; done) | (simp_all (maxDischargeDepth := 9) (implicitDefEqProofs := false) [cacheShaped]; done)

@[simp] theorem servePersist_cacheShaped (r : Request) (s : State) (h : cacheShaped s.readPath.cache) : cacheShaped (servePersist r s).readPath.cache := by
  unfold servePersist
  (try dsimp only) <;> (repeat' split) <;> first | (simp (maxDischargeDepth := 9) (implicitDefEqProofs := false) [h]; done) | (simp_all (maxDischargeDepth := 9) (implicitDefEqProofs := false) [cacheShaped]; done)

@[simp] theorem serve_cacheShaped (r : Request) (s : State) (h : cacheShaped s.readPath.cache) : cacheShaped (serve r s).readPath.cache := by
  unfold serve
  (try dsimp only) <;> (repeat' split) <;> first | (simp (maxDischargeDepth := 9) (implicitDefEqProofs := false) [h]; done) | (simp_all (maxDischargeDepth := 9) (implicitDefEqProofs := false) [cacheShaped]; done)

@[simp] theorem placeUnjudged_cacheShaped (r : Request) (s : State) (h : cacheShaped s.readPath.cache) : cacheShaped (placeUnjudged r s).readPath.cache := by
  unfold placeUnjudged
  (try dsimp only) <;> (repeat' split) <;> first | (simp (maxDischargeDepth := 9) (implicitDefEqProofs := false) [h]; done) | (simp_all (maxDischargeDepth := 9) (implicitDefEqProofs := false) [cacheShaped]; done)

@[simp] theorem placeHead_cacheShaped (e : Entry) (s : State) (h : cacheShaped s.readPath.cache) : cacheShaped (placeHead e s).readPath.cache := by
  unfold placeHead
  (try dsimp only) <;> (repeat' split) <;> first | (simp (maxDischargeDepth := 9) (implicitDefEqProofs := false) [h]; done) | (simp_all (maxDischargeDepth := 9) (implicitDefEqProofs := false) [cacheShaped]; done)

@[simp] theorem placements_cacheShaped (a s : State) (h : cacheShaped s.readPath.cache) : cacheShaped (placements a s).readPath.cache :=
  placements_induct (Q := fun s => cacheShaped s.readPath.cache) (fun s e _ h => by simp (implicitDefEqProofs := false) [h]) (fun s h => by simp (implicitDefEqProofs := false) [h]) a s h

@[simp] theorem arrive_cacheShaped (record : List Byte) (s : State) (h : cacheShaped s.readPath.cache) : cacheShaped (arrive record s).readPath.cache := by
  unfold arrive
  (try dsimp only) <;> (repeat' split) <;> first | (simp (maxDischargeDepth := 9) (implicitDefEqProofs := false) [h]; done) | (simp_all (maxDischargeDepth := 9) (implicitDefEqProofs := false) [cacheShaped]; done)

@[simp] theorem arriveWaiting_cacheShaped (q : List (List Byte)) (s : State) (h : cacheShaped s.readPath.cache) : cacheShaped (arriveWaiting q s).readPath.cache :=
  arriveWaiting_induct (Q := fun s => cacheShaped s.readPath.cache) (fun s b _ h => by simp (implicitDefEqProofs := false) [h]) (fun s q h => by simp (implicitDefEqProofs := false) [h]) q s h

@[simp] theorem presentRecord_cacheShaped (record : List Byte) (s : State) (h : cacheShaped s.readPath.cache) : cacheShaped (presentRecord record s).readPath.cache := by
  unfold presentRecord
  (try dsimp only) <;> (repeat' split) <;> first | (simp (maxDischargeDepth := 9) (implicitDefEqProofs := false) [h]; done) | (simp_all (maxDischargeDepth := 9) (implicitDefEqProofs := false) [cacheShaped]; done)

@[simp] theorem finish_cacheShaped (a s : State) (h : cacheShaped s.readPath.cache) : cacheShaped (finish a s).readPath.cache := by
  simp (maxDischargeDepth := 9) (implicitDefEqProofs := false) [finish, h]

@[simp] theorem beginDrain_cacheShaped (c : DrainCause) (s : State) (h : cacheShaped s.readPath.cache) : cacheShaped (beginDrain c s).readPath.cache := by
  unfold beginDrain
  (try dsimp only) <;> (repeat' split) <;> first | (simp (maxDischargeDepth := 9) (implicitDefEqProofs := false) [h]; done) | (simp_all (maxDischargeDepth := 9) (implicitDefEqProofs := false) [cacheShaped]; done)

theorem foldReads_cacheShaped (st : PendingRead → ResponseStatus) (d : PendingRead → List Byte) (rs : List PendingRead) :
    ∀ s : State, cacheShaped s.readPath.cache → cacheShaped (rs.foldl (fun t r => becomeReady r.tag (st r) (d r) t) s).readPath.cache := by
  induction rs with
  | nil => intro s h; exact h
  | cons r rs ih => intro s h; exact ih _ (by simp (implicitDefEqProofs := false) [h])

@[simp] theorem faultReads_cacheShaped (s : State) (h : cacheShaped s.readPath.cache) : cacheShaped (faultReads s).readPath.cache := by
  unfold faultReads
  exact foldReads_cacheShaped (fun _ => .fail .fault) (fun _ => []) _ _ (by simp (implicitDefEqProofs := false) [h])

@[simp] theorem requestFault_cacheShaped (s : State) (h : cacheShaped s.readPath.cache) : cacheShaped (requestFault s).readPath.cache := by
  unfold requestFault
  (try dsimp only) <;> (repeat' split) <;> first | (simp (maxDischargeDepth := 9) (implicitDefEqProofs := false) [h]; done) | (simp_all (maxDischargeDepth := 9) (implicitDefEqProofs := false) [cacheShaped]; done)

@[simp] theorem resetLineLow_cacheShaped (s : State) (h : cacheShaped s.readPath.cache) : cacheShaped (resetLineLow s).readPath.cache := by
  unfold resetLineLow
  (try dsimp only) <;> (repeat' split) <;> first | (simp (maxDischargeDepth := 9) (implicitDefEqProofs := false) [h]; done) | (simp_all (maxDischargeDepth := 9) (implicitDefEqProofs := false) [cacheShaped]; done)

@[simp] theorem softResetActs_cacheShaped (s : State) (h : cacheShaped s.readPath.cache) : cacheShaped (softResetActs s).readPath.cache := by
  unfold softResetActs
  (try dsimp only) <;> (repeat' split) <;> first | (simp (maxDischargeDepth := 9) (implicitDefEqProofs := false) [h]; done) | (simp_all (maxDischargeDepth := 9) (implicitDefEqProofs := false) [cacheShaped]; done)

@[simp] theorem strapCheck_cacheShaped (asz : BitVec 2) (s : State) (h : cacheShaped s.readPath.cache) : cacheShaped (strapCheck asz s).readPath.cache := by
  unfold strapCheck
  (try dsimp only) <;> (repeat' split) <;> first | (simp (maxDischargeDepth := 9) (implicitDefEqProofs := false) [h]; done) | (simp_all (maxDischargeDepth := 9) (implicitDefEqProofs := false) [cacheShaped]; done)

@[simp] theorem readyWaitDone_cacheShaped (asz : BitVec 2) (s : State) (h : cacheShaped s.readPath.cache) : cacheShaped (readyWaitDone asz s).readPath.cache := by
  unfold readyWaitDone
  (try dsimp only) <;> (repeat' split) <;> first | (simp (maxDischargeDepth := 9) (implicitDefEqProofs := false) [h]; done) | (simp_all (maxDischargeDepth := 9) (implicitDefEqProofs := false) [cacheShaped]; done)

@[simp] theorem doFlush_cacheShaped (s : State) (h : cacheShaped s.readPath.cache) : cacheShaped (doFlush s).readPath.cache := by
  unfold doFlush
  (try dsimp only) <;> (repeat' split) <;> first | (simp (maxDischargeDepth := 9) (implicitDefEqProofs := false) [h]; done) | (simp_all (maxDischargeDepth := 9) (implicitDefEqProofs := false) [cacheShaped]; done)

@[simp] theorem doSoftReset_cacheShaped (s : State) (h : cacheShaped s.readPath.cache) : cacheShaped (doSoftReset s).readPath.cache := by
  unfold doSoftReset
  (try dsimp only) <;> (repeat' split) <;> first | (simp (maxDischargeDepth := 9) (implicitDefEqProofs := false) [h]; done) | (simp_all (maxDischargeDepth := 9) (implicitDefEqProofs := false) [cacheShaped]; done)

@[simp] theorem act_cacheShaped (c : CommandName) (args : List Byte) (s : State) (h : cacheShaped s.readPath.cache) :
    cacheShaped (c.act args s).readPath.cache := by
  cases c <;> simp (maxDischargeDepth := 9) (implicitDefEqProofs := false) [CommandName.act, h]

@[simp] theorem decideCommand_cacheShaped (c : CommandName) (args : List Byte) (s : State) (h : cacheShaped s.readPath.cache) :
    cacheShaped (decideCommand c args s).readPath.cache := by
  unfold decideCommand
  (repeat' split) <;> simp (implicitDefEqProofs := false) [h]

@[simp] theorem decideFrame_cacheShaped (c : Option CommandName) (args : List Byte) (s : State) (h : cacheShaped s.readPath.cache) : cacheShaped (decideFrame c args s).readPath.cache := by
  unfold decideFrame
  (try dsimp only) <;> (repeat' split) <;> first | (simp (maxDischargeDepth := 9) (implicitDefEqProofs := false) [h]; done) | (simp_all (maxDischargeDepth := 9) (implicitDefEqProofs := false) [cacheShaped]; done)

@[simp] theorem endFrame_cacheShaped (c : Option CommandName) (args : List Byte) (s : State) (h : cacheShaped s.readPath.cache) : cacheShaped (endFrame c args s).readPath.cache := by
  unfold endFrame
  (try dsimp only) <;> (repeat' split) <;> first | (simp (maxDischargeDepth := 9) (implicitDefEqProofs := false) [h]; done) | (simp_all (maxDischargeDepth := 9) (implicitDefEqProofs := false) [cacheShaped]; done)

@[simp] theorem recover_cacheShaped (s : State) (h : cacheShaped s.readPath.cache) : cacheShaped (recover s).readPath.cache := by
  unfold recover
  (try dsimp only) <;> (repeat' split) <;> first | (simp (maxDischargeDepth := 9) (implicitDefEqProofs := false) [h]; done) | (simp_all (maxDischargeDepth := 9) (implicitDefEqProofs := false) [cacheShaped]; done)

@[simp] theorem powerHigh_cacheShaped (s : State) (h : cacheShaped s.readPath.cache) : cacheShaped (powerHigh s).readPath.cache := by
  unfold powerHigh
  (try dsimp only) <;> (repeat' split) <;> first | (simp (maxDischargeDepth := 9) (implicitDefEqProofs := false) [h]; done) | (simp_all (maxDischargeDepth := 9) (implicitDefEqProofs := false) [cacheShaped]; done)

@[simp] theorem qualified_cacheShaped (s : State) (h : cacheShaped s.readPath.cache) : cacheShaped (qualified s).readPath.cache := by
  unfold qualified
  (try dsimp only) <;> (repeat' split) <;> first | (simp (maxDischargeDepth := 9) (implicitDefEqProofs := false) [h]; done) | (simp_all (maxDischargeDepth := 9) (implicitDefEqProofs := false) [cacheShaped]; done)

@[simp] theorem qualify_cacheShaped (s : State) (h : cacheShaped s.readPath.cache) : cacheShaped (qualify s).readPath.cache := by
  unfold qualify
  (try dsimp only) <;> (repeat' split) <;> first | (simp (maxDischargeDepth := 9) (implicitDefEqProofs := false) [h]; done) | (simp_all (maxDischargeDepth := 9) (implicitDefEqProofs := false) [cacheShaped]; done)

@[simp] theorem resetEdge_cacheShaped (s : State) (h : cacheShaped s.readPath.cache) : cacheShaped (resetEdge s).readPath.cache := by
  unfold resetEdge
  (try dsimp only) <;> (repeat' split) <;> first | (simp (maxDischargeDepth := 9) (implicitDefEqProofs := false) [h]; done) | (simp_all (maxDischargeDepth := 9) (implicitDefEqProofs := false) [cacheShaped]; done)

@[simp] theorem resetRise_cacheShaped (s : State) (h : cacheShaped s.readPath.cache) : cacheShaped (resetRise s).readPath.cache := by
  unfold resetRise
  (try dsimp only) <;> (repeat' split) <;> first | (simp (maxDischargeDepth := 9) (implicitDefEqProofs := false) [h]; done) | (simp_all (maxDischargeDepth := 9) (implicitDefEqProofs := false) [cacheShaped]; done)

@[simp] theorem powerUp_cacheShaped (s : State) (h : cacheShaped s.readPath.cache) : cacheShaped (powerUp s).readPath.cache := by
  unfold powerUp
  simp (maxDischargeDepth := 9) (implicitDefEqProofs := false) [h]

@[simp] theorem resetExpiry_cacheShaped (s : State) (h : cacheShaped s.readPath.cache) : cacheShaped (resetExpiry s).readPath.cache := by
  unfold resetExpiry
  (try dsimp only) <;> (repeat' split) <;> first | (simp (maxDischargeDepth := 9) (implicitDefEqProofs := false) [h]; done) | (simp_all (maxDischargeDepth := 9) (implicitDefEqProofs := false) [cacheShaped]; done)

@[simp] theorem slotExpiry_cacheShaped (i : Nat) (s : State) (h : cacheShaped s.readPath.cache) : cacheShaped (slotExpiry i s).readPath.cache := by
  unfold slotExpiry
  (try dsimp only) <;> (repeat' split) <;> first | (simp (maxDischargeDepth := 9) (implicitDefEqProofs := false) [h]; done) | (simp_all (maxDischargeDepth := 9) (implicitDefEqProofs := false) [cacheShaped]; done)

@[simp] theorem endDemand_cacheShaped (p : Nat) (s : State) (h : cacheShaped s.readPath.cache) : cacheShaped (endDemand p s).readPath.cache := by
  unfold endDemand
  (try dsimp only) <;> (repeat' split) <;> first | (simp (maxDischargeDepth := 9) (implicitDefEqProofs := false) [h]; done) | (simp_all (maxDischargeDepth := 9) (implicitDefEqProofs := false) [cacheShaped]; done)

@[simp] theorem offerCache_cacheShaped (x p : Nat) (d : List Byte) (s : State) (h : cacheShaped s.readPath.cache)
    (hd : d.length = 256) : cacheShaped (offerCache x p d s).readPath.cache := by
  unfold offerCache
  split <;> simp [h, hd]

@[simp] theorem offerFor_cacheShaped (rs : List PendingRead) (p : Nat) (d : List Byte) (s : State)
    (h : cacheShaped s.readPath.cache) (hd : d.length = 256) : cacheShaped (offerFor rs p d s).readPath.cache := by
  unfold offerFor
  split <;> simp [h, hd]

@[simp] theorem demandSuccess_cacheShaped (p : Nat) (d : List Byte) (s : State) (h : cacheShaped s.readPath.cache)
    (hd : d.length = 256) : cacheShaped (demandSuccess p d s).readPath.cache := by
  unfold demandSuccess
  simp (implicitDefEqProofs := false) [foldReads_keeps (fun _ => .ok) (fun r => fillRecord r.first d r.bytes), h, hd]

@[simp] theorem demandFailure_cacheShaped (p : Nat) (s : State) (h : cacheShaped s.readPath.cache) : cacheShaped (demandFailure p s).readPath.cache := by
  unfold demandFailure
  simp (implicitDefEqProofs := false) [foldReads_keeps (fun _ => .fail .media) (fun _ => []), h]

@[simp] theorem repeatDemand_cacheShaped (p : Nat) (s : State) (h : cacheShaped s.readPath.cache) : cacheShaped (repeatDemand p s).readPath.cache := by
  unfold repeatDemand
  (try dsimp only) <;> (repeat' split) <;> first | (simp (maxDischargeDepth := 9) (implicitDefEqProofs := false) [h]; done) | (simp_all (maxDischargeDepth := 9) (implicitDefEqProofs := false) [cacheShaped]; done)

theorem demandDone_cacheShaped (p : Nat) (st : ArrayStatus) (d sp : List Byte) (s : State) (h : cacheShaped s.readPath.cache)
    (hd : st = .pass → d.length = 256) : cacheShaped (demandDone p st d sp s).readPath.cache := by
  unfold demandDone
  split
  · rename_i hg
    have hp : d.length = 256 := by
      apply hd
      cases st
      · rfl
      · simp [goodPage] at hg
    simp [h, hp]
  · split <;> simp [h]

@[simp] theorem commitMarkDone_cacheShaped (st : ArrayStatus) (s : State) (h : cacheShaped s.readPath.cache)
    (hs : s.staging.shaped) : cacheShaped (commitMarkDone st s).readPath.cache := by
  unfold commitMarkDone
  (repeat' split) <;> simp [h, hs]

@[simp] theorem timeoutTwice_cacheShaped (s : State) (h : cacheShaped s.readPath.cache) : cacheShaped (timeoutTwice s).readPath.cache := by
  unfold timeoutTwice
  (try dsimp only) <;> (repeat' split) <;> first | (simp (maxDischargeDepth := 9) (implicitDefEqProofs := false) [h]; done) | (simp_all (maxDischargeDepth := 9) (implicitDefEqProofs := false) [cacheShaped]; done)

end

section
/-! ## maint -/

/-- An active configuration, where there is one, has 256 bytes. -/
def activeShaped (a : Option (List Byte)) : Prop := ∀ r, a = some r → r.length = 256

/-- A job exactly while BUSY, its record of 256 bytes. -/
def jobShaped (c : CommitState) (j : Option CommitJob) : Prop :=
  (c = .busy ↔ j.isSome = true) ∧ ∀ x, j = some x → x.record.length = 256

@[simp] theorem maint_mk_shaped (lr : Option MaintResponse) (b : List Byte) (c : CommitState) (j : Option CommitJob)
    (cs : Option CopyStatus) (a : Option (List Byte)) (k : Counters) (f : MaintFlags) (l : Option LossRecord) (m : BitVec 2)
    (t : Transaction) :
    Maintenance.shaped { lastResponse := lr, buffer := b, commitState := c, job := j, copyStatus := cs, active := a,
                         counters := k, flags := f, loss := l, madr := m, transaction := t } ↔
      b.length = 256 ∧ activeShaped a ∧ jobShaped c j := Iff.rfl

@[simp] theorem maint_buffer_length (m : Maintenance) (h : m.shaped) : m.buffer.length = 256 := h.1
@[simp] theorem maint_active_shaped (m : Maintenance) (h : m.shaped) : activeShaped m.active := h.2.1
@[simp] theorem maint_job_shaped (m : Maintenance) (h : m.shaped) : jobShaped m.commitState m.job := h.2.2
@[simp] theorem activeShaped_none : activeShaped none := fun _ h => nomatch h
@[simp] theorem activeShaped_some (r : List Byte) (h : r.length = 256) : activeShaped (some r) := by
  intro x hx; cases hx; exact h
@[simp] theorem jobShaped_busy (j : CommitJob) (h : j.record.length = 256) : jobShaped .busy (some j) :=
  ⟨by simp, fun x hx => by cases hx; exact h⟩
@[simp] theorem jobShaped_idle : jobShaped .idle none := ⟨by simp, fun _ h => nomatch h⟩
@[simp] theorem jobShaped_done : jobShaped .done none := ⟨by simp, fun _ h => nomatch h⟩
@[simp] theorem jobShaped_failed : jobShaped .failed none := ⟨by simp, fun _ h => nomatch h⟩

@[simp] theorem afterReset_shaped (c : Counters) (f : MaintFlags) (m : BitVec 2) (t : Transaction) :
    (Maintenance.afterReset c f m t).shaped := by
  simp [Maintenance.afterReset]

@[simp] theorem maintAfterReset_shaped (s : State) (c : ResetCause) : (s.maintAfterReset c).shaped := by
  unfold State.maintAfterReset
  split <;> simp

@[simp] theorem failCommit_shaped (b : Bool) (j : CommitJob) (m : Maintenance) (h : m.shaped) :
    (failCommit b j m).shaped := by
  simp [failCommit, h]

@[simp] theorem commitAtFault_shaped (s : State) (h : s.maint.shaped) : s.commitAtFault.shaped := by
  unfold State.commitAtFault
  split <;> simp [h]

/-- A job that is under way has 256 bytes, and the commit is BUSY (R194). -/
theorem job_busy (m : Maintenance) (h : m.shaped) (j : CommitJob) (hj : m.job = some j) :
    m.commitState = .busy ∧ j.record.length = 256 := ⟨h.2.2.1.2 (by simp [hj]), h.2.2.2 j hj⟩


@[simp] theorem setCounters_maintShaped (c : Counters) (s : State) (h : s.maint.shaped) : (setCounters c s).maint.shaped := by
  unfold setCounters
  (try dsimp only) <;> (repeat' split) <;> first | (simp (maxDischargeDepth := 9) (implicitDefEqProofs := false) [h]; done) | (simp_all (maxDischargeDepth := 9) (implicitDefEqProofs := false) [Maintenance.shaped]; done)

@[simp] theorem countProgram_maintShaped (s : State) (h : s.maint.shaped) : (countProgram s).maint.shaped := by
  unfold countProgram
  (try dsimp only) <;> (repeat' split) <;> first | (simp (maxDischargeDepth := 9) (implicitDefEqProofs := false) [h]; done) | (simp_all (maxDischargeDepth := 9) (implicitDefEqProofs := false) [Maintenance.shaped]; done)

@[simp] theorem countErase_maintShaped (s : State) (h : s.maint.shaped) : (countErase s).maint.shaped := by
  unfold countErase
  (try dsimp only) <;> (repeat' split) <;> first | (simp (maxDischargeDepth := 9) (implicitDefEqProofs := false) [h]; done) | (simp_all (maxDischargeDepth := 9) (implicitDefEqProofs := false) [Maintenance.shaped]; done)

@[simp] theorem countMediaError_maintShaped (s : State) (h : s.maint.shaped) : (countMediaError s).maint.shaped := by
  unfold countMediaError
  (try dsimp only) <;> (repeat' split) <;> first | (simp (maxDischargeDepth := 9) (implicitDefEqProofs := false) [h]; done) | (simp_all (maxDischargeDepth := 9) (implicitDefEqProofs := false) [Maintenance.shaped]; done)

@[simp] theorem countMergeLoss_maintShaped (s : State) (h : s.maint.shaped) : (countMergeLoss s).maint.shaped := by
  unfold countMergeLoss
  (try dsimp only) <;> (repeat' split) <;> first | (simp (maxDischargeDepth := 9) (implicitDefEqProofs := false) [h]; done) | (simp_all (maxDischargeDepth := 9) (implicitDefEqProofs := false) [Maintenance.shaped]; done)

@[simp] theorem countGuardRefusal_maintShaped (s : State) (h : s.maint.shaped) : (countGuardRefusal s).maint.shaped := by
  unfold countGuardRefusal
  (try dsimp only) <;> (repeat' split) <;> first | (simp (maxDischargeDepth := 9) (implicitDefEqProofs := false) [h]; done) | (simp_all (maxDischargeDepth := 9) (implicitDefEqProofs := false) [Maintenance.shaped]; done)

@[simp] theorem countAgain_maintShaped (s : State) (h : s.maint.shaped) : (countAgain s).maint.shaped := by
  unfold countAgain
  (try dsimp only) <;> (repeat' split) <;> first | (simp (maxDischargeDepth := 9) (implicitDefEqProofs := false) [h]; done) | (simp_all (maxDischargeDepth := 9) (implicitDefEqProofs := false) [Maintenance.shaped]; done)

@[simp] theorem countRetired_maintShaped (s : State) (h : s.maint.shaped) : (countRetired s).maint.shaped := by
  unfold countRetired
  (try dsimp only) <;> (repeat' split) <;> first | (simp (maxDischargeDepth := 9) (implicitDefEqProofs := false) [h]; done) | (simp_all (maxDischargeDepth := 9) (implicitDefEqProofs := false) [Maintenance.shaped]; done)

@[simp] theorem countGlitch_maintShaped (s : State) (h : s.maint.shaped) : (countGlitch s).maint.shaped := by
  unfold countGlitch
  (try dsimp only) <;> (repeat' split) <;> first | (simp (maxDischargeDepth := 9) (implicitDefEqProofs := false) [h]; done) | (simp_all (maxDischargeDepth := 9) (implicitDefEqProofs := false) [Maintenance.shaped]; done)

@[simp] theorem latchProtocolFault_maintShaped (s : State) (h : s.maint.shaped) : (latchProtocolFault s).maint.shaped := by
  unfold latchProtocolFault
  (try dsimp only) <;> (repeat' split) <;> first | (simp (maxDischargeDepth := 9) (implicitDefEqProofs := false) [h]; done) | (simp_all (maxDischargeDepth := 9) (implicitDefEqProofs := false) [Maintenance.shaped]; done)

@[simp] theorem beginMount_maintShaped (s : State) (h : s.maint.shaped) : (beginMount s).maint.shaped := by
  unfold beginMount
  (try dsimp only) <;> (repeat' split) <;> first | (simp (maxDischargeDepth := 9) (implicitDefEqProofs := false) [h]; done) | (simp_all (maxDischargeDepth := 9) (implicitDefEqProofs := false) [Maintenance.shaped]; done)

@[simp] theorem resetBlocks_maintShaped (c : ResetCause) (o : DrainOutcome) (s : State) : (resetBlocks c o s).maint.shaped :=
  maintAfterReset_shaped s c

@[simp] theorem resetCompletion_maintShaped (c : ResetCause) (o : DrainOutcome) (s : State) (h : s.maint.shaped) : (resetCompletion c o s).maint.shaped := by
  unfold resetCompletion
  (try dsimp only) <;> (repeat' split) <;> first | (simp (maxDischargeDepth := 9) (implicitDefEqProofs := false) [h]; done) | (simp_all (maxDischargeDepth := 9) (implicitDefEqProofs := false) [Maintenance.shaped]; done)

@[simp] theorem drainEnd_maintShaped (s : State) (h : s.maint.shaped) : (drainEnd s).maint.shaped := by
  unfold drainEnd
  (try dsimp only) <;> (repeat' split) <;> first | (simp (maxDischargeDepth := 9) (implicitDefEqProofs := false) [h]; done) | (simp_all (maxDischargeDepth := 9) (implicitDefEqProofs := false) [Maintenance.shaped]; done)

@[simp] theorem retirePage_maintShaped (p : Nat) (s : State) (h : s.maint.shaped) : (retirePage p s).maint.shaped := by
  unfold retirePage
  (try dsimp only) <;> (repeat' split) <;> first | (simp (maxDischargeDepth := 9) (implicitDefEqProofs := false) [h]; done) | (simp_all (maxDischargeDepth := 9) (implicitDefEqProofs := false) [Maintenance.shaped]; done)

@[simp] theorem holdWriting_maintShaped (i : Nat) (r : HoldReason) (s : State) (h : s.maint.shaped) : (holdWriting i r s).maint.shaped := by
  unfold holdWriting
  (try dsimp only) <;> (repeat' split) <;> first | (simp (maxDischargeDepth := 9) (implicitDefEqProofs := false) [h]; done) | (simp_all (maxDischargeDepth := 9) (implicitDefEqProofs := false) [Maintenance.shaped]; done)

@[simp] theorem retryWith_maintShaped (i : Nat) (t : Target) (s : State) (h : s.maint.shaped) : (retryWith i t s).maint.shaped := by
  unfold retryWith
  (try dsimp only) <;> (repeat' split) <;> first | (simp (maxDischargeDepth := 9) (implicitDefEqProofs := false) [h]; done) | (simp_all (maxDischargeDepth := 9) (implicitDefEqProofs := false) [Maintenance.shaped]; done)

@[simp] theorem retryWriteBack_maintShaped (i : Nat) (s : State) (h : s.maint.shaped) : (retryWriteBack i s).maint.shaped := by
  unfold retryWriteBack
  (try dsimp only) <;> (repeat' split) <;> first | (simp (maxDischargeDepth := 9) (implicitDefEqProofs := false) [h]; done) | (simp_all (maxDischargeDepth := 9) (implicitDefEqProofs := false) [Maintenance.shaped]; done)

@[simp] theorem attemptFailed_maintShaped (i : Nat) (s : State) (h : s.maint.shaped) : (attemptFailed i s).maint.shaped := by
  unfold attemptFailed
  (try dsimp only) <;> (repeat' split) <;> first | (simp (maxDischargeDepth := 9) (implicitDefEqProofs := false) [h]; done) | (simp_all (maxDischargeDepth := 9) (implicitDefEqProofs := false) [Maintenance.shaped]; done)

@[simp] theorem commitSlot_maintShaped (i : Nat) (s : State) (h : s.maint.shaped) : (commitSlot i s).maint.shaped := by
  unfold commitSlot
  (try dsimp only) <;> (repeat' split) <;> first | (simp (maxDischargeDepth := 9) (implicitDefEqProofs := false) [h]; done) | (simp_all (maxDischargeDepth := 9) (implicitDefEqProofs := false) [Maintenance.shaped]; done)

@[simp] theorem settle_maintShaped (s : State) (h : s.maint.shaped) : (settle s).maint.shaped :=
  settle_induct (Q := fun s => s.maint.shaped) (fun s t ht h => by
    rcases reexamine_cases s t ht with ⟨_, _, rfl⟩ | ⟨i, _, _, rfl⟩ | ⟨i, _, _, _, rfl⟩ | ⟨i, _, _, rfl⟩ | ⟨p, _, rfl⟩ <;>
      simp (implicitDefEqProofs := false) [h]) s h

@[simp] theorem judge_maintShaped (r : Request) (s : State) (h : s.maint.shaped) : (judge r s).maint.shaped := by
  unfold judge
  (try dsimp only) <;> (repeat' split) <;> first | (simp (maxDischargeDepth := 9) (implicitDefEqProofs := false) [h]; done) | (simp_all (maxDischargeDepth := 9) (implicitDefEqProofs := false) [Maintenance.shaped]; done)

@[simp] theorem placeUnjudged_maintShaped (r : Request) (s : State) (h : s.maint.shaped) : (placeUnjudged r s).maint.shaped := by
  unfold placeUnjudged
  (try dsimp only) <;> (repeat' split) <;> first | (simp (maxDischargeDepth := 9) (implicitDefEqProofs := false) [h]; done) | (simp_all (maxDischargeDepth := 9) (implicitDefEqProofs := false) [Maintenance.shaped]; done)

@[simp] theorem placeHead_maintShaped (e : Entry) (s : State) (h : s.maint.shaped) : (placeHead e s).maint.shaped := by
  unfold placeHead
  (try dsimp only) <;> (repeat' split) <;> first | (simp (maxDischargeDepth := 9) (implicitDefEqProofs := false) [h]; done) | (simp_all (maxDischargeDepth := 9) (implicitDefEqProofs := false) [Maintenance.shaped]; done)

@[simp] theorem placements_maintShaped (a s : State) (h : s.maint.shaped) : (placements a s).maint.shaped :=
  placements_induct (Q := fun s => s.maint.shaped) (fun s e _ h => by simp (implicitDefEqProofs := false) [h]) (fun s h => by simp (implicitDefEqProofs := false) [h]) a s h

@[simp] theorem oweAgain_maintShaped (tag : Nat) (s : State) (h : s.maint.shaped) : (oweAgain tag s).maint.shaped := by
  unfold oweAgain
  (try dsimp only) <;> (repeat' split) <;> first | (simp (maxDischargeDepth := 9) (implicitDefEqProofs := false) [h]; done) | (simp_all (maxDischargeDepth := 9) (implicitDefEqProofs := false) [Maintenance.shaped]; done)

@[simp] theorem arrive_maintShaped (record : List Byte) (s : State) (h : s.maint.shaped) : (arrive record s).maint.shaped := by
  unfold arrive
  (try dsimp only) <;> (repeat' split) <;> first | (simp (maxDischargeDepth := 9) (implicitDefEqProofs := false) [h]; done) | (simp_all (maxDischargeDepth := 9) (implicitDefEqProofs := false) [Maintenance.shaped]; done)

@[simp] theorem arriveWaiting_maintShaped (q : List (List Byte)) (s : State) (h : s.maint.shaped) : (arriveWaiting q s).maint.shaped :=
  arriveWaiting_induct (Q := fun s => s.maint.shaped) (fun s b _ h => by simp (implicitDefEqProofs := false) [h]) (fun s q h => by simp (implicitDefEqProofs := false) [h]) q s h

@[simp] theorem presentRecord_maintShaped (record : List Byte) (s : State) (h : s.maint.shaped) : (presentRecord record s).maint.shaped := by
  unfold presentRecord
  (try dsimp only) <;> (repeat' split) <;> first | (simp (maxDischargeDepth := 9) (implicitDefEqProofs := false) [h]; done) | (simp_all (maxDischargeDepth := 9) (implicitDefEqProofs := false) [Maintenance.shaped]; done)

@[simp] theorem finish_maintShaped (a s : State) (h : s.maint.shaped) : (finish a s).maint.shaped := by
  simp (maxDischargeDepth := 9) (implicitDefEqProofs := false) [finish, h]

@[simp] theorem requestFault_maintShaped (s : State) (h : s.maint.shaped) : (requestFault s).maint.shaped := by
  unfold requestFault
  (try dsimp only) <;> (repeat' split) <;> first | (simp (maxDischargeDepth := 9) (implicitDefEqProofs := false) [h]; done) | (simp_all (maxDischargeDepth := 9) (implicitDefEqProofs := false) [Maintenance.shaped]; done)

@[simp] theorem resetLineLow_maintShaped (s : State) (h : s.maint.shaped) : (resetLineLow s).maint.shaped := by
  unfold resetLineLow
  (try dsimp only) <;> (repeat' split) <;> first | (simp (maxDischargeDepth := 9) (implicitDefEqProofs := false) [h]; done) | (simp_all (maxDischargeDepth := 9) (implicitDefEqProofs := false) [Maintenance.shaped]; done)

@[simp] theorem softResetActs_maintShaped (s : State) (h : s.maint.shaped) : (softResetActs s).maint.shaped := by
  unfold softResetActs
  (try dsimp only) <;> (repeat' split) <;> first | (simp (maxDischargeDepth := 9) (implicitDefEqProofs := false) [h]; done) | (simp_all (maxDischargeDepth := 9) (implicitDefEqProofs := false) [Maintenance.shaped]; done)

@[simp] theorem strapCheck_maintShaped (asz : BitVec 2) (s : State) (h : s.maint.shaped) : (strapCheck asz s).maint.shaped := by
  unfold strapCheck
  split
  · simp [h]
  · apply requestFault_maintShaped
    simp [h]

@[simp] theorem readyWaitDone_maintShaped (asz : BitVec 2) (s : State) (h : s.maint.shaped) : (readyWaitDone asz s).maint.shaped := by
  unfold readyWaitDone
  (try dsimp only) <;> (repeat' split) <;> first | (simp (maxDischargeDepth := 9) (implicitDefEqProofs := false) [h]; done) | (simp_all (maxDischargeDepth := 9) (implicitDefEqProofs := false) [Maintenance.shaped]; done)

@[simp] theorem applySelection_maintShaped (sel : Selection) (s : State) (h : s.maint.shaped) (hr : sel.record.length = 256) :
    (applySelection sel s).maint.shaped := by
  simp [applySelection, h, hr]

@[simp] theorem selectActive_maintShaped (s : State) (h : s.maint.shaped) (ha : s.mount.copyA.shaped)
    (hb : s.mount.copyB.shaped) : (selectActive s).maint.shaped :=
  applySelection_maintShaped _ s h (selectConfig_record_length _ _ _ ha hb)

theorem configCopyRead_maintShaped (st : ArrayStatus) (d : List Byte) (s : State) (h : s.maint.shaped)
    (hm : s.mount.shaped) (hd : st = .pass → d.length = 256) : (configCopyRead st d s).maint.shaped := by
  unfold configCopyRead
  split
  · simp [h]
  · simp [h]
  · simp [h]
  · rename_i r hp hr
    have g := copyVerdict_shaped s st d r hd hr
    exact selectActive_maintShaped _ h hm.1 g
  · exact h

@[simp] theorem respond_maintShaped (c : Completion) (d : List Byte) (s : State) (h : s.maint.shaped) : (respond c d s).maint.shaped := by
  unfold respond
  (try dsimp only) <;> (repeat' split) <;> first | (simp (maxDischargeDepth := 9) (implicitDefEqProofs := false) [h]; done) | (simp_all (maxDischargeDepth := 9) (implicitDefEqProofs := false) [Maintenance.shaped]; done)

@[simp] theorem setFlags_maintShaped (f : MaintFlags) (s : State) (h : s.maint.shaped) : (setFlags f s).maint.shaped := by
  unfold setFlags
  (try dsimp only) <;> (repeat' split) <;> first | (simp (maxDischargeDepth := 9) (implicitDefEqProofs := false) [h]; done) | (simp_all (maxDischargeDepth := 9) (implicitDefEqProofs := false) [Maintenance.shaped]; done)

@[simp] theorem setBuffer_maintShaped (b : List Byte) (s : State) (h : s.maint.shaped) (hb : b.length = 256) :
    (setBuffer b s).maint.shaped := by
  simp [setBuffer, h, hb]

@[simp] theorem doStatus_maintShaped (s : State) (h : s.maint.shaped) : (doStatus s).maint.shaped := by
  unfold doStatus
  (try dsimp only) <;> (repeat' split) <;> first | (simp (maxDischargeDepth := 9) (implicitDefEqProofs := false) [h]; done) | (simp_all (maxDischargeDepth := 9) (implicitDefEqProofs := false) [Maintenance.shaped]; done)

@[simp] theorem doCounters_maintShaped (s : State) (h : s.maint.shaped) : (doCounters s).maint.shaped := by
  unfold doCounters
  (try dsimp only) <;> (repeat' split) <;> first | (simp (maxDischargeDepth := 9) (implicitDefEqProofs := false) [h]; done) | (simp_all (maxDischargeDepth := 9) (implicitDefEqProofs := false) [Maintenance.shaped]; done)

@[simp] theorem doClearCounters_maintShaped (s : State) (h : s.maint.shaped) : (doClearCounters s).maint.shaped := by
  unfold doClearCounters
  (try dsimp only) <;> (repeat' split) <;> first | (simp (maxDischargeDepth := 9) (implicitDefEqProofs := false) [h]; done) | (simp_all (maxDischargeDepth := 9) (implicitDefEqProofs := false) [Maintenance.shaped]; done)

@[simp] theorem doCapture_maintShaped (args : List Byte) (s : State) (h : s.maint.shaped) : (doCapture args s).maint.shaped := by
  unfold doCapture
  (try dsimp only) <;> (repeat' split) <;> first | (simp (maxDischargeDepth := 9) (implicitDefEqProofs := false) [h]; done) | (simp_all (maxDischargeDepth := 9) (implicitDefEqProofs := false) [Maintenance.shaped]; done)

@[simp] theorem doClearCapture_maintShaped (args : List Byte) (s : State) (h : s.maint.shaped) : (doClearCapture args s).maint.shaped := by
  unfold doClearCapture
  (try dsimp only) <;> (repeat' split) <;> first | (simp (maxDischargeDepth := 9) (implicitDefEqProofs := false) [h]; done) | (simp_all (maxDischargeDepth := 9) (implicitDefEqProofs := false) [Maintenance.shaped]; done)

@[simp] theorem doWindowRead_maintShaped (args : List Byte) (s : State) (h : s.maint.shaped) : (doWindowRead args s).maint.shaped := by
  unfold doWindowRead
  (try dsimp only) <;> (repeat' split) <;> first | (simp (maxDischargeDepth := 9) (implicitDefEqProofs := false) [h]; done) | (simp_all (maxDischargeDepth := 9) (implicitDefEqProofs := false) [Maintenance.shaped]; done)

@[simp] theorem doWindowSet_maintShaped (args : List Byte) (s : State) (h : s.maint.shaped) : (doWindowSet args s).maint.shaped := by
  unfold doWindowSet
  (try dsimp only) <;> (repeat' split) <;> first | (simp (maxDischargeDepth := 9) (implicitDefEqProofs := false) [h]; done) | (simp_all (maxDischargeDepth := 9) (implicitDefEqProofs := false) [Maintenance.shaped]; done)

@[simp] theorem doMapQuery_maintShaped (args : List Byte) (s : State) (h : s.maint.shaped) : (doMapQuery args s).maint.shaped := by
  unfold doMapQuery
  (try dsimp only) <;> (repeat' split) <;> first | (simp (maxDischargeDepth := 9) (implicitDefEqProofs := false) [h]; done) | (simp_all (maxDischargeDepth := 9) (implicitDefEqProofs := false) [Maintenance.shaped]; done)

@[simp] theorem doFlush_maintShaped (s : State) (h : s.maint.shaped) : (doFlush s).maint.shaped := by
  unfold doFlush
  (try dsimp only) <;> (repeat' split) <;> first | (simp (maxDischargeDepth := 9) (implicitDefEqProofs := false) [h]; done) | (simp_all (maxDischargeDepth := 9) (implicitDefEqProofs := false) [Maintenance.shaped]; done)

@[simp] theorem doLossRead_maintShaped (s : State) (h : s.maint.shaped) : (doLossRead s).maint.shaped := by
  unfold doLossRead
  (try dsimp only) <;> (repeat' split) <;> first | (simp (maxDischargeDepth := 9) (implicitDefEqProofs := false) [h]; done) | (simp_all (maxDischargeDepth := 9) (implicitDefEqProofs := false) [Maintenance.shaped]; done)

@[simp] theorem doConfigLoad_maintShaped (s : State) (h : s.maint.shaped) : (doConfigLoad s).maint.shaped := by
  unfold doConfigLoad
  split
  · rename_i r hr
    simp [h, h.2.1 r hr]
  · simp [h]

@[simp] theorem doConfigRead_maintShaped (args : List Byte) (s : State) (h : s.maint.shaped) : (doConfigRead args s).maint.shaped := by
  unfold doConfigRead
  (try dsimp only) <;> (repeat' split) <;> first | (simp (maxDischargeDepth := 9) (implicitDefEqProofs := false) [h]; done) | (simp_all (maxDischargeDepth := 9) (implicitDefEqProofs := false) [Maintenance.shaped]; done)

@[simp] theorem doConfigWrite_maintShaped (args : List Byte) (s : State) (h : s.maint.shaped) : (doConfigWrite args s).maint.shaped := by
  unfold doConfigWrite
  (try dsimp only) <;> (repeat' split) <;> first | (simp (maxDischargeDepth := 9) (implicitDefEqProofs := false) [h]; done) | (simp_all (maxDischargeDepth := 9) (implicitDefEqProofs := false) [Maintenance.shaped]; done)

@[simp] theorem beginCommit_maintShaped (s : State) (h : s.maint.shaped) : (beginCommit s).maint.shaped := by
  unfold beginCommit
  (try dsimp only) <;> (repeat' split) <;> first | (simp (maxDischargeDepth := 9) (implicitDefEqProofs := false) [h]; done) | (simp_all (maxDischargeDepth := 9) (implicitDefEqProofs := false) [Maintenance.shaped]; done)

@[simp] theorem doConfigCommit_maintShaped (s : State) (h : s.maint.shaped) (hb : s.maint.commitState ≠ .busy) :
    (doConfigCommit s).maint.shaped := by
  unfold doConfigCommit
  split
  · simp [h]
  · have hj : s.maint.job = none := by
      rcases hj : s.maint.job with _ | j
      · rfl
      · exact absurd (job_busy _ h j hj).1 hb
    simp [respond, h, hj]

@[simp] theorem doResetCause_maintShaped (s : State) (h : s.maint.shaped) : (doResetCause s).maint.shaped := by
  unfold doResetCause
  (try dsimp only) <;> (repeat' split) <;> first | (simp (maxDischargeDepth := 9) (implicitDefEqProofs := false) [h]; done) | (simp_all (maxDischargeDepth := 9) (implicitDefEqProofs := false) [Maintenance.shaped]; done)

@[simp] theorem doSoftReset_maintShaped (s : State) (h : s.maint.shaped) : (doSoftReset s).maint.shaped := by
  unfold doSoftReset
  (try dsimp only) <;> (repeat' split) <;> first | (simp (maxDischargeDepth := 9) (implicitDefEqProofs := false) [h]; done) | (simp_all (maxDischargeDepth := 9) (implicitDefEqProofs := false) [Maintenance.shaped]; done)

@[simp] theorem decideCommand_maintShaped (c : CommandName) (args : List Byte) (s : State) (h : s.maint.shaped) :
    (decideCommand c args s).maint.shaped := by
  unfold decideCommand
  split
  · simp [h]
  · split
    · rename_i ha
      cases c
      case configCommit =>
        have hb : s.maint.commitState ≠ .busy := by
          simp only [CommandName.kind, State.accepts, Bool.and_eq_true, decide_eq_true_eq] at ha
          exact ha.2
        exact doConfigCommit_maintShaped s h hb
      all_goals simp (maxDischargeDepth := 9) (implicitDefEqProofs := false) [CommandName.act, h]
    · simp [h]

@[simp] theorem setTransaction_maintShaped (t : Transaction) (s : State) (h : s.maint.shaped) : (setTransaction t s).maint.shaped := by
  unfold setTransaction
  (try dsimp only) <;> (repeat' split) <;> first | (simp (maxDischargeDepth := 9) (implicitDefEqProofs := false) [h]; done) | (simp_all (maxDischargeDepth := 9) (implicitDefEqProofs := false) [Maintenance.shaped]; done)

@[simp] theorem decideFrame_maintShaped (c : Option CommandName) (args : List Byte) (s : State) (h : s.maint.shaped) : (decideFrame c args s).maint.shaped := by
  unfold decideFrame
  (try dsimp only) <;> (repeat' split) <;> first | (simp (maxDischargeDepth := 9) (implicitDefEqProofs := false) [h]; done) | (simp_all (maxDischargeDepth := 9) (implicitDefEqProofs := false) [Maintenance.shaped]; done)

@[simp] theorem endFrame_maintShaped (c : Option CommandName) (args : List Byte) (s : State) (h : s.maint.shaped) : (endFrame c args s).maint.shaped := by
  unfold endFrame
  (try dsimp only) <;> (repeat' split) <;> first | (simp (maxDischargeDepth := 9) (implicitDefEqProofs := false) [h]; done) | (simp_all (maxDischargeDepth := 9) (implicitDefEqProofs := false) [Maintenance.shaped]; done)

@[simp] theorem recover_maintShaped (s : State) (h : s.maint.shaped) : (recover s).maint.shaped := by
  unfold recover
  (try dsimp only) <;> (repeat' split) <;> first | (simp (maxDischargeDepth := 9) (implicitDefEqProofs := false) [h]; done) | (simp_all (maxDischargeDepth := 9) (implicitDefEqProofs := false) [Maintenance.shaped]; done)

@[simp] theorem powerHigh_maintShaped (s : State) (h : s.maint.shaped) : (powerHigh s).maint.shaped := by
  unfold powerHigh
  (try dsimp only) <;> (repeat' split) <;> first | (simp (maxDischargeDepth := 9) (implicitDefEqProofs := false) [h]; done) | (simp_all (maxDischargeDepth := 9) (implicitDefEqProofs := false) [Maintenance.shaped]; done)

@[simp] theorem qualified_maintShaped (s : State) (h : s.maint.shaped) : (qualified s).maint.shaped := by
  unfold qualified
  (try dsimp only) <;> (repeat' split) <;> first | (simp (maxDischargeDepth := 9) (implicitDefEqProofs := false) [h]; done) | (simp_all (maxDischargeDepth := 9) (implicitDefEqProofs := false) [Maintenance.shaped]; done)

@[simp] theorem qualify_maintShaped (s : State) (h : s.maint.shaped) : (qualify s).maint.shaped := by
  unfold qualify
  (try dsimp only) <;> (repeat' split) <;> first | (simp (maxDischargeDepth := 9) (implicitDefEqProofs := false) [h]; done) | (simp_all (maxDischargeDepth := 9) (implicitDefEqProofs := false) [Maintenance.shaped]; done)

@[simp] theorem resetEdge_maintShaped (s : State) (h : s.maint.shaped) : (resetEdge s).maint.shaped := by
  unfold resetEdge
  (try dsimp only) <;> (repeat' split) <;> first | (simp (maxDischargeDepth := 9) (implicitDefEqProofs := false) [h]; done) | (simp_all (maxDischargeDepth := 9) (implicitDefEqProofs := false) [Maintenance.shaped]; done)

@[simp] theorem resetRise_maintShaped (s : State) (h : s.maint.shaped) : (resetRise s).maint.shaped := by
  unfold resetRise
  (try dsimp only) <;> (repeat' split) <;> first | (simp (maxDischargeDepth := 9) (implicitDefEqProofs := false) [h]; done) | (simp_all (maxDischargeDepth := 9) (implicitDefEqProofs := false) [Maintenance.shaped]; done)

@[simp] theorem powerUp_maintShaped (s : State) (h : s.maint.shaped) : (powerUp s).maint.shaped := by
  unfold powerUp
  simp (maxDischargeDepth := 9) (implicitDefEqProofs := false) [h]

@[simp] theorem resetExpiry_maintShaped (s : State) (h : s.maint.shaped) : (resetExpiry s).maint.shaped := by
  unfold resetExpiry
  (try dsimp only) <;> (repeat' split) <;> first | (simp (maxDischargeDepth := 9) (implicitDefEqProofs := false) [h]; done) | (simp_all (maxDischargeDepth := 9) (implicitDefEqProofs := false) [Maintenance.shaped]; done)

@[simp] theorem slotExpiry_maintShaped (i : Nat) (s : State) (h : s.maint.shaped) : (slotExpiry i s).maint.shaped := by
  unfold slotExpiry
  (try dsimp only) <;> (repeat' split) <;> first | (simp (maxDischargeDepth := 9) (implicitDefEqProofs := false) [h]; done) | (simp_all (maxDischargeDepth := 9) (implicitDefEqProofs := false) [Maintenance.shaped]; done)

@[simp] theorem reportLoss_maintShaped (x n : Nat) (s : State) (h : s.maint.shaped) : (reportLoss x n s).maint.shaped := by
  unfold reportLoss
  split <;> simp [h]

@[simp] theorem mergeDone_maintShaped (i p : Nat) (st : ArrayStatus) (d sp : List Byte) (s : State) (h : s.maint.shaped) : (mergeDone i p st d sp s).maint.shaped := by
  unfold mergeDone
  (try dsimp only) <;> (repeat' split) <;> first | (simp (maxDischargeDepth := 9) (implicitDefEqProofs := false) [h]; done) | (simp_all (maxDischargeDepth := 9) (implicitDefEqProofs := false) [Maintenance.shaped]; done)

@[simp] theorem demandFailure_maintShaped (p : Nat) (s : State) (h : s.maint.shaped) : (demandFailure p s).maint.shaped := by
  unfold demandFailure
  simp (implicitDefEqProofs := false) [foldReads_keeps (fun _ => .fail .media) (fun _ => []), h]

@[simp] theorem demandDone_maintShaped (p : Nat) (st : ArrayStatus) (d sp : List Byte) (s : State) (h : s.maint.shaped) : (demandDone p st d sp s).maint.shaped := by
  unfold demandDone
  (try dsimp only) <;> (repeat' split) <;> first | (simp (maxDischargeDepth := 9) (implicitDefEqProofs := false) [h]; done) | (simp_all (maxDischargeDepth := 9) (implicitDefEqProofs := false) [Maintenance.shaped]; done)

@[simp] theorem programDone_maintShaped (st : ArrayStatus) (s : State) (h : s.maint.shaped) : (programDone st s).maint.shaped := by
  unfold programDone
  (try dsimp only) <;> (repeat' split) <;> first | (simp (maxDischargeDepth := 9) (implicitDefEqProofs := false) [h]; done) | (simp_all (maxDischargeDepth := 9) (implicitDefEqProofs := false) [Maintenance.shaped]; done)

@[simp] theorem commitMarkDone_maintShaped (st : ArrayStatus) (s : State) (h : s.maint.shaped) : (commitMarkDone st s).maint.shaped := by
  unfold commitMarkDone
  (try dsimp only) <;> (repeat' split) <;> first | (simp (maxDischargeDepth := 9) (implicitDefEqProofs := false) [h]; done) | (simp_all (maxDischargeDepth := 9) (implicitDefEqProofs := false) [Maintenance.shaped]; done)

@[simp] theorem eraseDone_maintShaped (st : ArrayStatus) (s : State) (h : s.maint.shaped) : (eraseDone st s).maint.shaped := by
  unfold eraseDone
  (try dsimp only) <;> (repeat' split) <;> first | (simp (maxDischargeDepth := 9) (implicitDefEqProofs := false) [h]; done) | (simp_all (maxDischargeDepth := 9) (implicitDefEqProofs := false) [Maintenance.shaped]; done)

@[simp] theorem cleanMarkDone_maintShaped (st : ArrayStatus) (s : State) (h : s.maint.shaped) : (cleanMarkDone st s).maint.shaped := by
  unfold cleanMarkDone
  (try dsimp only) <;> (repeat' split) <;> first | (simp (maxDischargeDepth := 9) (implicitDefEqProofs := false) [h]; done) | (simp_all (maxDischargeDepth := 9) (implicitDefEqProofs := false) [Maintenance.shaped]; done)

@[simp] theorem setCommitPhase_maintShaped (job : CommitJob) (ph : CommitPhase) (s : State) (h : s.maint.shaped)
    (hj : s.maint.job = some job) : (setCommitPhase job ph s).maint.shaped := by
  have g := job_busy _ h job hj
  simp [setCommitPhase, h, g.1, g.2]

@[simp] theorem commitFails_maintShaped (job : CommitJob) (s : State) (h : s.maint.shaped) :
    (commitFails job s).maint.shaped := failCommit_shaped true job _ h

@[simp] theorem commitSucceeds_maintShaped (job : CommitJob) (s : State) (h : s.maint.shaped) : (commitSucceeds job s).maint.shaped := by
  unfold commitSucceeds
  (try dsimp only) <;> (repeat' split) <;> first | (simp (maxDischargeDepth := 9) (implicitDefEqProofs := false) [h]; done) | (simp_all (maxDischargeDepth := 9) (implicitDefEqProofs := false) [Maintenance.shaped]; done)

@[simp] theorem commitEraseDone_maintShaped (st : ArrayStatus) (s : State) (h : s.maint.shaped) : (commitEraseDone st s).maint.shaped := by
  unfold commitEraseDone
  split
  · rename_i job hj
    split <;> simp [h, hj]
  · exact h

@[simp] theorem commitProgramDone_maintShaped (st : ArrayStatus) (s : State) (h : s.maint.shaped) : (commitProgramDone st s).maint.shaped := by
  unfold commitProgramDone
  split
  · rename_i job hj
    split <;> simp [h, hj]
  · exact h

@[simp] theorem readBackDone_maintShaped (st : ArrayStatus) (d : List Byte) (s : State) (h : s.maint.shaped) : (readBackDone st d s).maint.shaped := by
  unfold readBackDone
  (try dsimp only) <;> (repeat' split) <;> first | (simp (maxDischargeDepth := 9) (implicitDefEqProofs := false) [h]; done) | (simp_all (maxDischargeDepth := 9) (implicitDefEqProofs := false) [Maintenance.shaped]; done)

@[simp] theorem timeoutTwice_maintShaped (s : State) (h : s.maint.shaped) : (timeoutTwice s).maint.shaped := by
  unfold timeoutTwice
  (try dsimp only) <;> (repeat' split) <;> first | (simp (maxDischargeDepth := 9) (implicitDefEqProofs := false) [h]; done) | (simp_all (maxDischargeDepth := 9) (implicitDefEqProofs := false) [Maintenance.shaped]; done)

end

section
/-! ## seq -/

/-- The shape of the sequencer; where `b` is false, ISSUED with no record is let stand, as it stands while a completion
event is under way (R101). -/
def Sequencer.okay (b : Bool) (q : Sequencer) : Prop :=
  match q.phase with
  | .issued => b = true → q.inFlight.isSome = true
  | .idle => q.inFlight = none
  | .stopped => q.inFlight = none ∧ q.ops = []
  | .resync => True

theorem okay_true (q : Sequencer) : q.okay true ↔ q.shaped := by
  unfold Sequencer.okay Sequencer.shaped
  cases q.phase <;> simp

theorem okay_of_true {b : Bool} (q : Sequencer) (h : q.okay true) : q.okay b := by
  unfold Sequencer.okay at *
  split <;> simp_all

theorem okay_false {b : Bool} (q : Sequencer) (h : q.okay b) : q.okay false := by
  unfold Sequencer.okay at *
  split <;> simp_all

theorem choose_strict (s : State) : (choose s).seq.okay true := by
  unfold choose
  split <;> simp [Sequencer.okay]

theorem endCompletion_strict {b : Bool} (s : State) (h : s.seq.okay b) : (endCompletion s).seq.okay true := by
  unfold endCompletion
  split
  · exact choose_strict s
  · rename_i hn
    unfold Sequencer.okay at *
    split <;> simp_all
    cases hf : s.seq.inFlight <;> simp_all

theorem releaseOp_loose {b : Bool} (s : State) (h : s.seq.okay b) : (releaseOp s).seq.okay false := by
  unfold Sequencer.okay at *
  simp only [releaseOp, State.setSeq_seq]
  split <;> simp_all

variable {b : Bool}

@[simp] theorem seq_mk_resync (f : Option InFlight) (l : List WaitingOp) (a : Word16) (u : Nat) :
    Sequencer.okay b { phase := .resync, inFlight := f, ops := l, arrival := a, resyncUs := u } := trivial

@[simp] theorem seq_reset_okay : Sequencer.reset.okay b := rfl


@[simp] theorem choose_seqOkay (s : State) : (choose s).seq.okay b := okay_of_true _ (choose_strict s)

theorem joinList_seqOkay (op : ArrayOp) (r : Requester) (s : State) (h : s.seq.okay b) (hn : s.seq.phase ≠ .stopped) :
    (joinList op r s).seq.okay b := by
  unfold Sequencer.okay at *
  simp only [joinList, State.setSeq_seq]
  split <;> simp_all

@[simp] theorem requestOp_seqOkay (op : ArrayOp) (r : Requester) (s : State) (h : s.seq.okay b) :
    (requestOp op r s).seq.okay b := by
  unfold requestOp
  split
  · exact choose_seqOkay _
  · rename_i hp; exact joinList_seqOkay op r s h (by simp [hp])
  · rename_i hp; exact joinList_seqOkay op r s h (by simp [hp])
  · exact h

@[simp] theorem endCompletion_seqOkay (s : State) (h : s.seq.okay b) : (endCompletion s).seq.okay b :=
  okay_of_true _ (endCompletion_strict s h)

@[simp] theorem stopSequencer_seqOkay (s : State) : (stopSequencer s).seq.okay b := ⟨rfl, rfl⟩

@[simp] theorem beginMount_seqOkay (s : State) : (beginMount s).seq.okay b := by
  apply requestOp_seqOkay
  exact trivial

@[simp] theorem resetBlocks_seqOkay (c : ResetCause) (o : DrainOutcome) (s : State) : (resetBlocks c o s).seq.okay b := rfl

@[simp] theorem resetCompletion_seqOkay (c : ResetCause) (o : DrainOutcome) (s : State) (h : s.seq.okay b) : (resetCompletion c o s).seq.okay b := by
  unfold resetCompletion
  (try dsimp only) <;> (repeat' split) <;> first | (simp (maxDischargeDepth := 9) (implicitDefEqProofs := false) [h]; done) | (simp_all (maxDischargeDepth := 9) (implicitDefEqProofs := false) [Sequencer.okay]; done)

@[simp] theorem drainEnd_seqOkay (s : State) (h : s.seq.okay b) : (drainEnd s).seq.okay b := by
  unfold drainEnd
  (try dsimp only) <;> (repeat' split) <;> first | (simp (maxDischargeDepth := 9) (implicitDefEqProofs := false) [h]; done) | (simp_all (maxDischargeDepth := 9) (implicitDefEqProofs := false) [Sequencer.okay]; done)

@[simp] theorem pinnedRead_seqOkay (p : Nat) (r : Requester) (s : State) (h : s.seq.okay b) : (pinnedRead p r s).seq.okay b := by
  unfold pinnedRead
  (try dsimp only) <;> (repeat' split) <;> first | (simp (maxDischargeDepth := 9) (implicitDefEqProofs := false) [h]; done) | (simp_all (maxDischargeDepth := 9) (implicitDefEqProofs := false) [Sequencer.okay]; done)

@[simp] theorem retirePage_seqOkay (p : Nat) (s : State) (h : s.seq.okay b) : (retirePage p s).seq.okay b := by
  unfold retirePage
  (try dsimp only) <;> (repeat' split) <;> first | (simp (maxDischargeDepth := 9) (implicitDefEqProofs := false) [h]; done) | (simp_all (maxDischargeDepth := 9) (implicitDefEqProofs := false) [Sequencer.okay]; done)

@[simp] theorem startErase_seqOkay (p : Nat) (s : State) (h : s.seq.okay b) : (startErase p s).seq.okay b := by
  unfold startErase
  (try dsimp only) <;> (repeat' split) <;> first | (simp (maxDischargeDepth := 9) (implicitDefEqProofs := false) [h]; done) | (simp_all (maxDischargeDepth := 9) (implicitDefEqProofs := false) [Sequencer.okay]; done)

@[simp] theorem sealRecord_seqOkay (i x : Nat) (s : State) (h : s.seq.okay b) : (sealRecord i x s).seq.okay b := by
  unfold sealRecord
  (try dsimp only) <;> (repeat' split) <;> first | (simp (maxDischargeDepth := 9) (implicitDefEqProofs := false) [h]; done) | (simp_all (maxDischargeDepth := 9) (implicitDefEqProofs := false) [Sequencer.okay]; done)

@[simp] theorem sealSlot_seqOkay (i : Nat) (s : State) (h : s.seq.okay b) : (sealSlot i s).seq.okay b := by
  unfold sealSlot
  (try dsimp only) <;> (repeat' split) <;> first | (simp (maxDischargeDepth := 9) (implicitDefEqProofs := false) [h]; done) | (simp_all (maxDischargeDepth := 9) (implicitDefEqProofs := false) [Sequencer.okay]; done)

@[simp] theorem placeInSlot_seqOkay (i off : Nat) (d : List Byte) (s : State) (h : s.seq.okay b) : (placeInSlot i off d s).seq.okay b := by
  unfold placeInSlot
  (try dsimp only) <;> (repeat' split) <;> first | (simp (maxDischargeDepth := 9) (implicitDefEqProofs := false) [h]; done) | (simp_all (maxDischargeDepth := 9) (implicitDefEqProofs := false) [Sequencer.okay]; done)

@[simp] theorem holdWriting_seqOkay (i : Nat) (r : HoldReason) (s : State) (h : s.seq.okay b) : (holdWriting i r s).seq.okay b := by
  unfold holdWriting
  (try dsimp only) <;> (repeat' split) <;> first | (simp (maxDischargeDepth := 9) (implicitDefEqProofs := false) [h]; done) | (simp_all (maxDischargeDepth := 9) (implicitDefEqProofs := false) [Sequencer.okay]; done)

@[simp] theorem startWriteBack_seqOkay (i : Nat) (t : Target) (s : State) (h : s.seq.okay b) : (startWriteBack i t s).seq.okay b := by
  unfold startWriteBack
  (try dsimp only) <;> (repeat' split) <;> first | (simp (maxDischargeDepth := 9) (implicitDefEqProofs := false) [h]; done) | (simp_all (maxDischargeDepth := 9) (implicitDefEqProofs := false) [Sequencer.okay]; done)

@[simp] theorem takeSlot_seqOkay (i : Nat) (s : State) (h : s.seq.okay b) : (takeSlot i s).seq.okay b := by
  unfold takeSlot
  (try dsimp only) <;> (repeat' split) <;> first | (simp (maxDischargeDepth := 9) (implicitDefEqProofs := false) [h]; done) | (simp_all (maxDischargeDepth := 9) (implicitDefEqProofs := false) [Sequencer.okay]; done)

@[simp] theorem retryWith_seqOkay (i : Nat) (t : Target) (s : State) (h : s.seq.okay b) : (retryWith i t s).seq.okay b := by
  unfold retryWith
  (try dsimp only) <;> (repeat' split) <;> first | (simp (maxDischargeDepth := 9) (implicitDefEqProofs := false) [h]; done) | (simp_all (maxDischargeDepth := 9) (implicitDefEqProofs := false) [Sequencer.okay]; done)

@[simp] theorem retryWriteBack_seqOkay (i : Nat) (s : State) (h : s.seq.okay b) : (retryWriteBack i s).seq.okay b := by
  unfold retryWriteBack
  (try dsimp only) <;> (repeat' split) <;> first | (simp (maxDischargeDepth := 9) (implicitDefEqProofs := false) [h]; done) | (simp_all (maxDischargeDepth := 9) (implicitDefEqProofs := false) [Sequencer.okay]; done)

@[simp] theorem attemptFailed_seqOkay (i : Nat) (s : State) (h : s.seq.okay b) : (attemptFailed i s).seq.okay b := by
  unfold attemptFailed
  (try dsimp only) <;> (repeat' split) <;> first | (simp (maxDischargeDepth := 9) (implicitDefEqProofs := false) [h]; done) | (simp_all (maxDischargeDepth := 9) (implicitDefEqProofs := false) [Sequencer.okay]; done)

@[simp] theorem settle_seqOkay (s : State) (h : s.seq.okay b) : (settle s).seq.okay b :=
  settle_induct (Q := fun s => s.seq.okay b) (fun s t ht h => by
    rcases reexamine_cases s t ht with ⟨_, _, rfl⟩ | ⟨i, _, _, rfl⟩ | ⟨i, _, _, _, rfl⟩ | ⟨i, _, _, rfl⟩ | ⟨p, _, rfl⟩ <;>
      simp (implicitDefEqProofs := false) [h]) s h

@[simp] theorem sealAllOpen_seqOkay (s : State) (h : s.seq.okay b) : (sealAllOpen s).seq.okay b :=
  sealAllOpen_induct (Q := fun s => s.seq.okay b) (fun s i _ h => by simp (implicitDefEqProofs := false) [h]) (fun s i _ h => by simp (implicitDefEqProofs := false) [h]) s h

@[simp] theorem serveWrite_seqOkay (r : Request) (s : State) (h : s.seq.okay b) : (serveWrite r s).seq.okay b := by
  unfold serveWrite
  split
  · rename_i i t ht
    unfold State.writeSlot at ht
    split at ht
    · cases ht; simp (implicitDefEqProofs := false) [h]
    · split at ht
      · cases ht; simp (maxDischargeDepth := 9) (implicitDefEqProofs := false) [h]
      · contradiction
  · simp (implicitDefEqProofs := false) [h]

@[simp] theorem addPending_seqOkay (rec : PendingRead) (s : State) (h : s.seq.okay b) : (addPending rec s).seq.okay b := by
  unfold addPending
  (try dsimp only) <;> (repeat' split) <;> first | (simp (maxDischargeDepth := 9) (implicitDefEqProofs := false) [h]; done) | (simp_all (maxDischargeDepth := 9) (implicitDefEqProofs := false) [Sequencer.okay]; done)

@[simp] theorem serveRead_seqOkay (r : Request) (s : State) (h : s.seq.okay b) : (serveRead r s).seq.okay b := by
  unfold serveRead
  (try dsimp only) <;> (repeat' split) <;> first | (simp (maxDischargeDepth := 9) (implicitDefEqProofs := false) [h]; done) | (simp_all (maxDischargeDepth := 9) (implicitDefEqProofs := false) [Sequencer.okay]; done)

@[simp] theorem servePersist_seqOkay (r : Request) (s : State) (h : s.seq.okay b) : (servePersist r s).seq.okay b := by
  unfold servePersist
  (try dsimp only) <;> (repeat' split) <;> first | (simp (maxDischargeDepth := 9) (implicitDefEqProofs := false) [h]; done) | (simp_all (maxDischargeDepth := 9) (implicitDefEqProofs := false) [Sequencer.okay]; done)

@[simp] theorem serve_seqOkay (r : Request) (s : State) (h : s.seq.okay b) : (serve r s).seq.okay b := by
  unfold serve
  (try dsimp only) <;> (repeat' split) <;> first | (simp (maxDischargeDepth := 9) (implicitDefEqProofs := false) [h]; done) | (simp_all (maxDischargeDepth := 9) (implicitDefEqProofs := false) [Sequencer.okay]; done)

@[simp] theorem placeUnjudged_seqOkay (r : Request) (s : State) (h : s.seq.okay b) : (placeUnjudged r s).seq.okay b := by
  unfold placeUnjudged
  (try dsimp only) <;> (repeat' split) <;> first | (simp (maxDischargeDepth := 9) (implicitDefEqProofs := false) [h]; done) | (simp_all (maxDischargeDepth := 9) (implicitDefEqProofs := false) [Sequencer.okay]; done)

@[simp] theorem placeHead_seqOkay (e : Entry) (s : State) (h : s.seq.okay b) : (placeHead e s).seq.okay b := by
  unfold placeHead
  (try dsimp only) <;> (repeat' split) <;> first | (simp (maxDischargeDepth := 9) (implicitDefEqProofs := false) [h]; done) | (simp_all (maxDischargeDepth := 9) (implicitDefEqProofs := false) [Sequencer.okay]; done)

@[simp] theorem placements_seqOkay (a s : State) (h : s.seq.okay b) : (placements a s).seq.okay b :=
  placements_induct (Q := fun s => s.seq.okay b) (fun s e _ h => by simp (implicitDefEqProofs := false) [h]) (fun s h => by simp (implicitDefEqProofs := false) [h]) a s h

@[simp] theorem arrive_seqOkay (record : List Byte) (s : State) (h : s.seq.okay b) : (arrive record s).seq.okay b := by
  unfold arrive
  (try dsimp only) <;> (repeat' split) <;> first | (simp (maxDischargeDepth := 9) (implicitDefEqProofs := false) [h]; done) | (simp_all (maxDischargeDepth := 9) (implicitDefEqProofs := false) [Sequencer.okay]; done)

@[simp] theorem arriveWaiting_seqOkay (q : List (List Byte)) (s : State) (h : s.seq.okay b) : (arriveWaiting q s).seq.okay b :=
  arriveWaiting_induct (Q := fun s => s.seq.okay b) (fun s b _ h => by simp (implicitDefEqProofs := false) [h]) (fun s q h => by simp (implicitDefEqProofs := false) [h]) q s h

@[simp] theorem presentRecord_seqOkay (record : List Byte) (s : State) (h : s.seq.okay b) : (presentRecord record s).seq.okay b := by
  unfold presentRecord
  (try dsimp only) <;> (repeat' split) <;> first | (simp (maxDischargeDepth := 9) (implicitDefEqProofs := false) [h]; done) | (simp_all (maxDischargeDepth := 9) (implicitDefEqProofs := false) [Sequencer.okay]; done)

theorem finish_strict (a s : State) (h : s.seq.okay b) : (finish a s).seq.okay true := by
  have g : (endCompletion (drainEnd (settle s))).seq.okay true :=
    endCompletion_strict _ (drainEnd_seqOkay _ (settle_seqOkay _ h))
  exact arriveWaiting_seqOkay _ _ (placements_seqOkay _ _ g)

@[simp] theorem finish_seqOkay (a s : State) (h : s.seq.okay b) : (finish a s).seq.okay b :=
  okay_of_true _ (finish_strict a s h)

@[simp] theorem beginDrain_seqOkay (c : DrainCause) (s : State) (h : s.seq.okay b) : (beginDrain c s).seq.okay b := by
  unfold beginDrain
  (try dsimp only) <;> (repeat' split) <;> first | (simp (maxDischargeDepth := 9) (implicitDefEqProofs := false) [h]; done) | (simp_all (maxDischargeDepth := 9) (implicitDefEqProofs := false) [Sequencer.okay]; done)

@[simp] theorem requestFault_seqOkay (s : State) (h : s.seq.okay b) : (requestFault s).seq.okay b := by
  unfold requestFault
  (try dsimp only) <;> (repeat' split) <;> first | (simp (maxDischargeDepth := 9) (implicitDefEqProofs := false) [h]; done) | (simp_all (maxDischargeDepth := 9) (implicitDefEqProofs := false) [Sequencer.okay]; done)

@[simp] theorem resetLineLow_seqOkay (s : State) (h : s.seq.okay b) : (resetLineLow s).seq.okay b := by
  unfold resetLineLow
  (try dsimp only) <;> (repeat' split) <;> first | (simp (maxDischargeDepth := 9) (implicitDefEqProofs := false) [h]; done) | (simp_all (maxDischargeDepth := 9) (implicitDefEqProofs := false) [Sequencer.okay]; done)

@[simp] theorem softResetActs_seqOkay (s : State) (h : s.seq.okay b) : (softResetActs s).seq.okay b := by
  unfold softResetActs
  (try dsimp only) <;> (repeat' split) <;> first | (simp (maxDischargeDepth := 9) (implicitDefEqProofs := false) [h]; done) | (simp_all (maxDischargeDepth := 9) (implicitDefEqProofs := false) [Sequencer.okay]; done)

@[simp] theorem strapCheck_seqOkay (asz : BitVec 2) (s : State) (h : s.seq.okay b) : (strapCheck asz s).seq.okay b := by
  unfold strapCheck
  (try dsimp only) <;> (repeat' split) <;> first | (simp (maxDischargeDepth := 9) (implicitDefEqProofs := false) [h]; done) | (simp_all (maxDischargeDepth := 9) (implicitDefEqProofs := false) [Sequencer.okay]; done)

@[simp] theorem readyWaitDone_seqOkay (asz : BitVec 2) (s : State) (h : s.seq.okay b) : (readyWaitDone asz s).seq.okay b := by
  unfold readyWaitDone
  (try dsimp only) <;> (repeat' split) <;> first | (simp (maxDischargeDepth := 9) (implicitDefEqProofs := false) [h]; done) | (simp_all (maxDischargeDepth := 9) (implicitDefEqProofs := false) [Sequencer.okay]; done)

@[simp] theorem applySelection_seqOkay (sel : Selection) (s : State) (h : s.seq.okay b) : (applySelection sel s).seq.okay b := by
  unfold applySelection
  (try dsimp only) <;> (repeat' split) <;> first | (simp (maxDischargeDepth := 9) (implicitDefEqProofs := false) [h]; done) | (simp_all (maxDischargeDepth := 9) (implicitDefEqProofs := false) [Sequencer.okay]; done)

@[simp] theorem selectActive_seqOkay (s : State) (h : s.seq.okay b) : (selectActive s).seq.okay b := by
  unfold selectActive
  (try dsimp only) <;> (repeat' split) <;> first | (simp (maxDischargeDepth := 9) (implicitDefEqProofs := false) [h]; done) | (simp_all (maxDischargeDepth := 9) (implicitDefEqProofs := false) [Sequencer.okay]; done)

@[simp] theorem configCopyRead_seqOkay (st : ArrayStatus) (d : List Byte) (s : State) (h : s.seq.okay b) : (configCopyRead st d s).seq.okay b := by
  unfold configCopyRead
  (try dsimp only) <;> (repeat' split) <;> first | (simp (maxDischargeDepth := 9) (implicitDefEqProofs := false) [h]; done) | (simp_all (maxDischargeDepth := 9) (implicitDefEqProofs := false) [Sequencer.okay]; done)

@[simp] theorem advanceScan_seqOkay (p : Nat) (s : State) (h : s.seq.okay b) : (advanceScan p s).seq.okay b := by
  unfold advanceScan
  (try dsimp only) <;> (repeat' split) <;> first | (simp (maxDischargeDepth := 9) (implicitDefEqProofs := false) [h]; done) | (simp_all (maxDischargeDepth := 9) (implicitDefEqProofs := false) [Sequencer.okay]; done)

@[simp] theorem headerRead_seqOkay (st : ArrayStatus) (spare : List Byte) (s : State) (h : s.seq.okay b) : (headerRead st spare s).seq.okay b := by
  unfold headerRead
  (try dsimp only) <;> (repeat' split) <;> first | (simp (maxDischargeDepth := 9) (implicitDefEqProofs := false) [h]; done) | (simp_all (maxDischargeDepth := 9) (implicitDefEqProofs := false) [Sequencer.okay]; done)

@[simp] theorem doFlush_seqOkay (s : State) (h : s.seq.okay b) : (doFlush s).seq.okay b := by
  unfold doFlush
  (try dsimp only) <;> (repeat' split) <;> first | (simp (maxDischargeDepth := 9) (implicitDefEqProofs := false) [h]; done) | (simp_all (maxDischargeDepth := 9) (implicitDefEqProofs := false) [Sequencer.okay]; done)

@[simp] theorem beginCommit_seqOkay (s : State) (h : s.seq.okay b) : (beginCommit s).seq.okay b := by
  unfold beginCommit
  (try dsimp only) <;> (repeat' split) <;> first | (simp (maxDischargeDepth := 9) (implicitDefEqProofs := false) [h]; done) | (simp_all (maxDischargeDepth := 9) (implicitDefEqProofs := false) [Sequencer.okay]; done)

@[simp] theorem doConfigCommit_seqOkay (s : State) (h : s.seq.okay b) : (doConfigCommit s).seq.okay b := by
  unfold doConfigCommit
  (try dsimp only) <;> (repeat' split) <;> first | (simp (maxDischargeDepth := 9) (implicitDefEqProofs := false) [h]; done) | (simp_all (maxDischargeDepth := 9) (implicitDefEqProofs := false) [Sequencer.okay]; done)

@[simp] theorem doSoftReset_seqOkay (s : State) (h : s.seq.okay b) : (doSoftReset s).seq.okay b := by
  unfold doSoftReset
  (try dsimp only) <;> (repeat' split) <;> first | (simp (maxDischargeDepth := 9) (implicitDefEqProofs := false) [h]; done) | (simp_all (maxDischargeDepth := 9) (implicitDefEqProofs := false) [Sequencer.okay]; done)

@[simp] theorem act_seqOkay (c : CommandName) (args : List Byte) (s : State) (h : s.seq.okay b) :
    (c.act args s).seq.okay b := by
  cases c <;> simp (maxDischargeDepth := 9) (implicitDefEqProofs := false) [CommandName.act, h]

@[simp] theorem decideCommand_seqOkay (c : CommandName) (args : List Byte) (s : State) (h : s.seq.okay b) :
    (decideCommand c args s).seq.okay b := by
  unfold decideCommand
  (repeat' split) <;> simp (implicitDefEqProofs := false) [h]

@[simp] theorem decideFrame_seqOkay (c : Option CommandName) (args : List Byte) (s : State) (h : s.seq.okay b) : (decideFrame c args s).seq.okay b := by
  unfold decideFrame
  (try dsimp only) <;> (repeat' split) <;> first | (simp (maxDischargeDepth := 9) (implicitDefEqProofs := false) [h]; done) | (simp_all (maxDischargeDepth := 9) (implicitDefEqProofs := false) [Sequencer.okay]; done)

@[simp] theorem endFrame_seqOkay (c : Option CommandName) (args : List Byte) (s : State) (h : s.seq.okay b) : (endFrame c args s).seq.okay b := by
  unfold endFrame
  (try dsimp only) <;> (repeat' split) <;> first | (simp (maxDischargeDepth := 9) (implicitDefEqProofs := false) [h]; done) | (simp_all (maxDischargeDepth := 9) (implicitDefEqProofs := false) [Sequencer.okay]; done)

@[simp] theorem recover_seqOkay (s : State) (h : s.seq.okay b) : (recover s).seq.okay b := by
  unfold recover
  (try dsimp only) <;> (repeat' split) <;> first | (simp (maxDischargeDepth := 9) (implicitDefEqProofs := false) [h]; done) | (simp_all (maxDischargeDepth := 9) (implicitDefEqProofs := false) [Sequencer.okay]; done)

@[simp] theorem powerHigh_seqOkay (s : State) (h : s.seq.okay b) : (powerHigh s).seq.okay b := by
  unfold powerHigh
  (try dsimp only) <;> (repeat' split) <;> first | (simp (maxDischargeDepth := 9) (implicitDefEqProofs := false) [h]; done) | (simp_all (maxDischargeDepth := 9) (implicitDefEqProofs := false) [Sequencer.okay]; done)

@[simp] theorem qualified_seqOkay (s : State) (h : s.seq.okay b) : (qualified s).seq.okay b := by
  unfold qualified
  (try dsimp only) <;> (repeat' split) <;> first | (simp (maxDischargeDepth := 9) (implicitDefEqProofs := false) [h]; done) | (simp_all (maxDischargeDepth := 9) (implicitDefEqProofs := false) [Sequencer.okay]; done)

@[simp] theorem qualify_seqOkay (s : State) (h : s.seq.okay b) : (qualify s).seq.okay b := by
  unfold qualify
  (try dsimp only) <;> (repeat' split) <;> first | (simp (maxDischargeDepth := 9) (implicitDefEqProofs := false) [h]; done) | (simp_all (maxDischargeDepth := 9) (implicitDefEqProofs := false) [Sequencer.okay]; done)

@[simp] theorem resetEdge_seqOkay (s : State) (h : s.seq.okay b) : (resetEdge s).seq.okay b := by
  unfold resetEdge
  (try dsimp only) <;> (repeat' split) <;> first | (simp (maxDischargeDepth := 9) (implicitDefEqProofs := false) [h]; done) | (simp_all (maxDischargeDepth := 9) (implicitDefEqProofs := false) [Sequencer.okay]; done)

@[simp] theorem resetRise_seqOkay (s : State) (h : s.seq.okay b) : (resetRise s).seq.okay b := by
  unfold resetRise
  (try dsimp only) <;> (repeat' split) <;> first | (simp (maxDischargeDepth := 9) (implicitDefEqProofs := false) [h]; done) | (simp_all (maxDischargeDepth := 9) (implicitDefEqProofs := false) [Sequencer.okay]; done)

@[simp] theorem powerUp_seqOkay (s : State) (h : s.seq.okay b) : (powerUp s).seq.okay b := by
  unfold powerUp
  simp (maxDischargeDepth := 9) (implicitDefEqProofs := false) [h]

@[simp] theorem resetExpiry_seqOkay (s : State) (h : s.seq.okay b) : (resetExpiry s).seq.okay b := by
  unfold resetExpiry
  (try dsimp only) <;> (repeat' split) <;> first | (simp (maxDischargeDepth := 9) (implicitDefEqProofs := false) [h]; done) | (simp_all (maxDischargeDepth := 9) (implicitDefEqProofs := false) [Sequencer.okay]; done)

@[simp] theorem slotExpiry_seqOkay (i : Nat) (s : State) (h : s.seq.okay b) : (slotExpiry i s).seq.okay b := by
  unfold slotExpiry
  (try dsimp only) <;> (repeat' split) <;> first | (simp (maxDischargeDepth := 9) (implicitDefEqProofs := false) [h]; done) | (simp_all (maxDischargeDepth := 9) (implicitDefEqProofs := false) [Sequencer.okay]; done)

@[simp] theorem repeatMerge_seqOkay (i p : Nat) (s : State) (h : s.seq.okay b) : (repeatMerge i p s).seq.okay b := by
  unfold repeatMerge
  (try dsimp only) <;> (repeat' split) <;> first | (simp (maxDischargeDepth := 9) (implicitDefEqProofs := false) [h]; done) | (simp_all (maxDischargeDepth := 9) (implicitDefEqProofs := false) [Sequencer.okay]; done)

@[simp] theorem mergeDone_seqOkay (i p : Nat) (st : ArrayStatus) (d sp : List Byte) (s : State) (h : s.seq.okay b) : (mergeDone i p st d sp s).seq.okay b := by
  unfold mergeDone
  (try dsimp only) <;> (repeat' split) <;> first | (simp (maxDischargeDepth := 9) (implicitDefEqProofs := false) [h]; done) | (simp_all (maxDischargeDepth := 9) (implicitDefEqProofs := false) [Sequencer.okay]; done)

@[simp] theorem repeatDemand_seqOkay (p : Nat) (s : State) (h : s.seq.okay b) : (repeatDemand p s).seq.okay b := by
  unfold repeatDemand
  (try dsimp only) <;> (repeat' split) <;> first | (simp (maxDischargeDepth := 9) (implicitDefEqProofs := false) [h]; done) | (simp_all (maxDischargeDepth := 9) (implicitDefEqProofs := false) [Sequencer.okay]; done)

@[simp] theorem demandDone_seqOkay (p : Nat) (st : ArrayStatus) (d sp : List Byte) (s : State) (h : s.seq.okay b) : (demandDone p st d sp s).seq.okay b := by
  unfold demandDone
  (try dsimp only) <;> (repeat' split) <;> first | (simp (maxDischargeDepth := 9) (implicitDefEqProofs := false) [h]; done) | (simp_all (maxDischargeDepth := 9) (implicitDefEqProofs := false) [Sequencer.okay]; done)

@[simp] theorem programDone_seqOkay (st : ArrayStatus) (s : State) (h : s.seq.okay b) : (programDone st s).seq.okay b := by
  unfold programDone
  (try dsimp only) <;> (repeat' split) <;> first | (simp (maxDischargeDepth := 9) (implicitDefEqProofs := false) [h]; done) | (simp_all (maxDischargeDepth := 9) (implicitDefEqProofs := false) [Sequencer.okay]; done)

@[simp] theorem commitMarkDone_seqOkay (st : ArrayStatus) (s : State) (h : s.seq.okay b) : (commitMarkDone st s).seq.okay b := by
  unfold commitMarkDone
  (try dsimp only) <;> (repeat' split) <;> first | (simp (maxDischargeDepth := 9) (implicitDefEqProofs := false) [h]; done) | (simp_all (maxDischargeDepth := 9) (implicitDefEqProofs := false) [Sequencer.okay]; done)

@[simp] theorem eraseDone_seqOkay (st : ArrayStatus) (s : State) (h : s.seq.okay b) : (eraseDone st s).seq.okay b := by
  unfold eraseDone
  (try dsimp only) <;> (repeat' split) <;> first | (simp (maxDischargeDepth := 9) (implicitDefEqProofs := false) [h]; done) | (simp_all (maxDischargeDepth := 9) (implicitDefEqProofs := false) [Sequencer.okay]; done)

@[simp] theorem cleanMarkDone_seqOkay (st : ArrayStatus) (s : State) (h : s.seq.okay b) : (cleanMarkDone st s).seq.okay b := by
  unfold cleanMarkDone
  (try dsimp only) <;> (repeat' split) <;> first | (simp (maxDischargeDepth := 9) (implicitDefEqProofs := false) [h]; done) | (simp_all (maxDischargeDepth := 9) (implicitDefEqProofs := false) [Sequencer.okay]; done)

@[simp] theorem commitEraseDone_seqOkay (st : ArrayStatus) (s : State) (h : s.seq.okay b) : (commitEraseDone st s).seq.okay b := by
  unfold commitEraseDone
  (try dsimp only) <;> (repeat' split) <;> first | (simp (maxDischargeDepth := 9) (implicitDefEqProofs := false) [h]; done) | (simp_all (maxDischargeDepth := 9) (implicitDefEqProofs := false) [Sequencer.okay]; done)

@[simp] theorem commitProgramDone_seqOkay (st : ArrayStatus) (s : State) (h : s.seq.okay b) : (commitProgramDone st s).seq.okay b := by
  unfold commitProgramDone
  (try dsimp only) <;> (repeat' split) <;> first | (simp (maxDischargeDepth := 9) (implicitDefEqProofs := false) [h]; done) | (simp_all (maxDischargeDepth := 9) (implicitDefEqProofs := false) [Sequencer.okay]; done)

@[simp] theorem timeoutOnce_seqOkay (s : State) (h : s.seq.okay b) : (timeoutOnce s).seq.okay b := by
  unfold timeoutOnce
  (try dsimp only) <;> (repeat' split) <;> first | (simp (maxDischargeDepth := 9) (implicitDefEqProofs := false) [h]; done) | (simp_all (maxDischargeDepth := 9) (implicitDefEqProofs := false) [Sequencer.okay]; done)

@[simp] theorem timeoutTwice_seqOkay (s : State) (h : s.seq.okay b) : (timeoutTwice s).seq.okay b := by
  unfold timeoutTwice
  (try dsimp only) <;> (repeat' split) <;> first | (simp (maxDischargeDepth := 9) (implicitDefEqProofs := false) [h]; done) | (simp_all (maxDischargeDepth := 9) (implicitDefEqProofs := false) [Sequencer.okay]; done)

@[simp] theorem resyncEnd_seqOkay (s : State) (h : s.seq.okay b) : (resyncEnd s).seq.okay b := by
  unfold resyncEnd
  split
  · split
    · simp [Sequencer.okay]
    · simp
  · exact h

end

section
/-! ## sup -/

/-- The supervisor's fields are legal, and MOUNTING is the state exactly while a mount is under way, the phase given apart. -/
def Supervisor.okay (u : Supervisor) (ph : MountPhase) : Prop :=
  u.legal ∧ (u.state = .mounting ↔ ph ≠ .idle ∧ ph ≠ .done)

variable {ph : MountPhase}


@[simp] theorem requestReadOnly_supOkay (s : State) (h : s.sup.okay ph) : (requestReadOnly s).sup.okay ph := by
  unfold requestReadOnly
  split
  · rename_i hs
    obtain ⟨⟨h1, h2, h3, h4, h5, h6, h7, h8⟩, h9⟩ := h
    refine ⟨⟨?_, ?_, ?_, ?_, ?_, ?_, h7, h8⟩, ?_⟩ <;> simp_all
  · split
    · rename_i hs hc
      obtain ⟨⟨h1, h2, h3, h4, h5, h6, h7, h8⟩, h9⟩ := h
      refine ⟨⟨?_, ?_, ?_, ?_, ?_, ?_, h7, h8⟩, ?_⟩ <;> simp_all
    · exact h
  · rename_i hs
    obtain ⟨⟨h1, h2, h3, h4, h5, h6, h7, h8⟩, h9⟩ := h
    refine ⟨⟨?_, ?_, ?_, ?_, ?_, ?_, h7, h8⟩, ?_⟩ <;> simp_all
  · exact h

/-- A mount begins from RESETTING (R178). -/
theorem beginMount_supOkay (s : State) (h : s.sup.legal) (hr : s.sup.state = .resetting) :
    (beginMount s).sup.okay (beginMount s).mount.phase := by
  obtain ⟨h1, h2, h3, h4, h5, h6, h7, h8⟩ := h
  simp only [beginMount, requestOp_keeps]
  refine ⟨⟨?_, ?_, ?_, ?_, ?_, ?_, h7, h8⟩, ?_⟩ <;> simp_all

@[simp] theorem resetBlocks_supOkay (c : ResetCause) (o : DrainOutcome) (s : State) :
    (resetBlocks c o s).sup.okay (resetBlocks c o s).mount.phase := by
  simp [resetBlocks, Supervisor.afterReset, Supervisor.okay, Supervisor.legal, Mount.reset]

@[simp] theorem resetCompletion_supOkay (c : ResetCause) (o : DrainOutcome) (s : State) :
    (resetCompletion c o s).sup.okay (resetCompletion c o s).mount.phase := by
  unfold resetCompletion
  dsimp only
  split
  · exact beginMount_supOkay _ (resetBlocks_supOkay c o s).1 rfl
  · exact resetBlocks_supOkay c o s

theorem toState_cases (r : ReturnState) : r.toState = .serving ∨ r.toState = .readOnly := by cases r <;> simp [ReturnState.toState]

@[simp] theorem drainEnd_supOkay (s : State) (h : s.sup.okay s.mount.phase) :
    (drainEnd s).sup.okay (drainEnd s).mount.phase := by
  unfold drainEnd
  split
  · rename_i hd
    split
    · simp
    · rename_i hp
      obtain ⟨⟨h1, h2, h3, h4, h5, h6, h7, h8⟩, h9⟩ := h
      have hc : s.sup.cause = some .power := by
        cases hc : s.sup.cause with
        | none => simp_all
        | some c => cases c <;> simp_all
      split
      · refine ⟨⟨?_, ?_, ?_, ?_, ?_, ?_, h7, h8⟩, ?_⟩ <;> simp_all
      · have g := toState_cases (s.sup.returnTo.getD .serving)
        refine ⟨⟨?_, ?_, ?_, ?_, ?_, ?_, h7, h8⟩, ?_⟩ <;> rcases g with g | g <;> simp_all
  · exact h

@[simp] theorem examineBadPages_supOkay (s : State) (h : s.sup.okay ph) : (examineBadPages s).sup.okay ph := by
  unfold examineBadPages
  (try dsimp only) <;> (repeat' split) <;> first | (simp (maxDischargeDepth := 9) (implicitDefEqProofs := false) [h]; done) | (simp_all (maxDischargeDepth := 9) (implicitDefEqProofs := false) [Supervisor.okay, Supervisor.legal]; done)

@[simp] theorem examineSequence_supOkay (s : State) (h : s.sup.okay ph) : (examineSequence s).sup.okay ph := by
  unfold examineSequence
  (try dsimp only) <;> (repeat' split) <;> first | (simp (maxDischargeDepth := 9) (implicitDefEqProofs := false) [h]; done) | (simp_all (maxDischargeDepth := 9) (implicitDefEqProofs := false) [Supervisor.okay, Supervisor.legal]; done)

@[simp] theorem takePage_supOkay (p : Nat) (s : State) (h : s.sup.okay ph) : (takePage p s).sup.okay ph := by
  unfold takePage
  (try dsimp only) <;> (repeat' split) <;> first | (simp (maxDischargeDepth := 9) (implicitDefEqProofs := false) [h]; done) | (simp_all (maxDischargeDepth := 9) (implicitDefEqProofs := false) [Supervisor.okay, Supervisor.legal]; done)

@[simp] theorem retirePage_supOkay (p : Nat) (s : State) (h : s.sup.okay ph) : (retirePage p s).sup.okay ph := by
  unfold retirePage
  (try dsimp only) <;> (repeat' split) <;> first | (simp (maxDischargeDepth := 9) (implicitDefEqProofs := false) [h]; done) | (simp_all (maxDischargeDepth := 9) (implicitDefEqProofs := false) [Supervisor.okay, Supervisor.legal]; done)

@[simp] theorem becomeHeld_supOkay (i : Nat) (r : HoldReason) (s : State) (h : s.sup.okay ph) : (becomeHeld i r s).sup.okay ph := by
  unfold becomeHeld
  (try dsimp only) <;> (repeat' split) <;> first | (simp (maxDischargeDepth := 9) (implicitDefEqProofs := false) [h]; done) | (simp_all (maxDischargeDepth := 9) (implicitDefEqProofs := false) [Supervisor.okay, Supervisor.legal]; done)

@[simp] theorem holdSealed_supOkay (i : Nat) (s : State) (h : s.sup.okay ph) : (holdSealed i s).sup.okay ph := by
  unfold holdSealed
  (try dsimp only) <;> (repeat' split) <;> first | (simp (maxDischargeDepth := 9) (implicitDefEqProofs := false) [h]; done) | (simp_all (maxDischargeDepth := 9) (implicitDefEqProofs := false) [Supervisor.okay, Supervisor.legal]; done)

@[simp] theorem holdWriting_supOkay (i : Nat) (r : HoldReason) (s : State) (h : s.sup.okay ph) : (holdWriting i r s).sup.okay ph := by
  unfold holdWriting
  (try dsimp only) <;> (repeat' split) <;> first | (simp (maxDischargeDepth := 9) (implicitDefEqProofs := false) [h]; done) | (simp_all (maxDischargeDepth := 9) (implicitDefEqProofs := false) [Supervisor.okay, Supervisor.legal]; done)

@[simp] theorem startWriteBack_supOkay (i : Nat) (t : Target) (s : State) (h : s.sup.okay ph) : (startWriteBack i t s).sup.okay ph := by
  unfold startWriteBack
  (try dsimp only) <;> (repeat' split) <;> first | (simp (maxDischargeDepth := 9) (implicitDefEqProofs := false) [h]; done) | (simp_all (maxDischargeDepth := 9) (implicitDefEqProofs := false) [Supervisor.okay, Supervisor.legal]; done)

@[simp] theorem takeSlot_supOkay (i : Nat) (s : State) (h : s.sup.okay ph) : (takeSlot i s).sup.okay ph := by
  unfold takeSlot
  (try dsimp only) <;> (repeat' split) <;> first | (simp (maxDischargeDepth := 9) (implicitDefEqProofs := false) [h]; done) | (simp_all (maxDischargeDepth := 9) (implicitDefEqProofs := false) [Supervisor.okay, Supervisor.legal]; done)

@[simp] theorem retryWith_supOkay (i : Nat) (t : Target) (s : State) (h : s.sup.okay ph) : (retryWith i t s).sup.okay ph := by
  unfold retryWith
  (try dsimp only) <;> (repeat' split) <;> first | (simp (maxDischargeDepth := 9) (implicitDefEqProofs := false) [h]; done) | (simp_all (maxDischargeDepth := 9) (implicitDefEqProofs := false) [Supervisor.okay, Supervisor.legal]; done)

@[simp] theorem retryWriteBack_supOkay (i : Nat) (s : State) (h : s.sup.okay ph) : (retryWriteBack i s).sup.okay ph := by
  unfold retryWriteBack
  (try dsimp only) <;> (repeat' split) <;> first | (simp (maxDischargeDepth := 9) (implicitDefEqProofs := false) [h]; done) | (simp_all (maxDischargeDepth := 9) (implicitDefEqProofs := false) [Supervisor.okay, Supervisor.legal]; done)

@[simp] theorem attemptFailed_supOkay (i : Nat) (s : State) (h : s.sup.okay ph) : (attemptFailed i s).sup.okay ph := by
  unfold attemptFailed
  (try dsimp only) <;> (repeat' split) <;> first | (simp (maxDischargeDepth := 9) (implicitDefEqProofs := false) [h]; done) | (simp_all (maxDischargeDepth := 9) (implicitDefEqProofs := false) [Supervisor.okay, Supervisor.legal]; done)

@[simp] theorem settle_supOkay (s : State) (h : s.sup.okay ph) : (settle s).sup.okay ph :=
  settle_induct (Q := fun s => s.sup.okay ph) (fun s t ht h => by
    rcases reexamine_cases s t ht with ⟨_, _, rfl⟩ | ⟨i, _, _, rfl⟩ | ⟨i, _, _, _, rfl⟩ | ⟨i, _, _, rfl⟩ | ⟨p, _, rfl⟩ <;>
      simp (implicitDefEqProofs := false) [h]) s h

@[simp] theorem sealAllOpen_supOkay (s : State) (h : s.sup.okay ph) : (sealAllOpen s).sup.okay ph :=
  sealAllOpen_induct (Q := fun s => s.sup.okay ph) (fun s i _ h => by simp (implicitDefEqProofs := false) [h]) (fun s i _ h => by simp (implicitDefEqProofs := false) [h]) s h

@[simp] theorem servePersist_supOkay (r : Request) (s : State) (h : s.sup.okay ph) : (servePersist r s).sup.okay ph := by
  unfold servePersist
  (try dsimp only) <;> (repeat' split) <;> first | (simp (maxDischargeDepth := 9) (implicitDefEqProofs := false) [h]; done) | (simp_all (maxDischargeDepth := 9) (implicitDefEqProofs := false) [Supervisor.okay, Supervisor.legal]; done)

@[simp] theorem serve_supOkay (r : Request) (s : State) (h : s.sup.okay ph) : (serve r s).sup.okay ph := by
  unfold serve
  (try dsimp only) <;> (repeat' split) <;> first | (simp (maxDischargeDepth := 9) (implicitDefEqProofs := false) [h]; done) | (simp_all (maxDischargeDepth := 9) (implicitDefEqProofs := false) [Supervisor.okay, Supervisor.legal]; done)

@[simp] theorem placeUnjudged_supOkay (r : Request) (s : State) (h : s.sup.okay ph) : (placeUnjudged r s).sup.okay ph := by
  unfold placeUnjudged
  (try dsimp only) <;> (repeat' split) <;> first | (simp (maxDischargeDepth := 9) (implicitDefEqProofs := false) [h]; done) | (simp_all (maxDischargeDepth := 9) (implicitDefEqProofs := false) [Supervisor.okay, Supervisor.legal]; done)

@[simp] theorem placeHead_supOkay (e : Entry) (s : State) (h : s.sup.okay ph) : (placeHead e s).sup.okay ph := by
  unfold placeHead
  (try dsimp only) <;> (repeat' split) <;> first | (simp (maxDischargeDepth := 9) (implicitDefEqProofs := false) [h]; done) | (simp_all (maxDischargeDepth := 9) (implicitDefEqProofs := false) [Supervisor.okay, Supervisor.legal]; done)

@[simp] theorem placements_supOkay (a s : State) (h : s.sup.okay ph) : (placements a s).sup.okay ph :=
  placements_induct (Q := fun s => s.sup.okay ph) (fun s e _ h => by simp (implicitDefEqProofs := false) [h]) (fun s h => by simp (implicitDefEqProofs := false) [h]) a s h

@[simp] theorem arrive_supOkay (record : List Byte) (s : State) (h : s.sup.okay ph) : (arrive record s).sup.okay ph := by
  unfold arrive
  (try dsimp only) <;> (repeat' split) <;> first | (simp (maxDischargeDepth := 9) (implicitDefEqProofs := false) [h]; done) | (simp_all (maxDischargeDepth := 9) (implicitDefEqProofs := false) [Supervisor.okay, Supervisor.legal]; done)

@[simp] theorem arriveWaiting_supOkay (q : List (List Byte)) (s : State) (h : s.sup.okay ph) : (arriveWaiting q s).sup.okay ph :=
  arriveWaiting_induct (Q := fun s => s.sup.okay ph) (fun s b _ h => by simp (implicitDefEqProofs := false) [h]) (fun s q h => by simp (implicitDefEqProofs := false) [h]) q s h

@[simp] theorem presentRecord_supOkay (record : List Byte) (s : State) (h : s.sup.okay ph) : (presentRecord record s).sup.okay ph := by
  unfold presentRecord
  (try dsimp only) <;> (repeat' split) <;> first | (simp (maxDischargeDepth := 9) (implicitDefEqProofs := false) [h]; done) | (simp_all (maxDischargeDepth := 9) (implicitDefEqProofs := false) [Supervisor.okay, Supervisor.legal]; done)

@[simp] theorem finish_supOkay (a : State) (s : State) (h : s.sup.okay s.mount.phase) :
    (finish a s).sup.okay (finish a s).mount.phase := by
  simp only [finish, arriveWaiting_keeps, placements_keeps, endCompletion_keeps]
  apply arriveWaiting_supOkay
  apply placements_supOkay
  simp (implicitDefEqProofs := false) [h]

@[simp] theorem beginDrain_supOkay (c : DrainCause) (s : State) (h : s.sup.okay ph) (hs : s.sup.state = .serving ∨ s.sup.state = .readOnly) : (beginDrain c s).sup.okay ph := by
  unfold beginDrain
  apply sealAllOpen_supOkay
  obtain ⟨⟨h1, h2, h3, h4, h5, h6, h7, h8⟩, h9⟩ := h
  cases c <;> refine ⟨⟨?_, ?_, ?_, ?_, ?_, ?_, h7, h8⟩, ?_⟩ <;> rcases hs with hs | hs <;> simp_all [State.drainSup]

theorem requestFault_supOkay (s : State) (h : s.sup.legal) (hm : s.mount.phase = .idle ∨ s.mount.phase = .done) :
    (requestFault s).sup.okay (requestFault s).mount.phase := by
  unfold requestFault
  split
  · rename_i hr
    refine ⟨h, ?_⟩
    rcases hm with hm | hm <;> simp [hr, hm]
  · split
    · simp
    · rename_i hp
      dsimp only
      simp only [faultBarriers_keeps, faultReads_keeps, stopSequencer_keeps, State.setSup_sup, State.setSup_mount,
        State.setMaint_mount, State.setMaint_sup]
      obtain ⟨h1, h2, h3, h4, h5, h6, h7, h8⟩ := h
      refine ⟨⟨?_, ?_, ?_, ?_, ?_, ?_, h7, h8⟩, ?_⟩ <;> rcases hm with hm | hm <;> simp_all [Supervisor.inFault]

@[simp] theorem resetLineLow_supOkay (s : State) (h : s.sup.okay s.mount.phase) :
    (resetLineLow s).sup.okay (resetLineLow s).mount.phase := by
  unfold resetLineLow
  split
  · simp
  · split
    · rename_i hs; simp (implicitDefEqProofs := false) [h, hs]
    · rename_i hs; simp (implicitDefEqProofs := false) [h, hs]
    · rename_i hs
      split
      · rename_i hp
        obtain ⟨⟨h1, h2, h3, h4, h5, h6, h7, h8⟩, h9⟩ := h
        refine ⟨⟨?_, ?_, ?_, ?_, ?_, ?_, h7, h8⟩, ?_⟩ <;> simp_all
      · split
        · obtain ⟨⟨h1, h2, h3, h4, h5, h6, h7, h8⟩, h9⟩ := h
          refine ⟨⟨?_, ?_, ?_, ?_, ?_, ?_, h7, h8⟩, ?_⟩ <;> simp_all
        · exact h
      · exact h
    · simp

@[simp] theorem softResetActs_supOkay (s : State) (h : s.sup.okay s.mount.phase) :
   (softResetActs s).sup.okay (softResetActs s).mount.phase := by
  unfold softResetActs
  split
  · rename_i hs; simp (implicitDefEqProofs := false) [h, hs]
  · rename_i hs; simp (implicitDefEqProofs := false) [h, hs]
  · rename_i hs
    split
    · obtain ⟨⟨h1, h2, h3, h4, h5, h6, h7, h8⟩, h9⟩ := h
      refine ⟨⟨?_, ?_, ?_, ?_, ?_, ?_, h7, h8⟩, ?_⟩ <;> simp_all
    · exact h
  · simp
  · simp
  · exact h

theorem strapCheck_supOkay (asz : BitVec 2) (s : State) (h : s.sup.okay s.mount.phase) (hm : s.mount.phase = .readyWait) :
    (strapCheck asz s).sup.okay (strapCheck asz s).mount.phase := by
  have hs : s.sup.state = .mounting := h.2.2 (by simp [hm])
  unfold strapCheck
  split
  · simp only [requestOp_keeps, State.setMount_sup, State.setMount_mount]
    exact ⟨h.1, by simp [hs]⟩
  · exact requestFault_supOkay _ h.1 (Or.inr rfl)

@[simp] theorem readyWaitDone_supOkay (asz : BitVec 2) (s : State) (h : s.sup.okay s.mount.phase) :
    (readyWaitDone asz s).sup.okay (readyWaitDone asz s).mount.phase := by
  unfold readyWaitDone
  split
  · rename_i hm; exact strapCheck_supOkay asz s h hm
  · exact h

theorem applySelection_supOkay (sel : Selection) (s : State) (h : s.sup.okay s.mount.phase) (hs : s.sup.state = .mounting)
    (hf : sel.fields.inRange) : (applySelection sel s).sup.okay (applySelection sel s).mount.phase := by
  simp only [applySelection, requestOp_keeps]
  obtain ⟨⟨h1, h2, h3, h4, h5, h6, h7, h8⟩, h9⟩ := h
  exact ⟨⟨h1, h2, h3, h4, h5, h6, hf.1, hf.2.1⟩, by simp [hs]⟩

theorem selectActive_supOkay (s : State) (h : s.sup.okay s.mount.phase) (hs : s.sup.state = .mounting) :
    (selectActive s).sup.okay (selectActive s).mount.phase :=
  applySelection_supOkay _ s h hs (selectConfig_inRange _ _ _)

@[simp] theorem configCopyRead_supOkay (st : ArrayStatus) (d : List Byte) (s : State) (h : s.sup.okay s.mount.phase) :
    (configCopyRead st d s).sup.okay (configCopyRead st d s).mount.phase := by
  have g := h.2.2
  unfold configCopyRead
  split
  · rename_i hp _
    simp only [requestOp_keeps, State.setMount_sup, State.setMount_mount]
    exact h
  · rename_i hp _
    simp only [requestOp_keeps, State.setMount_sup, State.setMount_mount]
    exact ⟨h.1, by simp [g (by simp [hp])]⟩
  · rename_i hp _
    simp only [requestOp_keeps, State.setMount_sup, State.setMount_mount]
    exact h
  · rename_i hp _
    exact selectActive_supOkay _ h (g (by simp [hp]))
  · exact h

theorem mountExit_supOkay (s : State) (h : s.sup.legal) (hs : s.sup.state = .mounting) :
    (mountExit s).sup.okay (mountExit s).mount.phase := by
  obtain ⟨h1, h2, h3, h4, h5, h6, h7, h8⟩ := h
  unfold mountExit exitMount
  dsimp only
  generalize State.exitState _ = r
  split
  · refine ⟨⟨?_, ?_, ?_, ?_, ?_, ?_, h7, h8⟩, ?_⟩ <;> simp_all
  · refine ⟨⟨?_, ?_, ?_, ?_, ?_, ?_, h7, h8⟩, ?_⟩ <;>
      rcases toState_cases r with g | g <;> simp_all

theorem advanceScan_supOkay (p : Nat) (s : State) (h : s.sup.okay s.mount.phase) (hs : s.sup.state = .mounting) :
    (advanceScan p s).sup.okay (advanceScan p s).mount.phase := by
  unfold advanceScan
  split
  · simp only [requestOp_keeps, State.setMount_sup, State.setMount_mount]
    exact h
  · exact mountExit_supOkay s h.1 hs

@[simp] theorem headerRead_supOkay (st : ArrayStatus) (spare : List Byte) (s : State) (h : s.sup.okay s.mount.phase) :
    (headerRead st spare s).sup.okay (headerRead st spare s).mount.phase := by
  unfold headerRead
  split
  · rename_i hp _
    split
    · simp only [requestOp_keeps, State.setMount_sup, State.setMount_mount]
      exact h
    · apply advanceScan_supOkay
      · simp only [classifyPage_keeps, classifyPage_windows]
        exact h
      · simp [h.2.2 (by simp [hp])]
  · exact h

@[simp] theorem doFlush_supOkay (s : State) (h : s.sup.okay ph) : (doFlush s).sup.okay ph := by
  unfold doFlush
  (try dsimp only) <;> (repeat' split) <;> first | (simp (maxDischargeDepth := 9) (implicitDefEqProofs := false) [h]; done) | (simp_all (maxDischargeDepth := 9) (implicitDefEqProofs := false) [Supervisor.okay, Supervisor.legal]; done)

@[simp] theorem doSoftReset_supOkay (s : State) (h : s.sup.okay s.mount.phase) : (doSoftReset s).sup.okay (doSoftReset s).mount.phase := by
  unfold doSoftReset
  (try dsimp only) <;> (repeat' split) <;> first | (simp (maxDischargeDepth := 9) (implicitDefEqProofs := false) [h]; done) | (simp_all (maxDischargeDepth := 9) (implicitDefEqProofs := false) [Supervisor.okay, Supervisor.legal]; done)

@[simp] theorem decideCommand_supOkay (c : CommandName) (args : List Byte) (s : State) (h : s.sup.okay s.mount.phase) :
    (decideCommand c args s).sup.okay (decideCommand c args s).mount.phase := by
  unfold decideCommand
  split
  · simp [h]
  · split
    · cases c
      case flush => exact finish_supOkay _ _ (by simp (implicitDefEqProofs := false) [h])
      case softReset => exact finish_supOkay _ _ (by simp (implicitDefEqProofs := false) [h])
      all_goals simp (maxDischargeDepth := 9) (implicitDefEqProofs := false) [CommandName.act, h]
    · simp [h]

@[simp] theorem decideFrame_supOkay (c : Option CommandName) (args : List Byte) (s : State) (h : s.sup.okay s.mount.phase) : (decideFrame c args s).sup.okay (decideFrame c args s).mount.phase := by
  unfold decideFrame
  (try dsimp only) <;> (repeat' split) <;> first | (simp (maxDischargeDepth := 9) (implicitDefEqProofs := false) [h]; done) | (simp_all (maxDischargeDepth := 9) (implicitDefEqProofs := false) [Supervisor.okay, Supervisor.legal]; done)

@[simp] theorem endFrame_supOkay (c : Option CommandName) (args : List Byte) (s : State) (h : s.sup.okay s.mount.phase) : (endFrame c args s).sup.okay (endFrame c args s).mount.phase := by
  unfold endFrame
  (try dsimp only) <;> (repeat' split) <;> first | (simp (maxDischargeDepth := 9) (implicitDefEqProofs := false) [h]; done) | (simp_all (maxDischargeDepth := 9) (implicitDefEqProofs := false) [Supervisor.okay, Supervisor.legal]; done)

@[simp] theorem setWarning_supOkay (w : PowerWarning) (s : State) (h : s.sup.okay ph) : (setWarning w s).sup.okay ph := by
  exact h

@[simp] theorem powerLow_supOkay (s : State) (h : s.sup.okay ph) : (powerLow s).sup.okay ph := by
  unfold powerLow
  (try dsimp only) <;> (repeat' split) <;> first | (simp (maxDischargeDepth := 9) (implicitDefEqProofs := false) [h]; done) | (simp_all (maxDischargeDepth := 9) (implicitDefEqProofs := false) [Supervisor.okay, Supervisor.legal]; done)

@[simp] theorem recover_supOkay (s : State) (h : s.sup.okay s.mount.phase) :
    (recover s).sup.okay (recover s).mount.phase := by
  unfold recover
  split
  · rename_i hs
    apply finish_supOkay
    obtain ⟨⟨h1, h2, h3, h4, h5, h6, h7, h8⟩, h9⟩ := h
    have g := toState_cases (s.sup.returnTo.getD .serving)
    refine ⟨⟨?_, ?_, ?_, ?_, ?_, ?_, h7, h8⟩, ?_⟩ <;> rcases g with g | g <;> simp_all
  · exact h

@[simp] theorem powerHigh_supOkay (s : State) (h : s.sup.okay s.mount.phase) :
    (powerHigh s).sup.okay (powerHigh s).mount.phase := by
  unfold powerHigh
  split
  · simp [h]
  · simp [h]
  · apply recover_supOkay
    simp [h]

@[simp] theorem qualified_supOkay (s : State) (h : s.sup.okay s.mount.phase) :
    (qualified s).sup.okay (qualified s).mount.phase := by
  unfold qualified
  split
  · rename_i hs
    have g : s.sup.state = .serving ∨ s.sup.state = .readOnly := by simpa [State.inService] using hs
    apply finish_supOkay
    simp (implicitDefEqProofs := false) [h, g]
  · exact h

@[simp] theorem qualify_supOkay (s : State) (h : s.sup.okay s.mount.phase) :
    (qualify s).sup.okay (qualify s).mount.phase := by
  unfold qualify
  split
  · apply qualified_supOkay
    simp [h]
  · exact h

@[simp] theorem resetEdge_supOkay (s : State) (h : s.sup.okay s.mount.phase) :
    (resetEdge s).sup.okay (resetEdge s).mount.phase := by
  unfold resetEdge
  split
  · exact finish_supOkay _ _ (resetLineLow_supOkay _ h)
  · exact h

@[simp] theorem powerUp_supOkay (s : State) (h : s.sup.okay s.mount.phase) :
    (powerUp s).sup.okay (powerUp s).mount.phase := by
  unfold powerUp
  simp (maxDischargeDepth := 9) (implicitDefEqProofs := false) [h]

@[simp] theorem resetRise_supOkay (s : State) (h : s.sup.okay s.mount.phase) :
    (resetRise s).sup.okay (resetRise s).mount.phase := by
  unfold resetRise
  split
  · rename_i hs
    exact finish_supOkay _ _ (beginMount_supOkay _ h.1 hs)
  · exact h

@[simp] theorem resetExpiry_supOkay (s : State) (h : s.sup.okay s.mount.phase) :
    (resetExpiry s).sup.okay (resetExpiry s).mount.phase := by
  unfold resetExpiry
  split
  · exact finish_supOkay _ _ (resetCompletion_supOkay _ _ _)
  · exact h

@[simp] theorem slotExpiry_supOkay (i : Nat) (s : State) (h : s.sup.okay s.mount.phase) :
   (slotExpiry i s).sup.okay (slotExpiry i s).mount.phase := by
  unfold slotExpiry
  split
  · apply finish_supOkay
    simp [h]
  · exact h

@[simp] theorem programDone_supOkay (st : ArrayStatus) (s : State) (h : s.sup.okay ph) : (programDone st s).sup.okay ph := by
  unfold programDone
  (try dsimp only) <;> (repeat' split) <;> first | (simp (maxDischargeDepth := 9) (implicitDefEqProofs := false) [h]; done) | (simp_all (maxDischargeDepth := 9) (implicitDefEqProofs := false) [Supervisor.okay, Supervisor.legal]; done)

@[simp] theorem commitMarkDone_supOkay (st : ArrayStatus) (s : State) (h : s.sup.okay ph) : (commitMarkDone st s).sup.okay ph := by
  unfold commitMarkDone
  (try dsimp only) <;> (repeat' split) <;> first | (simp (maxDischargeDepth := 9) (implicitDefEqProofs := false) [h]; done) | (simp_all (maxDischargeDepth := 9) (implicitDefEqProofs := false) [Supervisor.okay, Supervisor.legal]; done)

@[simp] theorem eraseDone_supOkay (st : ArrayStatus) (s : State) (h : s.sup.okay ph) : (eraseDone st s).sup.okay ph := by
  unfold eraseDone
  (try dsimp only) <;> (repeat' split) <;> first | (simp (maxDischargeDepth := 9) (implicitDefEqProofs := false) [h]; done) | (simp_all (maxDischargeDepth := 9) (implicitDefEqProofs := false) [Supervisor.okay, Supervisor.legal]; done)

@[simp] theorem cleanMarkDone_supOkay (st : ArrayStatus) (s : State) (h : s.sup.okay ph) : (cleanMarkDone st s).sup.okay ph := by
  unfold cleanMarkDone
  (try dsimp only) <;> (repeat' split) <;> first | (simp (maxDischargeDepth := 9) (implicitDefEqProofs := false) [h]; done) | (simp_all (maxDischargeDepth := 9) (implicitDefEqProofs := false) [Supervisor.okay, Supervisor.legal]; done)

@[simp] theorem timeoutTwice_supOkay (s : State) (h : s.sup.okay s.mount.phase) :
    (timeoutTwice s).sup.okay (timeoutTwice s).mount.phase := by
  unfold timeoutTwice
  split
  · split
    · apply finish_supOkay
      apply requestFault_supOkay
      · simp only [mountFaultEnd_keeps]; exact h.1
      · exact Or.inr rfl
    · rename_i hs
      apply finish_supOkay
      apply requestFault_supOkay _ h.1
      by_cases hi : s.mount.phase = .idle
      · exact Or.inl hi
      · by_cases hd : s.mount.phase = .done
        · exact Or.inr hd
        · exact absurd (h.2.2 ⟨hi, hd⟩) hs
  · exact h

end

end Sys2Proof.Machine
end

