-- ==== Sys2Proof/Laws/Limit.lean ====
section
/-!
SUPPORT. What each operation does to the staging limit (R3), to the slot that may be WRITING (R45) and to the eviction queue
(R47): `State.limitJoint` is `State.withinLimit` cut in two, and every operation up to the events keeps it.
-/

namespace Sys2Proof.Machine

/-! ## Slot records after one is replaced -/

/-- A slot record after one is replaced. -/
theorem slot_setSlot (i j : Nat) (sl : Slot) (s : State) :
    (setSlot i sl s).slot j = if i = j ∧ i < s.staging.slots.length then sl else s.slot j := by
  simp only [setSlot, State.slot, State.setStaging, List.getD_eq_getElem?_getD, List.getElem?_set]
  by_cases h : i = j
  · subst h
    by_cases hl : i < s.staging.slots.length
    · simp [hl]
    · simp [hl]
  · simp [h]

/-- Replacing one member changes how many pass a test by at most one, and never upwards where the new one passes only if the old
one did. -/
theorem filter_set_length {α : Type} (p : α → Bool) (d x : α) : ∀ (l : List α) (i : Nat),
    ((l.set i x).filter p).length ≤ (l.filter p).length + 1 ∧
    ((p x = true → p (l.getD i d) = true) → ((l.set i x).filter p).length ≤ (l.filter p).length) := by
  intro l
  induction l with
  | nil => intro i; simp
  | cons a l ih =>
    intro i
    cases i with
    | zero =>
      simp only [List.set_cons_zero, List.filter_cons, List.getD_cons_zero]
      refine ⟨?_, fun h => ?_⟩
      · split <;> split <;> simp <;> omega
      · by_cases hx : p x = true
        · simp [hx, h hx]
        · rw [if_neg hx]; split <;> simp
    | succ i =>
      simp only [List.set_cons_succ, List.filter_cons, List.getD_cons_succ]
      obtain ⟨h1, h2⟩ := ih i
      refine ⟨?_, fun h => ?_⟩
      · split <;> simp [h1]
      · have := h2 h
        split <;> simp [this]

/-- A slot record replaced by one that is not FREE only where the old one was not leaves no more slots in use. -/
theorem slotsInUse_setSlot_le (i : Nat) (sl : Slot) (s : State) (h : sl.state ≠ .free → (s.slot i).state ≠ .free) :
    (setSlot i sl s).slotsInUse ≤ s.slotsInUse := by
  have hf := (filter_set_length (fun sl : Slot => decide (sl.state ≠ .free)) (Slot.freed 0) sl
    s.staging.slots i).2
  refine hf fun hx => ?_
  simpa [State.slot] using h (by simpa using hx)

/-- At most one slot more is in use after one record is replaced. -/
theorem slotsInUse_setSlot_succ (i : Nat) (sl : Slot) (s : State) : (setSlot i sl s).slotsInUse ≤ s.slotsInUse + 1 :=
  (filter_set_length (fun sl : Slot => decide (sl.state ≠ .free)) (Slot.freed 0) sl s.staging.slots i).1

/-! ## The staging limit, by the blocks it looks at -/

/-- `State.withinLimit` without what holds before service, the slot that may be WRITING given. -/
def State.limitWith (s : State) (o : Option Nat) : Prop :=
  s.slotsInUse ≤ s.staging.limitD ∧ (∀ i, (s.slot i).state = .writing ↔ o = some i) ∧
    s.wb.eviction.Nodup ∧ ∀ i ∈ s.wb.eviction, (s.slot i).state = .sealed

/-- The slot that may be WRITING is the one that the write-back record holds. -/
abbrev State.limitKept (s : State) : Prop := s.limitWith s.wb.phase.slotHeld

/-- Only the staging table and the write-back record count. -/
theorem limitWith_congr {s t : State} {o : Option Nat} (h : s.limitWith o) (h1 : t.staging = s.staging)
    (h3 : t.wb.eviction = s.wb.eviction) : t.limitWith o := by
  obtain ⟨a, b, c, d⟩ := h
  have hs : ∀ i, t.slot i = s.slot i := fun i => by simp [State.slot, h1]
  have hu : t.slotsInUse = s.slotsInUse := by simp [State.slotsInUse, h1]
  exact ⟨by rw [hu, h1]; exact a, fun i => by rw [hs]; exact b i, by rw [h3]; exact c, fun i hi => by
    rw [hs]; exact d i (h3 ▸ hi)⟩

/-- Only the staging table and the write-back record count. -/
theorem limitKept_congr {s t : State} (h : s.limitKept) (h1 : t.staging = s.staging)
    (h2 : t.wb.phase.slotHeld = s.wb.phase.slotHeld) (h3 : t.wb.eviction = s.wb.eviction) : t.limitKept := by
  unfold State.limitKept
  rw [h2]
  exact limitWith_congr h h1 h3

/-- A slot record replaced by one of the same state. -/
theorem limitWith_same {o : Option Nat} (i : Nat) (sl : Slot) (s : State) (h : s.limitWith o) (hs : sl.state = (s.slot i).state) :
    (setSlot i sl s).limitWith o := by
  obtain ⟨a, b, c, d⟩ := h
  have e : ∀ j, ((setSlot i sl s).slot j).state = (s.slot j).state := by
    intro j
    rw [slot_setSlot]
    split
    · rename_i hij; rw [hs, hij.1]
    · rfl
  refine ⟨le_trans (slotsInUse_setSlot_le i sl s (by rw [hs]; exact id)) a, fun j => ?_, c, fun j hj => ?_⟩
  · rw [e]; exact b j
  · rw [e]; exact d j hj

/-- A slot that is neither WRITING nor in the eviction queue takes a state that is neither FREE nor WRITING, where it was not
FREE before. -/
theorem limitWith_move {o : Option Nat} (i : Nat) (sl : Slot) (s : State) (h : s.limitWith o) (h1 : (s.slot i).state ≠ .free)
    (h2 : (s.slot i).state ≠ .writing) (h3 : i ∉ s.wb.eviction) (h4 : sl.state ≠ .writing) : (setSlot i sl s).limitWith o := by
  obtain ⟨a, b, c, d⟩ := h
  refine ⟨le_trans (slotsInUse_setSlot_le i sl s (fun _ => h1)) a, fun j => ?_, c, fun j hj => ?_⟩
  · rw [slot_setSlot]
    split
    · rename_i hij
      obtain ⟨rfl, _⟩ := hij
      constructor
      · intro hw; exact absurd hw h4
      · intro hw; exact absurd ((b i).2 hw) h2
    · exact b j
  · rw [slot_setSlot]
    split
    · rename_i hij
      obtain ⟨rfl, _⟩ := hij
      exact absurd hj h3
    · exact d j hj

theorem notIn_of_state {o : Option Nat} {s : State} (h : s.limitWith o) (i : Nat) (hs : (s.slot i).state ≠ .sealed) :
    i ∉ s.wb.eviction :=
  fun hi => hs (h.2.2.2 i hi)

/-! ## Sealing -/

theorem sealRecord_slot (i x : Nat) (s : State) :
    ∃ sl : Slot, sl.state = .sealed ∧ (sealRecord i x s).staging = (setSlot i sl s).staging := by
  unfold sealRecord
  dsimp only
  split
  · exact ⟨_, rfl, rfl⟩
  · exact ⟨_, rfl, rfl⟩
  · exact ⟨_, rfl, rfl⟩
  · refine ⟨_, ?_, by simp only [touchCache_keeps]; rfl⟩; rfl
  · exact ⟨_, rfl, rfl⟩
  · refine ⟨_, ?_, by simp only [pinnedRead_keeps]; rfl⟩; rfl

theorem sealSlot_limitWith {o : Option Nat} (i : Nat) (s : State) (h : s.limitWith o) : (sealSlot i s).limitWith o := by
  unfold sealSlot
  split
  · rename_i ho
    obtain ⟨sl, h1, h2⟩ := sealRecord_slot i ((s.slot i).page.getD 0) s
    have hn : i ∉ s.wb.eviction := notIn_of_state h i (by simp [ho])
    obtain ⟨a, b, c, d⟩ := limitWith_move i sl s h (by simp [ho]) (by simp [ho]) hn (by simp [h1])
    have hl : i < s.staging.slots.length := by
      by_contra hc
      have : (s.slot i).state = .free := by simp [State.slot, List.getElem?_eq_none (Nat.not_lt.1 hc), Slot.freed]
      rw [ho] at this; contradiction
    have hw : (sealRecord i ((s.slot i).page.getD 0) s).wb = s.wb := by simp
    have hs : ∀ j, (joinEviction i (sealRecord i ((s.slot i).page.getD 0) s)).slot j = (setSlot i sl s).slot j := by
      intro j
      show (sealRecord i ((s.slot i).page.getD 0) s).staging.slots.getD j _ = _
      rw [h2]; rfl
    refine ⟨?_, fun j => ?_, ?_, fun j hj => ?_⟩
    · show ((sealRecord i ((s.slot i).page.getD 0) s).staging.slots.filter _).length ≤ (sealRecord i ((s.slot i).page.getD
        0) s).staging.limitD
      rw [h2]; exact a
    · rw [hs]; simpa [joinEviction, hw] using b j
    · simp only [joinEviction, State.setWb_wb, hw]
      exact List.nodup_append.2 ⟨c, by simp, by
        intro a ha b hb
        simp only [List.mem_singleton] at hb
        subst hb
        rintro rfl
        exact hn ha⟩
    · simp only [joinEviction, State.setWb_wb, hw, List.mem_append, List.mem_singleton] at hj
      rcases hj with hj | rfl
      · rw [hs]; exact d j hj
      · rw [hs, slot_setSlot, if_pos ⟨rfl, hl⟩, h1]
  · exact h

theorem sealSlot_phase (i : Nat) (s : State) : (sealSlot i s).wb.phase = s.wb.phase := by
  unfold sealSlot
  split
  · simp [joinEviction]
  · rfl

theorem sealSlot_limitKept (i : Nat) (s : State) (h : s.limitKept) : (sealSlot i s).limitKept := by
  unfold State.limitKept
  rw [sealSlot_phase]
  exact sealSlot_limitWith i s h

/-! ## Write-back -/

theorem findPartner_ne {s : State} {i x j : Nat} {test : Slot → Bool} (h : s.findPartner i x test = some j) :
    j ≠ i ∧ test (s.slot j) = true := by
  have := List.find?_some h
  simp at this
  exact ⟨this.1, this.2.2⟩

theorem filledFrom_state (sl : Slot) (base : List Byte) : (sl.filledFrom base).state = sl.state := rfl

/-- A HELD slot becomes FREE. -/
theorem freeSlot_limitWith {o : Option Nat} (i : Nat) (s : State) (h : s.limitWith o) (h1 : (s.slot i).state ≠ .writing)
    (h2 : (s.slot i).state ≠ .sealed) : (freeSlot i s).limitWith o := by
  obtain ⟨a, b, c, d⟩ := h
  have hn : i ∉ s.wb.eviction := fun hi => h2 (d i hi)
  refine ⟨le_trans (slotsInUse_setSlot_le i _ s (fun hf => absurd rfl hf)) a, fun j => ?_, c, fun j hj => ?_⟩
  · show ((setSlot i _ s).slot j).state = _ ↔ _
    rw [slot_setSlot]
    split
    · rename_i hij
      obtain ⟨rfl, _⟩ := hij
      constructor
      · intro hw; exact absurd hw (by simp [Slot.freed])
      · intro hw; exact absurd ((b i).2 hw) h1
    · exact b j
  · show ((setSlot i _ s).slot j).state = _
    rw [slot_setSlot]
    split
    · rename_i hij
      obtain ⟨rfl, _⟩ := hij
      exact absurd hj hn
    · exact d j hj

theorem heldPartner_limitWith {o : Option Nat} (i x : Nat) (s : State) (h : s.limitWith o) : (heldPartner i x s).limitWith o := by
  unfold heldPartner
  split
  · exact limitWith_same _ _ s h (filledFrom_state _ _)
  · split
    · rename_i j hj
      have := (findPartner_ne hj).2
      simp only [decide_eq_true_eq] at this
      exact freeSlot_limitWith j s h (by simp [this]) (by simp [this])
    · exact h

theorem commitPartner_limitWith {o : Option Nat} (i x : Nat) (s : State) (h : s.limitWith o) :
    (commitPartner i x s).limitWith o := by
  unfold commitPartner
  split
  · exact limitWith_same _ _ s h (filledFrom_state _ _)
  · split
    · rename_i j hj
      have := (findPartner_ne hj).2
      simp only [decide_eq_true_eq] at this
      exact freeSlot_limitWith j s h (by simp [this]) (by simp [this])
    · exact h

theorem loseBarriers_limitWith {o : Option Nat} (i : Nat) (inc : Byte) (s : State) (h : s.limitWith o) :
    (loseBarriers i inc s).limitWith o := by
  refine limitWith_congr h ?_ ?_ <;> simp [loseBarriers, setBarriers]

theorem commitBarriers_limitWith {o : Option Nat} (i : Nat) (inc : Byte) (s : State) (h : s.limitWith o) :
    (commitBarriers i inc s).limitWith o := by
  refine limitWith_congr h ?_ ?_ <;> simp [commitBarriers, setBarriers]

theorem requestReadOnly_limitWith {o : Option Nat} (s : State) (h : s.limitWith o) : (requestReadOnly s).limitWith o := by
  refine limitWith_congr h ?_ ?_ <;> simp

theorem becomeHeld_limitWith {o : Option Nat} (i : Nat) (reason : HoldReason) (s : State)
    (h : (setSlot i { s.slot i with state := .held, hold := some reason, target := none } s).limitWith o) :
    (becomeHeld i reason s).limitWith o := by
  unfold becomeHeld
  exact requestReadOnly_limitWith _ (loseBarriers_limitWith _ _ _ (heldPartner_limitWith _ _ _ h))

theorem holdSealed_limitKept (i : Nat) (s : State) (h : s.limitKept) (hp : s.wb.phase.slotHeld = none)
    (hs : (s.slot i).state = .sealed) : (holdSealed i s).limitKept := by
  have h0 : (s.setWb { s.wb with phase := .idle, eviction := s.wb.eviction.erase i }).limitWith none := by
    obtain ⟨a, b, c, d⟩ := h
    exact ⟨a, fun j => by rw [hp] at b; exact b j, c.erase _, fun j hj => d j (List.mem_of_mem_erase hj)⟩
  have e : (holdSealed i s).wb.phase.slotHeld = none := by simp [holdSealed, becomeHeld, loseBarriers, setBarriers,
      WbPhase.slotHeld]
  unfold State.limitKept
  rw [e]
  unfold holdSealed
  apply becomeHeld_limitWith
  refine limitWith_move i _ _ h0 ?_ ?_ ?_ (by simp)
  · show (s.slot i).state ≠ _; simp [hs]
  · show (s.slot i).state ≠ _; simp [hs]
  · exact h.2.2.1.not_mem_erase

/-- The phase becomes IDLE when the slot it held has taken another state. -/
theorem letGo (i : Nat) (sl : Slot) (s : State) (h : s.limitWith (some i)) (h4 : sl.state = .held ∨ sl.state = .free) :
    (setSlot i sl s).limitWith none := by
  have hw : (s.slot i).state = .writing := (h.2.1 i).2 rfl
  have hn : i ∉ s.wb.eviction := notIn_of_state h i (by simp [hw])
  have hl : i < s.staging.slots.length := by
    by_contra hc
    have : (s.slot i).state = .free := by simp [State.slot, List.getElem?_eq_none (Nat.not_lt.1 hc), Slot.freed]
    rw [hw] at this; contradiction
  obtain ⟨a, b, c, d⟩ := h
  refine ⟨le_trans (slotsInUse_setSlot_le i sl s (fun _ => by simp [hw])) a, fun j => ?_, c, fun j hj => ?_⟩
  · show ((setSlot i sl s).slot j).state = _ ↔ none = some j
    rw [slot_setSlot]
    split
    · rcases h4 with h4 | h4 <;> simp [h4]
    · rename_i hij
      constructor
      · intro hj
        have := (b j).1 hj
        cases this
        exact absurd ⟨rfl, hl⟩ hij
      · intro hj; cases hj
  · show ((setSlot i sl s).slot j).state = _
    rw [slot_setSlot]
    split
    · rename_i hij
      obtain ⟨rfl, _⟩ := hij
      exact absurd hj hn
    · exact d j hj

theorem retirePage_limitWith {o : Option Nat} (p : Nat) (s : State) (h : s.limitWith o) : (retirePage p s).limitWith o := by
  refine limitWith_congr h ?_ ?_ <;> simp

theorem holdWriting_limitKept (i : Nat) (reason : HoldReason) (s : State) (h : s.limitWith (some i)) :
    (holdWriting i reason s).limitKept := by
  have h1 := letGo i { (retirePage (s.slot i).targetPage s).slot i with state := .held, hold := some reason, target := none } _
    (retirePage_limitWith (s.slot i).targetPage s h) (Or.inl rfl)
  exact limitWith_congr (becomeHeld_limitWith i reason _ h1) rfl rfl

theorem startWriteBack_limitKept (i : Nat) (t : Target) (s : State) (h : s.limitKept) (hp : s.wb.phase.slotHeld = none) (hs : (s.slot i).state = .sealed) :
    (startWriteBack i t s).limitKept := by
  have hl : i < s.staging.slots.length := by
    by_contra hc
    have : (s.slot i).state = .free := by simp [State.slot, List.getElem?_eq_none (Nat.not_lt.1 hc), Slot.freed]
    rw [hs] at this; contradiction
  have h1 : (startWriteBack i t s).staging = (setSlot i { s.slot i with state := .writing, target := some t } s).staging := by
    simp [startWriteBack, State.slot, setSlot]
  have h2 : (startWriteBack i t s).wb = { s.wb with phase := .program i, eviction := s.wb.eviction.erase i } := by
    simp [startWriteBack]
  obtain ⟨a, b, c, d⟩ := h
  have hs' : ∀ j, (startWriteBack i t s).slot j = (setSlot i { s.slot i with state := .writing, target := some t } s).slot j := by
    intro j; simp only [State.slot, h1]
  refine ⟨?_, fun j => ?_, ?_, fun j hj => ?_⟩
  · have := slotsInUse_setSlot_le i { s.slot i with state := .writing, target := some t } s (fun _ => by simp [hs])
    simp only [State.slotsInUse, h1] at this ⊢
    exact le_trans this a
  · rw [hs', slot_setSlot, h2]
    show _ ↔ some i = some j
    split
    · rename_i hij; simp [hij.1]
    · rename_i hij
      constructor
      · intro hj; have := (b j).1 hj; rw [hp] at this; contradiction
      · intro hj; cases hj; exact absurd ⟨rfl, hl⟩ hij
  · rw [h2]; exact c.erase _
  · rw [h2] at hj
    rw [hs', slot_setSlot, if_neg]
    · exact d j (List.mem_of_mem_erase hj)
    · rintro ⟨rfl, _⟩; exact c.not_mem_erase hj

theorem takeSlot_limitKept (i : Nat) (s : State) (h : s.limitKept) (hi : s.engineStart = some i) : (takeSlot i s).limitKept := by
  have hp : s.wb.phase = .idle ∧ s.firstReady = some i := by
    unfold State.engineStart at hi
    split at hi
    · split at hi
      · rename_i h1 _; exact ⟨h1, hi⟩
      · contradiction
    · contradiction
  have hs : (s.slot i).state = .sealed := by
    have := List.find?_some hp.2
    simp [State.ready] at this
    exact this.1.1
  unfold takeSlot
  split
  · exact startWriteBack_limitKept _ _ s h (by simp [hp.1, WbPhase.slotHeld]) hs
  · exact limitKept_congr h rfl (by simp [hp.1, setWbPhase, WbPhase.slotHeld]) rfl
  · exact holdSealed_limitKept _ s h (by simp [hp.1, WbPhase.slotHeld]) hs

theorem retryWith_limitKept (i : Nat) (t : Target) (s : State) (h : s.limitKept) (hi : s.wb.phase.slotHeld = some i) :
    (retryWith i t s).limitKept := by
  unfold retryWith
  dsimp only
  have h1 : (retirePage (s.slot i).targetPage (takePage t.page s)).limitKept := by
    refine limitKept_congr h ?_ ?_ ?_ <;> simp
  have h2 := limitWith_same i { (retirePage (s.slot i).targetPage (takePage t.page s)).slot i with target := some t } _ h1 rfl
  refine limitKept_congr h2 ?_ ?_ ?_
  · simp
  · simp only [requestOp_keeps, setWbPhase, State.setWb_wb]; rw [show WbPhase.slotHeld (.program i) = some i from rfl]; simp [hi]
  · simp [setWbPhase]

theorem retryWriteBack_limitKept (i : Nat) (s : State) (h : s.limitKept) (hi : s.wb.phase.slotHeld = some i) :
    (retryWriteBack i s).limitKept := by
  unfold retryWriteBack
  split
  · exact retryWith_limitKept _ _ s h hi
  · refine limitKept_congr h rfl ?_ rfl
    exact hi.symm
  · exact holdWriting_limitKept _ _ s (hi ▸ h)

theorem attemptFailed_limitKept (i : Nat) (s : State) (h : s.limitKept) (hi : s.wb.phase.slotHeld = some i) :
    (attemptFailed i s).limitKept := by
  unfold attemptFailed
  dsimp only
  have h1 := limitWith_same i { s.slot i with attempts := some ((s.slot i).attempts.getD 0 + 1) } s h rfl
  split
  · exact holdWriting_limitKept _ _ _ (hi ▸ h1)
  · exact retryWriteBack_limitKept _ _ h1 hi

theorem commitSlot_limitKept (i : Nat) (s : State) (h : s.limitKept) (hi : s.wb.phase.slotHeld = some i) :
    (commitSlot i s).limitKept := by
  unfold commitSlot
  dsimp only
  have h1 : (installCache ((s.slot i).page.getD 0) (s.slot i).image (commitMap ((s.slot i).page.getD 0) (s.slot
      i).targetPage s)).limitWith
      (some i) := by
    refine limitWith_congr (hi ▸ h : s.limitWith (some i)) ?_ ?_ <;> simp
  have h2 := commitBarriers_limitWith i (s.slot i).incarnation _ (commitPartner_limitWith i ((s.slot i).page.getD 0) _ h1)
  have h3 := letGo i (Slot.freed ((commitBarriers i (s.slot i).incarnation (commitPartner i ((s.slot i).page.getD 0)
      (installCache ((s.slot i).page.getD 0) (s.slot i).image (commitMap ((s.slot i).page.getD 0) (s.slot i).targetPage s)))).slot i).incarnation) _ h2 (Or.inr rfl)
  exact limitWith_congr h3 rfl rfl

/-! ## What follows every event -/

theorem reexamine_limitKept (s t : State) (h : s.limitKept) (ht : s.reexamine = some t) : t.limitKept := by
  rcases reexamine_cases s t ht with ⟨_, hp, rfl⟩ | ⟨i, _, hp, rfl⟩ | ⟨i, hw, hp, hr, rfl⟩ | ⟨i, _, _, rfl⟩ | ⟨p, _, rfl⟩
  · exact limitKept_congr h rfl (by simp [hp, setWbPhase, WbPhase.slotHeld]) rfl
  · exact retryWriteBack_limitKept i s h (by simp [hp, WbPhase.slotHeld])
  · exact takeSlot_limitKept i s h (by simp [State.engineStart, hp, hw, hr])
  · exact sealSlot_limitKept i s h
  · refine limitKept_congr h ?_ ?_ ?_ <;> simp

theorem settle_limitKept (s : State) (h : s.limitKept) : (settle s).limitKept :=
  settle_induct (Q := State.limitKept) (fun s t ht h => reexamine_limitKept s t h ht) s h

theorem sealAllOpen_limitKept (s : State) (h : s.limitKept) : (sealAllOpen s).limitKept :=
  sealAllOpen_induct (Q := State.limitKept) (fun s i _ h => sealSlot_limitKept i s h)
    (fun s i hi h => takeSlot_limitKept i s h hi) s h


/-! ## Before service -/

@[simp] theorem setSup_before (s : State) (v : Supervisor) (h : v.state = s.sup.state) : (s.setSup v).beforeService =
    s.beforeService := by
  simp [State.beforeService, h]

theorem before_congr {s t : State} (h : t.sup = s.sup) : t.beforeService = s.beforeService := by simp [State.beforeService, h]

@[simp] theorem requestReadOnly_before (s : State) : (requestReadOnly s).beforeService = s.beforeService := by
  unfold requestReadOnly
  split
  · rename_i h; simp [State.beforeService, h]
  · rename_i h; split <;> rfl
  · rfl
  · rfl

@[simp] theorem examineBadPages_before (s : State) : (examineBadPages s).beforeService = s.beforeService := by
  unfold examineBadPages; split <;> simp

@[simp] theorem examineSequence_before (s : State) : (examineSequence s).beforeService = s.beforeService := by
  unfold examineSequence; split <;> simp

@[simp] theorem takePage_before (p : Nat) (s : State) : (takePage p s).beforeService = s.beforeService := by
  unfold takePage; dsimp only; rw [examineSequence_before]; exact before_congr (by simp)

@[simp] theorem retirePage_before (p : Nat) (s : State) : (retirePage p s).beforeService = s.beforeService := by
  unfold retirePage; rw [examineBadPages_before]; exact before_congr (by simp)

@[simp] theorem becomeHeld_before (i : Nat) (r : HoldReason) (s : State) : (becomeHeld i r s).beforeService =
    s.beforeService := by
  unfold becomeHeld; dsimp only; rw [requestReadOnly_before]; exact before_congr (by simp)

@[simp] theorem holdSealed_before (i : Nat) (s : State) : (holdSealed i s).beforeService = s.beforeService := by
  unfold holdSealed; rw [becomeHeld_before]; exact before_congr (by simp)

@[simp] theorem setWbPhase_before (ph : WbPhase) (s : State) : (setWbPhase ph s).beforeService = s.beforeService := rfl

@[simp] theorem setSlot_before (i : Nat) (sl : Slot) (s : State) : (setSlot i sl s).beforeService = s.beforeService := rfl

@[simp] theorem requestOp_before (op : ArrayOp) (r : Requester) (s : State) : (requestOp op r s).beforeService =
    s.beforeService :=
  before_congr (by simp)

@[simp] theorem sealSlot_before (i : Nat) (s : State) : (sealSlot i s).beforeService = s.beforeService :=
  before_congr (by simp)

@[simp] theorem holdWriting_before (i : Nat) (r : HoldReason) (s : State) : (holdWriting i r s).beforeService =
    s.beforeService := by
  unfold holdWriting; simp

@[simp] theorem startWriteBack_before (i : Nat) (t : Target) (s : State) : (startWriteBack i t s).beforeService =
    s.beforeService := by
  unfold startWriteBack; dsimp only; rw [requestOp_before]
  show (takePage t.page s).beforeService = _
  simp

@[simp] theorem takeSlot_before (i : Nat) (s : State) : (takeSlot i s).beforeService = s.beforeService := by
  unfold takeSlot; split <;> simp

@[simp] theorem retryWriteBack_before (i : Nat) (s : State) : (retryWriteBack i s).beforeService = s.beforeService := by
  unfold retryWriteBack; split
  · unfold retryWith; dsimp only; simp
  · simp
  · simp

@[simp] theorem attemptFailed_before (i : Nat) (s : State) : (attemptFailed i s).beforeService = s.beforeService := by
  unfold attemptFailed; dsimp only; split <;> simp

theorem reexamine_before (s t : State) (h : s.reexamine = some t) : t.beforeService = s.beforeService := by
  rcases reexamine_cases s t h with ⟨_, _, rfl⟩ | ⟨i, _, _, rfl⟩ | ⟨i, _, _, _, rfl⟩ | ⟨i, _, _, rfl⟩ | ⟨p, _, rfl⟩
  · simp
  · simp
  · simp
  · simp
  · exact before_congr (by simp)

@[simp] theorem settle_before (s : State) : (settle s).beforeService = s.beforeService :=
  settle_induct (Q := fun t => t.beforeService = s.beforeService) (fun t u h ht => (reexamine_before t u h).trans ht) s rfl

@[simp] theorem sealAllOpen_before (s : State) : (sealAllOpen s).beforeService = s.beforeService :=
  sealAllOpen_induct (Q := fun t => t.beforeService = s.beforeService) (fun t i _ h => by simp [h]) (fun t i _ h => by simp
      [h]) s rfl

/-- Before service there is nothing to re-examine. -/
theorem reexamine_of_before (s : State) (h : s.beforeService = true) : s.reexamine = none := by
  have hw : s.writing = false := by
    unfold State.writing
    simp only [State.beforeService, Bool.or_eq_true, decide_eq_true_eq] at h
    rcases h with h | h <;> rw [h]
  have hi : s.inService = false := by
    simp only [State.beforeService, Bool.or_eq_true, decide_eq_true_eq] at h
    rcases h with h | h <;> simp [State.inService, h]
  simp only [State.reexamine, State.endWait, State.engineStart, State.eraseStart, State.pressure, hw, hi, Bool.false_and]
  cases s.wb.phase <;> cases s.xlat.erase <;> simp

/-- The limit is kept, and nothing is staged before service. -/
def State.limitJoint (s : State) : Prop := s.limitKept ∧ s.emptyBeforeService

theorem joint_of_after {s : State} (h : s.limitKept) (hb : s.beforeService = false) : s.limitJoint :=
  ⟨h, fun h' => by rw [hb] at h'; contradiction⟩

theorem joint_congr {s t : State} (h : s.limitJoint) (h1 : t.staging = s.staging) (h2 : t.wb.phase = s.wb.phase)
    (h3 : t.wb.eviction = s.wb.eviction) (h4 : t.port.table = [] ∨ t.port.table = s.port.table ∨ (s.port.table = [] →
        t.port.table = [])) (h5 : t.beforeService = s.beforeService) : t.limitJoint := by
  refine ⟨limitKept_congr h.1 h1 (by rw [h2]) h3, fun hb => ?_⟩
  obtain ⟨a, b, c, d⟩ := h.2 (h5 ▸ hb)
  refine ⟨by simpa only [State.slotsInUse, h1] using a, ?_, by rw [h2]; exact c, by rw [h3]; exact d⟩
  rcases h4 with h4 | h4 | h4
  · exact h4
  · rw [h4]; exact b
  · exact h4 b

theorem settle_joint (s : State) (h : s.limitJoint) : (settle s).limitJoint := by
  by_cases hb : s.beforeService = true
  · rw [settle_of_none s (reexamine_of_before s hb)]; exact h
  · exact joint_of_after (settle_limitKept s h.1) (by rw [settle_before]; simpa using hb)

theorem reset_joint (c : ResetCause) (o : DrainOutcome) (s : State) : (resetCompletion c o s).limitJoint := by
  have e : (resetCompletion c o s).staging = Staging.reset ∧ (resetCompletion c o s).wb = WriteBack.reset ∧ (resetCompletion
      c o s).port.table = [] := by
    unfold resetCompletion; dsimp only; split <;> simp [resetBlocks, Port.reset, beginMount]
  obtain ⟨e1, e2, e3⟩ := e
  have hu : (resetCompletion c o s).slotsInUse = 0 := by simp only [State.slotsInUse, e1]; decide
  have hs : ∀ i, ((resetCompletion c o s).slot i).state = .free := by
    intro i; simp only [State.slot, e1, Staging.reset]
    rw [List.getD_eq_getElem?_getD, List.getElem?_replicate]; split <;> rfl
  refine ⟨⟨by rw [hu]; exact Nat.zero_le _, fun i => ?_, by rw [e2]; exact List.nodup_nil,
    fun i hi => by
      rw [e2] at hi; cases hi⟩, fun _ => ⟨hu, e3, by rw [e2]; rfl, by rw [e2]; rfl⟩⟩
  rw [hs, e2]; simp [WriteBack.reset, WbPhase.slotHeld]

theorem drainEnd_joint (s : State) (h : s.limitJoint) : (drainEnd s).limitJoint := by
  unfold drainEnd
  split
  · rename_i hd
    split
    · exact reset_joint _ _ _
    · split
      · refine joint_of_after (limitKept_congr h.1 rfl rfl rfl) ?_; simp [State.beforeService]
      · refine joint_of_after (limitKept_congr h.1 rfl rfl rfl) ?_
        cases s.sup.returnTo with
        | none => simp [State.beforeService, ReturnState.toState]
        | some r => cases r <;> simp [State.beforeService, ReturnState.toState]
  · exact h

theorem endCompletion_joint (s : State) (h : s.limitJoint) : (endCompletion s).limitJoint :=
  joint_congr h (by simp) (by simp) (by simp) (Or.inr (Or.inl (by simp))) (before_congr (by simp))

theorem allocate_limitKept (i x : Nat) (s : State) (h : s.limitKept) (hf : (s.slot i).state = .free) (hlt : s.slotsInUse < s.staging.limitD) :
    (allocate i x s).limitKept := by
  have hn : i ∉ s.wb.eviction := notIn_of_state h i (by simp [hf])
  obtain ⟨a, b, c, d⟩ := h
  have hu := slotsInUse_setSlot_succ i (s.allocated i x) s
  have hs : ∀ j, (allocate i x s).slot j = (setSlot i (s.allocated i x) s).slot j := fun j => rfl
  refine ⟨?_, fun j => ?_, c, fun j hj => ?_⟩
  · show (setSlot i (s.allocated i x) s).slotsInUse ≤ s.staging.limitD
    omega
  · show _ ↔ s.wb.phase.slotHeld = some j
    rw [hs, slot_setSlot]
    split
    · rename_i hij
      obtain ⟨rfl, _⟩ := hij
      constructor
      · intro hw; simp [State.allocated] at hw
      · intro hw; have := (b i).2 hw; rw [hf] at this; contradiction
    · exact b j
  · rw [hs, slot_setSlot]
    split
    · rename_i hij
      obtain ⟨rfl, _⟩ := hij
      exact absurd hj hn
    · exact d j hj

theorem placeInSlot_limitKept (i off : Nat) (data : List Byte) (s : State) (h : s.limitKept) :
    (placeInSlot i off data s).limitKept := by
  unfold placeInSlot
  dsimp only
  have h1 := limitWith_same i ((s.slot i).placed off data) s h rfl
  split
  · exact sealSlot_limitKept i _ h1
  · exact h1

theorem stall_limitKept (b : Bool) (s : State) (h : s.limitKept) : (setStall b s).limitKept := h

theorem serveWrite_limitKept (r : Request) (s : State) (h : s.limitKept) : (serveWrite r s).limitKept := by
  unfold serveWrite State.writeSlot
  split
  · rename_i i t hx
    have ht : t.limitKept := by
      split at hx
      · cases hx; exact h
      · split at hx
        · rename_i j hj
          cases hx
          unfold State.allocatable at hj
          split at hj
          · rename_i hlt
            have := List.find?_some hj
            exact allocate_limitKept _ _ s h (by simpa using this) hlt
          · contradiction
        · contradiction
    have h1 := placeInSlot_limitKept i r.offset r.data t ht
    refine limitKept_congr (stall_limitKept false _ h1) ?_ ?_ ?_ <;> simp
  · exact stall_limitKept true s h

theorem serveRead_limitKept (r : Request) (s : State) (h : s.limitKept) : (serveRead r s).limitKept := by
  refine limitKept_congr h ?_ ?_ ?_ <;> simp

theorem servePersist_limitKept (r : Request) (s : State) (h : s.limitKept) : (servePersist r s).limitKept := by
  unfold servePersist
  split
  · refine limitKept_congr h ?_ ?_ ?_ <;> simp
  · split
    · refine limitKept_congr h ?_ ?_ ?_ <;> simp
    · split
      · exact h
      · apply sealAllOpen_limitKept
        refine limitKept_congr h ?_ ?_ ?_ <;> simp [setBarriers]

theorem serve_limitKept (r : Request) (s : State) (h : s.limitKept) : (serve r s).limitKept := by
  unfold serve
  split
  · exact serveRead_limitKept r s h
  · exact serveWrite_limitKept r s h
  · exact servePersist_limitKept r s h

theorem judge_limitKept (r : Request) (s : State) (h : s.limitKept) : (judge r s).limitKept := by
  refine limitKept_congr h ?_ ?_ ?_ <;> simp

theorem placeHead_limitKept (e : Entry) (s : State) (h : s.limitKept) : (placeHead e s).limitKept := by
  have hr : ∀ (t : State), t.limitKept → ∀ tag st d, (becomeReady tag st d t).limitKept := by
    intro t ht tag st d
    refine limitKept_congr ht ?_ ?_ ?_ <;> simp
  have hj : ∀ (t : State), t.limitKept → ∀ tag, (setJudged tag t).limitKept := by
    intro t ht tag
    refine limitKept_congr ht ?_ ?_ ?_ <;> simp
  unfold placeHead
  split
  · unfold refuseByState
    apply hr
    split
    · exact stall_limitKept false s h
    · exact h
  · split
    · exact serve_limitKept _ s h
    · split
      · exact serve_limitKept _ _ (hj _ h _)
      · unfold placeUnjudged
        split
        · exact hr _ h _ _ _
        · split
          · exact hr _ h _ _ _
          · split
            · exact hr _ (judge_limitKept _ s h) _ _ _
            · exact serve_limitKept _ _ (hj _ (judge_limitKept _ s h) _)

@[simp] theorem servePersist_before (r : Request) (s : State) : (servePersist r s).beforeService = s.beforeService := by
  unfold servePersist
  split
  · exact before_congr (by simp)
  · split
    · exact before_congr (by simp)
    · split
      · rfl
      · rw [sealAllOpen_before]; exact before_congr (by simp [setBarriers])

@[simp] theorem serve_before (r : Request) (s : State) : (serve r s).beforeService = s.beforeService := by
  unfold serve
  split
  · exact before_congr (by simp)
  · exact before_congr (by simp)
  · simp

@[simp] theorem placeHead_before (e : Entry) (s : State) : (placeHead e s).beforeService = s.beforeService := by
  unfold placeHead
  split
  · exact before_congr (by simp)
  · split
    · simp
    · split
      · rw [serve_before]; exact before_congr (by simp)
      · unfold placeUnjudged
        split
        · exact before_congr (by simp)
        · split
          · exact before_congr (by simp)
          · split
            · exact before_congr (by simp)
            · rw [serve_before]; exact before_congr (by simp)

theorem head_before (s : State) (h : s.limitJoint) (e : Entry) (he : s.head = some e) : s.beforeService = false := by
  by_contra hb
  have := (h.2 (by simpa using hb)).2.1
  simp [State.head, this] at he

theorem placements_joint (a s : State) (h : s.limitJoint) : (placements a s).limitJoint :=
  placements_induct (Q := State.limitJoint)
    (fun s e he h => joint_of_after (placeHead_limitKept e s h.1) (by rw [placeHead_before]; exact head_before s h e he))
    (fun s h => settle_joint s h) a s h

theorem arrive_joint (b : List Byte) (s : State) (hh : s.requestHeld = false) (h : s.limitJoint) : (arrive b s).limitJoint := by
  unfold arrive
  split
  · exact joint_congr h (by simp) (by simp) (by simp) (Or.inr (Or.inl (by simp))) (before_congr (by simp))
  · split
    · exact joint_congr h (by simp) (by simp) (by simp) (Or.inr (Or.inl (by simp))) (before_congr (by simp))
    · split
      · refine joint_congr h (by simp) (by simp) (by simp) (Or.inr (Or.inl ?_)) (before_congr (by simp))
        simp only [oweAgain, beginSending]
        split <;> (try split) <;> (try split) <;> simp
      · rename_i hm
        apply placements_joint
        refine joint_of_after (limitKept_congr h.1 rfl rfl rfl) ?_
        simp only [not_or] at hm
        simp only [State.requestHeld, Bool.or_eq_false_iff, decide_eq_false_iff_not] at hh
        show s.beforeService = false
        simp [State.beforeService, hh.1, hm.1]

theorem arriveWaiting_joint (q : List (List Byte)) (s : State) (h : s.limitJoint) : (arriveWaiting q s).limitJoint :=
  arriveWaiting_induct (Q := State.limitJoint) (fun s b hb h => arrive_joint b s hb h)
    (fun _ _ h => joint_congr h rfl rfl rfl (Or.inr (Or.inl rfl)) rfl) q s h

theorem finish_joint (a s : State) (h : s.limitJoint) : (finish a s).limitJoint :=
  finish_induct (Q := State.limitJoint) settle_joint drainEnd_joint endCompletion_joint placements_joint arriveWaiting_joint a s h


/-! ## The events -/

theorem slotExpiry_joint (i : Nat) (s : State) (h : s.limitJoint) : (slotExpiry i s).limitJoint := by
  unfold slotExpiry
  split
  · rename_i hs
    refine finish_joint _ _ (joint_of_after (sealSlot_limitKept i s h.1) ?_)
    rw [sealSlot_before]
    have := hs.1
    simp only [State.inService, Bool.or_eq_true, decide_eq_true_eq] at this
    rcases this with h | h <;> simp [State.beforeService, h]
  · exact h

theorem beginDrain_joint (c : DrainCause) (s : State) (h : s.limitJoint) : (beginDrain c s).limitJoint := by
  unfold beginDrain
  refine joint_of_after (sealAllOpen_limitKept _ (limitKept_congr h.1 rfl rfl rfl)) ?_
  rw [sealAllOpen_before]
  cases c <;> rfl

theorem requestFault_joint (s : State) (h : s.limitJoint) : (requestFault s).limitJoint := by
  unfold requestFault
  split
  · exact h
  · split
    · exact reset_joint _ _ _
    · refine joint_of_after (limitKept_congr h.1 ?_ ?_ ?_) ?_
      · simp
      · simp [faultBarriers, setBarriers]
      · simp [faultBarriers, setBarriers]
      · have : ∀ u : State, (faultBarriers (faultReads u)).beforeService = u.beforeService := by
          intro u; exact before_congr (by simp)
        dsimp only
        rw [this]; rfl

theorem resetLineLow_joint (s : State) (h : s.limitJoint) : (resetLineLow s).limitJoint := by
  unfold resetLineLow
  split
  · exact reset_joint _ _ _
  · split
    · exact beginDrain_joint _ s h
    · exact beginDrain_joint _ s h
    · split
      · exact joint_congr h rfl rfl rfl (Or.inr (Or.inl rfl)) rfl
      · split
        · exact joint_congr h rfl rfl rfl (Or.inr (Or.inl rfl)) rfl
        · exact h
      · exact h
    · exact reset_joint _ _ _

theorem softResetActs_joint (s : State) (h : s.limitJoint) : (softResetActs s).limitJoint := by
  unfold softResetActs
  split
  · exact beginDrain_joint _ s h
  · exact beginDrain_joint _ s h
  · split
    · exact joint_congr h rfl rfl rfl (Or.inr (Or.inl rfl)) rfl
    · exact h
  · exact reset_joint _ _ _
  · exact reset_joint _ _ _
  · exact h

theorem beginMount_joint (s : State) (h : s.limitJoint) (hs : s.beforeService = true) : (beginMount s).limitJoint := by
  refine ⟨limitKept_congr h.1 (by simp [beginMount]) (by simp [beginMount]) (by simp [beginMount]), fun _ => ?_⟩
  obtain ⟨a, b, c, d⟩ := h.2 hs
  refine ⟨?_, by simp [beginMount, b], by simp [beginMount, c], by simp [beginMount, d]⟩
  simpa [beginMount, State.slotsInUse] using a

theorem resetRise_joint (s : State) (h : s.limitJoint) : (resetRise s).limitJoint := by
  unfold resetRise
  split
  · rename_i hs
    refine finish_joint _ _ (beginMount_joint _ (joint_congr h rfl rfl rfl (Or.inr (Or.inl rfl)) rfl) ?_)
    show s.beforeService = true
    simp [State.beforeService, hs]
  · exact joint_congr h rfl rfl rfl (Or.inr (Or.inl rfl)) rfl

theorem recover_joint (s : State) (h : s.limitJoint) : (recover s).limitJoint := by
  unfold recover
  split
  · refine finish_joint _ _ (joint_of_after (limitKept_congr h.1 rfl rfl rfl) ?_)
    cases s.sup.returnTo with
    | none => simp [State.beforeService, ReturnState.toState]
    | some r => cases r <;> simp [State.beforeService, ReturnState.toState]
  · exact h

theorem mergeDone_joint (i p : Nat) (st : ArrayStatus) (data spare : List Byte) (s : State) (h : s.limitJoint) :
    (mergeDone i p st data spare s).limitJoint := by
  have key : ∀ sl : Slot, sl.state = (s.slot i).state → (setSlot i sl s).limitJoint := by
    intro sl hsl
    refine ⟨limitWith_same i sl s h.1 hsl, fun hb => ?_⟩
    obtain ⟨a, b, c, d⟩ := h.2 hb
    have := slotsInUse_setSlot_le i sl s (by rw [hsl]; exact id)
    exact ⟨by omega, b, c, d⟩
  have e : ∀ sl : Slot, sl.state = (s.slot i).state → (endMerge i p sl s).limitJoint := by
    intro sl hsl
    exact joint_congr (key sl hsl) rfl rfl rfl (Or.inr (Or.inl rfl)) rfl
  unfold mergeDone
  dsimp only
  split
  · exact e _ rfl
  · split
    · split
      · exact e _ rfl
      · unfold repeatMerge
        exact joint_congr (key { s.slot i with mergeRead := some { page := p, number := 2 } } rfl) (by simp) (by simp) (by
            simp) (Or.inr (Or.inl (by simp))) (before_congr (by simp))
    · exact joint_congr (e ((s.slot i).filledFrom erasedImage) rfl) (by simp) (by simp) (by simp) (Or.inr (Or.inl (by
        simp))) (before_congr (by simp))

theorem setPhase_nil (tag : Nat) (ph : EntryPhase) : setPhase tag ph [] = [] := rfl

theorem becomeReady_table (tag : Nat) (st : ResponseStatus) (d : List Byte) (s : State) (h : s.port.table = []) :
    (becomeReady tag st d s).port.table = [] := by
  unfold becomeReady beginSending
  split <;> (try split) <;> (try split) <;> simp [h, setPhase_nil]

theorem demandDone_joint (p : Nat) (st : ArrayStatus) (data spare : List Byte) (s : State) (h : s.limitJoint) :
    (demandDone p st data spare s).limitJoint := by
  refine joint_congr h (by simp) (by simp) (by simp) (Or.inr (Or.inr fun ht => ?_)) (before_congr (by simp))
  have fold : ∀ (l : List PendingRead) (st : ResponseStatus) (d : PendingRead → List Byte) (u : State), u.port.table = [] →
      (l.foldl (fun t r => becomeReady r.tag st (d r) t) u).port.table = [] := by
    intro l st d
    induction l with
    | nil => intro u hu; exact hu
    | cons r l ih => intro u hu; exact ih _ (becomeReady_table _ _ _ _ hu)
  unfold demandDone
  split
  · unfold demandSuccess
    dsimp only
    have := fold (s.attached p) .ok (fun r => fillRecord r.first data r.bytes) (endDemand p s) ht
    simpa using this
  · split
    · simpa [repeatDemand] using ht
    · unfold demandFailure
      dsimp only
      have := fold (s.attached p) (.fail .media) (fun r => []) (endDemand p s) ht
      simpa using this

theorem programDone_joint (st : ArrayStatus) (s : State) (h : s.limitJoint) : (programDone st s).limitJoint := by
  unfold programDone
  split
  · rename_i i hp
    have hb : s.beforeService = false := by
      by_contra hb
      have := (h.2 (by simpa using hb)).2.2.1
      rw [hp] at this; contradiction
    split
    · refine joint_of_after (limitKept_congr h.1 (by simp) ?_ (by simp [setWbPhase])) ?_
      · simp [setWbPhase, hp, WbPhase.slotHeld]
      · rw [requestOp_before, setWbPhase_before]; exact hb
    · exact joint_of_after (attemptFailed_limitKept i s h.1 (by simp [hp, WbPhase.slotHeld]))
        (by rw [attemptFailed_before]; exact hb)
  · exact h

theorem commitMarkDone_joint (st : ArrayStatus) (s : State) (h : s.limitJoint) : (commitMarkDone st s).limitJoint := by
  unfold commitMarkDone
  split
  · rename_i i hp
    have hb : s.beforeService = false := by
      by_contra hb
      have := (h.2 (by simpa using hb)).2.2.1
      rw [hp] at this; contradiction
    split
    · refine joint_of_after (commitSlot_limitKept i s h.1 (by simp [hp, WbPhase.slotHeld])) ?_
      rw [← hb]; exact before_congr (by simp)
    · exact joint_of_after (attemptFailed_limitKept i s h.1 (by simp [hp, WbPhase.slotHeld]))
        (by rw [attemptFailed_before]; exact hb)
  · exact h

theorem eraseDone_joint (st : ArrayStatus) (s : State) (h : s.limitJoint) : (eraseDone st s).limitJoint := by
  refine joint_congr h (by simp) (by simp) (by simp) (Or.inr (Or.inl (by simp))) ?_
  unfold eraseDone
  split
  · split
    · exact before_congr (by simp)
    · show (retirePage _ s).beforeService = _; simp
  · rfl

theorem cleanMarkDone_joint (st : ArrayStatus) (s : State) (h : s.limitJoint) : (cleanMarkDone st s).limitJoint := by
  refine joint_congr h (by simp) (by simp) (by simp) (Or.inr (Or.inl (by simp))) ?_
  unfold cleanMarkDone
  split
  · split
    · exact before_congr (by simp)
    · show (retirePage _ s).beforeService = _; simp
  · rfl

theorem strapCheck_joint (asz : BitVec 2) (s : State) (h : s.limitJoint) : (strapCheck asz s).limitJoint := by
  unfold strapCheck
  split
  · exact joint_congr h (by simp) (by simp) (by simp) (Or.inr (Or.inl (by simp))) (before_congr (by simp))
  · exact requestFault_joint _ (joint_congr h rfl rfl rfl (Or.inr (Or.inl rfl)) rfl)

theorem readyWaitDone_joint (asz : BitVec 2) (s : State) (h : s.limitJoint) : (readyWaitDone asz s).limitJoint := by
  unfold readyWaitDone
  split
  · exact strapCheck_joint asz s h
  · exact h

theorem configCopyRead_joint (st : ArrayStatus) (data : List Byte) (s : State) (h : s.limitJoint) (hm : s.mount.phase = .configB → s.sup.state = .mounting) :
    (configCopyRead st data s).limitJoint := by
  unfold configCopyRead
  split
  · exact joint_congr h (by simp) (by simp) (by simp) (Or.inr (Or.inl (by simp))) (before_congr (by simp))
  · exact joint_congr h (by simp) (by simp) (by simp) (Or.inr (Or.inl (by simp))) (before_congr (by simp))
  · exact joint_congr h (by simp) (by simp) (by simp) (Or.inr (Or.inl (by simp))) (before_congr (by simp))
  · rename_i r hp _
    have hb : s.beforeService = true := by simp [State.beforeService, hm hp]
    obtain ⟨a, b, c, d⟩ := h.2 hb
    unfold selectActive
    generalize selectConfig _ _ _ = sel
    refine ⟨⟨?_, ?_, ?_, ?_⟩, fun _ => ⟨?_, ?_, ?_, ?_⟩⟩
    · have : (applySelection sel (s.setMount { s.mount with copyB := r })).slotsInUse = s.slotsInUse := by
        simp [State.slotsInUse, applySelection]
      rw [this, a]; exact Nat.zero_le _
    · intro i
      have := h.1.2.1 i
      simpa [applySelection, State.slot] using this
    · simp [applySelection, d]
    · simp [applySelection, d]
    · simpa [State.slotsInUse, applySelection] using a
    · simpa [applySelection] using b
    · simpa [applySelection] using c
    · simpa [applySelection] using d
  · exact h

theorem mountExit_joint (s : State) (h : s.limitJoint) : (mountExit s).limitJoint := by
  refine joint_of_after (limitKept_congr h.1 (by simp) (by simp) (by simp)) ?_
  unfold mountExit exitMount
  dsimp only
  split
  · rfl
  · generalize State.exitState _ = e
    cases e <;> rfl

theorem headerRead_joint (st : ArrayStatus) (spare : List Byte) (s : State) (h : s.limitJoint) :
    (headerRead st spare s).limitJoint := by
  unfold headerRead
  split
  · rename_i p _ _
    split
    · exact joint_congr h (by simp) (by simp) (by simp) (Or.inr (Or.inl (by simp))) (before_congr (by simp))
    · have h1 : ∀ p, (classifyPage p st spare s).limitJoint := fun p => joint_congr h (by simp) (by simp) (by simp) (Or.inr
        (Or.inl (by simp))) (before_congr (by simp))
      unfold advanceScan
      split
      · exact joint_congr (h1 p) (by simp) (by simp) (by simp) (Or.inr (Or.inl (by simp))) (before_congr (by simp))
      · exact mountExit_joint _ (h1 _)
  · exact h

theorem complete_joint (isRow : InFlight → Bool) (g : InFlight → State → State) (s : State) (h : s.limitJoint)
    (hg : ∀ f t, t.limitJoint → t.mount = s.mount → t.sup = s.sup → (g f t).limitJoint) : (complete isRow g s).limitJoint := by
  unfold complete
  split
  · split
    · exact finish_joint _ _ (hg _ _ (joint_congr h rfl rfl rfl (Or.inr (Or.inl rfl)) rfl) rfl rfl)
    · exact h
  · exact h

theorem act_joint (c : CommandName) (args : List Byte) (s : State) (h : s.limitJoint) :
    (s.accepts c.kind = true) → (c.act args s).limitJoint := by
  intro ha
  cases c
  case flush =>
    refine finish_joint _ _ (joint_of_after ?_ ?_)
    · exact limitKept_congr (sealAllOpen_limitKept s h.1) (by simp [doFlush]) (by simp [doFlush]) (by simp [doFlush])
    · have : (doFlush s).beforeService = (sealAllOpen s).beforeService := before_congr (by simp [doFlush])
      rw [this, sealAllOpen_before]
      simp [CommandName.kind, State.accepts, State.inService] at ha
      rcases ha with h | h <;> simp [State.beforeService, h]
  case softReset =>
    refine finish_joint _ _ ?_
    exact softResetActs_joint _ (joint_congr h (by simp) (by simp) (by simp) (Or.inr (Or.inl (by simp))) (before_congr (by simp)))
  all_goals
    exact joint_congr h (by simp [CommandName.act]) (by simp [CommandName.act]) (by simp [CommandName.act]) (Or.inr (Or.inl
        (by simp [CommandName.act]))) (before_congr (by simp [CommandName.act]))

theorem endFrame_joint (c : Option CommandName) (args : List Byte) (s : State) (h : s.limitJoint) :
    (endFrame c args s).limitJoint := by
  unfold endFrame
  split
  · exact h
  · have h0 : (setTransaction .none s).limitJoint := joint_congr h (by simp) (by simp) (by simp) (Or.inr (Or.inl (by simp)))
      (before_congr (by simp))
    unfold decideFrame
    split
    · exact joint_congr h0 (by simp) (by simp) (by simp) (Or.inr (Or.inl (by simp))) (before_congr (by simp))
    · unfold decideCommand
      split
      · exact joint_congr h0 (by simp) (by simp) (by simp) (Or.inr (Or.inl (by simp))) (before_congr (by simp))
      · split
        · rename_i ha; exact act_joint _ _ _ h0 ha
        · exact joint_congr h0 (by simp) (by simp) (by simp) (Or.inr (Or.inl (by simp))) (before_congr (by simp))

end Sys2Proof.Machine
end

