-- ==== Sys2Proof/Laws/Meanings.lean ====
section
/-!
SUPPORT. The first move of every meaning, said once: a completion that is accepted, an operation passed while the link is busy, a
frame that is decided, a request to go READ_ONLY, and the events after which nothing follows.
-/
namespace Sys2Proof.Machine

/-- A completion of the row's operation in flight releases its record, is handled, and what follows an event follows (R101). -/
theorem complete_accepted (f : InFlight) (s : State) (isRow : InFlight → Bool) (handle : InFlight → State → State)
    (h1 : s.seq.phase = .issued) (h2 : s.seq.inFlight = some f) (h3 : isRow f = true) :
    complete isRow handle s = finish s (handle f { s with seq := { s.seq with inFlight := none } }) := by
  have ha : s.accepting = some f := by simp only [State.accepting, h1, h2]
  unfold complete
  rw [ha]
  exact if_pos h3

/-- A completion of any other row is discarded (R91). -/
theorem complete_discarded (s : State) (isRow : InFlight → Bool) (handle : InFlight → State → State)
    (h : ∀ f, s.seq.phase = .issued → s.seq.inFlight = some f → isRow f = false) : complete isRow handle s = s := by
  unfold complete
  split
  · rename_i f hf
    unfold State.accepting at hf
    split at hf
    · rename_i hp; rw [h f hp hf]; rfl
    · contradiction
  · rfl

/-- While the link is busy an operation joins the list with the next arrival number (R96). -/
theorem requestOp_busy (op : ArrayOp) (r : Requester) (s : State) (h : s.seq.phase = .issued ∨ s.seq.phase = .resync) :
    requestOp op r s = { s with seq := { s.seq with
      ops := s.seq.ops ++ [{ op := op, requester := r, arrival := s.seq.arrival }], arrival := s.seq.arrival + 1 } } := by
  have : requestOp op r s = joinList op r s := by
    unfold requestOp
    rcases h with h | h <;> rw [h]
  rw [this]
  rfl

/-- A frame that no reset cut off is decided with its transaction ended (R181, R182). -/
theorem endFrame_decides (c : Option CommandName) (args : List Byte) (s : State) (h : s.maint.transaction ≠ .ignored) :
    endFrame c args s = decideFrame c args (setTransaction .none s) := by
  unfold endFrame
  split
  · contradiction
  · rfl

/-- A table entry of another key stays when one is set. -/
theorem tableGet_tableSet_ne {α : Type} (k j : Nat) (v : α) (h : j ≠ k) : ∀ l : List (Nat × α),
    tableGet j (tableSet k v l) = tableGet j l := by
  intro l
  induction l with
  | nil => simp [tableSet, tableGet, Ne.symm h]
  | cons a l ih =>
    obtain ⟨b, w⟩ := a
    unfold tableSet
    split
    · simp [tableGet, Ne.symm h]
    · split
      · rename_i _ h2; subst h2; simp [tableGet, Ne.symm h]
      · simp only [tableGet, ih]

/-- A table entry of another key stays when one is taken out. -/
theorem tableGet_tableErase_ne {α : Type} (k j : Nat) (h : j ≠ k) : ∀ l : List (Nat × α),
    tableGet j (tableErase k l) = tableGet j l := by
  intro l
  induction l with
  | nil => rfl
  | cons a l ih =>
    obtain ⟨b, w⟩ := a
    unfold tableErase
    split
    · rename_i h1; subst h1; simp [tableGet, Ne.symm h]
    · simp only [tableGet, ih]

/-- The entry of another physical page stays when one is replaced, whatever the order of the table. -/
theorem pagesSet_get_ne (p q : Nat) (e : PageEntry) (h : q ≠ p) (l : List (Nat × PageEntry)) :
    tableGet q (pagesSet p e l) = tableGet q l := by
  unfold pagesSet
  split
  · exact tableGet_tableErase_ne p q h l
  · exact tableGet_tableSet_ne p q e h l

/-- In MOUNTING with an open channel and nothing waiting, and in RESETTING, nothing follows an event that leaves no choice due
and no request QUEUED. -/
theorem finish_before_service (a u : State) (h1 : u.beforeService = true) (h2 : u.head = none)
    (h3 : u.port.linkQueue = [] ∨ u.sup.state = .resetting) (h4 : u.seq.phase ≠ .issued) : finish a u = u := by
  have hd : u.sup.state ≠ .draining := by
    simp only [State.beforeService, Bool.or_eq_true, decide_eq_true_eq] at h1
    rcases h1 with h1 | h1 <;> simp [h1]
  have hs : settle u = u := settle_of_none u (reexamine_of_before u h1)
  have he : endCompletion (drainEnd u) = u := by
    rw [drainEnd_of_running u (Or.inl hd)]; exact endCompletion_of_done u (Or.inl h4)
  unfold finish
  dsimp only
  rw [hs, he, placements_of_no_head _ _ h2]
  rcases h3 with h3 | h3
  · have := arriveWaiting_nil u h3
    rw [h3]; exact this
  · exact arriveWaiting_held u (by simp [State.requestHeld, h3])

end Sys2Proof.Machine
end

