-- ==== Sys2Proof/Laws/Placements.lean ====
section
/-!
SUPPORT. What the re-examinations and the seal of every OPEN slot can do to the system link port: they make entries READY and
nothing else, so a table without a QUEUED entry stays so and the records that wait on the link stay. And the placements, taken one
at a time (R139, R143).
-/
namespace Sys2Proof.Machine

/-! ## What an event that is not the port's own does to the port -/

/-- A property of the port that an answer keeps, whichever entry becomes READY. -/
def keptByAnswers (P : Port → Prop) : Prop := ∀ (tag : Nat) (st : ResponseStatus) (d : List Byte) (s : State), P s.port →
  P (becomeReady tag st d s).port

theorem answerPersists_port {P : Port → Prop} (keeps : keptByAnswers P) (st : ResponseStatus) (bs : List Barrier) (s : State)
    (h : P s.port) : P (answerPersists st bs s).port := by
  unfold answerPersists
  induction bs generalizing s with
  | nil => exact h
  | cons b bs ih => exact ih _ (keeps _ _ _ _ h)

theorem becomeHeld_port {P : Port → Prop} (keeps : keptByAnswers P) (i : Nat) (r : HoldReason) (s : State) (h : P s.port) :
    P (becomeHeld i r s).port := by
  unfold becomeHeld loseBarriers
  dsimp only
  rw [(requestReadOnly_keeps _).2.2.2.2.2.2.1]
  exact answerPersists_port keeps _ _ _ (by simpa using h)

theorem holdSealed_port {P : Port → Prop} (keeps : keptByAnswers P) (i : Nat) (s : State) (h : P s.port) :
    P (holdSealed i s).port := by
  unfold holdSealed
  exact becomeHeld_port keeps _ _ _ (by simpa using h)

theorem holdWriting_port {P : Port → Prop} (keeps : keptByAnswers P) (i : Nat) (r : HoldReason) (s : State) (h : P s.port) :
    P (holdWriting i r s).port := by
  unfold holdWriting
  simp only [setWbPhase_keeps]
  exact becomeHeld_port keeps _ _ _ (by simpa using h)

theorem takeSlot_port {P : Port → Prop} (keeps : keptByAnswers P) (i : Nat) (s : State) (h : P s.port) :
    P (takeSlot i s).port := by
  unfold takeSlot
  split
  · simpa using h
  · simpa using h
  · exact holdSealed_port keeps _ _ h

theorem retryWriteBack_port {P : Port → Prop} (keeps : keptByAnswers P) (i : Nat) (s : State) (h : P s.port) :
    P (retryWriteBack i s).port := by
  unfold retryWriteBack
  split
  · simpa using h
  · simpa using h
  · exact holdWriting_port keeps _ _ _ h

/-- The re-examinations that follow an event answer barriers, and do nothing else to the port. -/
theorem settle_port {P : Port → Prop} (keeps : keptByAnswers P) (s : State) (h : P s.port) : P (settle s).port :=
  settle_induct (Q := fun s => P s.port) (fun s t ht h => by
    rcases reexamine_cases s t ht with ⟨_, _, rfl⟩ | ⟨i, _, _, rfl⟩ | ⟨i, _, _, _, rfl⟩ | ⟨i, _, _, rfl⟩ | ⟨p, _, rfl⟩
    · simpa using h
    · exact retryWriteBack_port keeps _ _ h
    · exact takeSlot_port keeps _ _ h
    · simpa using h
    · simpa using h) s h

/-- So does the seal of every OPEN slot. -/
theorem sealAllOpen_port {P : Port → Prop} (keeps : keptByAnswers P) (s : State) (h : P s.port) : P (sealAllOpen s).port :=
  sealAllOpen_induct (Q := fun s => P s.port) (fun s i _ h => by simpa using h) (fun s i _ h => takeSlot_port keeps _ _ h) s h

theorem beginSending_table (s : State) : (beginSending s).port.table = s.port.table := by
  unfold beginSending
  split
  · split
    · rfl
    · split <;> rfl
  · rfl
  · rfl

theorem beginSending_linkQueue (s : State) : (beginSending s).port.linkQueue = s.port.linkQueue := by
  unfold beginSending
  split
  · split
    · rfl
    · split <;> rfl
  · rfl
  · rfl

/-- No entry of the table is QUEUED. -/
def Port.nothingQueued (p : Port) : Prop := ∀ e ∈ p.table, e.phase ≠ .queued

theorem head_none_iff (s : State) : s.head = none ↔ s.port.nothingQueued := by
  unfold State.head Port.nothingQueued
  rw [List.find?_eq_none]
  simp

theorem nothingQueued_kept : keptByAnswers Port.nothingQueued := by
  intro tag st d s h e he
  unfold becomeReady at he
  rw [beginSending_table] at he
  simp only [State.setPort_port, setPhase, List.mem_map] at he
  obtain ⟨e', he', rfl⟩ := he
  split
  · intro hc; cases hc
  · exact h e' he'

/-- With no QUEUED entry before, there is none after. -/
theorem settle_head_none (s : State) (h : s.head = none) : (settle s).head = none :=
  (head_none_iff _).2 (settle_port nothingQueued_kept s ((head_none_iff s).1 h))

theorem sealAllOpen_head_none (s : State) (h : s.head = none) : (sealAllOpen s).head = none :=
  (head_none_iff _).2 (sealAllOpen_port nothingQueued_kept s ((head_none_iff s).1 h))

theorem linkQueue_kept (q : List (List Byte)) : keptByAnswers (fun p => p.linkQueue = q) := by
  intro tag st d s h
  unfold becomeReady
  rw [beginSending_linkQueue]
  exact h

/-- The records that wait on the link are not looked at. -/
theorem settle_linkQueue (s : State) : (settle s).port.linkQueue = s.port.linkQueue :=
  settle_port (linkQueue_kept s.port.linkQueue) s rfl

theorem sealAllOpen_linkQueue (s : State) : (sealAllOpen s).port.linkQueue = s.port.linkQueue :=
  sealAllOpen_port (linkQueue_kept s.port.linkQueue) s rfl

/-! ## Placements, one at a time -/

/-- The head is placed, or presented again, and what that sets off follows; a later cause is one that arose since. -/
theorem placeFor_step (n : Nat) (a s : State) (e : Entry) (h : s.head = some e)
    (hc : e.judged = true → presentCause a s e.request.kind = true) :
    placeFor (n + 1) a s = placeFor n s (settle (placeHead e s)) := by
  conv_lhs => unfold placeFor
  rw [h]
  simp only
  rw [if_neg]
  rintro ⟨hj, hf⟩
  rw [hc hj] at hf
  contradiction

/-- Nothing is placed where no entry is QUEUED, or the head is stalled and no cause arose. -/
theorem placeFor_of_rest (n : Nat) (a s : State)
    (h : ∀ e, s.head = some e → e.judged = true ∧ presentCause a s e.request.kind = false) : placeFor n a s = s := by
  cases n with
  | zero => rfl
  | succ n =>
    unfold placeFor
    split
    · rfl
    · rename_i e he
      rw [if_pos (h e he)]

end Sys2Proof.Machine
end

