-- ==== Sys2Proof/Laws/Settle.lean ====
section
/-!
SUPPORT. The repeated operations come to their end: each re-examination lowers one count that is at most 34, so the 64 of
`settle` are never used up, and each seal of an OPEN slot leaves one OPEN slot fewer, so the 16 of `sealAllOpen` are enough.
With it the two are what a single one of their moves and the same operation after it make (`settle_of_reexamine`,
`sealAllOpen_of_oldest`).
-/
namespace Sys2Proof.Machine

/-! ## Sums over the slot states -/

/-- A sum over the slots, by their states. -/
def State.slotSum (f : SlotState → Nat) (s : State) : Nat := (s.staging.slots.map (fun sl => f sl.state)).sum

theorem sum_map_set {α : Type} (g : α → Nat) (d x : α) : ∀ (l : List α) (i : Nat), i < l.length →
    ((l.set i x).map g).sum + g (l.getD i d) = (l.map g).sum + g x
  | [], _, h => by simp at h
  | a :: l, 0, _ => by simp; omega
  | a :: l, i + 1, h => by
    have := sum_map_set g d x l i (by simpa using h)
    simp only [List.set_cons_succ, List.map_cons, List.sum_cons, List.getD_cons_succ]
    omega

theorem slotSum_congr {f : SlotState → Nat} {s t : State} (h : t.staging = s.staging) : t.slotSum f = s.slotSum f := by
  unfold State.slotSum; rw [h]

/-- One slot record replaced. -/
theorem slotSum_setSlot (f : SlotState → Nat) (i : Nat) (sl : Slot) (s : State) (h : i < s.staging.slots.length)
    {st : SlotState} (hs : sl.state = st) : (setSlot i sl s).slotSum f + f (s.slot i).state = s.slotSum f + f st := by
  subst hs
  exact sum_map_set (fun sl : Slot => f sl.state) (Slot.freed 0) sl s.staging.slots i h

/-- A slot that is not FREE is one of the table's. -/
theorem slot_in_range {s : State} {i : Nat} (h : (s.slot i).state ≠ .free) : i < s.staging.slots.length := by
  by_contra hc
  exact h (by simp [State.slot, List.getElem?_eq_none (Nat.not_lt.1 hc), Slot.freed])

/-- A seal moves one slot from OPEN to SEALED (R8). -/
theorem slotSum_sealSlot (f : SlotState → Nat) (i : Nat) (s : State) (h : (s.slot i).state = .opened) :
    (sealSlot i s).slotSum f + f .opened = s.slotSum f + f .sealed := by
  obtain ⟨sl, h1, h2⟩ := sealRecord_slot i ((s.slot i).page.getD 0) s
  have e : (sealSlot i s).slotSum f = (setSlot i sl s).slotSum f := by
    unfold sealSlot
    rw [if_pos h]
    exact slotSum_congr (by simpa using h2)
  have := slotSum_setSlot f i sl s (slot_in_range (by simp [h])) h1
  rw [h] at this
  rw [e]
  exact this

/-- A partner of a HELD slot counts no more than before (R20, R24). -/
theorem slotSum_heldPartner (f : SlotState → Nat) (hf : f .free = 0) (i x : Nat) (s : State) :
    (heldPartner i x s).slotSum f ≤ s.slotSum f := by
  unfold heldPartner
  split
  · rename_i j hj
    have hp := (findPartner_ne hj).2
    simp only [Bool.and_eq_true, decide_eq_true_eq] at hp
    have h1 := slotSum_setSlot f j ((s.slot j).filledFrom (s.slot i).image) s (slot_in_range (by simp [hp.1]))
      (filledFrom_state _ _)
    omega
  · split
    · rename_i j hj
      have hp := (findPartner_ne hj).2
      simp only [decide_eq_true_eq] at hp
      have h1 := slotSum_setSlot f j (Slot.freed (s.slot j).incarnation) s (slot_in_range (by simp [hp])) (st := .free) rfl
      show (setSlot j _ s).slotSum f ≤ _
      omega
    · exact le_rfl

/-- A slot that becomes HELD counts no more (R24, R53, R59). -/
theorem slotSum_becomeHeld (f : SlotState → Nat) (hf : f .free = 0) (hh : f .held = 0) (i : Nat) (r : HoldReason) (s : State)
    (h : i < s.staging.slots.length) : (becomeHeld i r s).slotSum f + f (s.slot i).state ≤ s.slotSum f := by
  have h1 := slotSum_setSlot f i { s.slot i with state := .held, hold := some r, target := none } s h (st := .held) rfl
  have h2 := slotSum_heldPartner f hf i ((s.slot i).page.getD 0)
    (setSlot i { s.slot i with state := .held, hold := some r, target := none } s)
  have h3 : (becomeHeld i r s).slotSum f = (heldPartner i ((s.slot i).page.getD 0)
      (setSlot i { s.slot i with state := .held, hold := some r, target := none } s)).slotSum f :=
    slotSum_congr (by simp [becomeHeld, loseBarriers])
  omega

theorem slotSum_becomeHeld_le (f : SlotState → Nat) (hf : f .free = 0) (hh : f .held = 0) (i : Nat) (r : HoldReason) (s : State) :
    (becomeHeld i r s).slotSum f ≤ s.slotSum f := by
  by_cases h : i < s.staging.slots.length
  · have := slotSum_becomeHeld f hf hh i r s h
    omega
  · have h1 : setSlot i { s.slot i with state := .held, hold := some r, target := none } s = s := by
      simp [setSlot, State.setStaging, List.set_eq_of_length_le (Nat.not_lt.1 h)]
    have h3 : (becomeHeld i r s).slotSum f = (heldPartner i ((s.slot i).page.getD 0) s).slotSum f :=
      slotSum_congr (by simp [becomeHeld, loseBarriers, h1])
    rw [h3]
    exact slotSum_heldPartner f hf _ _ _

/-! ## What a slot that the engine takes counts -/

/-- The slot that the engine takes is SEALED (R48, R49). -/
theorem engineStart_sealed {s : State} {i : Nat} (h : s.engineStart = some i) : s.wb.phase = .idle ∧ (s.slot i).state = .sealed := by
  unfold State.engineStart at h
  split at h
  · rename_i hp
    split at h
    · have := List.find?_some h
      simp only [State.ready, Bool.and_eq_true, decide_eq_true_eq] at this
      exact ⟨hp, this.1.1⟩
    · contradiction
  · contradiction

/-- The start of a write-back moves one slot from SEALED to WRITING (R51). -/
theorem slotSum_startWriteBack (f : SlotState → Nat) (i : Nat) (t : Target) (s : State) (h : i < s.staging.slots.length) :
    (startWriteBack i t s).slotSum f + f (s.slot i).state = s.slotSum f + f .writing := by
  have h1 := slotSum_setSlot f i { s.slot i with state := .writing, target := some t } s h (st := .writing) rfl
  have h2 : (startWriteBack i t s).slotSum f = (setSlot i { s.slot i with state := .writing, target := some t } s).slotSum f :=
    slotSum_congr (by simp [startWriteBack, State.slot, setSlot])
  omega

/-- What a slot that the engine takes counts: it starts, waits as it is, or is HELD (R49 to R53). -/
theorem slotSum_takeSlot (f : SlotState → Nat) (hf : f .free = 0) (hh : f .held = 0) (hw : f .writing = 0) (i : Nat) (s : State)
    (h : s.engineStart = some i) :
    (s.askPage = .wait ∧ takeSlot i s = setWbPhase .pageWaitFirst s) ∨
    ((∃ p q, s.askPage = .page p q ∧ (takeSlot i s).wb.phase = .program i) ∨
        s.askPage = .none ∧ (takeSlot i s).wb.phase = .idle ∧ (takeSlot i s).xlat = s.xlat) ∧
      (takeSlot i s).slotSum f + f .sealed ≤ s.slotSum f := by
  obtain ⟨hp, hs⟩ := engineStart_sealed h
  have hl : i < s.staging.slots.length := slot_in_range (by simp [hs])
  unfold takeSlot
  split
  · rename_i p q ha
    refine Or.inr ⟨Or.inl ⟨p, q, ha, by simp [startWriteBack]⟩, ?_⟩
    have := slotSum_startWriteBack f i { page := p, seq := q } s hl
    rw [hs] at this
    omega
  · rename_i ha; exact Or.inl ⟨ha, rfl⟩
  · rename_i ha
    refine Or.inr ⟨Or.inr ⟨ha, by simp [holdSealed, becomeHeld, loseBarriers, setBarriers], by simp⟩, ?_⟩
    have := slotSum_becomeHeld f hf hh i .noSpace (s.setWb { s.wb with phase := .idle, eviction := s.wb.eviction.erase i }) hl
    have e : (s.setWb { s.wb with phase := .idle, eviction := s.wb.eviction.erase i }).slot i = s.slot i := rfl
    rw [e, hs] at this
    exact this

/-! ## The re-examinations end -/

/-- What the phase of the write-back record counts: an engine that waits for nothing still has a wait to leave, an IDLE one where
a page must be waited for has a wait to enter. -/
def State.waitWeight (s : State) : Nat :=
  match s.wb.phase with
  | .idle => if s.askPage = .wait then 1 else 0
  | .pageWaitFirst => if s.askPage = .wait then 0 else 1
  | .pageWaitRetry _ => 1
  | _ => 0

/-- An idle erase engine may start once. -/
def State.eraseWeight (s : State) : Nat := if s.xlat.erase = .idle then 1 else 0

/-- An OPEN slot may be sealed and then taken, a SEALED one taken. -/
def settleWeight : SlotState → Nat
  | .opened => 2
  | .sealed => 1
  | _ => 0

/-- More than this many re-examinations cannot follow one another. -/
def State.toSettle (s : State) : Nat := s.slotSum settleWeight + s.waitWeight + s.eraseWeight

theorem oldestOpen_opened {s : State} {i : Nat} (h : s.oldestOpen = some i) : (s.slot i).state = .opened := by
  have all : ∀ (l : List Nat) (b : Option Nat), (∀ j, b = some j → (s.slot j).state = .opened) →
      ∀ j, l.foldl s.olderOpen b = some j → (s.slot j).state = .opened := by
    intro l
    induction l with
    | nil => intro b hb j hj; exact hb j hj
    | cons k l ih =>
      intro b hb j hj
      refine ih _ (fun m hm => ?_) j hj
      unfold State.olderOpen at hm
      split at hm
      · rename_i ho
        split at hm
        · cases hm; exact ho
        · split at hm
          · cases hm; exact ho
          · cases hm; exact hb _ rfl
      · exact hb m hm
  exact all slotNumbers none (fun j hj => nomatch hj) i h

/-- The answer to a page request looks at the collections and the erase engine only (R50, R77). -/
theorem askPage_wait_congr {s t : State} (h1 : t.xlat.freePool = s.xlat.freePool) (h2 : t.xlat.eraseQueue = s.xlat.eraseQueue)
    (h3 : t.xlat.erase = s.xlat.erase) : (t.askPage = .wait ↔ s.askPage = .wait) := by
  unfold State.askPage
  rw [h1, h2, h3]
  cases s.xlat.freePool with
  | nil => rfl
  | cons p l => simp

theorem requestOp_xlat (op : ArrayOp) (r : Requester) (s : State) : (requestOp op r s).xlat = s.xlat := by simp

theorem requestReadOnly_xlat (s : State) : (requestReadOnly s).xlat = s.xlat := by simp

/-- A retirement leaves the collections and the erase engine (R79). -/
theorem retirePage_collections (p : Nat) (s : State) :
    (retirePage p s).xlat.freePool = s.xlat.freePool ∧ (retirePage p s).xlat.eraseQueue = s.xlat.eraseQueue ∧
      (retirePage p s).xlat.erase = s.xlat.erase := by
  unfold retirePage examineBadPages
  split <;> simp [setPageState]

/-- A seal leaves the collections and the erase engine (R8). -/
theorem sealSlot_collections (i : Nat) (s : State) :
    (sealSlot i s).xlat.freePool = s.xlat.freePool ∧ (sealSlot i s).xlat.eraseQueue = s.xlat.eraseQueue ∧
      (sealSlot i s).xlat.erase = s.xlat.erase := by
  unfold sealSlot
  split
  · simp only [joinEviction_keeps]
    unfold sealRecord
    dsimp only
    split <;> simp [pinnedRead, setPins]
  · exact ⟨rfl, rfl, rfl⟩

/-- The start of a write-back leaves the erase engine (R51). -/
theorem takePage_erase (p : Nat) (s : State) : (takePage p s).xlat.erase = s.xlat.erase := by
  unfold takePage examineSequence
  dsimp only
  split <;> simp [setPageState]

theorem eraseWeight_congr {s t : State} (h : t.xlat.erase = s.xlat.erase) : t.eraseWeight = s.eraseWeight := by
  unfold State.eraseWeight; rw [h]

/-- An IDLE engine that need not wait has no wait to enter. -/
theorem waitWeight_of_idle {s : State} (h1 : s.wb.phase = .idle) (h2 : s.askPage ≠ .wait) : s.waitWeight = 0 := by
  simp [State.waitWeight, h1, h2]

/-- What the phase counts looks at the phase and the answer to a page request only. -/
theorem waitWeight_congr {s t : State} (h1 : t.wb.phase = s.wb.phase) (h2 : t.askPage = .wait ↔ s.askPage = .wait) :
    t.waitWeight = s.waitWeight := by
  simp only [State.waitWeight, h1, h2]

theorem toSettle_lt {s t : State} (h1 : t.slotSum settleWeight + t.waitWeight < s.slotSum settleWeight + s.waitWeight)
    (h2 : t.xlat.erase = s.xlat.erase) : t.toSettle < s.toSettle := by
  have := eraseWeight_congr h2
  unfold State.toSettle
  omega

/-- The engine that starts a write-back leaves the erase engine (R51). -/
theorem startWriteBack_erase (i : Nat) (t : Target) (s : State) : (startWriteBack i t s).xlat.erase = s.xlat.erase := by
  simp [startWriteBack, takePage_erase]

theorem setWbPhase_phase (ph : WbPhase) (s : State) : (setWbPhase ph s).wb.phase = ph := rfl

/-- A retry that is answered leaves its wait, and its slot counts no more than before (R52, R58, R59). -/
theorem retryWriteBack_counts (i : Nat) (s : State) (h : s.askPage ≠ .wait) :
    (retryWriteBack i s).slotSum settleWeight ≤ s.slotSum settleWeight ∧ (retryWriteBack i s).waitWeight = 0 ∧
      (retryWriteBack i s).xlat.erase = s.xlat.erase := by
  unfold retryWriteBack
  split
  · rename_i p q ha
    have e : (retryWith i { page := p, seq := q } s).staging =
        (setSlot i { s.slot i with target := some { page := p, seq := q } } s).staging := by
      simp [retryWith, State.slot, setSlot]
    refine ⟨?_, by simp [State.waitWeight, retryWith, setWbPhase_phase], ?_⟩
    · rw [slotSum_congr e]
      by_cases hl : i < s.staging.slots.length
      · have := slotSum_setSlot settleWeight i { s.slot i with target := some { page := p, seq := q } } s hl (st := (s.slot i).state) rfl
        omega
      · have : (setSlot i { s.slot i with target := some { page := p, seq := q } } s).staging = s.staging := by
          simp [setSlot, List.set_eq_of_length_le (Nat.not_lt.1 hl)]
        rw [slotSum_congr this]
    · simp [retryWith, retirePage_collections, takePage_erase]
  · contradiction
  · rename_i ha
    have hx : (holdWriting i .noSpace s).xlat = (retirePage (s.slot i).targetPage s).xlat := by simp [holdWriting]
    obtain ⟨h1, h2, h3⟩ := retirePage_collections (s.slot i).targetPage s
    refine ⟨?_, waitWeight_of_idle (setWbPhase_phase _ _) ?_, by rw [hx, h3]⟩
    · have e : (holdWriting i .noSpace s).slotSum settleWeight = (becomeHeld i .noSpace (retirePage (s.slot i).targetPage s)).slotSum settleWeight :=
        slotSum_congr (by simp [holdWriting])
      have e2 : (retirePage (s.slot i).targetPage s).slotSum settleWeight = s.slotSum settleWeight := slotSum_congr (by simp)
      have := slotSum_becomeHeld_le settleWeight rfl rfl i .noSpace (retirePage (s.slot i).targetPage s)
      omega
    · intro hw
      exact h ((askPage_wait_congr (by rw [hx, h1]) (by rw [hx, h2]) (by rw [hx, h3])).1 hw)

/-- The start of an erase-and-stamp leaves a page to wait for, where there was one (R82). -/
theorem startErase_counts (p : Nat) (s : State) (h : s.eraseStart = some p) :
    (startErase p s).slotSum settleWeight = s.slotSum settleWeight ∧ (startErase p s).waitWeight = s.waitWeight ∧
      (startErase p s).eraseWeight < s.eraseWeight := by
  have hx : (startErase p s).xlat.erase = .erase p ∧ (startErase p s).xlat.freePool = s.xlat.freePool := by
    simp [startErase, setPageState]
  have he : s.xlat.erase = .idle ∧ s.xlat.eraseQueue ≠ [] := by
    unfold State.eraseStart at h
    split at h
    · rename_i hi
      refine ⟨hi, fun hq => ?_⟩
      split at h
      · simp [State.firstUnpinned, hq] at h
      · contradiction
    · contradiction
  refine ⟨slotSum_congr (by simp), waitWeight_congr (by simp) ?_, by simp [State.eraseWeight, hx.1, he.1]⟩
  unfold State.askPage
  rw [hx.2, hx.1, he.1]
  cases s.xlat.freePool with
  | nil => cases hq : s.xlat.eraseQueue with
    | nil => exact absurd hq he.2
    | cons a l => cases (startErase p s).xlat.eraseQueue <;> simp
  | cons a l => simp

/-- Each re-examination lowers the count. -/
theorem reexamine_lowers (s t : State) (h : s.reexamine = some t) : t.toSettle < s.toSettle := by
  unfold State.reexamine at h
  split at h
  · rename_i u hu
    cases h
    unfold State.endWait at hu
    split at hu
    · rename_i hw
      have hn : s.askPage ≠ .wait := by
        intro hc
        simp [State.waitOver, hc] at hw
      split at hu
      · rename_i hp
        cases hu
        have e1 : (setWbPhase .idle s).waitWeight = 0 := waitWeight_of_idle rfl hn
        have e2 : s.waitWeight = 1 := by simp [State.waitWeight, hp, hn]
        have e3 : (setWbPhase .idle s).slotSum settleWeight = s.slotSum settleWeight := rfl
        exact toSettle_lt (by omega) rfl
      · rename_i i hp
        cases hu
        have e2 : s.waitWeight = 1 := by simp [State.waitWeight, hp]
        obtain ⟨h1, h2, h3⟩ := retryWriteBack_counts i s hn
        exact toSettle_lt (by omega) h3
      · contradiction
    · contradiction
  · split at h
    · rename_i i hi
      cases h
      obtain ⟨hp, hs⟩ := engineStart_sealed hi
      have e0 : settleWeight .sealed = 1 := rfl
      rcases slotSum_takeSlot settleWeight rfl rfl rfl i s hi with ⟨ha, ht⟩ | ⟨⟨p, q, ha, ht⟩ | ⟨ha, ht, hx⟩, hc⟩
      · have e1 : (takeSlot i s).waitWeight = 0 := by
          rw [ht]
          have : (setWbPhase .pageWaitFirst s).askPage = .wait := ha
          show (if (setWbPhase .pageWaitFirst s).askPage = .wait then 0 else 1) = 0
          rw [if_pos this]
        have e2 : s.waitWeight = 1 := by simp [State.waitWeight, hp, ha]
        have e3 : (takeSlot i s).slotSum settleWeight = s.slotSum settleWeight := by rw [ht]; rfl
        exact toSettle_lt (by omega) (by rw [ht]; rfl)
      · have e1 : (takeSlot i s).waitWeight = 0 := by simp [State.waitWeight, ht]
        refine toSettle_lt (by omega) ?_
        unfold takeSlot
        rw [ha]
        exact startWriteBack_erase _ _ _
      · have hn : (takeSlot i s).askPage ≠ .wait := fun hw => by
          have : s.askPage = .wait := (askPage_wait_congr (by rw [hx]) (by rw [hx]) (by rw [hx])).1 hw
          rw [ha] at this
          contradiction
        have e1 := waitWeight_of_idle ht hn
        exact toSettle_lt (by omega) (by rw [hx])
    · split at h
      · rename_i i hi
        cases h
        have ho : s.oldestOpen = some i := by
          split at hi
          · exact hi
          · contradiction
        obtain ⟨h1, h2, h3⟩ := sealSlot_collections i s
        have e0 := slotSum_sealSlot settleWeight i s (oldestOpen_opened ho)
        have e1 : settleWeight .opened = 2 ∧ settleWeight .sealed = 1 := ⟨rfl, rfl⟩
        have e2 := waitWeight_congr (sealSlot_phase i s) (askPage_wait_congr h1 h2 h3)
        exact toSettle_lt (by omega) h3
      · split at h
        · rename_i p hp
          cases h
          obtain ⟨h1, h2, h3⟩ := startErase_counts p s hp
          unfold State.toSettle
          omega
        · contradiction

/-- The count is at most twice the number of slots and two. -/
theorem toSettle_le (s : State) : s.toSettle ≤ 2 * s.staging.slots.length + 2 := by
  have all : ∀ l : List Slot, (l.map (fun sl => settleWeight sl.state)).sum ≤ 2 * l.length := by
    intro l
    induction l with
    | nil => simp
    | cons a l ih =>
      have : settleWeight a.state ≤ 2 := by cases a.state <;> decide
      simp only [List.map_cons, List.sum_cons, List.length_cons]
      omega
  have h1 := all s.staging.slots
  have h2 : s.waitWeight ≤ 1 := by unfold State.waitWeight; split <;> (try split) <;> omega
  have h3 : s.eraseWeight ≤ 1 := by unfold State.eraseWeight; split <;> omega
  unfold State.toSettle State.slotSum
  omega

/-- The re-examinations that follow are not changed by more of them than can follow. -/
theorem settleFor_enough : ∀ (n : Nat) (s : State), s.toSettle ≤ n → settleFor (n + 1) s = settleFor n s
  | 0, s, h => by
    unfold settleFor
    split
    · rename_i t ht
      have := reexamine_lowers s t ht
      omega
    · rfl
  | n + 1, s, h => by
    conv_lhs => unfold settleFor
    conv_rhs => unfold settleFor
    split
    · rename_i t ht
      have := reexamine_lowers s t ht
      exact settleFor_enough n t (by omega)
    · rfl

/-- What follows an event on which something is due is that, and then what follows it: a chain of re-examinations is taken one at
a time, however long it is. -/
theorem settle_of_reexamine (s t : State) (hl : s.staging.slots.length = 16) (h : s.reexamine = some t) : settle s = settle t := by
  have e : settle s = settleFor 63 t := by
    show settleFor (63 + 1) s = _
    conv_lhs => unfold settleFor
    rw [h]
  rw [e]
  refine (settleFor_enough 63 t ?_).symm
  have := reexamine_lowers s t h
  have := toSettle_le s
  omega

/-! ## The seals of a request that seals every OPEN slot -/

/-- OPEN slots count one each. -/
def openWeight : SlotState → Nat
  | .opened => 1
  | _ => 0

/-- R49, R11 (log 14): the state once the engine has been looked at after a seal. -/
def engineLooks (s : State) : State :=
  match s.engineStart with
  | some j => takeSlot j s
  | none => s

theorem slotSum_engineLooks (s : State) : (engineLooks s).slotSum openWeight ≤ s.slotSum openWeight := by
  unfold engineLooks
  split
  · rename_i j hj
    rcases slotSum_takeSlot openWeight rfl rfl rfl j s hj with ⟨_, ht⟩ | ⟨_, hc⟩
    · rw [ht]; exact le_rfl
    · exact le_trans (Nat.le_add_right _ _) hc
  · exact le_rfl

theorem sealAllFor_succ (n : Nat) (s : State) (i : Nat) (h : s.oldestOpen = some i) :
    sealAllFor (n + 1) s = sealAllFor n (engineLooks (sealSlot i s)) := by
  conv_lhs => unfold sealAllFor
  rw [h]
  rfl

theorem slotSum_sealed_open (s : State) (i : Nat) (h : s.oldestOpen = some i) :
    (engineLooks (sealSlot i s)).slotSum openWeight + 1 ≤ s.slotSum openWeight := by
  have h1 := slotSum_sealSlot openWeight i s (oldestOpen_opened h)
  have h2 := slotSum_engineLooks (sealSlot i s)
  have e : openWeight .opened = 1 ∧ openWeight .sealed = 0 := ⟨rfl, rfl⟩
  omega

theorem sealAllFor_enough : ∀ (n : Nat) (s : State), s.slotSum openWeight ≤ n → sealAllFor (n + 1) s = sealAllFor n s
  | 0, s, h => by
    cases ho : s.oldestOpen with
    | none => unfold sealAllFor; rw [ho]
    | some i =>
      have := slotSum_sealed_open s i ho
      omega
  | n + 1, s, h => by
    cases ho : s.oldestOpen with
    | none => unfold sealAllFor; rw [ho]
    | some i =>
      have := slotSum_sealed_open s i ho
      rw [sealAllFor_succ _ s i ho, sealAllFor_succ _ s i ho]
      exact sealAllFor_enough n _ (by omega)

/-- R11: the oldest OPEN slot is sealed, the engine is looked at (log 14), and the rest is sealed after it. -/
theorem sealAllOpen_of_oldest (s : State) (i : Nat) (hl : s.staging.slots.length = 16) (h : s.oldestOpen = some i) :
    sealAllOpen s = sealAllOpen (engineLooks (sealSlot i s)) := by
  have e : sealAllOpen s = sealAllFor 15 (engineLooks (sealSlot i s)) := sealAllFor_succ 15 s i h
  rw [e]
  refine (sealAllFor_enough 15 _ ?_).symm
  have h1 := slotSum_sealed_open s i h
  have h2 : s.slotSum openWeight ≤ s.staging.slots.length := by
    have all : ∀ l : List Slot, (l.map (fun sl => openWeight sl.state)).sum ≤ l.length := by
      intro l
      induction l with
      | nil => simp
      | cons a l ih =>
        have : openWeight a.state ≤ 1 := by cases a.state <;> decide
        simp only [List.map_cons, List.sum_cons, List.length_cons]
        omega
    exact all _
  omega

end Sys2Proof.Machine
end

