-- ==== Sys2Proof/Laws/Ticks.lean ====
section
/-!
SUPPORT. Everything that a step on an empty queue can do, said once: an event that is due takes place, or time advances; and what
the advance of time leaves as it is.
-/
namespace Sys2Proof.Machine

/-- The event picked is one of those given. -/
theorem pickEvent_mem : ∀ (k : Nat) (e : Instr) (rest : List Instr), pickEvent k e rest ∈ e :: rest
  | _, _, [] => by simp [pickEvent]
  | k, e, x :: rest => by
    unfold pickEvent
    split
    · simp
    · exact List.mem_cons_of_mem _ (pickEvent_mem _ x rest)

/-- Where nothing is due, time advances. -/
theorem emptyQueueStep_quiet (s : State) (h : s.dueEvents = []) : emptyQueueStep s = .next (advanceTime s) := by
  unfold emptyQueueStep; rw [h]

/-- Where something is due, an event that is due takes place. -/
theorem emptyQueueStep_due (s : State) (h : s.dueEvents ≠ []) :
    ∃ c ∈ s.dueEvents, emptyQueueStep s = exec c { s with freeCount := s.freeCount + 1 } := by
  unfold emptyQueueStep
  split
  · contradiction
  · rename_i e rest he
    exact ⟨_, he ▸ pickEvent_mem _ e rest, rfl⟩

/-- Events that are due are well-formed. -/
theorem dueEvents_wellFormed (s : State) : ∀ c ∈ s.dueEvents, c.wellFormed = true := by
  intro c hc
  simp only [State.dueEvents, State.timeoutDue, List.mem_append, List.mem_map, List.mem_filter] at hc
  rcases hc with (((hc | hc) | hc) | hc) | ⟨i, ⟨hi, _⟩, rfl⟩
  · split at hc <;> simp at hc; subst hc; rfl
  · split at hc <;> simp at hc; subst hc; rfl
  · repeat' split at hc
    all_goals simp at hc
    all_goals subst hc; rfl
  · split at hc <;> simp at hc; subst hc; rfl
  · simp only [slotNumbers, List.mem_range] at hi
    simp [Instr.wellFormed, hi]

/-- The advance of time moves the clock, the sequencer's counts and the supervisor's timers only. -/
theorem advanceTime_keeps (s : State) :
    (advanceTime s).staging = s.staging ∧ (advanceTime s).readPath = s.readPath ∧ (advanceTime s).wb = s.wb ∧
    (advanceTime s).xlat = s.xlat ∧ (advanceTime s).mount = s.mount ∧ (advanceTime s).port = s.port ∧
    (advanceTime s).guard = s.guard ∧ (advanceTime s).maint = s.maint ∧ (advanceTime s).pins = s.pins ∧
    (advanceTime s).freeCount = s.freeCount ∧ (advanceTime s).pending = s.pending :=
  ⟨rfl, rfl, rfl, rfl, rfl, rfl, rfl, rfl, rfl, rfl, rfl⟩

/-- The advance of time leaves the operating state. -/
theorem advanceTime_state (s : State) : (advanceTime s).sup.state = s.sup.state := by
  unfold advanceTime; dsimp only; split <;> rfl

/-- The advance of time keeps the supervisor's fields legal. -/
theorem advanceTime_supOkay (s : State) (h : s.sup.okay s.mount.phase) :
    (advanceTime s).sup.okay (advanceTime s).mount.phase := by
  obtain ⟨⟨h1, h2, h3, h4, h5, h6, h7, h8⟩, h9⟩ := h
  simp only [advanceTime]
  split <;> simp_all [Supervisor.okay, Supervisor.legal, Supervisor.msTick]

/-- The advance of time keeps the sequencer's shape. -/
theorem advanceTime_seqShaped (s : State) (h : s.seq.shaped) : (advanceTime s).seq.shaped := by
  show s.seq.usTick.shaped
  cases hp : s.seq.phase <;> simp_all [Sequencer.usTick, Sequencer.shaped]

end Sys2Proof.Machine
end

