-- ==== Sys2Proof/Tests/Slice0.lean ====
section
/-!
SUPPORT. Tests of the model: ill-formed terms that the check refuses, check values of the formats, one-step tests of the
families, and for every obligation with hypotheses states and operands that meet them (`test_meets_…`).
-/
namespace Sys2Proof.Tests
open Host Sys2Proof Sys2Proof.Machine

/-! ## Small states -/

/-- A mounted part of 1024 pages in SERVING with L = 800: logical page 7 on physical page 100, page 200 FREE, page 300 STALE and
queued, the erase engine at work on page 301, an idle sequencer. -/
def up : State :=
  { State.reset with
    pins := { pfwN := true, resetN := true, madr := 0 },
    sup := { Supervisor.afterReset true ResetRecord.powerOn with state := .serving },
    mount := { Mount.reset with phase := .done, arraySize := some 1024 },
    xlat := { remap := [(7, 100)],
              pages := [(100, ⟨.live, 0⟩), (200, ⟨.free, 0⟩), (300, ⟨.stale, 0⟩), (301, ⟨.erasing, 0⟩)],
              freePool := [200], eraseQueue := [300], sequence := 5, erase := .erase 301, logicalPages := some 800 },
    maint := { State.reset.maint with
      copyStatus := some { a := some 3, b := none, inUse := some .a }, active := some (List.replicate 256 0x21) } }

/-- The record of an operation in flight. -/
def record (op : ArrayOp) (r : Requester) : InFlight :=
  { op := op, requester := r, cls := 4, issuedMs := 0, issuedUs := 0, limit := 200, elapsed := 0, timeouts := 0 }

/-- The state with an operation in flight. -/
def flying (op : ArrayOp) (r : Requester) (s : State) : State :=
  { s with seq := { s.seq with phase := .issued, inFlight := some (record op r) } }

/-- `up` with the sequencer busy on the erase of page 301. -/
def busy : State := flying (.erase 301) .eraseEngine up

/-- `busy` with the write-back engine waiting for a page, so that a sealed slot stays SEALED. -/
def starved : State :=
  { busy with wb := { busy.wb with phase := .pageWaitFirst }, xlat := { busy.xlat with freePool := [] } }

/-- The state in another operating state. -/
def inState (st : OperatingState) (s : State) : State := { s with sup := { s.sup with state := st } }

/-- The state in a drain. -/
def inDrain (c : DrainCause) (ret : Option ReturnState) (p : Option PendingReset) (s : State) : State :=
  { s with sup := { s.sup with state := .draining, cause := some c, returnTo := ret, pendingReset := p,
                               drainClock := some 3 } }

/-- The state with some power warning. -/
def warned (w : PowerWarning) (s : State) : State := { s with sup := { s.sup with warning := w } }

/-- A slot of a page with its first `n` offsets valid. -/
def slotOf (st : SlotState) (page n : Nat) : Slot :=
  { Slot.freed 1 with
    state := st, page := some page, image := List.replicate 256 0x11,
    valid := List.replicate n true ++ List.replicate (256 - n) false,
    order := some 0, stamp := some 0, attempts := some 0 }

/-- The same slot, WRITING to page 210 after some failed attempts. -/
def writingSlot (page fails : Nat) : Slot :=
  { slotOf .writing page 256 with merge := some .complete, attempts := some fails, target := some ⟨210, 4⟩ }

/-- A slot whose merge read is in flight. -/
def mergingSlot (page n number : Nat) : Slot :=
  { slotOf .sealed page n with merge := some .reading, mergeRead := some ⟨100, number⟩ }

/-- The state with a request table of `n` WAITING requests, tags 0 and up. -/
def crowded (n : Nat) (s : State) : State :=
  { s with port := { s.port with table := (List.range n).map (fun t =>
      { request := { kind := .persist, tag := t, requester := 0, address := 0, length := 0, data := [] },
        phase := .waiting, judged := true }) } }

/-- A READ record: tag, address of 24 bits, length. -/
def readRec (t : Byte) (a : Nat) (n : Byte) : List Byte := [1, t, 0] ++ leBytes 3 a ++ [n]

/-- A WRITE record of `n` bytes of 0x5C. -/
def writeRec (t : Byte) (a n : Nat) : List Byte :=
  [2, t, 0] ++ leBytes 3 a ++ [BitVec.ofNat 8 n] ++ List.replicate n 0x5C

/-- The READ that `readRec` carries. -/
def readOf (t a n : Nat) : Request := { kind := .read, tag := t, requester := 0, address := a, length := n, data := [] }

/-- The WRITE that `writeRec` carries. -/
def writeOf (t a n : Nat) : Request :=
  { kind := .write, tag := t, requester := 0, address := a, length := n, data := List.replicate n 0x5C }

/-- The PERSIST of a tag. -/
def persistOf (t : Nat) : Request := { kind := .persist, tag := t, requester := 0, address := 0, length := 0, data := [] }

/-- The state with some windows. -/
def guarded (ws : List Window) (s : State) : State := { s with guard := { s.guard with windows := ws } }

/-- A window over the lines `lo` to `hi` for every requester. -/
def windowOver (lo hi : Nat) (k : WindowKinds) (a : WindowAction) : Window :=
  { Window.disabled with enabled := true, kinds := k, requesters := 0xFFFF, low := lo, high := hi, action := a }

/-- Eight windows, the last one given. -/
def lastWindow (w : Window) : List Window := List.replicate 7 Window.disabled ++ [w]

/-- A state whose mount is at some phase on an array of 1024 pages, an operation of the mount in flight. -/
def mounting (ph : MountPhase) (op : ArrayOp) : State :=
  flying op .mount { State.reset with
    pins := { pfwN := true, resetN := true, madr := 0 },
    sup := { State.reset.sup with state := .mounting },
    mount := { Mount.reset with phase := ph, arraySize := some 1024 } }

/-- A scan at page `p` of an array of `n` pages with L = 800, read number `k`, page 2 naming logical page 7 with sequence
number 9. -/
def scanning (p n k : Nat) : State :=
  { mounting .scan (.headerRead p) with
    xlat := { Translation.reset with remap := [(7, 2)], pages := [(2, ⟨.live, 0⟩)], logicalPages := some 800 },
    mount := { Mount.reset with
      phase := .scan, cursor := some p, readNumber := k, arraySize := some n, largest := 9, windows := disabledWindows,
      named := [(7, 9)] } }

/-- The spare area of a committed page. -/
def committedSpare (page : Nat) (seq : Word32) : List Byte :=
  overlay 13 [0x00] (fillChecks [] (headerSpare page seq))

/-- Slot 15 SEALED and waiting for a page, so that a PERSIST has something to wait on and nothing is due; `n` barriers. -/
def staged (n : Nat) : State :=
  setSlot 15 { slotOf .sealed 7 256 with merge := some .noneNeeded }
    { busy with xlat := { busy.xlat with freePool := [] },
                wb := { phase := .pageWaitFirst, eviction := [15],
                        barriers := (List.range n).map (fun t => { tag := t + 1, waitSet := [(15, 1)] }) } }

/-- A maintenance frame is in progress. -/
def framed (s : State) : State := { s with maint := { s.maint with transaction := .active } }

/-! ## The check of well-formed commands refuses -/

theorem test_refuses_empty_record : (Instr.requestArrival []).wellFormed = false := by decide
theorem test_refuses_known_code_as_unknown : (Instr.unknownCommand 0x41 []).wellFormed = false := by decide
theorem test_refuses_timer_of_slot_16 : (Instr.writeBackTimerExpiry 16).wellFormed = false := by decide
theorem test_refuses_short_merge_data :
    (Instr.mergeReadCompletion .pass (List.replicate 255 0) (List.replicate 16 0)).wellFormed = false := by decide +kernel
theorem test_refuses_long_demand_spare :
    (Instr.demandReadCompletion .pass (List.replicate 256 0) (List.replicate 17 0)).wellFormed = false := by decide +kernel
theorem test_refuses_short_copy_data : (Instr.configCopyReadCompletion .pass [] []).wellFormed = false := by decide
theorem test_refuses_short_read_back : (Instr.readBackCompletion .pass [] []).wellFormed = false := by decide
theorem test_refuses_short_header : (Instr.headerReadCompletion .pass (List.replicate 15 0)).wellFormed = false := by decide
theorem test_takes_last_slot_and_failed_reads :
    (Instr.writeBackTimerExpiry 15).wellFormed = true ∧ (Instr.mergeReadCompletion .fail [] []).wellFormed = true ∧
      (Instr.headerReadCompletion .fail []).wellFormed = true ∧ (Instr.unknownCommand 0x42 []).wellFormed = true := by decide

/-! ## Formats -/

/-- The nine bytes of the digits 1 to 9, whose check values R103 gives. -/
def digits : List Byte := [0x31, 0x32, 0x33, 0x34, 0x35, 0x36, 0x37, 0x38, 0x39]

theorem test_check_values : crc32 digits = 0xCBF43926 ∧ crc16 digits = 0x29B1 := by decide +kernel
set_option maxRecDepth 100000 in
theorem test_default_record_is_valid :
    (validRecord 1024 (defaultRecord 1024)).map (fun f => (f.l, f.d, f.w)) = some (894, 12, 50) := by decide
theorem test_status_report_length : up.statusReport.length = 26 ∧ (countersBytes Counters.zero).length = 32 := by
  decide
theorem test_response_bytes : responseBytes { tag := 3, status := .fail .guard, data := [] } = [0x03, 0x83] := by decide

/-- The compiler waits here for the proofs above, so that it holds few of them at once. -/
def waits1 : Fin 2 := ⟨1, by decide +kernel⟩

/-! ## One step -/

/-- What a step leaves of some part of the state. -/
def after {α : Type} (f : State → α) (s : State) : Option α :=
  match step s with
  | .next t => some (f t)
  | _ => none

/-- The state with one command waiting. -/
def given (c : Instr) (s : State) : State := { s with pending := [c] }

/-- The response that a mounted part begins to send when a record arrives. -/
def answerTo (b : List Byte) (s : State) : Option (Option Response) := after State.sending (given (.requestArrival b) s)

theorem test_read_of_array_waits : answerTo (readRec 1 0x700 64) up = some none := by decide
theorem test_read_of_unmapped_page :
    answerTo (readRec 1 0x800 2) up = some (some { tag := 1, status := .ok, data := [0xFF, 0xFF] }) := by decide
theorem test_write_is_answered :
    answerTo (writeRec 2 0x700 4) up = some (some { tag := 2, status := .ok, data := [] }) := by decide
theorem test_persist_with_nothing_staged :
    answerTo [3, 4, 0] up = some (some { tag := 4, status := .ok, data := [] }) := by decide
theorem test_write_then_seal_starts_merge_read :
    after (fun t => (t.slot 0).merge)
      (given (.writeBackTimerExpiry 0) (setSlot 0 (slotOf .opened 7 4) starved)) = some (some .reading) := by
  decide
theorem test_tick_on_empty_queue :
    after (fun t => (t.clock, t.pending)) { up with clock := { ms := 4, us := 999 } } = some ({ ms := 5, us := 0 }, []) := by
  decide

/-! ## The families, one step each -/

theorem test_start_condition_of_another_address_is_ignored :
    after (fun t => (t.ownAddress, t.maint.transaction, t.readTransaction 2)) (given (.startCondition 0) up) =
      some (0x58, .ignored, none) := by decide
theorem test_strap_change_moves_the_address_at_the_next_reset :
    after (fun t => (t.ownAddress, t.maint.transaction)) (given (.startCondition 0x5B)
      { up with maint := { up.maint with madr := 3 } }) = some (0x5B, .active) ∧
    after (fun t => (t.pins.madr, t.ownAddress)) (given (.resetNRise 3) up) = some (3, 0x58) ∧
    after (fun t => (t.pins.madr, t.ownAddress)) (given (.powerOnReset 3) up) = some (3, 0x5B) := by decide
theorem test_marks_program_offsets_0_13_14 :
    let old := List.replicate 16 (0xFF : Byte)
    (ArrayOp.mark 2 .clean 0x5A).spareAfter old = 0x5A :: List.replicate 15 0xFF ∧
      ((ArrayOp.mark 2 .commit 0).spareAfter old)[13]? = some 0 ∧ ((ArrayOp.mark 2 .retire 0).spareAfter old)[14]? = some 0 := by
  decide
theorem test_bad_command : after (fun t => t.responseFrame) (given (.unknownCommand 0x55 []) up) = some [2, 0] := by
  decide
theorem test_bad_argument_count : after (fun t => t.responseFrame) (given (.status [0]) up) = some [3, 0] := by decide
theorem test_flush_refused_in_halted :
    after (fun t => t.responseFrame) (given (.flush []) (inState .halted up)) = some [1, 0] := by
  decide
theorem test_map_query :
    after (fun t => t.responseFrame) (given (.mapQuery [7, 0]) (setSlot 3 (slotOf .opened 7 4) up)) =
      some [0, 8, 100, 0, 3, 1, 3, 1, 0xFF, 0xFF] := by decide
theorem test_soft_reset_drains :
    after (fun t => (t.sup.state, t.sup.cause, (t.slot 0).state))
      (given (.softReset []) (setSlot 0 (slotOf .opened 7 256) { busy with xlat := { busy.xlat with freePool := [] } })) =
      some (.draining, some .maint, .sealed) := by decide +kernel
theorem test_power_fail_with_nothing_staged_halts :
    after (fun t => (t.sup.state, t.safeLine, t.readyLine)) (given .qualification (warned (.qualifying 64) up)) =
      some (.halted, true, false) := by decide
theorem test_reset_line_low_holds_the_part_in_reset :
    after (fun t => (t.sup.state, t.mount.phase)) (given (.resetNFall 0) (inState .fault up)) = some (.resetting, .idle) := by
  decide
theorem test_reset_line_high_begins_the_mount :
    after (fun t => (t.sup.state, t.mount.phase, t.seq.phase)) (given (.resetNRise 0) State.reset) =
      some (.mounting, .readyWait, .resync) := by decide
theorem test_strap_code_3_is_fault :
    after (fun t => (t.sup.state, t.maint.flags.strapFault, t.seq.phase))
      (given (.readyWaitCompletion 3) (mounting .readyWait .readyWait)) =
      some (.fault, true, .stopped) := by decide
theorem test_strap_code_2_reads_copy_a :
    after (fun t => (t.mount.arraySize, t.seq.inFlight.map (fun f => f.op)))
      (given (.readyWaitCompletion 2) (mounting .readyWait .readyWait)) =
      some (some 4096, some (.pageRead 0)) := by decide
theorem test_erase_passes_the_clean_mark :
    after (fun t => (t.xlat.erase, t.maint.counters.erases)) (given (.eraseCompletion .pass) busy) =
      some (.cleanMark 301, 1) := by decide
theorem test_second_program_failure_of_a_slot_takes_the_next_page :
    after (fun t => ((t.slot 0).target, (t.pageEntry 210).state, t.maint.counters.pagesRetired))
      (given (.pageProgramCompletion .fail) (flying (.pageProgram 210 [] []) .writeBack
        { setSlot 0 (writingSlot 7 1) up with wb := { up.wb with phase := .program 0 } })) =
      some (some ⟨200, 5⟩, .bad, 1) := by decide
theorem test_commit_frees_the_slot_and_maps_the_page :
    after (fun t => (t.map 7, (t.slot 0).state, (t.pageEntry 100).state, (t.pageEntry 210).state))
      (given (.commitMarkCompletion .pass) (flying (.mark 210 .commit 0) .writeBack
        { setSlot 0 (writingSlot 7 0) up with wb := { up.wb with phase := .commitMark 0 } })) =
      some (some 210, .free, .stale, .live) := by decide
theorem test_first_timeout_resets_the_link :
    after (fun t => (t.seq.phase, t.seq.inFlight.map (fun f => f.timeouts))) (given .firstTimeout busy) =
      some (.resync, some 1) := by decide
theorem test_unexpected_completion_is_discarded :
    after (fun t => decide (t = { up with pending := [] })) (given (.eraseCompletion .pass) up) = some true := by decide +kernel

/-- As `waits1`. -/
def waits2 : Fin 2 := ⟨1, by decide +kernel⟩

/-! ## Hypotheses are met: the step and the invariants -/

theorem busy_nothing_due (e : Nat) (h : e < 200) : ∀ c, ¬({ busy with seq := { busy.seq with
    inFlight := some { record (.erase 301) .eraseEngine with elapsed := e } } } : State).isDue c := by
  rintro c (⟨i, _, hi, _, ho, _⟩ | ⟨_, e, hw, _⟩ | ⟨_, hd, _⟩ | ⟨_, hr, _⟩ | ⟨_, f, hf, hl, _⟩)
  · have free : ∀ i < 16, (up.slot i).state ≠ .opened := by decide
    exact free i hi ho
  · cases hw
  · cases hd
  · cases hr
  · cases hf
    exact absurd hl (Nat.not_le.mpr h)

theorem test_meets_EmptyQueueStepIsOneTick (e : Nat) (h : e < 200) :
    let s : State := { busy with seq := { busy.seq with
      inFlight := some { record (.erase 301) .eraseEngine with elapsed := e } } }
    s.pending = [] ∧ s.seq.phase = .issued ∧ ∀ c, ¬s.isDue c := ⟨rfl, rfl, busy_nothing_due e h⟩

/-- One us short of their limits the timers go on; at a 1 ms tick the drain clock and the reset timer count. -/
theorem test_tick_short_of_the_limits :
    after (fun t => t.sup.warning) (warned (.qualifying 63) up) = some (.qualifying 64) ∧
      after (fun t => t.seq.resyncUs) { up with seq := { up.seq with phase := .resync, resyncUs := 9 } } = some 10 ∧
      (let d := inDrain .reset none (some .resetLine) up;
        after (fun t => (t.sup.drainClock, t.sup.resetTimer))
          { d with sup := { d.sup with resetTimer := some 99 }, clock := { ms := 0, us := 999 } } = some (some 4, some 100)) := by
  decide

/-- Each timed event is due at a boundary value, and the step takes it. -/
theorem test_meets_EmptyQueueStepTakesADueEvent :
    (warned (.qualifying 64) up).isDue .qualification ∧
      (let d := inDrain .reset none (some .resetLine) up;
        ({ d with sup := { d.sup with resetTimer := some 100 } } : State).isDue .resetTimerExpiry) ∧
      ({ up with seq := { up.seq with phase := .resync, resyncUs := 10 } } : State).isDue .linkResetEnd ∧
      (∀ c ∈ [(0, Instr.firstTimeout), (1, .secondTimeout)],
        ({ up with seq := { (flying .readyWait .mount up).seq with
          inFlight := some { record .readyWait .mount with elapsed := 200, timeouts := c.1 } } } : State).isDue c.2) ∧
      ({ setSlot 15 (slotOf .opened 7 4) up with clock := { ms := 50, us := 0 } } : State).isDue (.writeBackTimerExpiry 15) ∧
      up.pending = [] := by
  refine ⟨Or.inr (Or.inl ⟨rfl, 64, rfl, by decide⟩), Or.inr (Or.inr (Or.inl ⟨rfl, rfl, 100, rfl, by decide⟩)),
    Or.inr (Or.inr (Or.inr (Or.inl ⟨rfl, rfl, by decide⟩))), fun c hc => ?_,
    Or.inl ⟨15, rfl, by decide, Or.inl rfl, by decide, by decide⟩, rfl⟩
  refine Or.inr (Or.inr (Or.inr (Or.inr ⟨rfl, _, rfl, Nat.le_refl _, ?_⟩)))
  simp only [List.mem_cons, List.not_mem_nil, or_false] at hc
  rcases hc with rfl | rfl
  · exact Or.inl ⟨rfl, rfl⟩
  · exact Or.inr ⟨rfl, rfl⟩

theorem test_due_event_takes_place :
    after (fun t => (t.sup.warning, t.clock.us, t.freeCount)) (warned (.qualifying 64) up) = some (.asserted, 0, 1) ∧
      after (fun t => t.seq.phase) { up with seq := { (flying .readyWait .mount up).seq with
        inFlight := some { record .readyWait .mount with elapsed := 200 } } } = some .resync := by
  decide

/-- A completion that comes at the limit leaves no timeout behind: the operation that the choice has issued keeps its count. -/
theorem test_completion_at_the_limit_leaves_no_timeout :
    let s : State := { busy with seq := { busy.seq with
      inFlight := some { record (.erase 301) .eraseEngine with elapsed := 25000 } } }
    after (fun t => (t.seq.phase, t.seq.inFlight.map (fun f => (f.timeouts, f.elapsed)), t.dueEvents))
      (given (.eraseCompletion .pass) s) = some (.issued, some (0, 0), []) := by
  decide

theorem test_meets_WhatFollowsAnEvent_quiet :
    (up.nothingDue ∧ ¬up.seq.phase = .issued) ∧ (busy.nothingDue ∧ busy.seq.inFlight ≠ none) ∧
      (let u := { busy with seq := { busy.seq with inFlight := none } };
        u.nothingDue ∧ u.seq.phase = .issued ∧ u.seq.inFlight = none) := by
  unfold State.nothingDue; decide

/-- The state with slot 15 ready for its write-back and alone in the eviction queue, under some pool, erase queue and phases. -/
def queued (ph : WbPhase) (pool q : List Nat) (e : ErasePhase) (s : State) : State :=
  { setSlot 15 { slotOf .sealed 7 256 with merge := some .noneNeeded } s with
    wb := { s.wb with phase := ph, eviction := [15] },
    xlat := { s.xlat with freePool := pool, eraseQueue := q, erase := e } }

/-- Some state follows by the start of a write-back or its other answers, and nothing is due after it. -/
theorem write_back_follows (ph : WbPhase) (pool q : List Nat) (e : ErasePhase) (v : State)
    (answer : (ph = .idle ∨ ph = .pageWaitFirst) ∧
        (∃ p rest, pool = p :: rest ∧ v = (queued ph pool q e busy).started 15 7 p rest) ∨
      (ph = .idle ∨ ph = .pageWaitFirst) ∧ pool = [] ∧ e = .idle ∧ q = [] ∧
        v = ({ queued ph pool q e busy with wb := { (queued ph pool q e busy).wb with eviction := [] } } : State).heldAs 15 7
          .noSpace ∨
      ph = .idle ∧ pool = [] ∧ (e ≠ .idle ∨ q ≠ []) ∧
        v = { queued ph pool q e busy with wb := { (queued ph pool q e busy).wb with phase := .pageWaitFirst } }) :
    (queued ph pool q e busy).writeBackFollows v := by
  refine ⟨Or.inl rfl, fun h => (nomatch h), [], [], 15, 7, rfl, ?_, rfl, fun j h => (nomatch h), ⟨rfl, Or.inl rfl, ?_⟩, answer⟩
  · show 15 < (List.set (List.replicate 16 (Slot.freed 0)) 15 _).length
    simp
  · have none_writes : ∀ j < 16, (up.slot j).state ≠ .writing := by decide
    intro j hj hne h
    refine none_writes j hj (Eq.trans (congrArg Slot.state ?_) h.1)
    show (List.replicate 16 (Slot.freed 0)).getD j _ = (List.set (List.replicate 16 (Slot.freed 0)) 15 _).getD j _
    simp only [List.getD_eq_getElem?_getD, List.getElem?_set_ne (Ne.symm hne)]

theorem test_meets_WhatFollowsAnEvent_write_back :
    (∀ ph ∈ [WbPhase.idle, .pageWaitFirst], let u := queued ph [200] [300] (.erase 301) busy;
      u.writeBackFollows (u.started 15 7 200 []) ∧ (u.started 15 7 200 []).reexamine = none) ∧
      (let u := queued .idle [] [] .idle busy;
        let v := ({ u with wb := { u.wb with eviction := [] } } : State).heldAs 15 7 .noSpace;
        u.writeBackFollows v ∧ v.reexamine = none) ∧
      (let u := queued .idle [] [] (.erase 301) busy;
        let v : State := { u with wb := { u.wb with phase := .pageWaitFirst } };
        u.writeBackFollows v ∧ v.reexamine = none) := by
  refine ⟨fun ph h => ⟨write_back_follows _ _ _ _ _ (Or.inl ⟨?_, 200, [], rfl, rfl⟩), ?_⟩,
    ⟨write_back_follows _ _ _ _ _ (Or.inr (Or.inl ⟨Or.inl rfl, rfl, rfl, rfl, rfl⟩)), by decide⟩,
    ⟨write_back_follows _ _ _ _ _ (Or.inr (Or.inr ⟨rfl, rfl, Or.inl (by decide), rfl⟩)), by decide⟩⟩
  · simpa using h
  · revert ph; decide

/-- A write-back whose start is followed by the start of an erase: more than one re-examination is due. -/
theorem test_meets_WhatFollowsAnEvent_chain :
    let u := queued .idle [200] [300] .idle busy
    u.staging.slots.length = 16 ∧ u.writeBackFollows (u.started 15 7 200 []) ∧ (u.started 15 7 200 []).reexamine ≠ none :=
  ⟨by decide, write_back_follows _ _ _ _ _ (Or.inl ⟨Or.inl rfl, 200, [], rfl, rfl⟩), by decide⟩

/-- A retry in PAGE WAIT, its slot 15 WRITING to page 210. -/
def retrying (pool : List Nat) : State :=
  { setSlot 15 (writingSlot 7 1) busy with
    wb := { busy.wb with phase := .pageWaitRetry 15 },
    xlat := { busy.xlat with freePool := pool, eraseQueue := [], erase := .idle } }

theorem test_meets_WhatFollowsAnEvent_wait_end :
    ((retrying [200]).waitEndFollows ((retrying [200]).retried 15 7 210 200 []) ∧
        ((retrying [200]).retried 15 7 210 200 []).reexamine = none) ∧
      ((retrying []).waitEndFollows (((retrying []).withRetired 210).heldAs 15 7 .noSpace) ∧
        (((retrying []).withRetired 210).heldAs 15 7 .noSpace).reexamine = none) := by
  have slots : ∀ pool, 15 < (retrying pool).staging.slots.length := fun _ => by
    show 15 < (List.set (List.replicate 16 (Slot.freed 0)) 15 _).length
    simp
  refine ⟨⟨⟨Or.inl rfl, fun h => (nomatch h), 15, 7, ⟨210, 4⟩, rfl, slots _, rfl, rfl, Or.inl ⟨200, [], rfl, by decide, rfl⟩⟩,
    by decide⟩, ⟨Or.inl rfl, fun h => (nomatch h), 15, 7, ⟨210, 4⟩, rfl, slots _, rfl, rfl, Or.inr ⟨rfl, rfl, rfl, rfl⟩⟩, by decide⟩

/-- One OPEN slot under H = 1; a page to erase; drains that have come to their end. -/
theorem test_meets_WhatFollowsAnEvent_pressure_erase_drain :
    (let u : State := { setSlot 15 (slotOf .opened 7 4) starved with
        wb := up.wb, staging := { (setSlot 15 (slotOf .opened 7 4) starved).staging with highH := 1 } };
      u.pressureFollows (sealSlot 15 u) ∧ (sealSlot 15 u).reexamine = none) ∧
      (let u : State := { up with xlat := { up.xlat with erase := .idle } };
        u.eraseFollows (u.eraseStarted 300) ∧ (u.eraseStarted 300).reexamine = none) ∧
      (∀ c ∈ [(PowerWarning.asserted, OperatingState.halted), (.clear, .readOnly)],
        let u := warned c.1 (inDrain .power (some .readOnly) none busy);
        let v : State := { u with sup := { u.sup with
          state := c.2, cause := none, drainClock := none, resetTimer := none,
          returnTo := if c.1 = .asserted then some .readOnly else none } };
        u.drainEndFollows v ∧ v.reexamine = none) ∧
      (let u := inDrain .reset none (some .resetLine) busy;
        u.reexamine = none ∧ u.sup.state = .draining ∧ u.anyStaged = false ∧ u.sup.pendingReset = some .resetLine) := by
  refine ⟨⟨⟨Or.inl rfl, rfl, Or.inl (by decide), by decide, by decide, 15, ⟨by decide, rfl, by decide⟩, rfl⟩, by decide⟩,
    ⟨⟨Or.inl rfl, fun _ => rfl, rfl, by decide, by decide, by decide, [], [], 300, rfl, fun q h => (nomatch h), by decide, rfl⟩,
      by decide⟩, fun c hc => ?_, by decide⟩
  simp only [List.mem_cons, List.not_mem_nil, or_false] at hc
  rcases hc with rfl | rfl
  · exact ⟨⟨by decide, rfl, by decide, rfl, Or.inl ⟨rfl, rfl⟩⟩, by decide⟩
  · exact ⟨⟨by decide, rfl, by decide, rfl, Or.inr ⟨by decide, .readOnly, rfl, rfl⟩⟩, by decide⟩

/-- A state whose head is a stalled request, and nothing else due. -/
def stalledOn (r : Request) (s : State) : State :=
  { s with port := { s.port with table := [{ request := r, phase := .queued, judged := true }] } }

/-- As `waits1`. -/
def waits11 : Fin 2 := ⟨1, by decide +kernel⟩

/-- The stalled entry of a request. -/
def stalledEntry (r : Request) : Entry := { request := r, phase := .queued, judged := true }

/-- No placement is left where no entry is QUEUED. -/
theorem places_none {a u : State} (last : u.head = none) : State.placesTo 0 a u u := ⟨rfl, fun _ h => nomatch last.symm.trans h⟩

/-- No placement is left where the head is stalled and no cause arose. -/
theorem places_stalled {a u : State} (r : Request) (head : u.head = some (stalledEntry r)) (cause : ¬causeArose a u r.kind) :
    State.placesTo 0 a u u := by
  refine ⟨rfl, fun e h => ?_⟩
  cases head.symm.trans h
  exact ⟨rfl, cause⟩

/-- As `places_stalled`, after the re-examinations that are not due. -/
theorem settles_stalled {a u : State} (r : Request) (quiet : u.reexamine = none) (head : u.head = some (stalledEntry r))
    (cause : ¬causeArose a u r.kind) : State.placesTo 0 a (settle u) u :=
  (settle_of_none u quiet).symm ▸ places_stalled r head cause

/-- One placement that sets nothing off, and what comes after it. -/
theorem places_next {a u w v : State} {e : Entry} {n : Nat} (head : u.head = some e)
    (cause : e.judged = true → causeArose a u e.request.kind) (placed : u.placed e w) (quiet : w.reexamine = none)
    (rest : State.placesTo n u w v) : State.placesTo (n + 1) a u v :=
  ⟨e, w, head, cause, placed, (settle_of_none w quiet).symm ▸ rest⟩

theorem test_meets_WhatFollowsAnEvent_presentation :
    let w := writeOf 0 0x900 64
    let ok := fun (a u v : State) => u.nothingElseDue ∧ State.placesTo 1 a u v
    -- a change of state refuses a WRITE; a slot that became FREE lets it in; a PERSIST finds a HELD slot, or nothing staged
    (let u := stalledOn w (inState .fault up);
      ok (inState .serving up) u { u with port := u.port.answer 0 (.fail .fault) [], staging := { u.staging with stall := false } }) ∧
      (let u := stalledOn w busy;
        ok (setSlot 3 (slotOf .held 7 256) busy) u { u with
          port := u.port.answer 0 .ok [],
          staging := { u.staging.withSlot 0 (u.opensFor 0 w) with allocOrder := 1, stall := false } }) ∧
      (let u := stalledOn (persistOf 0) (setSlot 3 (slotOf .held 7 256) up);
        ok { up with wb := { up.wb with barriers := [⟨1, []⟩] } } u { u with port := u.port.answer 0 (.fail .lost) [] }) ∧
      (let u := stalledOn (persistOf 0) up;
        ok { up with wb := { up.wb with barriers := [⟨1, []⟩] } } u { u with port := u.port.answer 0 .ok [] }) := by
  refine ⟨⟨?_, places_next (e := stalledEntry (writeOf 0 0x900 64)) rfl (fun _ => Or.inl (Or.inl (by decide)))
      (Or.inl ⟨.fault, Or.inl ⟨rfl, rfl⟩, rfl⟩) (by decide) (places_none (by decide))⟩,
    ⟨?_, places_next (e := stalledEntry (writeOf 0 0x900 64)) rfl (fun _ => Or.inr (Or.inl ⟨rfl, by decide⟩))
      (Or.inr ⟨Or.inl rfl, Or.inl ⟨rfl, Or.inr ⟨by decide, Or.inl ⟨by decide, 0, by decide,
        ⟨by decide, by decide, fun j h => (nomatch h)⟩, by decide, rfl⟩⟩⟩⟩) (by decide) (places_none (by decide))⟩,
    ⟨?_, places_next (e := stalledEntry (persistOf 0)) rfl (fun _ => Or.inr (Or.inr ⟨rfl, by decide⟩))
      (Or.inr ⟨Or.inl rfl, Or.inl ⟨rfl, Or.inl ⟨by decide, rfl⟩⟩⟩) (by decide) (places_none (by decide))⟩,
    ⟨?_, places_next (e := stalledEntry (persistOf 0)) rfl (fun _ => Or.inr (Or.inr ⟨rfl, by decide⟩))
      (Or.inr ⟨Or.inl rfl, Or.inl ⟨rfl, Or.inr (Or.inl ⟨by decide, by decide, rfl⟩)⟩⟩) (by decide) (places_none (by decide))⟩⟩ <;>
    (unfold State.nothingElseDue; decide)

/-- A barrier has ended: the stalled PERSIST takes its place and is WAITING. -/
theorem test_meets_WhatFollowsAnEvent_persist_waits :
    let u := stalledOn (persistOf 0) (staged 3)
    let v := sealAllOpen { u with
      wb := { u.wb with barriers := u.wb.barriers ++ [{ tag := 0, waitSet := u.stagedPairs }] },
      port := { u.port with table := [{ stalledEntry (persistOf 0) with phase := .waiting }] } }
    u.nothingElseDue ∧ u.stagedPairs = [(15, 1)] ∧ State.placesTo 1 (staged 4) u v ∧ v.wb.barriers.length = 4 := by
  refine ⟨by unfold State.nothingElseDue; decide, by decide, places_next (e := stalledEntry (persistOf 0)) rfl
    (fun _ => Or.inr (Or.inr ⟨rfl, by decide⟩)) (Or.inr ⟨Or.inl rfl, Or.inl ⟨rfl, Or.inr (Or.inr (Or.inr
      ⟨by decide, by decide, by decide, rfl⟩))⟩⟩) (by decide) (places_none (by decide)), by decide⟩

/-- A head leaves its stall, and the READ of no byte that stood QUEUED behind it is judged and refused. -/
theorem test_meets_WhatFollowsAnEvent_behind_the_head :
    let u := { stalledOn (persistOf 0) up with port := { up.port with
      table := [stalledEntry (persistOf 0), { request := readOf 1 0 0, phase := .queued, judged := false }] } }
    let w : State := { u with port := u.port.answer 0 .ok [] }
    u.nothingElseDue ∧ State.placesTo 2 { up with wb := { up.wb with barriers := [⟨1, []⟩] } } u
      { w with port := w.port.answer 1 (.fail .align) [] } := by
  refine ⟨by unfold State.nothingElseDue; decide, places_next (e := stalledEntry (persistOf 0)) rfl
    (fun _ => Or.inr (Or.inr ⟨rfl, by decide⟩)) (Or.inr ⟨Or.inl rfl, Or.inl ⟨rfl, Or.inr (Or.inl ⟨by decide, by decide, rfl⟩)⟩⟩)
    (by decide) (places_next (e := { request := readOf 1 0 0, phase := .queued, judged := false }) rfl (fun h => nomatch h)
      (Or.inr ⟨Or.inl rfl, Or.inr (Or.inr ⟨rfl, (by decide : RequestKind.read ≠ .persist),
        Or.inl ⟨by unfold Request.aligned; decide, rfl⟩⟩)⟩) (by decide) (places_none (by decide)))⟩

/-- A stalled PERSIST with four barriers stays where it is; records that wait on the link; a choice that is due before both. -/
theorem test_meets_WhatFollowsAnEvent_rest :
    (let u := stalledOn (persistOf 0) (staged 4);
      u.nothingElseDue ∧ State.placesTo 0 u u u) ∧
      (let u : State := { busy with port := { busy.port with linkQueue := [[3, 1, 0]] } };
        u.nothingElseDue ∧ State.placesTo 0 u u u ∧ u.port.linkQueue ≠ []) ∧
      (let u : State := { stalledOn (persistOf 0) busy with seq := { busy.seq with inFlight := none } };
        u.reexamine = none ∧ ¬(u.sup.state = .draining ∧ u.anyStaged = false) ∧ u.seq.phase = .issued ∧ u.seq.inFlight = none) := by
  refine ⟨⟨by unfold State.nothingElseDue; decide, places_stalled (persistOf 0) rfl ?_⟩,
    ⟨by unfold State.nothingElseDue; decide, places_none (by decide), by decide⟩, by decide⟩
  rintro ((h | h | h) | ⟨h, _⟩ | ⟨_, h⟩)
  · exact h rfl
  · exact h rfl
  · exact h rfl
  · cases h
  · exact absurd h (by decide)

/-- `up` with an OPEN slot, a barrier-free queue and one WAITING request, a command in the queue. -/
def shapedState : State := given .responseAcceptance (crowded 1 (setSlot 0 (slotOf .opened 7 4) up))

theorem shapedState_shaped : shapedState.shaped := by
  refine ⟨?_, ?_, ?_, ?_, ?_, ?_, ?_, ?_, ?_, ?_⟩
  · unfold Staging.shaped Slot.shaped; decide +kernel
  · unfold cacheShaped; decide
  · unfold WriteBack.shaped; decide
  · unfold Translation.shaped; decide
  · exact (rfl : (none : Option InFlight) = none)
  · exact ⟨trivial, trivial, by decide⟩
  · unfold Port.shaped; decide
  · unfold Guard.shaped Capture.shaped; decide
  · refine ⟨by decide +kernel, fun r h => ?_, by decide +kernel, fun j h => ?_⟩
    · cases h; decide +kernel
    · cases h
  · decide
theorem shapedState_supervised : shapedState.supervised := by
  unfold State.supervised Supervisor.legal; decide
theorem shapedState_withinLimit : shapedState.withinLimit := by
  have far : ∀ i, 16 ≤ i → shapedState.slot i = Slot.freed 0 := fun i h => by
    have hl : shapedState.staging.slots.length = 16 := by decide
    simp [State.slot, List.getD_eq_getElem?_getD, List.getElem?_eq_none (hl.symm ▸ h)]
  have held : shapedState.wb.phase.slotHeld = none := by decide
  refine ⟨by decide, fun i => ?_, by decide, by decide, ?_⟩
  · rw [held]
    by_cases h : i < 16
    · have near : ∀ j < 16, (shapedState.slot j).state ≠ .writing := by decide
      simp [near i h]
    · simp [far i (by omega), Slot.freed]
  · unfold State.emptyBeforeService; decide

theorem test_meets_ShapeKeptByEveryStep : ∃ t, shapedState.shaped ∧ step shapedState = .next t :=
  ⟨_, shapedState_shaped, rfl⟩
theorem test_meets_SupervisorFieldsKeptLegal : ∃ t, shapedState.supervised ∧ step shapedState = .next t :=
  ⟨_, shapedState_supervised, rfl⟩
theorem test_meets_StagingLimitNeverExceeded :
    ∃ t, shapedState.shaped ∧ shapedState.supervised ∧ shapedState.withinLimit ∧ step shapedState = .next t :=
  ⟨_, shapedState_shaped, shapedState_supervised, shapedState_withinLimit, rfl⟩

/-- As `waits1`. -/
def waits3 : Fin 2 := ⟨1, by decide +kernel⟩

/-! ## Hypotheses are met: the system link -/

theorem test_meets_RequestRecordDecoded :
    ((0 : Byte) ≠ 1 ∧ (0 : Byte) ≠ 2 ∧ (0 : Byte) ≠ 3) ∧ ((4 : Byte) ≠ 1 ∧ (4 : Byte) ≠ 2 ∧ (4 : Byte) ≠ 3) ∧
      decodeRequest [3, 15, 15] = some { kind := .persist, tag := 15, requester := 15, address := 0, length := 0, data := [] } ∧
      decodeRequest [3, 16, 15] = none ∧ decodeRequest [3, 15, 16] = none ∧ decodeRequest [3, 15, 15, 0] = none ∧
      decodeRequest [1, 15, 0, 0xFF, 0xFF, 0xFF, 127] = some (readOf 15 16777215 127) ∧
      decodeRequest [1, 15, 0, 0xFF, 0xFF, 0xFF, 128] = none ∧
      decodeRequest (writeRec 0 0 127) = some (writeOf 0 0 127) ∧ decodeRequest (writeRec 0 0 127 ++ [0]) = none ∧
      decodeRequest [2, 0, 0, 0, 0, 0, 0] = some (writeOf 0 0 0) := by
  decide +kernel

/-- What an arrival asks of the channel: open, and nothing waiting on the link. -/
theorem channel_open (n : Nat) (s : State) (h : s.sup.state ≠ .resetting ∧ s.port.againOwed = none ∧ s.port.linkQueue = []) :
    (crowded n s).sup.state ≠ .resetting ∧ (crowded n s).port.againOwed = none ∧ (crowded n s).port.linkQueue = [] := h

theorem test_meets_MalformedOrDuplicateRequestDiscarded :
    ((crowded 8 up).sup.state ≠ .resetting ∧ (crowded 8 up).port.againOwed = none ∧ (crowded 8 up).port.linkQueue = []) ∧
      decodeRequest [3, 16, 0] = none ∧
      ∃ r, decodeRequest [3, 7, 0] = some r ∧ ∃ e ∈ (crowded 8 up).port.table, e.request.tag = r.tag :=
  ⟨channel_open 8 up (by decide), by decide, persistOf 7, by decide, by decide⟩

theorem test_meets_RequestNotTakenIsAnsweredAgain :
    let m := inState .mounting up
    let full := crowded 8 up
    decodeRequest [3, 8, 0] = some (persistOf 8) ∧
      ((m.sup.state ≠ .resetting ∧ m.port.againOwed = none ∧ m.port.linkQueue = [] ∧
        (∀ e ∈ m.port.table, e.request.tag ≠ (persistOf 8).tag) ∧ m.sup.state = .mounting)) ∧
      (full.sup.state ≠ .resetting ∧ full.port.againOwed = none ∧ full.port.linkQueue = [] ∧
        (∀ e ∈ full.port.table, e.request.tag ≠ (persistOf 8).tag) ∧ 8 ≤ full.port.table.length) := by
  decide

/-- A state whose head is stalled, seven entries in the table. -/
def stalled : State :=
  { crowded 6 up with port := { (crowded 6 up).port with
      table := (crowded 6 up).port.table ++ [{ request := persistOf 6, phase := .queued, judged := true }] } }

theorem test_meets_RequestWaitsOnHoldOrStall :
    State.reset.sup.state = .resetting ∧
      (let a := { up with port := { up.port with againOwed := some 3 } }; a.port.againOwed ≠ none) ∧
      decodeRequest [3, 7, 0] = some (persistOf 7) ∧ stalled.sup.state ≠ .resetting ∧ stalled.sup.state ≠ .mounting ∧
      stalled.port.againOwed = none ∧ stalled.port.linkQueue = [] ∧ stalled.port.table.length < 8 ∧
      (∀ e ∈ stalled.port.table, e.request.tag ≠ (persistOf 7).tag) ∧
      stalled.head = some { request := persistOf 6, phase := .queued, judged := true } := by
  decide

/-- As `waits1`. -/
def waits4 : Fin 2 := ⟨1, by decide +kernel⟩

/-- A request is taken and nothing is to be re-examined, in a state and with its record. -/
def met (s : State) (b : List Byte) (r : Request) : Prop := s.takes b r ∧ s.reexamine = none

theorem test_meets_PlacementChecksRefuseRequest_states :
    let p := [3, 15, 0]
    let w := writeRec 0 0x700 4
    met (inState .fault up) p (persistOf 15) ∧ met (inDrain .reset none (some .resetLine) up) p (persistOf 15) ∧
      met (inDrain .maint none (some .maintenance) up) p (persistOf 15) ∧
      met (inDrain .power (some .serving) (some .resetLine) up) p (persistOf 15) ∧
      met (inDrain .power (some .serving) none up) w (writeOf 0 0x700 4) ∧
      met (inState .halted up) w (writeOf 0 0x700 4) ∧ met (inState .readOnly up) w (writeOf 0 0x700 4) := by
  refine ⟨?_, ?_, ?_, ?_, ?_, ?_, ?_⟩ <;> (unfold met State.takes; decide)

theorem test_meets_PlacementChecksRefuseRequest_address :
    -- misaligned: no byte, 65 bytes, and two bytes across a line; out of range: the first byte beyond L x 256
    (met up (readRec 0 0 0) (readOf 0 0 0) ∧ met up (readRec 0 0 65) (readOf 0 0 65) ∧ met up (readRec 0 63 2) (readOf 0 63 2) ∧
      ¬(readOf 0 0 0).aligned ∧ ¬(readOf 0 0 65).aligned ∧ ¬(readOf 0 63 2).aligned) ∧
      (met up (readRec 0 204800 64) (readOf 0 204800 64) ∧ (readOf 0 204800 64).aligned ∧
        up.xlat.logicalPages = some 800 ∧ 800 * 256 ≤ (readOf 0 204800 64).address) ∧
      (readOf 0 0 0).kind ≠ .persist ∧ up.sup.passes .read ∧ (inState .halted up).sup.passes .read ∧ up.sup.passes .write := by
  refine ⟨⟨?_, ?_, ?_, ?_, ?_, ?_⟩, ⟨?_, ?_, ?_, ?_⟩, by decide, Or.inl rfl, ?_, Or.inl rfl⟩
  all_goals first | decide | (unfold met State.takes; decide) | (unfold Request.aligned; decide) |
    (unfold Supervisor.passes; decide)

theorem test_meets_GuardRefusesMatchedRequest :
    let w := windowOver 3199 3199 .write .block
    let s := guarded (lastWindow w) up
    let r := writeOf 0 204736 64
    (s.takes (writeRec 0 204736 64) r ∧ r.kind ≠ .persist ∧ s.sup.passes r.kind ∧ r.aligned ∧ s.inRange r ∧
      w ∈ s.guard.windows ∧ w.hits r = true ∧ w.action = .block ∧ s.reexamine = none) := by
  refine ⟨?_, by decide, Or.inl rfl, ?_, ⟨800, rfl, by decide⟩, by decide, by decide, rfl, by decide⟩
  · unfold State.takes; decide
  · unfold Request.aligned; decide

/-- `State.admits` from its parts, for a part with L = 800. -/
theorem admits_of {s : State} {b : List Byte} {r : Request} (taken : s.takes b r) (kind : r.kind ≠ .persist)
    (state : s.sup.passes r.kind) (line : r.aligned)
    (range : s.xlat.logicalPages = some 800 ∧ r.address < 800 * 256)
    (windows : ∀ w ∈ s.guard.windows, w.hits r = true → w.action = .watch) : s.admits b r :=
  ⟨taken, kind, state, line, ⟨800, range⟩, windows⟩

/-- A WRITE of `n` bytes at `a` is admitted in a state. -/
def admitsWrite (s : State) (a n : Nat) : Prop :=
  s.takes (writeRec 0 a n) (writeOf 0 a n) ∧ s.sup.passes .write ∧ (writeOf 0 a n).aligned ∧
    (s.xlat.logicalPages = some 800 ∧ a < 800 * 256) ∧
    ∀ w ∈ s.guard.windows, w.hits (writeOf 0 a n) = true → w.action = .watch

theorem admits_write {s : State} {a n : Nat} (h : admitsWrite s a n) : s.admits (writeRec 0 a n) (writeOf 0 a n) :=
  admits_of h.1 (fun h => nomatch h) h.2.1 h.2.2.1 h.2.2.2.1 h.2.2.2.2

/-- The write joins an OPEN slot of the last page and leaves it partly valid; it fills a SEALED DEFERRED one. -/
def joined (st : SlotState) (n : Nat) : State :=
  setSlot 15 { slotOf st 799 n with merge := if st = .sealed then some .deferred else none } busy

/-- The WRITE of the last line of page 799 is admitted and joins slot 15; whether it fills the slot. -/
def joinsFull (s : State) (full : Bool) : Prop :=
  s.admits (writeRec 0 204736 64) (writeOf 0 204736 64) ∧ s.findSlot (fun sl => sl.accepts 799) = some 15 ∧
    isFull ((s.slot 15).joinedBy (writeOf 0 204736 64)).valid = full

theorem test_meets_WriteJoinsItsSlot :
    joinsFull (joined .opened 191) false ∧
      (joinsFull (joined .sealed 192) true ∧ ((joined .sealed 192).slot 15).state ≠ .opened ∧
        ((joined .sealed 192).slot 15).merge = some .deferred) ∧
      joinsFull (joined .opened 192) true ∧ ((joined .opened 192).slot 15).state = .opened := by
  refine ⟨⟨admits_write ?_, by decide +kernel, by decide +kernel⟩,
    ⟨⟨admits_write ?_, by decide +kernel, by decide +kernel⟩, by decide, by decide⟩,
    ⟨admits_write ?_, by decide +kernel, by decide +kernel⟩, by decide⟩ <;>
    (unfold admitsWrite State.takes Supervisor.passes Request.aligned; decide)

/-- The WRITE fills an OPEN slot while the engine is IDLE: its write-back starts in the same event. -/
theorem test_full_page_starts_its_write_back :
    after (fun t => ((t.slot 15).state, (t.slot 15).target, t.wb.phase, t.wb.eviction, t.port.readyOrder))
      (given (.requestArrival (writeRec 0 204736 64)) (joined .opened 192)) =
      some (.writing, some ⟨200, 5⟩, .program 15, [], [0]) := by
  decide +kernel

/-- Slots 0 to `n - 1` in use by SEALED slots of other pages, whose merge they wait for, under a limit of 2. -/
def filledTo (n : Nat) : State :=
  { busy with staging := { busy.staging with
      slots := (List.range 16).map (fun i => if i < n then { slotOf .sealed i 4 with merge := some .deferred } else Slot.freed 0),
      limitD := 2, highH := 2 } }

theorem test_meets_WriteOpensSlotOrStalls_opens :
    let s := filledTo 1
    let r := writeOf 0 0x900 64
    s.admits (writeRec 0 0x900 64) r ∧ (∀ j < 16, (s.slot j).accepts 9 = false) ∧ s.slotsInUse < s.staging.limitD ∧
      1 < s.staging.slots.length ∧ (s.slot 1).state = .free ∧ (∀ j < 1, (s.slot j).state ≠ .free) ∧
      isFull (s.opensFor 1 r).valid = false ∧ s.slotsInUse + 1 = s.staging.limitD := by
  refine ⟨admits_write ?_, by decide, by decide, by decide, by decide, by decide, by decide, by decide⟩
  unfold admitsWrite State.takes Supervisor.passes Request.aligned; decide

/-- D slots are in use and nothing follows the stall. -/
theorem test_meets_WriteOpensSlotOrStalls_stalls :
    let s := filledTo 2
    let r := writeOf 0 0x900 64
    let u : State := { s with
      guard := s.judged r, staging := { s.staging with stall := true }, port := s.port.withEntry r .queued }
    s.admits (writeRec 0 0x900 64) r ∧ (∀ j < 16, (s.slot j).accepts 9 = false) ∧ s.staging.limitD ≤ s.slotsInUse ∧
      State.placesTo 0 s (settle u) u := by
  refine ⟨admits_write ?_, by decide, by decide, settles_stalled (writeOf 0 0x900 64) (by decide) rfl ?_⟩
  · unfold admitsWrite State.takes Supervisor.passes Request.aligned; decide
  · rintro ((h | h | h) | ⟨_, h⟩ | ⟨h, _⟩)
    · exact h rfl
    · exact h rfl
    · exact h rfl
    · exact absurd h (by decide)
    · cases h

/-- Two OPEN slots fill a limit of 2, and no page is to come: the pressure seal ends in a HELD slot, READ_ONLY is asked for, and the
stalled WRITE is presented again. -/
def pressed : State :=
  { filledTo 0 with
    staging := { (filledTo 0).staging with
      slots := (List.range 16).map (fun i =>
        if i < 2 then { slotOf .opened (i + 20) 256 with order := some (BitVec.ofNat _ i) } else Slot.freed 0),
      allocOrder := 2 },
    xlat := { busy.xlat with freePool := [], eraseQueue := [], erase := .idle } }

theorem test_stall_that_gives_a_cause :
    after (fun t => (t.sup.state, (t.slot 0).state, t.staging.stall, t.port.table.map (fun e => e.phase)))
      (given (.requestArrival (writeRec 0 0x900 64)) pressed) =
      some (.readOnly, .held, false, [.ready ⟨0, .fail .locked, []⟩]) := by
  decide +kernel

/-- As `waits1`. -/
def waits5 : Fin 2 := ⟨1, by decide +kernel⟩

/-- Page 7 in the cache beside page 8. -/
def warm : State :=
  { up with readPath := { up.readPath with
      cache := [{ page := 7, image := List.replicate 256 0x33 }, { page := 8, image := List.replicate 256 0x44 }] } }

/-- The slot 0 of page 7 is OPEN or SEALED, with four offsets; slot 15 of the page in some other state. -/
def layered (accepting other : SlotState) : State := setSlot 15 (slotOf other 7 256) (setSlot 0 (slotOf accepting 7 4) warm)

/-- Each source, at the last slot and at the two offsets where a slot's bytes end; a page in the cache, one UNMAPPED, one in the
array. -/
theorem test_meets_CoherenceLookupOrder :
    let is := fun (s : State) (st : SlotState) (i : Nat) => (s.slot i).state = st ∧ (s.slot i).page = some 7
    (∀ st ∈ [SlotState.opened, .sealed], ∀ o ∈ [SlotState.writing, .held],
      lowestSlot (fun i => is (layered st o) .opened i ∨ is (layered st o) .sealed i) 0 ∧
        ((layered st o).slot 0).valid[3]? = some true ∧ ((layered st o).slot 0).valid[4]? ≠ some true ∧
        lowestSlot (is (layered st o) o) 15) ∧
      (∀ i, ¬lowestSlot (is (layered .opened .held) .writing) i) ∧ (∀ st i, st ≠ .free → ¬lowestSlot (is warm st) i) ∧
      (∃ e newer, warm.readPath.cache = [] ++ e :: newer ∧ e.page = 7) ∧ (∀ e ∈ up.readPath.cache, e.page ≠ 7) ∧
      up.map 7 = some 100 ∧ up.map 8 = none := by
  refine ⟨by unfold lowestSlot; decide +kernel, fun i h => ?_, fun st i hs h => ?_, ⟨_, _, rfl, rfl⟩, fun e h => (nomatch h),
    rfl, rfl⟩
  · have none_writes : ∀ j < 16, ((layered .opened .held).slot j).state ≠ .writing := by decide +kernel
    exact none_writes i h.1 h.2.1.1
  · have all_free : ∀ j < 16, (warm.slot j).state = .free := by decide +kernel
    exact hs (h.2.1.1.symm.trans (all_free i h.1))

theorem test_lookup_newest_first :
    (∀ st ∈ [SlotState.opened, .sealed], ∀ o ∈ [SlotState.writing, .held],
      ((layered st o).sourcesOf 7).lookup 3 = .slot 0x11 ∧ ((layered st o).sourcesOf 7).lookup 4 = .slot 0x11) ∧
      (warm.sourcesOf 7).lookup 255 = .cache 0x33 ∧ (up.sourcesOf 8).lookup 0 = .erased ∧ (up.sourcesOf 7).lookup 0 = .array := by
  decide +kernel

/-- A READ of `n` bytes at `a` is admitted in a state. -/
def admitsRead (s : State) (a : Nat) (n : Nat) : Prop :=
  s.takes (readRec 0 a (BitVec.ofNat 8 n)) (readOf 0 a n) ∧ s.sup.passes .read ∧ (readOf 0 a n).aligned ∧
    (s.xlat.logicalPages = some 800 ∧ a < 800 * 256) ∧
    ∀ w ∈ s.guard.windows, w.hits (readOf 0 a n) = true → w.action = .watch

theorem admits_read {s : State} {a n : Nat} (h : admitsRead s a n) :
    s.admits (readRec 0 a (BitVec.ofNat 8 n)) (readOf 0 a n) :=
  admits_of h.1 (fun h => nomatch h) h.2.1 h.2.2.1 h.2.2.2.1 h.2.2.2.2

/-- Every byte comes from the cache; and a slot that supplies the last of the bytes of an UNMAPPED page. -/
theorem test_meets_ReadAnsweredAtPlacement :
    (warm.admits (readRec 0 0x7C0 64) (readOf 0 0x7C0 64) ∧ ∀ so ∈ warm.sourcesFor (readOf 0 0x7C0 64), so ≠ .array) ∧
      (let s := setSlot 0 (slotOf .opened 799 256) starved;
        s.admits (readRec 0 204799 1) (readOf 0 204799 1) ∧ ∀ so ∈ s.sourcesFor (readOf 0 204799 1), so ≠ .array) := by
  refine ⟨⟨admits_read (n := 64) ?_, by decide⟩, admits_read (n := 1) ?_, by decide⟩ <;>
    (unfold admitsRead State.takes Supervisor.passes Request.aligned; decide)

/-- The READ finds the link busy, its PAGE READ waits; it finds the link idle, its PAGE READ is issued; it finds a demand read of its
page, the record is attached. -/
theorem test_meets_ReadBecomesPending :
    let r := readOf 0 0x7C0 64
    let pends := fun (s : State) => s.admits (readRec 0 0x7C0 64) r ∧ s.map 7 = some 100 ∧ cacheFind 7 s.readPath.cache = none ∧
      ∃ so ∈ s.sourcesFor r, so = .array
    let reading : State := { busy with readPath := { busy.readPath with demands := [{ phys := 100, number := 2 }] } }
    (pends busy ∧ (∀ d ∈ busy.readPath.demands, d.phys ≠ 100) ∧ busy.linkFree) ∧
      (pends up ∧ (∀ d ∈ up.readPath.demands, d.phys ≠ 100) ∧ up.seq.phase = .idle ∧ up.linkFree) ∧
      pends reading ∧ ∃ d ∈ reading.readPath.demands, d.phys = 100 := by
  refine ⟨⟨⟨admits_read (n := 64) ?_, rfl, rfl, by decide +kernel⟩, by decide, fun h => (nomatch h)⟩,
    ⟨⟨admits_read (n := 64) ?_, rfl, rfl, by decide +kernel⟩, by decide, rfl, fun _ => rfl⟩,
    ⟨admits_read (n := 64) ?_, rfl, rfl, by decide +kernel⟩, by decide⟩ <;>
    (unfold admitsRead State.takes Supervisor.passes Request.aligned; decide)

theorem test_meets_PersistDecidedByFirstCase :
    let b : List Byte := [3, 0, 0]
    let held := setSlot 0 { slotOf .held 7 256 with hold := some .noSpace } up
    let u : State := { staged 4 with port := (staged 4).port.withEntry (persistOf 0) .queued }
    (held.takes b (persistOf 0) ∧ held.sup.passes .persist ∧ held.anyHeld = true) ∧
      (up.takes b (persistOf 0) ∧ up.anyHeld = false ∧ up.anyStaged = false) ∧
      ((staged 4).takes b (persistOf 0) ∧ (staged 4).anyHeld = false ∧ (staged 4).anyStaged = true ∧
        4 ≤ (staged 4).wb.barriers.length ∧ State.placesTo 0 (staged 4) (settle u) u) ∧
      ((staged 3).takes b (persistOf 0) ∧ (staged 3).anyHeld = false ∧ (staged 3).anyStaged = true ∧
        (staged 3).wb.barriers.length < 4) := by
  refine ⟨⟨?_, Or.inl rfl, by decide⟩, ⟨?_, by decide⟩, ⟨?_, by decide, by decide, by decide,
    settles_stalled (persistOf 0) (by decide) rfl ?_⟩, ?_, by decide⟩
  · unfold State.takes; decide
  · unfold State.takes; decide
  · unfold State.takes; decide
  · rintro ((h | h | h) | ⟨h, _⟩ | ⟨_, h⟩)
    · exact h rfl
    · exact h rfl
    · exact h rfl
    · cases h
    · exact absurd h (by decide)
  · unfold State.takes; decide

/-- Two OPEN slots: slot 15 of a page, the older one, and slot 3 of page 8. -/
def twoOpen (page : Nat) : State :=
  let s := setSlot 15 (slotOf .opened page 4) (setSlot 3 { slotOf .opened 8 4 with order := some 1 } up)
  { s with staging := { s.staging with allocOrder := 2 } }

/-- The sealed slot is ready (an UNMAPPED page) and its write-back starts; it waits for its merge read (page 7) and nothing starts;
no slot is OPEN. -/
theorem test_meets_SealRequestLeavesNoSlotOpen :
    (let t := sealSlot 15 (twoOpen 9);
      (twoOpen 9).staging.slots.length = 16 ∧ (twoOpen 9).oldestIs 15 ∧ t.wb.phase = .idle ∧
        t.writeBackFollows (t.started 15 9 200 [])) ∧
      (let t := sealSlot 15 (twoOpen 7);
        (twoOpen 7).staging.slots.length = 16 ∧ (twoOpen 7).oldestIs 15 ∧ t.wb.phase = .idle ∧ t.wb.eviction = [15] ∧
          ∀ j ∈ t.wb.eviction, t.ready j = false) ∧
      (up.staging.slots.length = 16 ∧ ∀ j < 16, (up.slot j).state ≠ .opened) :=
  ⟨⟨by decide, ⟨by decide, rfl, by decide⟩, by decide, Or.inl rfl, fun _ => rfl, [], [], 15, 9, rfl, by decide, rfl,
      fun j h => (nomatch h), ⟨rfl, Or.inr rfl, by decide⟩, Or.inl ⟨Or.inl rfl, 200, [], rfl, rfl⟩⟩,
    ⟨by decide, ⟨by decide, rfl, by decide⟩, by decide, by decide, by decide⟩, by decide, by decide⟩

/-- The part sends an AGAIN while records wait on the link. -/
def holding (waiting : List (List Byte)) (s : State) : State :=
  { s with port := { s.port with channel := .sendingAgain 15, againOwed := some 15, linkQueue := waiting } }

theorem test_meets_AcceptedResponseLeaves :
    up.port.linkQueue = [] ∧ up.port.channel = .idle ∧
      ((holding [] up).port.linkQueue = [] ∧ (holding [] up).port.channel = .sendingAgain 15) ∧
      (let p : State := { up with port := { up.port with channel := .sendingEntry 0, readyOrder := [0] } };
        p.port.linkQueue = [] ∧ p.port.channel = .sendingEntry 0) ∧
      -- an entry is sent while an AGAIN is owed and records wait; an idle channel that is held
      (let p : State := { up with port := { up.port with
          channel := .sendingEntry 0, readyOrder := [0], againOwed := some 9, linkQueue := [[3, 1, 0]] } };
        p.port.channel = .sendingEntry 0 ∧ p.port.againOwed ≠ none) ∧
      (let q : State := { State.reset with port := { State.reset.port with linkQueue := [[3, 1, 0]] } };
        q.port.channel = .idle ∧ q.sup.state = .resetting) ∧
      -- records that wait: the channel held by the state, held by an AGAIN, not held
      ((holding [[3, 1, 0]] up).port.channel = .sendingAgain 15 ∧ State.reset.sup.state = .resetting ∧
        (holding [] up).port.againOwed ≠ none ∧ ¬(up.sup.state = .resetting ∨ up.port.againOwed ≠ none)) := by
  decide

/-- The acceptance of an AGAIN lets the waiting records arrive: a malformed one is discarded, the next two are answered. -/
theorem test_waiting_records_arrive_at_the_acceptance :
    after (fun t => (t.port.linkQueue, t.maint.flags.protocolFault, t.port.readyOrder, t.port.channel))
      (given .responseAcceptance (holding [[9], [3, 1, 0], [3, 2, 0]] up)) =
      some ([], true, [1, 2], .sendingEntry 1) := by
  decide

/-- The entry of tag 0 leaves while an AGAIN is owed: the AGAIN is sent next, and the record that waits waits on. -/
theorem test_entry_leaves_while_an_again_is_owed :
    after (fun t => (t.port.linkQueue, t.port.readyOrder, t.port.channel)) (given .responseAcceptance { up with
      port := { up.port with channel := .sendingEntry 0, readyOrder := [0], againOwed := some 9, linkQueue := [[3, 1, 0]] } }) =
      some ([[3, 1, 0]], [], .sendingAgain 9) := by
  decide

theorem test_meets_CacheInsertionInThreeParts :
    let c := [1, 2, 3, 4].map (fun x => ({ page := x, image := [] } : CacheEntry))
    c.length ≤ 4 ∧ (c.filter (fun e => e.page ≠ 5)).length = 4 ∧ (c.filter (fun e => e.page ≠ 4)).length < 4 ∧
      -- a touch of the least recent entry, and of a page that has none
      (c = [] ++ ⟨1, []⟩ :: c.tail ∧ (cacheTouch 1 c).map (fun e => e.page) = [2, 3, 4, 1]) ∧ ∀ e ∈ c, e.page ≠ 5 := by
  decide

theorem test_meets_WindowMatchConditions :
    -- lines 3 to 5; a pattern needs four bytes and the masked bits
    let w := windowOver 3 5 .readWrite .watch
    let p := { w with pattern := true, matchValue := 0x5C00, matchMask := 0xFF00 }
    w.hits (readOf 0 192 1) = true ∧ w.hits (readOf 0 383 1) = true ∧ w.hits (readOf 0 191 1) = false ∧
      w.hits (readOf 0 384 1) = false ∧ p.hits (writeOf 0 192 4) = true ∧ p.hits (writeOf 0 192 3) = false ∧
      p.hits (readOf 0 192 4) = false ∧ { p with matchValue := 0x5D00 }.hits (writeOf 0 192 4) = false := by
  decide

/-- A part whose last window matches, its capture with some hit count. -/
def watching (hits : Word16) (f : Option CaptureFields) : State :=
  { up with guard := { windows := lastWindow (windowOver 3 5 .readWrite .watch),
                       captures := List.replicate 7 Capture.cleared ++ [{ hits := hits, fields := f }] } }

/-- The fields of some latched capture. -/
def latched : CaptureFields := { isWrite := false, requester := 0, address := 192, length := 1, data := [], time := 0 }

theorem test_meets_CapturesTakeTheJudgement_cleared :
    let w := windowOver 3 5 .readWrite .watch
    (watching 0 none).guard.windows[7]? = some w ∧ (watching 0 none).guard.captures[7]? = some { hits := 0, fields := none } ∧
      w.hits (readOf 0 191 1) = false ∧ w.hits (readOf 0 192 1) = true :=
  ⟨rfl, rfl, by decide, by decide⟩

theorem test_meets_CapturesTakeTheJudgement_latched (h : Word16) :
    (watching h (some latched)).guard.windows[7]? = some (windowOver 3 5 .readWrite .watch) ∧
      (watching h (some latched)).guard.captures[7]? = some { hits := h, fields := some latched } := ⟨rfl, rfl⟩

/-- As `waits1`. -/
def waits6 : Fin 2 := ⟨1, by decide +kernel⟩

/-! ## Hypotheses are met: the maintenance port -/

theorem test_meets_FramesRefusedWithoutEffect :
    let r : State := { up with maint := { up.maint with transaction := .ignored } }
    (up.frameEnds ∧ (0x42 : Byte) ∉ commandCodes ∧ [(0 : Byte)].length ≠ argCount .status ∧
      (List.replicate 22 (0 : Byte)).length = argCount .windowSet ∧ ¬acceptedIn (inState .mounting up) .windowSet ∧
      (inState .mounting up).frameEnds) ∧ r.maint.transaction = .ignored ∧
      -- the part's own address with straps 0 and 3; a general call, the addresses beside it
      (∀ m : BitVec 2, ∃ a : BitVec 7, a.toNat = 0x58 + m.toNat) ∧
      ∀ a ∈ [(0 : BitVec 7), 0x57, 0x59], a.toNat ≠ 0x58 + up.maint.madr.toNat := by
  refine ⟨⟨by unfold State.frameEnds; decide, by decide, by decide, by decide, ?_, ?_⟩, rfl, by decide, by decide⟩
  · unfold acceptedIn State.mounted; decide
  · unfold State.frameEnds; decide

theorem test_meets_ReportCommandsAnswerAndClear : (framed up).frameEnds ∧ (framed up).mounted := by
  unfold State.frameEnds State.mounted; decide

/-- The written-out layouts are those that the reports have, in SERVING and in MOUNTING. -/
theorem test_report_layouts :
    up.statusReport = up.statusLayout ∧ (scanning 5 1024 1).statusReport = (scanning 5 1024 1).statusLayout ∧
      captureBytes Capture.cleared = Capture.cleared.layout ∧
      captureBytes ⟨some latched, 300⟩ = Capture.layout ⟨some latched, 300⟩ ∧
      resetRecordBytes ResetRecord.powerOn = ResetRecord.powerOn.layout := by decide

theorem test_meets_CaptureAndWindowCommands :
    (up.frameEnds ∧ up.mounted) ∧
      (∃ w c, up.guard.windows[(7 : Byte).toNat]? = some w ∧ up.guard.captures[(7 : Byte).toNat]? = some c ∧ (7 : Byte).toNat < 8) ∧
      8 ≤ (8 : Byte).toNat :=
  ⟨by unfold State.frameEnds State.mounted; decide, ⟨_, _, rfl, rfl, by decide⟩, by decide⟩

theorem test_meets_WindowSetReplacesWindow :
    let good := encodeWindow (windowOver 0 262143 .readWrite .block)
    let bad := overlay 10 [0, 0, 4] good
    (up.frameEnds ∧ up.mounted ∧ good.length = 21 ∧ bad.length = 21) ∧ (7 : Byte).toNat < 8 ∧ 8 ≤ (8 : Byte).toNat ∧
      decodeWindow good = some (windowOver 0 262143 .readWrite .block) ∧ decodeWindow bad = none := by
  refine ⟨?_, by decide, by decide, by decide, by decide⟩
  unfold State.frameEnds State.mounted; decide

theorem test_meets_WindowRecordRoundTrip :
    let b := (windowOver 0 262143 .readWrite .block).layout
    (windowOver 0 262143 .readWrite .block).low ≤ 262143 ∧ (windowOver 0 262143 .readWrite .block).high ≤ 262143 ∧
      b.length = 21 ∧ (decodeWindow b).isSome = true ∧
      -- one step out of range at each field: enabled, kinds, action, pattern, alert, low line, high line
      ∀ c ∈ [(0, 2), (1, 0), (1, 4), (2, 2), (3, 2), (4, 2), (9, 4), (12, 4)],
        (b.set c.1 (c.2 : Byte)).length = 21 ∧ decodeWindow (b.set c.1 (c.2 : Byte)) = none := by
  decide

theorem test_meets_MapQueryReportsThePage :
    up.frameEnds ∧ up.mounted ∧ up.xlat.logicalPages = some 800 ∧ (0x1F : Byte).toNat + 256 * (0x03 : Byte).toNat < 800 ∧
      (∀ l, up.xlat.logicalPages = some l → l ≤ (0x20 : Byte).toNat + 256 * (0x03 : Byte).toNat) ∧
      (inState .fault State.reset).mounted ∧ ∀ l, (inState .fault State.reset).xlat.logicalPages = some l → l ≤ 0 := by
  refine ⟨by unfold State.frameEnds; decide, by unfold State.mounted; decide, rfl, by decide, fun l h => ?_,
    by unfold State.mounted; decide, fun l h => nomatch h⟩
  cases h; decide

theorem test_meets_FlushSealsAndAnswersOk :
    ((setSlot 15 (slotOf .opened 7 4) up).frameEnds ∧ (setSlot 15 (slotOf .opened 7 4) up).ready_) ∧
      (inState .readOnly up).ready_ ∧ (∀ i, (up.slot i).state ≠ .opened) ∧ up.nothingDue ∧ up.seq.phase ≠ .issued := by
  refine ⟨by unfold State.frameEnds State.ready_; decide, Or.inr rfl, fun i => ?_, by unfold State.nothingDue; decide,
    by decide⟩
  have : up.slot i = Slot.freed 0 := by
    show (List.replicate 16 (Slot.freed 0)).getD i (Slot.freed 0) = _
    rw [List.getD_eq_getElem?_getD, List.getElem?_replicate]
    split <;> rfl
  rw [this]; decide

theorem test_meets_ConfigBufferCommands :
    (up.frameEnds ∧ up.mounted ∧ up.maint.commitState ≠ .busy ∧ (List.replicate 16 (0 : Byte)).length = 16 ∧
      up.maint.active = some (List.replicate 256 0x21)) ∧ (240 : Byte).toNat % 16 = 0 ∧ (255 : Byte).toNat % 16 ≠ 0 ∧
      ((inState .fault State.reset).frameEnds ∧ (inState .fault State.reset).mounted ∧
        (inState .fault State.reset).maint.active = none) ∧
      (let c : State := { up with maint := { up.maint with commitState := .busy } }; c.frameEnds ∧ c.mounted) := by
  unfold State.frameEnds State.mounted; decide +kernel

/-- `busy` with a buffer whose fields are in range, and copies of some generations. -/
def editing (a b : Option Word32) (use : Option Copy) : State :=
  { busy with maint := { busy.maint with
      buffer := defaultBody 1024 ++ [0, 0, 0, 0], copyStatus := some { a := a, b := b, inUse := use } } }

theorem test_meets_ConfigCommitBeginsOrFails :
    let s := editing (some 4294967294) (some 3) (some .a)
    (s.frameEnds ∧ s.ready_ ∧ s.maint.commitState ≠ .busy ∧ s.mount.arraySize = some 1024 ∧
      (configFields 1024 s.maint.buffer).isSome = true ∧ (4294967294 : Word32) < 4294967295 ∧ s.linkFree) ∧
      ({ s with seq := up.seq } : State).linkFree ∧
      (configFields 1024 up.maint.buffer).isSome = false ∧ (4294967295 : Word32) ≤ 4294967295 := by
  unfold State.frameEnds State.ready_ State.linkFree; decide

theorem test_meets_StampedRecordIsValid :
    let b := defaultBody 1024 ++ [0, 0, 0, 0]
    (b.length = 256 ∧ ∃ f, configFields 1024 b = some f) ∧
      -- one step out of range at D, H, Q, L, W, T_r and the last window
      ∀ c ∈ [(5, 1), (5, 17), (6, 0), (6, 13), (7, 0), (7, 65), (13, 4), (15, 4), (16, 251), (164, 2)],
        (b.set c.1 (c.2 : Byte)).length = 256 ∧ configFields 1024 (b.set c.1 (c.2 : Byte)) = none :=
  ⟨⟨by decide +kernel, defaultFields 1024, by decide +kernel⟩, by decide +kernel⟩

theorem test_meets_SoftResetByOperatingState :
    (up.frameEnds ∧ up.ready_ ∧ (inState .readOnly up).ready_) ∧
      (let d := inDrain .power (some .serving) none up;
        d.frameEnds ∧ d.sup.state = .draining ∧ d.sup.pendingReset = none) ∧
      (let d := inDrain .maint none (some .maintenance) up; d.sup.state = .draining ∧ d.sup.pendingReset ≠ none) ∧
      ((inState .halted up).sup.state = .halted ∧ (inState .fault up).sup.state = .fault) := by
  unfold State.frameEnds State.ready_; decide

/-- As `waits1`. -/
def waits7 : Fin 2 := ⟨1, by decide +kernel⟩

/-! ## Hypotheses are met: sideband, timers and resets -/

theorem test_meets_PowerWarningFollowsThePin :
    up.sup.warning = .clear ∧ (warned (.qualifying 63) up).sup.warning = .qualifying 63 ∧
      (let a := warned .asserted up; a.sup.warning = .asserted ∧ a.sup.state ≠ .halted) ∧
      ∀ r ∈ [ReturnState.serving, .readOnly],
        let h := warned .asserted (inState .halted up)
        let h' : State := { h with sup := { h.sup with returnTo := some r } }
        h'.sup.warning = .asserted ∧ h'.sup.state = .halted ∧ h'.sup.returnTo = some r := by
  decide

theorem test_meets_QualificationByOperatingState :
    (∀ e, (warned .asserted up).sup.warning ≠ .qualifying e) ∧
      (let s := warned (.qualifying 64) up; s.sup.warning = .qualifying 64 ∧ s.ready_) ∧
      (let s := warned (.qualifying 64) (inState .mounting up); s.sup.warning = .qualifying 64 ∧ ¬s.ready_) ∧
      (let s := warned (.qualifying 64) (inState .readOnly up);
        let d : State := { s with sup := { s.sup with
          warning := .asserted, state := .draining, cause := some .power, returnTo := some .readOnly, drainClock := some 0 } };
        s.ready_ ∧ s.anyStaged = false ∧ s.sup.pendingReset = none ∧ d.reexamine = none ∧ s.head = none ∧
          s.port.linkQueue = [] ∧ s.seq.phase ≠ .issued) := by
  refine ⟨fun e h => (nomatch h), ?_⟩
  unfold State.ready_; decide

/-- The state with another T_r in force. -/
def limited (n : Nat) (s : State) : State := { s with sup := { s.sup with resetLimit := n } }

theorem test_meets_ResetLineFallByOperatingState :
    State.reset.pins.resetN = false ∧ (up.pins.resetN = true ∧ (limited 0 up).sup.resetLimit = 0 ∧ up.sup.resetLimit ≠ 0) ∧
      (limited 1 up).sup.resetLimit ≠ 0 ∧ up.ready_ ∧ (inState .halted up).sup.state = .halted ∧
      (let d := inDrain .power (some .serving) none up; d.sup.state = .draining ∧ d.sup.pendingReset = none) ∧
      (let d := inDrain .maint none (some .maintenance) up;
        d.sup.pendingReset = some .maintenance ∧ d.sup.resetTimer = none ∧
        ({ d with sup := { d.sup with resetTimer := some 0 } } : State).sup.resetTimer ≠ none) ∧
      (inDrain .reset none (some .resetLine) up).sup.pendingReset = some .resetLine := by
  unfold State.ready_; decide

theorem test_meets_ResetLineRiseBeginsTheMount :
    up.sup.state ≠ .resetting ∧ State.reset.sup.state = .resetting ∧ State.reset.port.table = [] ∧
      State.reset.port.channel = .idle ∧ State.reset.port.againOwed = none := by
  decide

/-- Records that wait through RESETTING: a malformed one is discarded, the next is owed an AGAIN, the last waits on. -/
theorem test_waiting_records_arrive_at_the_mount :
    after (fun t => (t.port.linkQueue, t.maint.flags.protocolFault, t.port.channel, t.maint.counters.againResponses))
      (given (.resetNRise 0) { State.reset with port := { State.reset.port with linkQueue := [[9], [3, 1, 0], [3, 2, 0]] } }) =
      some ([[3, 2, 0]], true, .sendingAgain 1, 1) := by
  decide

theorem test_meets_PowerOnResetSetsEveryBlock :
    State.reset.pins.resetN = false ∧ up.pins.resetN = true := by
  decide

theorem test_meets_ResetTimerExpiryTimesOut :
    (up.sup.state ≠ .draining ∧ (inDrain .maint none (some .maintenance) up).sup.resetTimer = none) ∧
      (let d := inDrain .reset none (some .resetLine) up;
        let s : State := { d with sup := { d.sup with resetTimer := some 100 }, pins := { d.pins with resetN := false } };
        s.sup.state = .draining ∧ s.sup.resetTimer = some 100 ∧ s.sup.pendingReset = some .resetLine ∧ s.pins.resetN = false) := by
  decide

theorem test_meets_WriteBackTimerSealsSlot :
    (up.slot 16).state ≠ .opened ∧
      (let s := setSlot 15 (slotOf .opened 799 256) up;
        (s.slot 15).state = .opened ∧ s.ready_ ∧ (s.slot 15).page = some 799 ∧ isFull (s.slot 15).valid = true) ∧
      (let s := setSlot 15 (slotOf .opened 799 255) up;
        (s.slot 15).state = .opened ∧ (s.slot 15).page = some 799 ∧ isFull (s.slot 15).valid = false ∧
        (∀ j < 16, j ≠ 15 → (s.slot j).page ≠ some 799) ∧ cacheFind 799 s.readPath.cache = none ∧ s.map 799 = none) := by
  unfold State.ready_; decide +kernel

/-- The cases that follow a partly valid slot: a WRITING and a HELD partner in slot 0, the cache entry of the page, and the array
with a link that is idle or busy. -/
theorem test_meets_WriteBackTimerSealsSlot_cases :
    let s := fun (base : State) => setSlot 15 (slotOf .opened 7 255) base
    let partner := fun (s : State) (st : SlotState) =>
      lowestSlot (fun j => j ≠ 15 ∧ (s.slot j).page = some 7 ∧ (s.slot j).state = st)
    (∀ b ∈ [setSlot 0 (slotOf .writing 7 256) up, setSlot 0 (slotOf .held 7 256) up, warm, up, busy],
      ((s b).slot 15).state = .opened ∧ (s b).ready_ ∧ ((s b).slot 15).page = some 7 ∧ isFull ((s b).slot 15).valid = false) ∧
      (∀ st ∈ [SlotState.writing, .held], partner (s (setSlot 0 (slotOf st 7 256) up)) st 0) ∧
      (∀ st, st ≠ .free → st ≠ .opened → ∀ j, ¬partner (s warm) st j) ∧
      (∃ e, cacheFind 7 (s warm).readPath.cache = some e) ∧ cacheFind 7 (s up).readPath.cache = none ∧
      (s up).map 7 = some 100 ∧ (s up).linkFree ∧ (s busy).linkFree ∧
      -- the seal at a drain's entry, with the same cases
      (let d := inDrain .power (some .serving) none (s up);
        ¬d.ready_ ∧ (d.slot 15).state = .opened ∧ d.mounted ∧ d.sup.state ≠ .fault ∧ d.map 7 = some 100 ∧ d.linkFree) := by
  refine ⟨by unfold State.ready_; decide +kernel, by unfold lowestSlot; decide +kernel, fun st hf ho j h => ?_, ⟨_, rfl⟩,
    rfl, rfl, fun _ => rfl, fun h => (nomatch h), by unfold State.ready_; decide, rfl, by unfold State.mounted; decide, by decide,
    rfl, fun _ => rfl⟩
  have seen : ∀ k < 16, ((setSlot 15 (slotOf .opened 7 255) warm).slot k).state = .free ∨
      ((setSlot 15 (slotOf .opened 7 255) warm).slot k).state = .opened := by decide +kernel
  rcases seen j h.1 with e | e
  · exact hf (h.2.1.2.2.symm.trans e)
  · exact ho (h.2.1.2.2.symm.trans e)

/-- As `waits1`. -/
def waits8 : Fin 2 := ⟨1, by decide +kernel⟩

/-! ## Hypotheses are met: array completions -/

theorem test_meets_FillWritesMissingOffsetsOnly :
    [true, false].length = [(1 : Byte), 2].length ∧ [(3 : Byte), 4].length = [(1 : Byte), 2].length ∧
      fillMissing [true, false] [1, 2] [3, 4] = [1, 4] := by decide

/-- The operation that `flying` puts in flight is served. -/
theorem serving_flying (op : ArrayOp) (r : Requester) (s : State) : (flying op r s).serving (record op r) := ⟨rfl, rfl⟩

/-- A page image and the spare area that reads back good. -/
def goodData : List Byte := List.replicate 256 0x77
def goodSpare : List Byte := fillChecks goodData (headerSpare 7 9)

set_option maxRecDepth 100000 in
theorem goodPage_good : goodPage .pass goodData goodSpare = true := by decide
theorem goodPage_fail : goodPage .fail [] [] = false := rfl

/-- The merge read of slot 15 in flight: `n` offsets known, read number `k`. -/
def merging (n k : Nat) : State := flying (.pageRead 100) (.mergeRead 15) (setSlot 15 (mergingSlot 7 n k) up)

theorem test_meets_MergeReadCompletion :
    ((merging 4 1).serving (record (.pageRead 100) (.mergeRead 15)) ∧ goodPage .pass goodData goodSpare = true ∧
      goodPage .fail [] [] = false) ∧
      (((merging 256 1).slot 15).mergeRead = some ⟨100, 1⟩ ∧ isFull ((merging 256 1).slot 15).valid = true) ∧
      (((merging 255 1).slot 15).mergeRead = some ⟨100, 1⟩ ∧ isFull ((merging 255 1).slot 15).valid = false) ∧
      (((merging 255 2).slot 15).mergeRead = some ⟨100, 2⟩ ∧ ((merging 255 2).slot 15).page = some 7 ∧
        missingCount ((merging 255 2).slot 15).valid = 1 ∧ missingCount ((merging 256 2).slot 15).valid = 0) :=
  ⟨⟨serving_flying _ _ _, goodPage_good, rfl⟩, by decide +kernel, by decide +kernel, by decide +kernel⟩

/-- The demand read of page 100 in flight, read number `k`, one record attached. -/
def demanding (k : Nat) : State :=
  flying (.pageRead 100) .demandRead { up with readPath := { up.readPath with
    pendingReads := [{ tag := 1, page := 7, first := 255, phys := 100, bytes := [none] }],
    demands := [{ phys := 100, number := k }] } }

theorem test_meets_DemandReadCompletion (k : Nat) :
    (demanding k).serving (record (.pageRead 100) .demandRead) ∧
      (demanding k).readPath.demands.find? (fun d => d.phys = 100) = some { phys := 100, number := k } ∧
      (demanding k).readPath.pendingReads.filter (fun r => r.phys = 100) =
        [{ tag := 1, page := 7, first := 255, phys := 100, bytes := [none] }] ∧ (demanding k).map 7 = some 100 ∧
      goodPage .pass goodData goodSpare = true ∧ goodPage .fail [] [] = false :=
  ⟨serving_flying _ _ _, rfl, rfl, rfl, goodPage_good, rfl⟩

/-- The write-back of slot 15 to page 210 in flight in some phase, after some failed attempts, with a free pool. -/
def writingBack (ph : WbPhase) (op : ArrayOp) (fails : Nat) (pool : List Nat) (q : List Nat) (e : ErasePhase) : State :=
  flying op .writeBack { setSlot 15 (writingSlot 7 fails) up with
    wb := { up.wb with phase := ph, barriers := [{ tag := 1, waitSet := [(15, 1)] }] },
    xlat := { up.xlat with freePool := pool, eraseQueue := q, erase := e } }

theorem test_meets_ProgramPassedAndCommit :
    (let s := writingBack (.program 15) (.pageProgram 210 [] []) 0 [] [] .idle;
      s.serving (record (.pageProgram 210 [] []) .writeBack) ∧ (s.slot 15).page = some 7 ∧ (s.slot 15).target = some ⟨210, 4⟩ ∧
        s.wb.phase = .program 15 ∧ (record (.pageProgram 210 [] []) .writeBack).op.isProgram = true) ∧
      (let s := writingBack (.commitMark 15) (.mark 210 .commit 0) 0 [] [] .idle;
        s.serving (record (.mark 210 .commit 0) .writeBack) ∧ (s.slot 15).page = some 7 ∧
          (s.slot 15).target = some ⟨210, 4⟩ ∧ s.wb.phase = .commitMark 15 ∧
          (record (.mark 210 .commit 0) .writeBack).op.isMark = true ∧ s.map 7 ≠ some 210) := by
  refine ⟨⟨serving_flying _ _ _, by decide⟩, serving_flying _ _ _, by decide⟩

/-- What every clause of the statement about failed attempts asks. -/
def failing (s : State) (op : ArrayOp) (n : Nat) (c : Instr) : Prop :=
  s.serving (record op .writeBack) ∧ 15 < s.staging.slots.length ∧ (s.slot 15).page = some 7 ∧
    (s.slot 15).target = some ⟨210, 4⟩ ∧ (s.slot 15).attempts = some n ∧
    (s.wb.phase = .program 15 ∧ op.isProgram = true ∧ c = .pageProgramCompletion .fail ∨
      s.wb.phase = .commitMark 15 ∧ op.isMark = true ∧ c = .commitMarkCompletion .fail)

theorem test_meets_FailedAttemptRetriesOrHolds :
    (∀ ph op c, (ph, op, c) = (WbPhase.program 15, ArrayOp.pageProgram 210 [] [], Instr.pageProgramCompletion .fail) ∨
        (ph, op, c) = (WbPhase.commitMark 15, ArrayOp.mark 210 .commit 0, Instr.commitMarkCompletion .fail) →
      ∀ n ∈ [2, 3], ∀ pool q e, failing (writingBack ph op n pool q e) op n c) ∧
      (let s := writingBack (.program 15) (.pageProgram 210 [] []) 2 [200] [] .idle;
        2 + 1 < 4 ∧ s.xlat.freePool = [200] ∧ 200 ≠ (⟨210, 4⟩ : Target).page) ∧
      (let s := writingBack (.program 15) (.pageProgram 210 [] []) 2 [] [300] .idle;
        s.xlat.freePool = [] ∧ s.xlat.eraseQueue ≠ []) ∧
      (let s := writingBack (.program 15) (.pageProgram 210 [] []) 2 [] [] .idle;
        s.xlat.freePool = [] ∧ s.xlat.erase = .idle ∧ s.xlat.eraseQueue = []) ∧ 4 ≤ 3 + 1 := by
  refine ⟨fun ph op c h n hn pool q e => ?_, by decide⟩
  have slots : 15 < ((List.replicate 16 (Slot.freed 0)).set 15 (writingSlot 7 n)).length := by simp
  refine ⟨serving_flying _ _ _, slots, rfl, rfl, rfl, ?_⟩
  rcases h with h | h <;> cases h
  · exact Or.inl ⟨rfl, rfl, rfl⟩
  · exact Or.inr ⟨rfl, rfl, rfl⟩

theorem test_meets_EraseEngineCompletions :
    (flying (.mark 210 .retire 0) .retireMark up).serving (record (.mark 210 .retire 0) .retireMark) ∧
      (busy.serving (record (.erase 301) .eraseEngine) ∧ busy.xlat.erase = .erase 301) ∧
      (let s := flying (.mark 301 .clean 0x5A) .eraseEngine { up with xlat := { up.xlat with erase := .cleanMark 301 } };
        s.serving (record (.mark 301 .clean 0x5A) .eraseEngine) ∧ s.xlat.erase = .cleanMark 301 ∧
          (ArrayOp.mark 301 .clean 0x5A).isMark = true) :=
  ⟨serving_flying _ _ _, ⟨serving_flying _ _ _, rfl⟩, serving_flying _ _ _, rfl, rfl⟩

theorem test_meets_ReadyWaitMakesTheStrapCheck :
    let s := mounting .readyWait .readyWait
    (s.serving (record .readyWait .mount) ∧ s.mount.phase = .readyWait) ∧ (2 : BitVec 2) ≠ 3 ∧
      (s.sup.state = .mounting ∧ s.sup.pendingReset = none ∧ s.maint.job = none ∧ s.readPath.pendingReads = [] ∧
        s.wb.barriers = []) :=
  ⟨⟨serving_flying _ _ _, rfl⟩, by decide, rfl, rfl, rfl, rfl, rfl⟩

/-- A read of a configuration copy in flight, with the result of copy A and the read number. -/
def reading (ph : MountPhase) (page : Nat) (a : CopyResult) (k : Nat) : State :=
  let m := mounting ph (.pageRead page)
  { m with mount := { m.mount with copyA := a, readNumber := k } }

/-- A record that is valid for 1024 pages. -/
def validBytes : List Byte := defaultRecord 1024

set_option maxRecDepth 100000 in
theorem validBytes_valid : validCopy 1024 .pass validBytes = some (defaultFields 1024) := by decide

theorem validBytes_fields : configFields 1024 validBytes = some (defaultFields 1024) := by decide

theorem test_meets_ConfigCopyReadCompletion :
    (∀ ph page a k, (reading ph page a k).seq.inFlight = some (record (.pageRead page) .mount) ∧
      (reading ph page a k).seq.phase = .issued ∧ (reading ph page a k).mount.arraySize = some 1024 ∧
      (reading ph page a k).mount.phase = ph ∧ (reading ph page a k).mount.copyA = a ∧
      (reading ph page a k).mount.readNumber = k) ∧ (ArrayOp.pageRead 0).isPageRead = true ∧
      validCopy 1024 .fail [] = none ∧
      (∃ c, validCopy 1024 .pass validBytes = some c ∧ CopyResult.valid 0 validBytes = .valid c.generation validBytes) ∧
      -- the selections: neither, A only, B only, both with equal generations, both with B newer
      (∃ v, v = defaultFields 1024 ∧ configFields 1024 validBytes = some v ∧ ¬((0 : Word32) < 0) ∧ (0 : Word32) < 1) :=
  ⟨fun _ _ _ _ => ⟨rfl, rfl, rfl, rfl, rfl, rfl⟩, rfl, rfl, ⟨_, validBytes_valid, rfl⟩, _, rfl, validBytes_fields, by decide,
    by decide⟩

/-- What the spare area says of a page. -/
def saysCommitted (spare : List Byte) : Prop :=
  spareRetire spare = 0xFF ∧ spareClean spare = 0x5A ∧ spareCommit spare = 0x00 ∧ headerMatches spare = true

theorem test_meets_HeaderReadCompletion_page :
    (∀ p n k, (scanning p n k).serving (record (.headerRead p) .mount) ∧ (scanning p n k).mount.phase = .scan ∧
      (scanning p n k).mount.cursor = some p ∧ (scanning p n k).mount.arraySize = some n ∧
      (scanning p n k).xlat.logicalPages = some 800 ∧ (scanning p n k).mount.readNumber = k) ∧
      (ArrayOp.headerRead 3).isHeaderRead = true ∧ 1022 + 1 < 1024 ∧ (scanning 3 1024 1).mount.largest = 9 ∧
      (scanning 3 1024 1).map 7 = some 2 ∧ (scanning 3 1024 1).map 799 = none ∧
      (tableGet 7 (scanning 3 1024 1).mount.named).getD 0 = (9 : Word32) :=
  ⟨fun _ _ _ => ⟨serving_flying _ _ _, rfl, rfl, rfl, rfl, rfl⟩, rfl, by decide, rfl, rfl, rfl, rfl⟩

/-- As `waits1`. -/
def waits9 : Fin 2 := ⟨1, by decide +kernel⟩

theorem test_meets_HeaderReadCompletion_lines :
    -- BAD; not clean; erased; a torn header; header bytes without the commit marker; sequence 0, 1, 2^32 - 2 and 2^32 - 1
    spareRetire (List.replicate 16 0) ≠ 0xFF ∧
      (spareRetire (List.replicate 16 0xFF) = 0xFF ∧ spareClean (List.replicate 16 0xFF) ≠ 0x5A) ∧
      (let e : List Byte := 0x5A :: List.replicate 15 0xFF;
        spareRetire e = 0xFF ∧ spareClean e = 0x5A ∧ ∀ b ∈ (e.drop 1).take 13, b = (0xFF : Byte)) ∧
      (let t := overlay 11 [0, 0] (committedSpare 7 9);
        headerTorn t) ∧
      (let u := overlay 13 [0xFF] (committedSpare 7 9);
        headerValid u ∧ spareCommit u ≠ 0x00 ∧ ¬∀ b ∈ (u.drop 1).take 13, b = (0xFF : Byte)) := by
  unfold headerTorn headerValid; decide +kernel

theorem test_meets_HeaderReadCompletion_candidates :
    (∀ c ∈ [((7, 9), 9), ((7, 10), 10), ((799, 1), 1), ((800, 4294967294), 4294967294), ((7, 0), 0), ((7, 4294967295), 4294967295)],
      let s := committedSpare c.1.1 (BitVec.ofNat 32 c.1.2)
      (spareRetire s = 0xFF ∧ spareClean s = 0x5A ∧ spareCommit s = 0x00 ∧ headerMatches s = true) ∧
        spareLogical s = c.1.1 ∧ spareSequence s = c.2) ∧ ¬((9 : Word32) < 9) ∧ (9 : Word32) < 10 := by
  decide +kernel

/-- As `waits1`. -/
def waits10 : Fin 2 := ⟨1, by decide +kernel⟩

theorem test_meets_LastHeaderEndsTheMount :
    let s := scanning 1023 1024 1
    let bad := fun (m : Nat) => ((List.range m).map (fun p => (p, PageEntry.mk .bad 0))).filter (fun e => e.2.state = .bad)
    (s.serving (record (.headerRead 1023) .mount) ∧ (ArrayOp.headerRead 1023).isHeaderRead = true ∧ s.mount.phase = .scan ∧
      s.mount.cursor = some 1023 ∧ s.mount.arraySize = some 1024 ∧ 1024 ≤ 1023 + 1 ∧ s.xlat.logicalPages = some 800) ∧
      -- a second failure, and good reads of a BAD, a FREE, a STALE page and of a candidate
      ((scanning 1023 1024 2).mount.readNumber = 2 ∧
        ∀ spare ∈ [List.replicate 16 0, 0x5A :: List.replicate 15 0xFF, List.replicate 16 0xFF, committedSpare 7 9],
          ¬headerTorn spare) ∧
      -- neither reserve; the sequence reserve at its first value; the bad-page reserve at its last
      ¬(4294967232 ≤ s.mount.largest + 1 ∨ 1024 - 2 - 800 - 206 < s.staging.limitD + 4) ∧
      (4294967232 ≤ (4294967231 : Word32) + 1) ∧ 1024 - 2 - 800 - (bad 207).length < s.staging.limitD + 4 ∧
      (warned .asserted s).sup.warning = .asserted := by
  refine ⟨⟨serving_flying _ _ _, by decide⟩, ⟨rfl, by unfold headerTorn; decide +kernel⟩, by decide, by decide, by decide +kernel,
    rfl⟩

/-- The mount ends on a last page that failed twice, is FREE, is a candidate: its state (a STALE one is taken by the erase engine at
once), what page 7 maps to, the sequence counter and the exit state. -/
theorem test_last_header_of_each_sort :
    let ends := fun (k : Nat) (st : ArrayStatus) (spare : List Byte) =>
      after (fun t => ((t.pageEntry 1023).state, t.map 7, t.xlat.sequence, t.sup.state))
        (given (.headerReadCompletion st spare) (scanning 1023 1024 k))
    ends 2 .fail [] = some (.erasing, some 2, 10, .serving) ∧
      ends 1 .pass (0x5A :: List.replicate 15 0xFF) = some (.free, some 2, 10, .serving) ∧
      ends 1 .pass (committedSpare 7 10) = some (.live, some 1023, 11, .serving) := by
  decide +kernel

theorem test_meets_ProgrammedPageReadsGood : (65535 : Nat) < 65536 ∧ (List.replicate 16 (0xFF : Byte)).length = 16 := by decide

/-- A configuration commit in some phase, its operation in flight. -/
def committing (ph : CommitPhase) (t : Copy) (op : ArrayOp) (g : Word32) : State :=
  let s := editing (some 3) (some 3) (some .a)
  flying op .configCommit { s with maint := { s.maint with
    commitState := .busy, job := some { phase := ph, target := t, record := validBytes, generation := g } } }

theorem test_meets_ConfigCommitCompletions :
    (∀ ph t op g, (committing ph t op g).serving (record op .configCommit) ∧
      (committing ph t op g).maint.job = some { phase := ph, target := t, record := validBytes, generation := g } ∧
      (committing ph t op g).maint.copyStatus = some { a := some 3, b := some 3, inUse := some .a } ∧
      (committing ph t op g).mount.arraySize = some 1024) ∧
      (ArrayOp.erase 1).isErase = true ∧ (ArrayOp.pageProgram 1 [] []).isProgram = true ∧ (ArrayOp.pageRead 1).isPageRead = true ∧
      (∀ c, validCopy 1024 .fail [] = some c → c.generation ≠ 0) ∧
      (∃ c, validCopy 1024 .pass validBytes = some c ∧ c.generation = 0 ∧ c.generation ≠ 1) :=
  ⟨fun _ _ _ _ => ⟨serving_flying _ _ _, rfl, rfl, rfl⟩, rfl, rfl, rfl, fun _ h => (nomatch h),
    ⟨_, validBytes_valid, rfl, by decide⟩⟩

theorem test_meets_TimeoutsAndLinkReset :
    (busy.seq.inFlight = some (record (.erase 301) .eraseEngine) ∧ busy.seq.phase = .issued ∧
      (record (.erase 301) .eraseEngine).timeouts = 0) ∧
      (let r : State := { busy with seq := { busy.seq with phase := .resync } };
        r.seq.inFlight = some (record (.erase 301) .eraseEngine) ∧ r.seq.phase = .resync) ∧
      (let f := { record (.erase 301) .eraseEngine with timeouts := 1 };
        let s : State := { busy with seq := { busy.seq with inFlight := some f } };
        s.seq.inFlight = some f ∧ s.seq.phase = .issued ∧ f.timeouts = 1 ∧ s.sup.state ≠ .mounting ∧ s.sup.state ≠ .resetting ∧
          s.sup.pendingReset = none) ∧
      (let u : State := { inState .mounting State.reset with seq := { Sequencer.reset with
          phase := .resync, ops := [{ op := .readyWait, requester := .mount, arrival := 0 }], arrival := 1 } };
        u.seq.phase = .resync ∧ u.seq.inFlight = none ∧ u.sup.state = .mounting ∧
          u.seq.ops = [{ op := .readyWait, requester := .mount, arrival := 0 }]) := by
  decide

/-- A second timeout strikes an operation for the second time in some state. -/
def struckTwice (op : ArrayOp) (r : Requester) (s : State) : State :=
  { s with seq := { s.seq with phase := .issued, inFlight := some { record op r with timeouts := 1 } } }

/-- In the scan; with a reset pending; with a pending read, a barrier and a commit under way. -/
theorem test_meets_TimeoutsAndLinkReset_second :
    (let s := struckTwice (.headerRead 3) .mount (scanning 3 1024 1);
      s.seq.phase = .issued ∧ s.sup.state = .mounting ∧ s.sup.pendingReset = none ∧ s.mount.phase = .scan) ∧
      (let s := struckTwice (.erase 301) .eraseEngine (inDrain .reset none (some .resetLine) up);
        s.seq.phase = .issued ∧ s.sup.state = .draining ∧ s.sup.pendingReset = some .resetLine) ∧
      (let s := struckTwice (.erase 1) .configCommit (committing .erase .b (.erase 1) 4);
        s.seq.phase = .issued ∧ s.sup.state ≠ .mounting ∧ s.sup.state ≠ .resetting ∧ s.sup.pendingReset = none ∧
          s.maint.job ≠ none) := by
  decide +kernel

theorem test_second_timeout_ends_what_waits :
    (let c := committing .erase .b (.erase 1) 4;
      after (fun t => (t.sup.state, t.maint.commitState, t.maint.copyStatus.map (fun x => x.b), t.port.readyOrder))
        (given .secondTimeout (struckTwice (.erase 1) .configCommit { c with
          readPath := { c.readPath with
            pendingReads := [{ tag := 1, page := 7, first := 255, phys := 100, bytes := [none] }],
            demands := [{ phys := 100, number := 1 }] },
          wb := { c.wb with barriers := [{ tag := 2, waitSet := [(15, 1)] }] },
          port := { c.port with table := [readOf 1 0x7FF 1, persistOf 2].map (fun r =>
            { request := r, phase := .waiting, judged := true }) } })) =
        some (.fault, .failed, some none, [1, 2])) ∧
      after (fun t => (t.sup.state, t.sup.record.outcome, t.sup.record.duration))
        (given .secondTimeout (struckTwice (.erase 301) .eraseEngine (inDrain .reset none (some .resetLine) up))) =
        some (.mounting, .timedOut, 3) := by
  decide +kernel

theorem test_meets_CompletionsAtOtherMomentsDiscarded : up.seq.phase ≠ .issued ∧ State.reset.seq.phase ≠ .issued := by
  decide

/-- An erase, two demand reads, a commit's erase and a commit marker wait. -/
def choosing : State :=
  { up with seq := { up.seq with
    ops := [⟨.erase 300, .eraseEngine, 0⟩, ⟨.pageRead 101, .demandRead, 2⟩, ⟨.pageRead 100, .demandRead, 1⟩,
      ⟨.erase 0, .configCommit, 3⟩, ⟨.mark 210 .commit 0, .writeBack, 4⟩],
    arrival := 5 } }

/-- Where some operation may be chosen (SERVING, DRAINING, MOUNTING), and where none may (none waits, RESETTING, an operation of a
lower class in MOUNTING). -/
theorem test_meets_ChoiceTakesHighestClassThenOldest :
    (choosing.choosable ⟨.pageRead 100, .demandRead, 1⟩ ∧
        (inDrain .power (some .serving) none choosing).choosable ⟨.mark 210 .commit 0, .writeBack, 4⟩ ∧
        (inState .mounting { up with seq := { up.seq with ops := [⟨.headerRead 2, .mount, 0⟩] } }).choosable
          ⟨.headerRead 2, .mount, 0⟩) ∧
      (∀ v, ¬up.choosable v) ∧ (∀ v, ¬(inState .resetting choosing).choosable v) ∧
      ∀ v, ¬(inState .mounting { up with seq := { up.seq with ops := [⟨.erase 300, .eraseEngine, 0⟩] } }).choosable v := by
  refine ⟨⟨⟨by decide, ?_⟩, ⟨by decide, ?_⟩, List.mem_singleton.2 rfl, rfl⟩, fun v h => (nomatch h.1), fun v h => h.2, fun v h => ?_⟩
  · show choosing.classNow .demandRead ≠ 1
    decide
  · show (inDrain .power (some .serving) none choosing).classNow .writeBack ≠ 1
    decide
  · have hv := List.mem_singleton.1 h.1
    subst hv
    exact absurd (show (inState .mounting up).classNow .eraseEngine = 1 from h.2) (by decide)

/-- The older demand read is taken; in a drain the commit marker goes before it. -/
theorem test_choice_by_class_then_age :
    choosing.bestOp = some ⟨.pageRead 100, .demandRead, 1⟩ ∧
      (inDrain .power (some .serving) none choosing).bestOp = some ⟨.mark 210 .commit 0, .writeBack, 4⟩ := by
  decide

theorem test_meets_StepRunsFrontCommand : (given (.startCondition 0x58) up).pending = .startCondition 0x58 :: [] := rfl
end Sys2Proof.Tests
end

section
/-!
PROOFS. Every step keeps the shape of every block (O6): one command keeps it, block by block, and a step is a tick or one
command.
-/
namespace Sys2Proof.Machine

/-! ## The shape of the blocks over one command -/

/-- `State.shaped` without the queue. Where `b` is false, the sequencer may stand ISSUED with its record released, as it does while
a completion is handled (R101). -/
structure State.blocksShaped (b : Bool) (s : State) : Prop where
  staging : s.staging.shaped
  cache : cacheShaped s.readPath.cache
  wb : s.wb.shaped
  xlat : s.xlat.shaped
  seq : s.seq.okay b
  mount : s.mount.shaped
  port : s.port.shaped
  guard : s.guard.shaped
  maint : s.maint.shaped

theorem shaped_iff (s : State) : s.shaped ↔ s.blocksShaped true ∧ ∀ c ∈ s.pending, c.wellFormed = true := by
  constructor
  · rintro ⟨hst, hca, hwb, hxl, hse, hmo, hpo, hgu, hma, hpe⟩
    exact ⟨⟨hst, hca, hwb, hxl, (okay_true _).2 hse, hmo, hpo, hgu, hma⟩, hpe⟩
  · rintro ⟨⟨hst, hca, hwb, hxl, hse, hmo, hpo, hgu, hma⟩, hpe⟩
    exact ⟨hst, hca, hwb, hxl, (okay_true _).1 hse, hmo, hpo, hgu, hma, hpe⟩

/-- A released record leaves the sequencer ISSUED for the rest of the completion event (R101). -/
theorem releaseOp_blocksShaped (s : State) (h : s.blocksShaped true) : (releaseOp s).blocksShaped false :=
  ⟨h.staging, h.cache, h.wb, h.xlat, releaseOp_loose s h.seq, h.mount, h.port, h.guard, h.maint⟩

/-- What follows an event keeps the shape, and its choice leaves no record missing (R101). -/
theorem finish_blocksShaped {b : Bool} (a s : State) (h : s.blocksShaped b) : (finish a s).blocksShaped true where
  staging := finish_stagingShaped a s h.staging
  cache := finish_cacheShaped a s h.cache
  wb := finish_wbShaped a s h.wb
  xlat := finish_xlatShaped a s h.xlat
  seq := finish_strict a s h.seq
  mount := finish_mountShaped a s h.mount
  port := finish_portShaped a s h.port
  guard := finish_guardShaped a s h.guard
  maint := finish_maintShaped a s h.maint

/-- A completion keeps the shape where its requester's handling does. -/
theorem complete_blocksShaped (isRow : InFlight → Bool) (handle : InFlight → State → State) (s : State) (h : s.blocksShaped true)
    (hh : ∀ f t, t.blocksShaped false → (handle f t).blocksShaped false) : (complete isRow handle s).blocksShaped true := by
  unfold complete
  split
  · split
    · exact finish_blocksShaped _ _ (hh _ _ (releaseOp_blocksShaped s h))
    · exact h
  · exact h

theorem complete_pending (isRow : InFlight → Bool) (handle : InFlight → State → State) (s : State)
    (hh : ∀ f t, (handle f t).pending = t.pending) : (complete isRow handle s).pending = s.pending := by
  unfold complete
  split
  · split
    · simp [hh]
    · rfl
  · rfl

/-- Good data is 256 bytes long (R92). -/
theorem pageReadShape_length (st : ArrayStatus) (data spare : List Byte) (h : pageReadShape st data spare = true)
    (hp : st = .pass) : data.length = 256 := by
  subst hp
  simp only [pageReadShape, Bool.and_eq_true, beq_iff_eq] at h
  exact h.1

/-- Every well-formed command keeps the shape of the blocks. The completions go through `complete`; of these, a demand read and
a read of a configuration copy hand on the bytes that were read. -/
theorem exec_blocksShaped (c : Instr) (s t : State) (hc : c.wellFormed = true) (h : s.blocksShaped true)
    (he : exec c s = .next t) : t.blocksShaped true := by
  cases c
  case demandReadCompletion st data spare =>
    cases he
    refine complete_blocksShaped _ _ s h fun f u hu => ?_
    have hd := demandDone_cacheShaped f.op.page st data spare u hu.cache (pageReadShape_length st data spare hc)
    obtain ⟨hst, hca, hwb, hxl, hse, hmo, hpo, hgu, hma⟩ := hu
    constructor <;> simp [*]
  case configCopyReadCompletion st data spare =>
    cases he
    refine complete_blocksShaped _ _ s h fun f u hu => ?_
    have hd := pageReadShape_length st data spare hc
    have hmo' := configCopyRead_mountShaped st data u hu.mount hd
    have hma' := configCopyRead_maintShaped st data u hu.maint hu.mount hd
    obtain ⟨hst, hca, hwb, hxl, hse, hmo, hpo, hgu, hma⟩ := hu
    constructor <;> simp [*]
  case mergeReadCompletion | pageProgramCompletion | commitMarkCompletion | retireMarkCompletion | eraseCompletion
      | cleanMarkCompletion | readyWaitCompletion | headerReadCompletion | configCommitEraseCompletion
      | configCommitProgramCompletion | readBackCompletion =>
    cases he
    refine complete_blocksShaped _ _ s h fun f u hu => ?_
    obtain ⟨hst, hca, hwb, hxl, hse, hmo, hpo, hgu, hma⟩ := hu
    constructor <;> simp [*]
  all_goals
    cases he
    obtain ⟨hst, hca, hwb, hxl, hse, hmo, hpo, hgu, hma⟩ := h
    constructor <;> simp [*]

/-- No command takes anything from the queue or adds to it. -/
theorem exec_pending (c : Instr) (s t : State) (he : exec c s = .next t) : t.pending = s.pending := by
  cases c
  case mergeReadCompletion | demandReadCompletion | pageProgramCompletion | commitMarkCompletion | retireMarkCompletion
      | eraseCompletion | cleanMarkCompletion | readyWaitCompletion | configCopyReadCompletion | headerReadCompletion
      | configCommitEraseCompletion | configCommitProgramCompletion | readBackCompletion =>
    cases he
    exact complete_pending _ _ s fun f u => by simp
  all_goals
    cases he
    simp

/-- A tick moves counts only (R202). -/
theorem advanceTime_shaped (s : State) (h : s.shaped) : (advanceTime s).shaped := by
  obtain ⟨hst, hca, hwb, hxl, hse, hmo, hpo, hgu, hma, hpe⟩ := h
  exact ⟨hst, hca, hwb, hxl, advanceTime_seqShaped s hse, hmo, hpo, hgu, hma, hpe⟩

theorem exec_shaped (c : Instr) (s t : State) (hc : c.wellFormed = true) (h : s.shaped) (he : exec c s = .next t) :
    t.shaped := by
  obtain ⟨hblocks, hqueue⟩ := (shaped_iff s).1 h
  exact (shaped_iff t).2 ⟨exec_blocksShaped c s t hc hblocks he, by rwa [exec_pending c s t he]⟩

/-- Every step is a tick, or one command: the front of the queue, or on an empty queue an event that is due (logs 1 and 2). -/
theorem step_cases (s t : State) (he : step s = .next t) :
    (s.pending = [] ∧ s.dueEvents = [] ∧ t = advanceTime s) ∨
    (∃ c ∈ s.dueEvents, s.pending = [] ∧ exec c { s with freeCount := s.freeCount + 1 } = .next t) ∨
    (∃ c rest, s.pending = c :: rest ∧ exec c (s.withQueue rest) = .next t) := by
  unfold step at he
  split at he
  case h_1 c rest hq => exact Or.inr (Or.inr ⟨c, rest, hq, he⟩)
  case h_2 hq =>
    by_cases hd : s.dueEvents = []
    · rw [emptyQueueStep_quiet s hd] at he
      cases he
      exact Or.inl ⟨hq, hd, rfl⟩
    · obtain ⟨c, hc, hs⟩ := emptyQueueStep_due s hd
      exact Or.inr (Or.inl ⟨c, hc, hq, hs ▸ he⟩)

/-- Settles O6: a step is a tick or one well-formed command, and both keep the shape of every block. -/
theorem shapeKeptByEveryStep : Obligations.ShapeKeptByEveryStep := by
  intro s t h he
  rcases step_cases s t he with ⟨_, _, rfl⟩ | ⟨c, hc, _, he⟩ | ⟨c, rest, hq, he⟩
  · exact advanceTime_shaped s h
  · exact exec_shaped c { s with freeCount := s.freeCount + 1 } t (dueEvents_wellFormed s c hc) h he
  · obtain ⟨hst, hca, hwb, hxl, hse, hmo, hpo, hgu, hma, hpe⟩ := h
    rw [hq] at hpe
    have hrest : (s.withQueue rest).shaped := ⟨hst, hca, hwb, hxl, hse, hmo, hpo, hgu, hma,
      fun c' hc' => hpe c' (List.mem_cons_of_mem c hc')⟩
    exact exec_shaped c _ t (hpe c (List.mem_cons_self ..)) hrest he

end Sys2Proof.Machine
end

section
/-!
PROOFS. Every step keeps the staging limit (O8), and the state after reset has the three invariants (O9).
-/
namespace Sys2Proof.Machine

/-! ## The staging limit over one command -/

/-- `State.limitJoint` is `State.withinLimit` cut in two. -/
theorem withinLimit_iff (s : State) : s.withinLimit ↔ s.limitJoint := by
  constructor
  · rintro ⟨hlimit, hwriting, hnodup, hsealed, hempty⟩
    exact ⟨⟨hlimit, hwriting, hnodup, hsealed⟩, hempty⟩
  · rintro ⟨⟨hlimit, hwriting, hnodup, hsealed⟩, hempty⟩
    exact ⟨hlimit, hwriting, hnodup, hsealed, hempty⟩

/-- An operation that leaves the staging table, the write-back record, the request table and the supervisor keeps the limit. -/
theorem joint_of_keeps {s t : State} (h : s.limitJoint) (hst : t.staging = s.staging) (hwb : t.wb = s.wb)
    (hpo : t.port.table = s.port.table) (hsu : t.sup = s.sup) : t.limitJoint :=
  joint_congr h hst (by rw [hwb]) (by rw [hwb]) (Or.inr (Or.inl hpo)) (before_congr hsu)

theorem setSup_joint (v : Supervisor) (s : State) (h : s.limitJoint) (hv : v.state = s.sup.state) : (s.setSup v).limitJoint :=
  joint_congr h rfl rfl rfl (Or.inr (Or.inl rfl)) (setSup_before s v hv)

theorem setPins_joint (v : Pins) (s : State) (h : s.limitJoint) : (s.setPins v).limitJoint := joint_of_keeps h rfl rfl rfl rfl

theorem powerLow_joint (s : State) (h : s.limitJoint) : (powerLow s).limitJoint := by
  unfold powerLow
  split
  · exact setSup_joint _ _ (setPins_joint _ s h) rfl
  · exact setPins_joint _ s h

theorem powerHigh_joint (s : State) (h : s.limitJoint) : (powerHigh s).limitJoint := by
  unfold powerHigh
  have hhigh : (setPfwN true s).limitJoint := setPins_joint _ s h
  have hclear : (setWarning .clear (setPfwN true s)).limitJoint := setSup_joint _ _ hhigh rfl
  split
  · exact hhigh
  · exact joint_of_keeps hclear rfl rfl rfl rfl
  · exact recover_joint _ hclear

theorem qualify_joint (s : State) (h : s.limitJoint) : (qualify s).limitJoint := by
  unfold qualify
  split
  · have hasserted : (setWarning .asserted s).limitJoint := setSup_joint _ _ h rfl
    unfold qualified
    split
    · exact finish_joint _ _ (beginDrain_joint _ _ hasserted)
    · exact hasserted
  · exact h

theorem resetEdge_joint (s : State) (h : s.limitJoint) : (resetEdge s).limitJoint := by
  unfold resetEdge
  split
  · exact finish_joint _ _ (resetLineLow_joint _ (setPins_joint _ s h))
  · exact h

theorem powerUp_joint (s : State) : (powerUp s).limitJoint := finish_joint _ _ (reset_joint _ _ s)

theorem resetExpiry_joint (s : State) (h : s.limitJoint) : (resetExpiry s).limitJoint := by
  unfold resetExpiry
  split
  · exact finish_joint _ _ (reset_joint _ _ s)
  · exact h

theorem timeoutTwice_joint (s : State) (h : s.limitJoint) : (timeoutTwice s).limitJoint := by
  have hend : (mountFaultEnd s).limitJoint := joint_of_keeps h (by simp) (by simp) (by simp) (by simp)
  unfold timeoutTwice
  split
  · split
    · exact finish_joint _ _ (requestFault_joint _ hend)
    · exact finish_joint _ _ (requestFault_joint _ h)
  · exact h

/-- An entry leaves the request table or none does (R145): an empty table stays empty. -/
theorem acceptResponse_joint (s : State) (h : s.limitJoint) : (acceptResponse s).limitJoint := by
  refine joint_congr h (by simp) (by simp) (by simp) (Or.inr (Or.inr fun hempty => ?_)) (before_congr (by simp))
  unfold acceptResponse
  split
  · exact hempty
  · rw [beginSending_table]; exact hempty
  · rw [beginSending_table]; simp [hempty]

theorem exec_joint (c : Instr) (s t : State) (hm : s.mount.phase = .configB → s.sup.state = .mounting) (h : s.limitJoint)
    (he : exec c s = .next t) : t.limitJoint := by
  cases c
  case requestArrival record => cases he; exact arriveWaiting_joint _ s h
  case responseAcceptance => cases he; exact arriveWaiting_joint _ _ (acceptResponse_joint s h)
  case pfwNFall => cases he; exact powerLow_joint s h
  case pfwNRise => cases he; exact powerHigh_joint s h
  case qualification => cases he; exact qualify_joint s h
  case resetNFall madr => cases he; exact resetEdge_joint _ (setPins_joint _ s h)
  case resetNRise madr => cases he; exact resetRise_joint _ (setPins_joint _ s h)
  case powerOnReset madr => cases he; exact powerUp_joint _
  case resetTimerExpiry => cases he; exact resetExpiry_joint s h
  case writeBackTimerExpiry i => cases he; exact slotExpiry_joint i s h
  case mergeReadCompletion st data spare =>
    cases he; exact complete_joint _ _ s h fun f u hu _ _ => mergeDone_joint _ _ st data spare u hu
  case demandReadCompletion st data spare =>
    cases he; exact complete_joint _ _ s h fun f u hu _ _ => demandDone_joint _ st data spare u hu
  case pageProgramCompletion st => cases he; exact complete_joint _ _ s h fun f u hu _ _ => programDone_joint st u hu
  case commitMarkCompletion st => cases he; exact complete_joint _ _ s h fun f u hu _ _ => commitMarkDone_joint st u hu
  case retireMarkCompletion st => cases he; exact complete_joint _ _ s h fun f u hu _ _ => hu
  case eraseCompletion st => cases he; exact complete_joint _ _ s h fun f u hu _ _ => eraseDone_joint st u hu
  case cleanMarkCompletion st => cases he; exact complete_joint _ _ s h fun f u hu _ _ => cleanMarkDone_joint st u hu
  case readyWaitCompletion asz => cases he; exact complete_joint _ _ s h fun f u hu _ _ => readyWaitDone_joint asz u hu
  case configCopyReadCompletion st data spare =>
    cases he
    refine complete_joint _ _ s h fun f u hu hmount hsup => configCopyRead_joint st data u hu fun hp => ?_
    rw [hsup]
    exact hm (hmount ▸ hp)
  case headerReadCompletion st spare => cases he; exact complete_joint _ _ s h fun f u hu _ _ => headerRead_joint st spare u hu
  case configCommitEraseCompletion | configCommitProgramCompletion | readBackCompletion =>
    cases he
    exact complete_joint _ _ s h fun f u hu _ _ => joint_of_keeps hu (by simp) (by simp) (by simp) (by simp)
  case secondTimeout => cases he; exact timeoutTwice_joint s h
  case firstTimeout | linkResetEnd | discardedCompletion | startCondition =>
    cases he
    exact joint_of_keeps h (by simp) (by simp) (by simp) (by simp)
  all_goals
    cases he
    exact endFrame_joint _ _ s h

theorem advanceTime_joint (s : State) (h : s.limitJoint) : (advanceTime s).limitJoint := by
  refine joint_congr h rfl rfl rfl (Or.inr (Or.inl rfl)) ?_
  simp only [State.beforeService, advanceTime_state]

/-- Settles O8: a step is a tick or one command, and both keep the limit. A configuration is selected in MOUNTING only, where no
slot is in use, so the new D is never below the number of slots in use. -/
theorem stagingLimitNeverExceeded : Obligations.StagingLimitNeverExceeded := by
  rintro s t _ ⟨_, hmounting⟩ h he
  have hm : s.mount.phase = .configB → s.sup.state = .mounting := fun hp => hmounting.2 (by simp [hp])
  have h := (withinLimit_iff s).1 h
  refine (withinLimit_iff t).2 ?_
  rcases step_cases s t he with ⟨_, _, rfl⟩ | ⟨c, _, _, he⟩ | ⟨c, rest, _, he⟩
  · exact advanceTime_joint s h
  · exact exec_joint c { s with freeCount := s.freeCount + 1 } t hm h he
  · exact exec_joint c (s.withQueue rest) t hm h he

/-! ## The state after reset -/

/-- The state after reset is what a power-on reset completion makes of itself (R176, R177). -/
theorem reset_eq_resetBlocks : State.reset = resetBlocks .powerOn .notAttempted State.reset := by
  rfl

theorem resetBlocks_blocksShaped (c : ResetCause) (o : DrainOutcome) (s : State) : (resetBlocks c o s).blocksShaped true := by
  constructor <;> simp

/-- With RESET_N low a reset completion goes no further than RESETTING (R177, R178). -/
theorem resetCompletion_low (c : ResetCause) (o : DrainOutcome) (s : State) (h : s.pins.resetN = false) :
    resetCompletion c o s = resetBlocks c o s := by
  simp [resetCompletion, h]

/-- Settles O9: the state after reset is that of a power-on reset completion, which establishes all three. -/
theorem invariantsHoldAfterReset : Obligations.InvariantsHoldAfterReset := by
  refine ⟨?_, ?_, ?_⟩
  · refine (shaped_iff _).2 ⟨?_, fun c hc => absurd hc List.not_mem_nil⟩
    rw [reset_eq_resetBlocks]
    exact resetBlocks_blocksShaped .powerOn .notAttempted _
  · rw [reset_eq_resetBlocks]
    exact resetBlocks_supOkay .powerOn .notAttempted _
  · rw [withinLimit_iff, reset_eq_resetBlocks, ← resetCompletion_low _ _ _ rfl]
    exact reset_joint .powerOn .notAttempted _

end Sys2Proof.Machine
end

section
/-!
PROOFS. A step on an empty queue takes an event that is due (O3): the list of due events holds exactly the commands whose count
stands at its limit.
-/
namespace Sys2Proof.Machine

theorem accepting_eq_some (s : State) (f : InFlight) : s.accepting = some f ↔ s.seq.phase = .issued ∧ s.seq.inFlight = some f := by
  unfold State.accepting
  split <;> simp_all

theorem inService_iff (s : State) : s.inService = true ↔ s.sup.state = .serving ∨ s.sup.state = .readOnly := by
  simp [State.inService]

theorem qualificationDue_iff (s : State) :
    s.qualificationDue = true ↔ ∃ e, s.sup.warning = .qualifying e ∧ s.sup.qualifyQ * 16 ≤ e := by
  unfold State.qualificationDue
  split
  · rename_i e he
    simp only [he, decide_eq_true_eq, PowerWarning.qualifying.injEq, exists_eq_left']
    rfl
  · rename_i hne
    simp only [Bool.false_eq_true, false_iff]
    exact fun ⟨e, he, _⟩ => hne e he

theorem resetTimerDue_iff (s : State) :
    s.resetTimerDue = true ↔ s.sup.state = .draining ∧ ∃ n, s.sup.resetTimer = some n ∧ s.sup.resetLimit ≤ n := by
  unfold State.resetTimerDue
  split <;> simp_all

theorem linkResetDue_iff (s : State) : s.linkResetDue = true ↔ s.seq.phase = .resync ∧ 10 ≤ s.seq.resyncUs := by
  simp only [State.linkResetDue, Bool.and_eq_true, decide_eq_true_eq]
  rfl

theorem slotDue_iff (s : State) (i : Nat) : s.slotDue i = true ↔ (s.sup.state = .serving ∨ s.sup.state = .readOnly) ∧
    (s.slot i).state = .opened ∧ s.staging.delayW ≤ (s.clock.ms - (s.slot i).stamp.getD 0).toNat := by
  simp only [State.slotDue, Bool.and_eq_true, inService_iff, decide_eq_true_eq, and_assoc]

theorem mem_timeoutDue (s : State) (c : Instr) : c ∈ s.timeoutDue ↔ s.seq.phase = .issued ∧
    ∃ f, s.seq.inFlight = some f ∧ f.limit ≤ f.elapsed ∧
      (c = .firstTimeout ∧ f.timeouts = 0 ∨ c = .secondTimeout ∧ f.timeouts = 1) := by
  have hflight : (s.seq.phase = .issued ∧ ∃ f, s.seq.inFlight = some f ∧ f.limit ≤ f.elapsed ∧
      (c = .firstTimeout ∧ f.timeouts = 0 ∨ c = .secondTimeout ∧ f.timeouts = 1)) ↔
      ∃ f, s.accepting = some f ∧ f.limit ≤ f.elapsed ∧
        (c = .firstTimeout ∧ f.timeouts = 0 ∨ c = .secondTimeout ∧ f.timeouts = 1) := by
    simp only [accepting_eq_some, and_assoc, exists_and_left]
  rw [hflight]
  unfold State.timeoutDue
  cases s.accepting with
  | none => simp
  | some f =>
    simp only [Option.some.injEq, exists_eq_left']
    by_cases hlimit : f.limit ≤ f.elapsed
    · by_cases h0 : f.timeouts = 0
      · simp [hlimit, h0]
      · by_cases h1 : f.timeouts = 1
        · simp [hlimit, h1]
        · simp [hlimit, h0, h1]
    · simp [hlimit]

theorem mem_ite_singleton {α : Type} (p : Prop) [Decidable p] (a c : α) : (c ∈ if p then [a] else []) ↔ c = a ∧ p := by
  rw [List.mem_ite_nil_right, List.mem_singleton, and_comm]

/-- The list of the events that are due holds exactly those whose count stands at its limit. -/
theorem mem_dueEvents (s : State) (c : Instr) : c ∈ s.dueEvents ↔ s.isDue c := by
  have hslot : c ∈ (slotNumbers.filter s.slotDue).map Instr.writeBackTimerExpiry ↔ ∃ i, c = .writeBackTimerExpiry i ∧ i < 16 ∧
      (s.sup.state = .serving ∨ s.sup.state = .readOnly) ∧ (s.slot i).state = .opened ∧
      s.staging.delayW ≤ (s.clock.ms - (s.slot i).stamp.getD 0).toNat := by
    simp only [List.mem_map, List.mem_filter, slotNumbers, List.mem_range, Config.slotCount, slotDue_iff]
    exact exists_congr fun i => ⟨fun ⟨h, he⟩ => ⟨he.symm, h⟩, fun ⟨he, h⟩ => ⟨h, he.symm⟩⟩
  simp only [State.dueEvents, List.mem_append, mem_ite_singleton, qualificationDue_iff, resetTimerDue_iff, mem_timeoutDue,
    linkResetDue_iff, hslot, State.isDue]
  constructor
  · rintro ((((h | h) | h) | h) | h)
    · exact Or.inr (Or.inl h)
    · exact Or.inr (Or.inr (Or.inl h))
    · exact Or.inr (Or.inr (Or.inr (Or.inr h)))
    · exact Or.inr (Or.inr (Or.inr (Or.inl h)))
    · exact Or.inl h
  · rintro (h | h | h | h | h)
    · exact Or.inr h
    · exact Or.inl (Or.inl (Or.inl (Or.inl h)))
    · exact Or.inl (Or.inl (Or.inl (Or.inr h)))
    · exact Or.inl (Or.inr h)
    · exact Or.inl (Or.inl (Or.inr h))

/-- Settles O3. -/
theorem emptyQueueStepTakesADueEvent : Obligations.EmptyQueueStepTakesADueEvent := by
  rintro s hq ⟨d, hd⟩
  have hne : s.dueEvents ≠ [] := List.ne_nil_of_mem ((mem_dueEvents s d).2 hd)
  obtain ⟨c, hc, he⟩ := emptyQueueStep_due s hne
  refine ⟨c, (mem_dueEvents s c).1 hc, ?_⟩
  rw [← he]
  unfold step
  rw [hq]

end Sys2Proof.Machine
end

section
/-!
PROOFS. The coherence lookup (O18) and the fill of the missing offsets (O46).
-/
namespace Sys2Proof.Machine

/-! ## Searches through the slots -/

/-- A search through the slot numbers finds the lowest that passes. -/
theorem find_slotNumbers_eq_some (test : Nat → Bool) (i : Nat) :
    slotNumbers.find? test = some i ↔ lowestSlot (fun j => test j = true) i := by
  simp only [slotNumbers, Config.slotCount, List.find?_range_eq_some, lowestSlot, List.mem_range, Bool.not_eq_eq_eq_not,
    Bool.not_true, Bool.not_eq_true]
  tauto

theorem findSlot_eq_some (s : State) (test : Slot → Bool) (i : Nat) :
    s.findSlot test = some i ↔ lowestSlot (fun j => test (s.slot j) = true) i :=
  find_slotNumbers_eq_some _ i

theorem findPartner_eq_some (s : State) (i x : Nat) (test : Slot → Bool) (j : Nat) :
    s.findPartner i x test = some j ↔
      lowestSlot (fun j => j ≠ i ∧ (s.slot j).page = some x ∧ test (s.slot j) = true) j := by
  simp only [State.findPartner, find_slotNumbers_eq_some, Bool.and_eq_true, decide_eq_true_eq]

theorem accepts_iff (sl : Slot) (x : Nat) : sl.accepts x = true ↔
    sl.state = .opened ∧ sl.page = some x ∨ sl.state = .sealed ∧ sl.page = some x := by
  simp [Slot.accepts, or_and_right]

/-! ## The coherence lookup, source by source (R25) -/

/-- The accepting slot answers where it holds the offset. -/
theorem lookup_accepting (src : Sources) (off : Nat) (sl : Slot) (h : src.accepting = some sl)
    (hv : sl.valid[off]? = some true) : src.lookup off = .slot (byteAt sl.image off) := by
  simp [Sources.lookup, h, Option.filter, hv]

/-- Where the accepting slot does not hold the offset, the older sources answer. -/
theorem lookup_older (src : Sources) (off : Nat) (h : ∀ sl, src.accepting = some sl → sl.valid[off]? ≠ some true) :
    src.lookup off = ({ src with accepting := none } : Sources).lookup off := by
  cases ha : src.accepting with
  | none => rw [← ha]
  | some sl =>
    have hget : sl.valid[off]?.getD false = false := by
      have hne := h sl ha
      cases hv : sl.valid[off]? with
      | none => rfl
      | some v =>
        cases v with
        | false => rfl
        | true => exact absurd hv hne
    simp [Sources.lookup, ha, Option.filter, hget]

/-- The first entry of a page in the cache's order is the one that is found. -/
theorem cacheFind_first (x : Nat) (older newer : List CacheEntry) (e : CacheEntry) (he : e.page = x)
    (ho : ∀ o ∈ older, o.page ≠ x) : cacheFind x (older ++ e :: newer) = some e := by
  have hnone : older.find? (fun o => decide (o.page = x)) = none := by simpa [List.find?_eq_none] using ho
  simp [cacheFind, List.find?_append, hnone, he]

theorem cacheFind_none (x : Nat) (cache : List CacheEntry) (h : ∀ e ∈ cache, e.page ≠ x) : cacheFind x cache = none := by
  simpa [cacheFind, List.find?_eq_none] using h

/-- Settles O18: the sources are asked newest first, each branch by the search that finds its slot. -/
theorem coherenceLookupOrder : Obligations.CoherenceLookupOrder := by
  intro s x off source inState accepting writing held
  have haccepting : ∀ i, accepting i ↔ s.findSlot (fun sl => sl.accepts x) = some i := fun i => by
    simp only [findSlot_eq_some, accepts_iff]; rfl
  have hwriting : ∀ i, writing i ↔ s.findSlot (fun sl => sl.state = .writing && sl.page = some x) = some i := fun i => by
    simp only [findSlot_eq_some, Bool.and_eq_true, decide_eq_true_eq]; rfl
  have hheld : ∀ i, held i ↔ s.findSlot (fun sl => sl.state = .held && sl.page = some x) = some i := fun i => by
    simp only [findSlot_eq_some, Bool.and_eq_true, decide_eq_true_eq]; rfl
  refine ⟨fun i hi hv => ?_, fun hmissing => ?_⟩
  · exact lookup_accepting _ off (s.slot i) (by simp [State.sourcesOf, (haccepting i).1 hi]) hv
  have hsource : source = ({ s.sourcesOf x with accepting := none } : Sources).lookup off := by
    refine lookup_older _ off fun sl hsl => ?_
    obtain ⟨i, hi, rfl⟩ := Option.map_eq_some_iff.1 hsl
    exact hmissing i ((haccepting i).2 hi)
  refine ⟨fun i hi => ?_, fun hnoWriting => ⟨fun i hi => ?_, fun hnoHeld => ⟨fun older newer e hcache he ho => ?_, fun hnone => ?_⟩⟩⟩
  · rw [hsource]
    simp [Sources.lookup, State.sourcesOf, (hwriting i).1 hi]
  all_goals
    have hw : s.findSlot (fun sl => sl.state = .writing && sl.page = some x) = none :=
      Option.eq_none_iff_forall_ne_some.2 fun i hi => hnoWriting i ((hwriting i).2 hi)
    rw [hsource]
  · simp [Sources.lookup, State.sourcesOf, hw, (hheld i).1 hi]
  all_goals
    have hh : s.findSlot (fun sl => sl.state = .held && sl.page = some x) = none :=
      Option.eq_none_iff_forall_ne_some.2 fun i hi => hnoHeld i ((hheld i).2 hi)
  · simp [Sources.lookup, State.sourcesOf, hw, hh, hcache, cacheFind_first x older newer e he ho]
  · cases hmap : s.map x <;> simp [Sources.lookup, State.sourcesOf, hw, hh, cacheFind_none x _ hnone, hmap]

/-- Settles O46. -/
theorem fillWritesMissingOffsetsOnly : Obligations.FillWritesMissingOffsetsOnly := by
  intro valid image base hvalid hbase k hk
  exact fillMissing_getElem? valid image base k (hvalid ▸ hk) hk (hbase ▸ hk)

end Sys2Proof.Machine
end

section
/-!
PROOFS. The completion of a merge read (O47), case by case of R16 to R18.
-/
namespace Sys2Proof.Machine

/-- The completion of the merge read in flight releases its record and ends or repeats the merge (R101, R16 to R18). -/
theorem exec_mergeReadCompletion (i p : Nat) (f : InFlight) (st : ArrayStatus) (data spare : List Byte) (s : State)
    (hserving : s.serving f) (hr : f.requester = .mergeRead i) (hop : f.op = .pageRead p) :
    exec (.mergeReadCompletion st data spare) s =
      .next (finish s (mergeDone i p st data spare { s with seq := s.seq.released })) := by
  obtain ⟨hphase, hflight⟩ := hserving
  have hrow : isMergeRead f = true := by simp [isMergeRead, mergeSlot, hr]
  have hcomplete := complete_accepted f s isMergeRead
    (fun f t => mergeDone ((mergeSlot f.requester).getD 0) f.op.page st data spare t) hphase hflight hrow
  rw [hr, hop] at hcomplete
  exact congrArg Host.Outcome.next hcomplete

theorem readNumber_of_mergeRead (sl : Slot) (m : MergeRead) (h : sl.mergeRead = some m) : sl.readNumber = m.number := by
  simp [Slot.readNumber, h]

/-- R16: good data fill the slot. -/
theorem mergeDone_good (i p : Nat) (st : ArrayStatus) (data spare : List Byte) (s : State) (hg : goodPage st data spare = true) :
    mergeDone i p st data spare s = endMerge i p ((s.slot i).filledFrom data) s := by
  simp [mergeDone, hg]

/-- R17: a first failure ends the merge where the map is full. -/
theorem mergeDone_first_full (i p : Nat) (st : ArrayStatus) (data spare : List Byte) (s : State)
    (hg : goodPage st data spare = false) (hn : (s.slot i).readNumber = 1) (hf : isFull (s.slot i).valid = true) :
    mergeDone i p st data spare s = endMerge i p { s.slot i with merge := some .complete, mergeRead := none } s := by
  simp [mergeDone, hg, hn, hf]

/-- R17: a first failure repeats the read where bytes are missing. -/
theorem mergeDone_first_partial (i p : Nat) (st : ArrayStatus) (data spare : List Byte) (s : State)
    (hg : goodPage st data spare = false) (hn : (s.slot i).readNumber = 1) (hf : isFull (s.slot i).valid = false) :
    mergeDone i p st data spare s = repeatMerge i p s := by
  simp [mergeDone, hg, hn, hf]

/-- R18: a second failure fills with the erased value and reports what was missing. -/
theorem mergeDone_second (i p : Nat) (st : ArrayStatus) (data spare : List Byte) (s : State)
    (hg : goodPage st data spare = false) (hn : (s.slot i).readNumber = 2) :
    mergeDone i p st data spare s = reportLoss ((s.slot i).page.getD 0) (missingCount (s.slot i).valid)
      (endMerge i p ((s.slot i).filledFrom erasedImage) s) := by
  simp [mergeDone, hg, hn]

/-- R17: during a completion event the repeated PAGE READ joins the list. -/
theorem repeatMerge_issued (i p : Nat) (s : State) (h : s.seq.phase = .issued) : repeatMerge i p s = { s with
    seq := s.seq.joined (.pageRead p) (.mergeRead i),
    staging := s.staging.withSlot i { s.slot i with mergeRead := some { page := p, number := 2 } } } :=
  requestOp_busy _ _ (setSlot i { s.slot i with mergeRead := some { page := p, number := 2 } } s) (Or.inl h)

/-- Settles O47. -/
theorem mergeReadCompletion : Obligations.MergeReadCompletion := by
  intro i p f st data spare s hserving hr hop sl filled
  rw [exec_mergeReadCompletion i p f st data spare s hserving hr hop]
  refine ⟨fun hg => ?_, fun hg hm hf => ?_, fun hg hm hf => ?_, fun hg hm x hx => ?_⟩
  · rw [mergeDone_good i p st data spare _ hg]
    rfl
  · rw [mergeDone_first_full i p st data spare { s with seq := s.seq.released } hg (readNumber_of_mergeRead sl _ hm) hf]
    rfl
  · rw [mergeDone_first_partial i p st data spare { s with seq := s.seq.released } hg (readNumber_of_mergeRead sl _ hm) hf,
      repeatMerge_issued i p { s with seq := s.seq.released } hserving.1]
    rfl
  · rw [mergeDone_second i p st data spare { s with seq := s.seq.released } hg (readNumber_of_mergeRead sl _ hm)]
    have hpage : ((({ s with seq := s.seq.released } : State).slot i).page.getD 0) = x := by
      show sl.page.getD 0 = x
      rw [hx]; rfl
    rw [hpage]
    unfold reportLoss
    show Host.Outcome.next (finish s (if missingCount sl.valid = 0 then _ else _)) = _
    split <;> rfl

end Sys2Proof.Machine
end

section
/-!
PROOFS. Rules for the operations that the statements of the staging table share: an operation request (R96), a page taken from the
free pool (R77), a READ_ONLY request (R166), and the answers to requests (R144, R145).
-/
namespace Sys2Proof.Machine

/-! ## Operation requests (R96, R98) -/

/-- A single waiting operation is chosen where its class may be (R98). -/
theorem bestOp_single (s : State) (w : WaitingOp) (h : s.seq.ops = [w])
    (hc : mayChoose s.sup.state (opClass s.pageWait w.requester) = true) : s.bestOp = some w := by
  simp [State.bestOp, h, State.betterOp, hc]

/-- An operation that finds an IDLE link with nothing waiting is issued at once (R96, R98, R100). -/
theorem requestOp_idle (op : ArrayOp) (r : Requester) (s : State) (hp : s.seq.phase = .idle) (ho : s.seq.ops = [])
    (hc : mayChoose s.sup.state (opClass s.pageWait r) = true) : requestOp op r s = { s with
      seq := s.seq.issued (outgoing op) r (opClass s.pageWait r) (timeLimit op) s.clock } := by
  have hbest : (joinList op r s).bestOp = some { op := op, requester := r, arrival := s.seq.arrival } :=
    bestOp_single _ _ (by simp [joinList, ho]) hc
  have hrequest : requestOp op r s = choose (joinList op r s) := by
    unfold requestOp
    rw [hp]
  rw [hrequest, choose, hbest]
  simp only [joinList, State.setSeq, Sequencer.issued, ho, List.nil_append, List.erase_cons_head]
  rfl

/-- What an operation request does to the sequencer (R96); nothing else changes. -/
theorem requestOp_asked (op : ArrayOp) (r : Requester) (s : State) (hfree : s.linkFree)
    (hc : mayChoose s.sup.state (opClass s.pageWait r) = true) : requestOp op r s = { s with
      seq := s.seq.asked op r (opClass s.pageWait r) (timeLimit op) s.clock } := by
  cases hp : s.seq.phase with
  | idle =>
    rw [requestOp_idle op r s hp (hfree hp) hc]
    simp [Sequencer.asked, hp]
  | issued =>
    rw [requestOp_busy op r s (Or.inl hp)]
    simp [Sequencer.asked, hp, Sequencer.joined]
  | resync =>
    rw [requestOp_busy op r s (Or.inr hp)]
    simp [Sequencer.asked, hp, Sequencer.joined]
  | stopped =>
    unfold requestOp
    rw [hp]
    simp [Sequencer.asked, hp]

/-- After the mount and outside FAULT every class but the mount's may be chosen (R98, R110). -/
theorem mayChoose_of_mounted (st : OperatingState) (cls : Nat) (h1 : st ≠ .resetting) (h2 : st ≠ .mounting) (h3 : st ≠ .fault)
    (hc : cls ≠ 1) : mayChoose st cls = true := by
  cases st <;> simp_all [mayChoose]

end Sys2Proof.Machine
end

section
/-!
PROOFS. The seal of a slot and the expiry of its write-back timer (O45), by the merge base that R13 chooses.
-/
namespace Sys2Proof.Machine

/-! ## The merge base (R13) -/

theorem mergeBase_full (i x : Nat) (s : State) (h : isFull (s.slot i).valid = true) : s.mergeBase i x = .noneNeeded := by
  simp [State.mergeBase, h]

theorem mergeBase_writing (i x j : Nat) (s : State) (h : isFull (s.slot i).valid = false)
    (hw : s.findPartner i x (fun sl => sl.state = .writing) = some j) : s.mergeBase i x = .deferred := by
  simp [State.mergeBase, h, hw]

theorem mergeBase_held (i x j : Nat) (s : State) (h : isFull (s.slot i).valid = false)
    (hw : s.findPartner i x (fun sl => sl.state = .writing) = none)
    (hh : s.findPartner i x (fun sl => sl.state = .held) = some j) : s.mergeBase i x = .heldImage (s.slot j).image := by
  simp [State.mergeBase, h, hw, hh]

theorem mergeBase_cache (i x : Nat) (e : CacheEntry) (s : State) (h : isFull (s.slot i).valid = false)
    (hw : s.findPartner i x (fun sl => sl.state = .writing) = none)
    (hh : s.findPartner i x (fun sl => sl.state = .held) = none) (hc : cacheFind x s.readPath.cache = some e) :
    s.mergeBase i x = .cacheImage e.image := by
  simp [State.mergeBase, h, hw, hh, hc]

theorem mergeBase_unmapped (i x : Nat) (s : State) (h : isFull (s.slot i).valid = false)
    (hw : s.findPartner i x (fun sl => sl.state = .writing) = none)
    (hh : s.findPartner i x (fun sl => sl.state = .held) = none) (hc : cacheFind x s.readPath.cache = none)
    (hm : s.map x = none) : s.mergeBase i x = .erased := by
  simp [State.mergeBase, h, hw, hh, hc, hm]

theorem mergeBase_array (i x p : Nat) (s : State) (h : isFull (s.slot i).valid = false)
    (hw : s.findPartner i x (fun sl => sl.state = .writing) = none)
    (hh : s.findPartner i x (fun sl => sl.state = .held) = none) (hc : cacheFind x s.readPath.cache = none)
    (hm : s.map x = some p) : s.mergeBase i x = .array p := by
  simp [State.mergeBase, h, hw, hh, hc, hm]

/-! ## The seal (R8) -/

/-- An OPEN slot of page X is sealed by its merge base and joins the eviction queue. -/
theorem sealSlot_opened (i x : Nat) (s : State) (ho : (s.slot i).state = .opened) (hx : (s.slot i).page = some x) :
    sealSlot i s = joinEviction i (sealRecord i x s) := by
  simp [sealSlot, ho, hx]

/-- A slot that is not OPEN is passed over. -/
theorem sealSlot_not_opened (i : Nat) (s : State) (h : (s.slot i).state ≠ .opened) : sealSlot i s = s := by
  simp [sealSlot, h]

/-- What a seal does besides the merge: the slot is SEALED with the record given, and joins the eviction queue. -/
def State.sealedAs (s : State) (i : Nat) (sl : Slot) : State :=
  joinEviction i (setSlot i { sl with state := .sealed } s)

/-- A merge whose base is at hand (R14) completes in the seal. -/
theorem sealSlot_filled (i x : Nat) (base : List Byte) (s : State) (ho : (s.slot i).state = .opened)
    (hx : (s.slot i).page = some x) (hb : s.mergeBase i x = .heldImage base ∨ s.mergeBase i x = .erased ∧ base = erasedImage) :
    sealSlot i s = s.sealedAs i ((s.slot i).filledFrom base) := by
  rw [sealSlot_opened i x s ho hx]
  rcases hb with hb | ⟨hb, rfl⟩
  · simp only [sealRecord, hb]
    rfl
  · simp only [sealRecord, hb]
    rfl

/-- R15: the merge read pins the page that map[X] names and passes a PAGE READ. -/
theorem pinnedRead_asked (p : Nat) (r : Requester) (s : State) (hfree : s.linkFree)
    (hc : mayChoose s.sup.state (opClass s.pageWait r) = true) : pinnedRead p r s = { s with
      xlat := s.xlat.withPage p { s.pageEntry p with pins := (s.pageEntry p).pins + 1 },
      seq := s.seq.asked (.pageRead p) r (opClass s.pageWait r) 200 s.clock } :=
  requestOp_asked (.pageRead p) r (setPins p ((s.pageEntry p).pins + 1) s) hfree hc

/-! ## The expiry of a write-back timer (R9) -/

theorem exec_writeBackTimerExpiry_opened (i : Nat) (s : State) (hr : s.ready_) (ho : (s.slot i).state = .opened) :
    exec (.writeBackTimerExpiry i) s = .next (finish s (sealSlot i s)) := by
  show Host.Outcome.next (slotExpiry i s) = _
  rw [slotExpiry, if_pos ⟨(inService_iff s).2 hr, ho⟩]

theorem exec_writeBackTimerExpiry_idle (i : Nat) (s : State) (h : (s.slot i).state ≠ .opened ∨ ¬s.ready_) :
    exec (.writeBackTimerExpiry i) s = .next s := by
  show Host.Outcome.next (slotExpiry i s) = _
  rw [slotExpiry, if_neg]
  rintro ⟨hservice, ho⟩
  rcases h with h | h
  · exact h ho
  · exact h ((inService_iff s).1 hservice)

/-- Settles O45: the cases of R13 in their order, each by its merge base. -/
theorem writeBackTimerSealsSlot : Obligations.WriteBackTimerSealsSlot := by
  intro i x s
  refine ⟨exec_writeBackTimerExpiry_idle i s, sealSlot_not_opened i s, ?_⟩
  intro ho hx sl partner is sealed filled
  have his : ∀ t, sealSlot i s = t → is t := fun t ht =>
    ⟨ht, fun hr => by rw [exec_writeBackTimerExpiry_opened i s hr ho, ht]⟩
  have hpartner : ∀ st j, partner st j ↔ s.findPartner i x (fun o => o.state = st) = some j := fun st j => by
    simp only [findPartner_eq_some, decide_eq_true_eq]; rfl
  have hnone : ∀ st, (∀ j, ¬partner st j) → s.findPartner i x (fun o => o.state = st) = none := fun st h =>
    Option.eq_none_iff_forall_ne_some.2 fun j hj => h j ((hpartner st j).2 hj)
  refine ⟨fun hf => his _ ?_, fun hf => ⟨fun j hj => his _ ?_, fun hnoWriting => ⟨fun j hj => his _ ?_,
    fun hnoHeld => ⟨fun e he => his _ ?_, fun hcache => ⟨fun hmap => his _ ?_, fun p hmap hfree hmounted hfault => his _ ?_⟩⟩⟩⟩⟩
  · rw [sealSlot_opened i x s ho hx, sealRecord, mergeBase_full i x s hf]
    rfl
  · rw [sealSlot_opened i x s ho hx, sealRecord, mergeBase_writing i x j s hf ((hpartner _ j).1 hj)]
    rfl
  all_goals have hw := hnone _ hnoWriting
  · exact sealSlot_filled i x _ s ho hx (Or.inl (mergeBase_held i x j s hf hw ((hpartner _ j).1 hj)))
  all_goals have hh := hnone _ hnoHeld
  · rw [sealSlot_opened i x s ho hx, sealRecord, mergeBase_cache i x e s hf hw hh he]
    rfl
  · exact sealSlot_filled i x erasedImage s ho hx (Or.inr ⟨mergeBase_unmapped i x s hf hw hh hcache hmap, rfl⟩)
  · have hchoose : mayChoose s.sup.state (opClass s.pageWait (.mergeRead i)) = true :=
      mayChoose_of_mounted _ _ hmounted.1 hmounted.2 hfault (by simp [opClass])
    rw [sealSlot_opened i x s ho hx, sealRecord, mergeBase_array i x p s hf hw hh hcache hmap]
    exact congrArg (joinEviction i) (pinnedRead_asked p (.mergeRead i) (setSlot i _ s) hfree hchoose)

end Sys2Proof.Machine
end

section
/-!
PROOFS. What the write-back engine does when it takes a slot (R49 to R53), written out: the state that each answer to its page
request leads to.
-/
namespace Sys2Proof.Machine

/-! ## READ_ONLY requests and pages taken (R77, R88, R166) -/

theorem requestReadOnly_eq (s : State) : requestReadOnly s = { s with sup := s.sup.askedReadOnly } := by
  show requestReadOnly s = s.setSup s.sup.askedReadOnly
  have hself : s.setSup s.sup = s := rfl
  cases hs : s.sup.state
  case draining =>
    by_cases hc : s.sup.cause = some .power
    · simp only [requestReadOnly, Supervisor.askedReadOnly, hs, if_pos hc]
    · simp only [requestReadOnly, Supervisor.askedReadOnly, hs, if_neg hc, hself]
  all_goals simp only [requestReadOnly, Supervisor.askedReadOnly, hs, hself]

theorem examineSequence_eq (s : State) :
    examineSequence s = { s with sup := if s.sequenceReserve then s.sup.askedReadOnly else s.sup } := by
  have hreserve : s.inSequenceReserve = s.sequenceReserve := rfl
  unfold examineSequence
  rw [hreserve]
  split
  · exact requestReadOnly_eq s
  · rfl

/-- A READ_ONLY request leaves a state in which write-backs start one in which they start. -/
theorem askedReadOnly_state (u : Supervisor)
    (h : u.state = .serving ∨ u.state = .readOnly ∨ u.state = .draining) :
    u.askedReadOnly.state = .readOnly ∨ u.askedReadOnly.state = .draining := by
  rcases h with h | h | h
  · simp [Supervisor.askedReadOnly, h]
  · simp [Supervisor.askedReadOnly, h]
  · by_cases hc : u.cause = some .power <;> simp [Supervisor.askedReadOnly, h, hc]

/-! ## Answers (R144, R145) -/

theorem becomeReady_eq (tag : Nat) (status : ResponseStatus) (data : List Byte) (s : State) :
    becomeReady tag status data s = { s with port := s.port.answer tag status data } := by
  unfold becomeReady beginSending Port.answer
  cases hc : s.port.channel with
  | idle =>
    cases ha : s.port.againOwed with
    | some t => simp [State.setPort, setPhase, hc, ha]
    | none => cases ho : s.port.readyOrder <;> simp [State.setPort, setPhase, hc, ha]
  | sendingAgain t => simp [State.setPort, setPhase, hc]
  | sendingEntry t => simp [State.setPort, setPhase, hc]

theorem answerPersists_eq (status : ResponseStatus) (bs : List Barrier) (s : State) : answerPersists status bs s =
    { s with port := bs.foldl (fun q b => q.answer b.tag status []) s.port } := by
  unfold answerPersists
  induction bs generalizing s with
  | nil => rfl
  | cons b bs ih => rw [List.foldl_cons, ih, becomeReady_eq]; rfl

/-! ## A slot becomes HELD (R53, R59, R66) -/

/-- The partner of a slot does not depend on the slot's own record. -/
theorem findPartner_setSlot (i x : Nat) (sl : Slot) (test : Slot → Bool) (s : State) :
    (setSlot i sl s).findPartner i x test = s.findPartner i x test := by
  unfold State.findPartner
  congr 1
  funext j
  by_cases hj : j = i
  · simp [hj]
  · rw [slot_setSlot, if_neg (fun h => hj h.1.symm)]

/-- What the record of a HELD slot serves its partner with (R21, R24). -/
theorem heldPartner_setSlot (i x : Nat) (sl : Slot) (s : State) (hsl : sl.image = (s.slot i).image) :
    heldPartner i x (setSlot i sl s) = { s with
      staging := (s.staging.withSlot i sl).partnerServed s i x (s.slot i).image } := by
  have himage : ((setSlot i sl s).slot i).image = (s.slot i).image := by
    rw [slot_setSlot]
    split
    · exact hsl
    · rfl
  have hother : ∀ test j, s.findPartner i x test = some j → (setSlot i sl s).slot j = s.slot j := fun test j hj => by
    rw [slot_setSlot, if_neg (fun h => (findPartner_ne hj).1 h.1.symm)]
  unfold heldPartner Staging.partnerServed
  simp only [findPartner_setSlot, himage]
  cases hdeferred : s.findPartner i x (fun o => decide (o.state = .sealed) && decide (o.merge = some .deferred)) with
  | some j =>
    simp only [hother _ j hdeferred]
    rfl
  | none =>
    cases hheld : s.findPartner i x (fun o => decide (o.state = .held)) with
    | some j =>
      simp only [freeSlot, hother _ j hheld]
      rfl
    | none => rfl

theorem becomeHeld_eq (i x : Nat) (reason : HoldReason) (s : State) (hp : s.wb.phase = .idle) (hx : (s.slot i).page = some x) :
    becomeHeld i reason s = s.heldAs i x reason := by
  have hpage : (s.slot i).page.getD 0 = x := by rw [hx]; rfl
  have hserved := heldPartner_setSlot i x { s.slot i with state := .held, hold := some reason, target := none } s rfl
  unfold becomeHeld loseBarriers
  dsimp only
  rw [hpage, hserved, requestReadOnly_eq, answerPersists_eq]
  simp only [setBarriers, State.setWb, State.heldAs, hp, Barrier.names]

/-! ## The engine takes a slot (R49 to R53) -/

/-- R77, R88: the page leaves the head of the free pool as PROGRAMMING, and the sequence counter advances. -/
theorem takePage_eq (p : Nat) (s : State) :
    let u : State := { s with xlat := { (s.xlat.withPage p { s.pageEntry p with state := .programming }) with
      freePool := s.xlat.freePool.tail, sequence := satAdvance s.xlat.sequence } }
    takePage p s = { u with sup := if u.sequenceReserve then s.sup.askedReadOnly else s.sup } :=
  examineSequence_eq _

theorem takePage_writesBack (p : Nat) (s : State) (h : s.writesBack) :
    (takePage p s).writesBack := by
  unfold State.writesBack
  rw [takePage_eq]
  dsimp only
  split
  · exact Or.inr (askedReadOnly_state s.sup h)
  · exact h

/-- R51, R54: once its page is taken, the slot becomes WRITING and its PAGE PROGRAM is passed. -/
theorem startWriteBack_taken (i : Nat) (t : Target) (s u : State) (hu : takePage t.page s = u) (hfree : u.linkFree)
    (hstate : u.writesBack) : startWriteBack i t s = { u with
      seq := u.seq.asked (programOf (u.slot i) t) .writeBack 4 4000 u.clock,
      wb := { u.wb with phase := .program i, eviction := u.wb.eviction.erase i },
      staging := u.staging.withSlot i { u.slot i with state := .writing, target := some t } } := by
  have hclass : mayChoose u.sup.state 4 = true := by
    rcases hstate with h | h | h <;> rw [h] <;> rfl
  unfold startWriteBack
  rw [hu]
  exact requestOp_asked (programOf (u.slot i) t) .writeBack
    ((setSlot i { u.slot i with state := .writing, target := some t } u).setWb
      { u.wb with phase := .program i, eviction := u.wb.eviction.erase i }) hfree hclass

theorem startWriteBack_eq (i x p : Nat) (rest : List Nat) (s : State) (hw : s.writesBack) (hfree : s.linkFree)
    (hx : (s.slot i).page = some x) (hpool : s.xlat.freePool = p :: rest) :
    startWriteBack i { page := p, seq := s.xlat.sequence } s = s.started i x p rest := by
  obtain rfl : (s.slot i).page.getD 0 = x := by rw [hx]; rfl
  obtain rfl : s.xlat.freePool.tail = rest := by rw [hpool]; rfl
  have hstate := takePage_writesBack p s hw
  rw [takePage_eq] at hstate
  have hstart := startWriteBack_taken i { page := p, seq := s.xlat.sequence } s _ (takePage_eq p s) hfree hstate
  exact hstart

/-- R49 to R51, R53: the slot that the engine takes, by the answer to its page request. -/
theorem takeSlot_page (i x p : Nat) (rest : List Nat) (s : State) (hw : s.writesBack) (hfree : s.linkFree)
    (hx : (s.slot i).page = some x) (hpool : s.xlat.freePool = p :: rest) : takeSlot i s = s.started i x p rest := by
  rw [← startWriteBack_eq i x p rest s hw hfree hx hpool]
  simp [takeSlot, State.askPage, hpool]

theorem takeSlot_none (i x : Nat) (s : State) (hx : (s.slot i).page = some x) (hpool : s.xlat.freePool = [])
    (herase : s.xlat.erase = .idle) (hqueue : s.xlat.eraseQueue = []) : takeSlot i s =
      ({ s with wb := { s.wb with eviction := s.wb.eviction.erase i } } : State).heldAs i x .noSpace := by
  have hask : s.askPage = .none := by simp [State.askPage, hpool, herase, hqueue]
  simp only [takeSlot, hask, holdSealed]
  exact becomeHeld_eq i x .noSpace (s.setWb { s.wb with phase := .idle, eviction := s.wb.eviction.erase i }) rfl hx

theorem takeSlot_wait (i : Nat) (s : State) (hpool : s.xlat.freePool = [])
    (hcoming : s.xlat.erase ≠ .idle ∨ s.xlat.eraseQueue ≠ []) :
    takeSlot i s = { s with wb := { s.wb with phase := .pageWaitFirst } } := by
  have hask : s.askPage = .wait := by
    unfold State.askPage
    rw [hpool]
    dsimp only
    split
    · rename_i hqueue herase
      exact absurd hqueue (hcoming.resolve_left (fun h => h herase))
    · rfl
  simp only [takeSlot, hask]
  rfl

/-! ## Where the engine starts (R48, R49) -/

theorem writing_iff (s : State) : s.writing = true ↔ s.writesBack := by
  unfold State.writing State.writesBack
  cases s.sup.state <;> simp

/-- R48: a slot is ready: SEALED, merge-complete, no other slot of its page WRITING. -/
theorem ready_of (i x : Nat) (s : State) (hx : (s.slot i).page = some x) (hs : (s.slot i).state = .sealed)
    (hm : (s.slot i).merge = some .noneNeeded ∨ (s.slot i).merge = some .complete)
    (hw : ∀ j < 16, j ≠ i → ¬((s.slot j).state = .writing ∧ (s.slot j).page = some x)) : s.ready i = true := by
  have hnone : s.findPartner i x (fun o => o.state = .writing) = none := by
    refine Option.eq_none_iff_forall_ne_some.2 fun j hj => ?_
    obtain ⟨hlt, ⟨hne, hpage, hstate⟩, _⟩ := (findPartner_eq_some s i x _ j).1 hj
    exact hw j hlt hne ⟨of_decide_eq_true hstate, hpage⟩
  rcases hm with hm | hm <;> simp [State.ready, hs, hm, hx, hnone]

/-- R49: an IDLE engine takes the first ready slot in queue order. -/
theorem engineStart_first (i : Nat) (before after : List Nat) (s : State) (hp : s.wb.phase = .idle) (hw : s.writesBack)
    (hq : s.wb.eviction = before ++ i :: after) (hb : ∀ j ∈ before, s.ready j = false) (hi : s.ready i = true) :
    s.engineStart = some i := by
  have hbefore : before.find? s.ready = none := by simpa [List.find?_eq_none] using hb
  simp [State.engineStart, hp, (writing_iff s).2 hw, State.firstReady, hq, List.find?_append, hbefore, hi]

theorem engineStart_none (s : State)
    (h : s.wb.phase ≠ .idle ∨ ¬s.writesBack ∨ ∀ j ∈ s.wb.eviction, s.ready j = false) : s.engineStart = none := by
  unfold State.engineStart
  split
  · rename_i hp
    split
    · rename_i hw
      rcases h with h | h | h
      · exact absurd hp h
      · exact absurd ((writing_iff s).1 hw) h
      · simpa [State.firstReady, List.find?_eq_none] using h
    · rfl
  · rfl

/-- R49 to R53: the look of an IDLE engine that has a ready slot leads to the state that `State.writeBackFollows` writes out. -/
theorem engineLooks_of_writeBackFollows (u v : State) (hidle : u.wb.phase = .idle) (h : u.writeBackFollows v) :
    engineLooks u = v := by
  obtain ⟨hw, hfree, before, after, i, x, hq, _, hx, hb, ⟨hs, hm, hpartner⟩, hanswer⟩ := h
  have hstart := engineStart_first i before after u hidle hw hq hb (ready_of i x u hx hs hm hpartner)
  unfold engineLooks
  rw [hstart]
  rcases hanswer with ⟨_, p, rest, hpool, rfl⟩ | ⟨_, hpool, herase, hqueue, rfl⟩ | ⟨_, hpool, hcoming, rfl⟩
  · exact takeSlot_page i x p rest u hw hfree hx hpool
  · exact takeSlot_none i x u hx hpool herase hqueue
  · exact takeSlot_wait i u hpool hcoming

theorem engineLooks_idle (s : State)
    (h : s.wb.phase ≠ .idle ∨ ¬s.writesBack ∨ ∀ j ∈ s.wb.eviction, s.ready j = false) : engineLooks s = s := by
  unfold engineLooks
  rw [engineStart_none s h]

end Sys2Proof.Machine
end

section
/-!
PROOFS. A request that seals every OPEN slot (O22): which slot is the oldest OPEN one (R3), and that the seals leave none OPEN
(R11).
-/
namespace Sys2Proof.Machine

/-! ## The oldest OPEN slot (R3) -/

theorem olderOpen_of_ne (s : State) (best : Option Nat) (j : Nat) (h : (s.slot j).state ≠ .opened) : s.olderOpen best j = best := by
  simp [State.olderOpen, h]

theorem olderOpen_of_opened (s : State) (best : Option Nat) (i : Nat) (h : (s.slot i).state = .opened)
    (hb : ∀ k, best = some k → s.ageOf (s.slot k) < s.ageOf (s.slot i)) : s.olderOpen best i = some i := by
  cases best with
  | none => simp [State.olderOpen, h]
  | some k => simp [State.olderOpen, h, hb k rfl]

/-- The best found so far changes only for an OPEN slot, and then to that slot. -/
theorem olderOpen_cases (s : State) (best : Option Nat) (j : Nat) :
    s.olderOpen best j = best ∨ (s.slot j).state = .opened ∧ s.olderOpen best j = some j := by
  by_cases h : (s.slot j).state = .opened
  · cases best with
    | none => exact Or.inr ⟨h, by simp [State.olderOpen, h]⟩
    | some k =>
      by_cases ha : s.ageOf (s.slot k) < s.ageOf (s.slot j)
      · exact Or.inr ⟨h, by simp [State.olderOpen, h, ha]⟩
      · exact Or.inl (by simp [State.olderOpen, h, ha])
  · exact Or.inl (olderOpen_of_ne s best j h)

/-- An OPEN slot older than all the other OPEN ones. -/
def State.oldestAmong (s : State) (l : List Nat) (i : Nat) : Prop :=
  (s.slot i).state = .opened ∧ ∀ j ∈ l, j ≠ i → (s.slot j).state = .opened → s.ageOf (s.slot j) < s.ageOf (s.slot i)

/-- Once the search has come to the oldest slot it stays with it. -/
theorem foldl_olderOpen_keeps (s : State) (i : Nat) : ∀ l, s.oldestAmong l i → l.foldl s.olderOpen (some i) = some i
  | [], _ => rfl
  | j :: l, ⟨ho, hold⟩ => by
    have hstep : s.olderOpen (some i) j = some i := by
      by_cases hji : j = i
      · subst hji
        simp [State.olderOpen]
      · by_cases hj : (s.slot j).state = .opened
        · have hage := hold j (List.mem_cons_self ..) hji hj
          simp [State.olderOpen, Nat.not_lt.2 hage.le]
        · exact olderOpen_of_ne s _ j hj
    rw [List.foldl_cons, hstep]
    exact foldl_olderOpen_keeps s i l ⟨ho, fun k hk => hold k (List.mem_cons_of_mem j hk)⟩

/-- The search comes to the oldest slot. -/
theorem foldl_olderOpen_finds (s : State) (i : Nat) : ∀ (l : List Nat) (best : Option Nat), s.oldestAmong l i → i ∈ l →
    (∀ k, best = some k → s.ageOf (s.slot k) < s.ageOf (s.slot i)) → l.foldl s.olderOpen best = some i
  | [], _, _, hi, _ => absurd hi List.not_mem_nil
  | j :: l, best, ⟨ho, hold⟩, hi, hb => by
    have hrest : s.oldestAmong l i := ⟨ho, fun k hk => hold k (List.mem_cons_of_mem j hk)⟩
    rw [List.foldl_cons]
    by_cases hji : j = i
    · rw [hji, olderOpen_of_opened s best i ho hb]
      exact foldl_olderOpen_keeps s i l hrest
    · refine foldl_olderOpen_finds s i l _ hrest ((List.mem_cons.1 hi).resolve_left (Ne.symm hji)) fun k hk => ?_
      rcases olderOpen_cases s best j with hsame | ⟨hj, hnew⟩
      · exact hb k (hsame ▸ hk)
      · obtain rfl : j = k := Option.some.inj (hnew ▸ hk)
        exact hold j (List.mem_cons_self ..) hji hj

theorem oldestOpen_of_oldestIs (s : State) (i : Nat) (h : s.oldestIs i) : s.oldestOpen = some i := by
  obtain ⟨hi, ho, hold⟩ := h
  exact foldl_olderOpen_finds s i slotNumbers none ⟨ho, fun j hj => hold j (List.mem_range.1 hj)⟩ (List.mem_range.2 hi)
    (fun k hk => nomatch hk)

theorem oldestOpen_of_none_open (s : State) (h : ∀ j < 16, (s.slot j).state ≠ .opened) : s.oldestOpen = none := by
  have all : ∀ l : List Nat, (∀ j ∈ l, (s.slot j).state ≠ .opened) → l.foldl s.olderOpen none = none := by
    intro l
    induction l with
    | nil => exact fun _ => rfl
    | cons j l ih =>
      intro hl
      rw [List.foldl_cons, olderOpen_of_ne s none j (hl j (List.mem_cons_self ..))]
      exact ih fun k hk => hl k (List.mem_cons_of_mem j hk)
  exact all slotNumbers fun j hj => h j (List.mem_range.1 hj)

/-- Where the search finds none, no slot is OPEN. -/
theorem none_open_of_oldestOpen (s : State) (h : s.oldestOpen = none) (j : Nat) (hj : j < 16) : (s.slot j).state ≠ .opened := by
  have some_stays : ∀ (l : List Nat) (k : Nat), l.foldl s.olderOpen (some k) ≠ none := by
    intro l
    induction l with
    | nil => exact fun k => nofun
    | cons j l ih =>
      intro k
      rw [List.foldl_cons]
      rcases olderOpen_cases s (some k) j with hsame | ⟨_, hnew⟩
      · rw [hsame]; exact ih k
      · rw [hnew]; exact ih j
  have all : ∀ l : List Nat, l.foldl s.olderOpen none = none → ∀ j ∈ l, (s.slot j).state ≠ .opened := by
    intro l
    induction l with
    | nil => exact fun _ j hj => absurd hj List.not_mem_nil
    | cons k l ih =>
      intro hl
      rw [List.foldl_cons] at hl
      have hk : (s.slot k).state ≠ .opened := fun ho => by
        rw [olderOpen_of_opened s none k ho (fun m hm => nomatch hm)] at hl
        exact some_stays l k hl
      rw [olderOpen_of_ne s none k hk] at hl
      exact fun j hj => (List.mem_cons.1 hj).elim (fun he => he ▸ hk) (ih hl j)
  exact all slotNumbers h j (List.mem_range.2 hj)

/-! ## How many slots there are -/

@[simp] theorem setSlot_slots_length (i : Nat) (sl : Slot) (s : State) :
    (setSlot i sl s).staging.slots.length = s.staging.slots.length := List.length_set

theorem sealSlot_slots_length (i : Nat) (s : State) : (sealSlot i s).staging.slots.length = s.staging.slots.length := by
  unfold sealSlot
  split
  · obtain ⟨sl, _, hst⟩ := sealRecord_slot i ((s.slot i).page.getD 0) s
    simp [hst]
  · rfl

theorem heldPartner_slots_length (i x : Nat) (s : State) :
    (heldPartner i x s).staging.slots.length = s.staging.slots.length := by
  unfold heldPartner
  split
  · simp
  · split
    · simp [freeSlot]
    · rfl

theorem takeSlot_slots_length (i : Nat) (s : State) : (takeSlot i s).staging.slots.length = s.staging.slots.length := by
  unfold takeSlot
  split
  · simp [startWriteBack]
  · simp
  · simp [holdSealed, becomeHeld, loseBarriers, heldPartner_slots_length]

theorem engineLooks_slots_length (s : State) : (engineLooks s).staging.slots.length = s.staging.slots.length := by
  unfold engineLooks
  split
  · exact takeSlot_slots_length _ s
  · rfl

theorem sealAllOpen_slots_length (s : State) (h : s.staging.slots.length = 16) : (sealAllOpen s).staging.slots.length = 16 :=
  sealAllOpen_induct (Q := fun s => s.staging.slots.length = 16) (fun s i _ hl => (sealSlot_slots_length i s).trans hl)
    (fun s i _ hl => (takeSlot_slots_length i s).trans hl) s h

/-! ## The seals leave no slot OPEN (R11) -/

/-- Every seal, with the look at the engine that follows it, leaves fewer slots OPEN. -/
theorem sealAllOpen_oldestOpen : ∀ (n : Nat) (s : State), s.staging.slots.length = 16 → s.slotSum openWeight ≤ n →
    (sealAllOpen s).oldestOpen = none := by
  intro n
  induction n with
  | zero =>
    intro s _ hsum
    cases ho : s.oldestOpen with
    | none => rw [sealAllOpen_of_none s ho, ho]
    | some i => have := slotSum_sealed_open s i ho; omega
  | succ n ih =>
    intro s hl hsum
    cases ho : s.oldestOpen with
    | none => rw [sealAllOpen_of_none s ho, ho]
    | some i =>
      have hless := slotSum_sealed_open s i ho
      rw [sealAllOpen_of_oldest s i hl ho]
      exact ih _ (by rw [engineLooks_slots_length, sealSlot_slots_length, hl]) (by omega)

/-- Settles O22. -/
theorem sealRequestLeavesNoSlotOpen : Obligations.SealRequestLeavesNoSlotOpen := by
  intro s hl
  refine ⟨fun i ho => ?_, fun hnone => sealAllOpen_of_none s (oldestOpen_of_none_open s hnone), ?_⟩
  · have hrange : i < 16 := sealAllOpen_slots_length s hl ▸ slot_in_range (s := sealAllOpen s) (by simp [ho])
    exact none_open_of_oldestOpen _ (sealAllOpen_oldestOpen _ s hl le_rfl) i hrange ho
  · intro i hi t looked
    exact ⟨sealAllOpen_of_oldest s i hl (oldestOpen_of_oldestIs s i hi), engineLooks_of_writeBackFollows t,
      engineLooks_idle t⟩

end Sys2Proof.Machine
end

section
/-!
PROOFS. What serving a request does (R4 to R6, R27 to R31, R63, R142), case by case: `State.served` says what `serve` answers.
-/
namespace Sys2Proof.Machine

/-! ## A WRITE (R3 to R7, R22) -/

theorem slot_setSlot_self (i : Nat) (sl : Slot) (s : State) (h : i < s.staging.slots.length) : (setSlot i sl s).slot i = sl := by
  rw [slot_setSlot, if_pos ⟨rfl, h⟩]

/-- Of two records written to one slot the second stays. -/
theorem setSlot_setSlot (i : Nat) (sl sl' : Slot) (s : State) : setSlot i sl' (setSlot i sl s) = setSlot i sl' s := by
  simp [setSlot, State.setStaging, List.set_set]

/-- R4: a slot that the write does not fill while OPEN takes the bytes. -/
theorem placeInSlot_joins (i : Nat) (r : Request) (s : State)
    (h : ¬((s.slot i).state = .opened ∧ isFull ((s.slot i).joinedBy r).valid = true)) :
    placeInSlot i r.offset r.data s = setSlot i ((s.slot i).joinedBy r) s :=
  if_neg h

/-- R7: an OPEN slot that the write fills is sealed at once, with nothing to merge. -/
theorem placeInSlot_fills (i x : Nat) (r : Request) (s : State) (ho : (s.slot i).state = .opened)
    (hx : (s.slot i).page = some x) (hf : isFull ((s.slot i).joinedBy r).valid = true) : placeInSlot i r.offset r.data s =
      joinEviction i (setSlot i { (s.slot i).joinedBy r with state := .sealed, merge := some .noneNeeded } s) := by
  have hrange : i < s.staging.slots.length := slot_in_range (by simp [ho])
  have hself := slot_setSlot_self i ((s.slot i).joinedBy r) s hrange
  have hseal : placeInSlot i r.offset r.data s = sealSlot i (setSlot i ((s.slot i).joinedBy r) s) := if_pos ⟨ho, hf⟩
  have hbase : (setSlot i ((s.slot i).joinedBy r) s).mergeBase i x = .noneNeeded := mergeBase_full i x _ (by rw [hself, hf])
  rw [hseal, sealSlot_opened i x _ (by rw [hself]; exact ho) (by rw [hself]; exact hx), sealRecord, hbase, hself]
  exact congrArg (joinEviction i) (setSlot_setSlot i _ _ s)

/-- R4, R22: a WRITE whose page has an accepting slot is placed there. -/
theorem serveWrite_joins (i : Nat) (r : Request) (s : State)
    (hi : s.findSlot (fun sl => sl.accepts (r.address / 256)) = some i) : serveWrite r s =
      becomeReady r.tag .ok [] (setStall false (placeInSlot i r.offset r.data s)) := by
  have hslot : s.writeSlot r.page = some (i, s) := by
    simp only [State.writeSlot, show r.page = r.address / 256 from rfl, hi]
  simp only [serveWrite, hslot]

/-- R3, R5: with no accepting slot a WRITE is given the lowest FREE slot, where fewer than D are in use. -/
theorem serveWrite_allocates (i : Nat) (r : Request) (s : State)
    (hnone : s.findSlot (fun sl => sl.accepts (r.address / 256)) = none) (hlimit : s.slotsInUse < s.staging.limitD)
    (hi : s.findSlot (fun sl => sl.state = .free) = some i) : serveWrite r s =
      becomeReady r.tag .ok [] (setStall false (placeInSlot i r.offset r.data (allocate i (r.address / 256) s))) := by
  have hslot : s.writeSlot r.page = some (i, allocate i (r.address / 256) s) := by
    simp only [State.writeSlot, show r.page = r.address / 256 from rfl, hnone, State.allocatable, if_pos hlimit, hi]
  simp only [serveWrite, hslot]

/-- R6: with no accepting slot and D slots in use a WRITE stalls. -/
theorem serveWrite_stalls (r : Request) (s : State)
    (hnone : s.findSlot (fun sl => sl.accepts (r.address / 256)) = none) (hlimit : s.staging.limitD ≤ s.slotsInUse) :
    serveWrite r s = setStall true s := by
  have hslot : s.writeSlot r.page = none := by
    simp only [State.writeSlot, show r.page = r.address / 256 from rfl, hnone, State.allocatable, if_neg (Nat.not_lt.2 hlimit)]
  simp only [serveWrite, hslot]

/-- R3, R4: the slot given to a WRITE that does not fill it holds the write's bytes only. -/
theorem placeInSlot_allocate (i : Nat) (r : Request) (s : State) (hrange : i < s.staging.slots.length)
    (hf : isFull (s.opensFor i r).valid = false) : placeInSlot i r.offset r.data (allocate i (r.address / 256) s) = { s with
      staging := { (s.staging.withSlot i (s.opensFor i r)) with allocOrder := s.staging.allocOrder + 1 } } := by
  have hself : (allocate i (r.address / 256) s).slot i = s.allocated i (r.address / 256) :=
    slot_setSlot_self i (s.allocated i (r.address / 256)) s hrange
  have hopens : (s.allocated i (r.address / 256)).joinedBy r = s.opensFor i r := by
    simp only [Slot.joinedBy, State.allocated, State.opensFor, reduceCtorEq, false_and, if_false]
    rfl
  rw [placeInSlot_joins i r _ (by rw [hself, hopens, hf]; simp), hself, hopens]
  simp only [setSlot, allocate, State.setStaging, List.set_set, Staging.withSlot]

theorem findSlot_accepts_none (s : State) (x : Nat) (h : ∀ j < 16, (s.slot j).accepts x = false) :
    s.findSlot (fun sl => sl.accepts x) = none :=
  Option.eq_none_iff_forall_ne_some.2 fun j hj => by
    obtain ⟨hlt, hj, _⟩ := (findSlot_eq_some s _ j).1 hj
    rw [h j hlt] at hj
    contradiction

/-! ## A READ (R27 to R31, R43) -/

theorem supplied_isSome_iff (so : Source) : so.supplied.isSome = true ↔ so ≠ .array := by
  cases so <;> simp [Source.supplied]

theorem all_supplied_iff (r : Request) (s : State) :
    ((s.readSources r).map Source.supplied).all Option.isSome = true ↔ ∀ so ∈ s.sourcesFor r, so ≠ .array := by
  show ((s.sourcesFor r).map Source.supplied).all Option.isSome = true ↔ _
  simp only [List.all_map, List.all_eq_true, Function.comp_apply, supplied_isSome_iff]

/-- R43: the cache entry of the page is touched where it gave a byte. -/
theorem touch_readThrough (r : Request) (s : State) :
    (if (s.readSources r).any Source.isCache then touchCache r.page s else s) = { s with readPath := s.readThrough r } := by
  unfold State.readThrough
  show (if (s.sourcesFor r).any Source.isCache then _ else _) = _
  split <;> rfl

/-- R27: a READ that needs nothing from the array is answered. -/
theorem serveRead_answered (r : Request) (s : State) (h : ∀ so ∈ s.sourcesFor r, so ≠ .array) : serveRead r s = { s with
    readPath := s.readThrough r,
    port := s.port.answer r.tag .ok ((s.sourcesFor r).map (fun so => so.supplied.getD 0xFF)) } := by
  have hall := (all_supplied_iff r s).2 h
  unfold serveRead
  dsimp only
  rw [if_pos hall, touch_readThrough, becomeReady_eq, List.map_map]
  rfl

/-- R28: a READ that needs a byte from the array becomes pending. -/
theorem serveRead_pends (r : Request) (p : Nat) (s : State) (h : ∃ so ∈ s.sourcesFor r, so = .array) (hp : s.map r.page = some p) :
    serveRead r s = addPending (s.pendingFor r p) (becomeWaiting r.tag { s with readPath := s.readThrough r }) := by
  have hnot : ¬((s.readSources r).map Source.supplied).all Option.isSome = true := fun hall => by
    obtain ⟨so, hso, he⟩ := h
    exact (all_supplied_iff r s).1 hall so hso he
  unfold serveRead
  dsimp only
  rw [if_neg hnot, touch_readThrough, hp]
  rfl

/-- Where the page is not in the cache the READ touches nothing. -/
theorem readThrough_uncached (r : Request) (s : State) (h : cacheFind (r.address / 256) s.readPath.cache = none) :
    s.readThrough r = s.readPath := by
  have hlookup : ∀ off, ((s.sourcesOf (r.address / 256)).lookup off).isCache = false := fun off => by
    unfold Sources.lookup
    simp only [State.sourcesOf, h]
    split
    · rfl
    · split
      · rfl
      · split <;> rfl
  have hany : (s.sourcesFor r).any Source.isCache = false := by
    simp [State.sourcesFor, hlookup]
  simp [State.readThrough, hany]

/-- R31: a record whose physical page is being read is attached to that demand read. -/
theorem addPending_attaches (rec : PendingRead) (s : State) (h : ∃ d ∈ s.readPath.demands, d.phys = rec.phys) :
    addPending rec s = { s with readPath := { s.readPath with pendingReads := s.readPath.pendingReads ++ [rec] } } := by
  have hany : s.readPath.demands.any (fun d => d.phys = rec.phys) = true := by simpa using h
  unfold addPending
  rw [if_pos hany]
  rfl

/-- R30: otherwise a demand read starts, with a pin and a PAGE READ. -/
theorem addPending_starts (rec : PendingRead) (s : State) (h : ∀ d ∈ s.readPath.demands, d.phys ≠ rec.phys) (hfree : s.linkFree)
    (hc : mayChoose s.sup.state 3 = true) : addPending rec s = { s with
      readPath := { s.readPath with
        pendingReads := s.readPath.pendingReads ++ [rec],
        demands := s.readPath.demands ++ [{ phys := rec.phys, number := 1 }] },
      xlat := s.xlat.withPage rec.phys { s.pageEntry rec.phys with pins := (s.pageEntry rec.phys).pins + 1 },
      seq := s.seq.asked (.pageRead rec.phys) .demandRead 3 200 s.clock } := by
  have hany : ¬s.readPath.demands.any (fun d => d.phys = rec.phys) = true := by simpa using h
  unfold addPending
  rw [if_neg hany]
  exact pinnedRead_asked rec.phys .demandRead (s.setReadPath { s.readPath with
    pendingReads := s.readPath.pendingReads ++ [rec],
    demands := s.readPath.demands ++ [{ phys := rec.phys, number := 1 }] }) hfree hc

/-! ## A PERSIST (R62, R63) -/

theorem waitSetNow_eq (s : State) : s.waitSetNow = s.stagedPairs := by
  simp only [State.waitSetNow, State.stagedPairs, Bool.decide_or, Bool.or_assoc]
  rfl

/-! ## What the serving block answers (R142) -/

/-- A request that the state check passes finds a state in which every class but the mount's may be chosen (R140, R98). -/
theorem mayChoose_of_passes (u : Supervisor) (k : RequestKind) (cls : Nat) (h : u.passes k) (hc : cls ≠ 1) :
    mayChoose u.state cls = true := by
  rcases h with h | ⟨_, h | ⟨h, _⟩ | h⟩ <;> simp [h, mayChoose, hc]

theorem serveWrite_of_served (r : Request) (u v : State) (hk : r.kind = .write) (h : u.served r v) : serveWrite r u = v := by
  simp only [State.served, hk] at h
  rcases h with ⟨i, hi, hcases⟩ | ⟨hnone, hcases⟩
  · have hfind := (findSlot_eq_some u (fun sl => sl.accepts (r.address / 256)) i).2 hi
    rw [serveWrite_joins i r u hfind, becomeReady_eq]
    rcases hcases with ⟨hopen, rfl⟩ | ⟨ho, hf, rfl⟩
    · rw [placeInSlot_joins i r u hopen]
      rfl
    · have hx : (u.slot i).page = some (r.address / 256) := by
        rcases (accepts_iff _ _).1 hi.2.1 with ⟨_, hx⟩ | ⟨_, hx⟩ <;> exact hx
      rw [placeInSlot_fills i _ r u ho hx hf]
      rfl
  · have hfind := findSlot_accepts_none u _ hnone
    rcases hcases with ⟨hlimit, i, hrange, hi, hf, rfl⟩ | ⟨hlimit, rfl⟩
    · have hfree : u.findSlot (fun sl => sl.state = .free) = some i := by
        simpa only [findSlot_eq_some, decide_eq_true_eq] using hi
      rw [serveWrite_allocates i r u hfind hlimit hfree, placeInSlot_allocate i r u hrange hf, becomeReady_eq]
      rfl
    · rw [serveWrite_stalls r u hfind hlimit]
      rfl

theorem serveRead_of_served (r : Request) (u v : State) (hk : r.kind = .read) (hp : u.sup.passes .read) (h : u.served r v) :
    serveRead r u = v := by
  simp only [State.served, hk] at h
  rcases h with ⟨hsupplied, rfl⟩ | ⟨hneeded, hcache, p, hmap, hcases⟩
  · exact serveRead_answered r u hsupplied
  · rw [serveRead_pends r p u hneeded hmap, readThrough_uncached r u hcache]
    rcases hcases with ⟨hnew, hfree, rfl⟩ | ⟨hfound, rfl⟩
    · exact addPending_starts (u.pendingFor r p) (becomeWaiting r.tag u) hnew hfree (mayChoose_of_passes _ _ 3 hp (by decide))
    · exact addPending_attaches (u.pendingFor r p) (becomeWaiting r.tag u) hfound

theorem servePersist_of_served (r : Request) (u v : State) (hk : r.kind = .persist) (h : u.served r v) : servePersist r u = v := by
  simp only [State.served, hk] at h
  unfold servePersist
  rcases h with ⟨hheld, rfl⟩ | ⟨hheld, hstaged, rfl⟩ | ⟨hheld, hstaged, hfull, rfl⟩ | ⟨hheld, hstaged, hroom, rfl⟩
  · rw [if_pos hheld, becomeReady_eq]
  · rw [if_neg (by simp [hheld]), if_pos hstaged, becomeReady_eq]
  · rw [if_neg (by simp [hheld]), if_neg (by simp [hstaged]), if_pos (show Config.barrierSize ≤ _ from hfull)]
  · rw [if_neg (by simp [hheld]), if_neg (by simp [hstaged]), if_neg (show ¬Config.barrierSize ≤ _ from Nat.not_le.2 hroom),
      waitSetNow_eq]
    rfl

/-- A request goes to its serving block, which answers what `State.served` says. -/
theorem serve_of_served (r : Request) (u v : State) (hp : u.sup.passes r.kind) (h : u.served r v) : serve r u = v := by
  unfold serve
  cases hk : r.kind with
  | read => exact serveRead_of_served r u v hk (hk ▸ hp) h
  | write => exact serveWrite_of_served r u v hk h
  | persist => exact servePersist_of_served r u v hk h

end Sys2Proof.Machine
end

section
/-!
PROOFS. What a placement does (R139 to R143), and a WRITE that arrives (O16, O17).
-/
namespace Sys2Proof.Machine

/-! ## The checks of a placement (R140, R141, R154) -/

theorem stateCheck_of_refuses (s : State) (k : RequestKind) (reason : FailReason) (h : s.sup.refuses k reason) :
    s.stateCheck k = some reason := by
  unfold State.stateCheck
  rcases h with ⟨hs, rfl⟩ | ⟨hs, hc, rfl⟩ | ⟨rfl, ⟨hs, hc, hp⟩ | hs, rfl⟩ | ⟨rfl, hs, rfl⟩
  · simp [hs]
  · have hreset : s.sup.cause ≠ some .power ∨ s.sup.pendingReset.isSome = true := by
      rcases hc with hc | hc | ⟨_, hp⟩
      · exact Or.inl (by simp [hc])
      · exact Or.inl (by simp [hc])
      · exact Or.inr hp
    rw [hs]
    exact if_pos hreset
  · simp [hs, hc, hp]
  · simp [hs]
  · simp [hs]

theorem stateCheck_of_passes (s : State) (k : RequestKind) (h : s.sup.passes k) : s.stateCheck k = none := by
  unfold State.stateCheck
  rcases h with hs | ⟨hk, hs | ⟨hs, hc, hp⟩ | hs⟩
  · simp [hs]
  · simp [hs, hk]
  · simp [hs, hc, hp, hk]
  · simp [hs, hk]

theorem misaligned_iff (r : Request) : r.misaligned = true ↔ ¬r.aligned := by
  simp only [Request.misaligned, Request.aligned, Bool.or_eq_true, decide_eq_true_eq]
  omega

theorem outOfRange_of_inRange (s : State) (r : Request) (h : s.inRange r) : s.outOfRange r = false := by
  obtain ⟨l, hl, hlt⟩ := h
  simpa [State.outOfRange, hl, Config.pageBytes] using hlt

theorem outOfRange_of_beyond (s : State) (r : Request) (h : ∃ l, s.xlat.logicalPages = some l ∧ l * 256 ≤ r.address) :
    s.outOfRange r = true := by
  obtain ⟨l, hl, hle⟩ := h
  simpa [State.outOfRange, hl, Config.pageBytes] using hle

theorem blocks_of_block (ws : List Window) (r : Request) (h : ∃ w ∈ ws, w.hits r = true ∧ w.action = .block) :
    blocks ws r = true := by
  simpa [blocks] using h

theorem blocks_of_watch (ws : List Window) (r : Request) (h : ∀ w ∈ ws, w.hits r = true → w.action = .watch) :
    blocks ws r = false := by
  simp only [blocks, List.any_eq_false, Bool.and_eq_true, decide_eq_true_eq, not_and]
  intro w hw hhits hblock
  rw [h w hw hhits] at hblock
  contradiction

/-! ## One placement -/

/-- R140: the state's reason is the answer; a stalled WRITE that gets it ends the stall indication (R6). -/
theorem placeHead_refused (e : Entry) (reason : FailReason) (s : State) (h : s.sup.refuses e.request.kind reason) :
    placeHead e s = refuseByState e reason s := by
  unfold placeHead
  rw [stateCheck_of_refuses s _ reason h]

/-- R143: a stalled head goes to its serving block again. -/
theorem placeHead_judged (e : Entry) (s : State) (h : s.sup.passes e.request.kind) (hj : e.judged = true) :
    placeHead e s = serve e.request s := by
  unfold placeHead
  rw [stateCheck_of_passes s _ h]
  exact if_pos hj

/-- R142: a PERSIST goes to its serving block with its judged mark set. -/
theorem placeHead_persist (e : Entry) (s : State) (h : s.sup.passes e.request.kind) (hj : e.judged = false)
    (hk : e.request.kind = .persist) : placeHead e s = serve e.request (setJudged e.request.tag s) := by
  unfold placeHead
  rw [stateCheck_of_passes s _ h]
  simp [hj, hk]

/-- R141, R142: a READ or WRITE is checked first. -/
theorem placeHead_unjudged (e : Entry) (s : State) (h : s.sup.passes e.request.kind) (hj : e.judged = false)
    (hk : e.request.kind ≠ .persist) : placeHead e s = placeUnjudged e.request s := by
  unfold placeHead
  rw [stateCheck_of_passes s _ h]
  cases hkind : e.request.kind with
  | read => simp [hj]
  | write => simp [hj]
  | persist => exact absurd hkind hk

/-- R142: a READ or WRITE that is aligned and in range, and that no window refuses, is judged and goes to its serving block. -/
theorem placeUnjudged_serves (r : Request) (s : State) (ha : r.aligned) (hr : s.inRange r)
    (hw : ∀ w ∈ s.guard.windows, w.hits r = true → w.action = .watch) : placeUnjudged r s =
      serve r (setJudged r.tag { s with guard := s.judged r }) := by
  have haligned : ¬r.misaligned = true := fun h => (misaligned_iff r).1 h ha
  have hblocks := blocks_of_watch s.guard.windows r hw
  unfold placeUnjudged judge
  rw [if_neg haligned, outOfRange_of_inRange s r hr, hblocks]
  rfl

/-- R141: the checks that refuse before the guard unit. -/
theorem placeUnjudged_misaligned (r : Request) (s : State) (ha : ¬r.aligned) :
    placeUnjudged r s = { s with port := s.port.answer r.tag (.fail .align) [] } := by
  unfold placeUnjudged
  rw [if_pos ((misaligned_iff r).2 ha), becomeReady_eq]

theorem placeUnjudged_beyond (r : Request) (s : State) (ha : r.aligned)
    (hr : ∃ l, s.xlat.logicalPages = some l ∧ l * 256 ≤ r.address) :
    placeUnjudged r s = { s with port := s.port.answer r.tag (.fail .range) [] } := by
  unfold placeUnjudged
  rw [if_neg (fun h => (misaligned_iff r).1 h ha), if_pos (outOfRange_of_beyond s r hr), becomeReady_eq]

/-- R154: a window refuses. -/
theorem placeUnjudged_blocked (r : Request) (s : State) (ha : r.aligned) (hr : s.inRange r)
    (hw : ∃ w ∈ s.guard.windows, w.hits r = true ∧ w.action = .block) : placeUnjudged r s = { s with
      guard := s.judged r, port := s.port.answer r.tag (.fail .guard) [],
      maint := { s.maint with counters := { s.maint.counters with
        guardRefusals := satAdvance s.maint.counters.guardRefusals } } } := by
  have hblocks := blocks_of_block s.guard.windows r hw
  unfold placeUnjudged judge
  rw [if_neg (fun h => (misaligned_iff r).1 h ha), if_neg (by simp [outOfRange_of_inRange s r hr]), if_pos hblocks, if_pos hblocks,
    becomeReady_eq]
  rfl

/-- A placement does what `State.placed` says. -/
theorem placeHead_of_placed (e : Entry) (u v : State) (h : u.placed e v) : placeHead e u = v := by
  rcases h with ⟨reason, hrefuses, rfl⟩ | ⟨hp, ⟨hj, hserved⟩ | ⟨hj, hk, hserved⟩ | ⟨hj, hk, hchecks⟩⟩
  · rw [placeHead_refused e reason u hrefuses, refuseByState, becomeReady_eq]
    split <;> rfl
  · rw [placeHead_judged e u hp hj]
    exact serve_of_served e.request u v hp hserved
  · rw [placeHead_persist e u hp hj hk]
    exact serve_of_served e.request _ v hp hserved
  · rw [placeHead_unjudged e u hp hj hk]
    rcases hchecks with ⟨ha, rfl⟩ | ⟨ha, hr, rfl⟩ | ⟨ha, hr, hw, rfl⟩ | ⟨ha, hr, hw, hserved⟩
    · exact placeUnjudged_misaligned _ u ha
    · exact placeUnjudged_beyond _ u ha hr
    · exact placeUnjudged_blocked _ u ha hr hw
    · rw [placeUnjudged_serves _ u ha hr hw]
      exact serve_of_served e.request _ v hp hserved

/-! ## Placements one after another (R139, R143) -/

theorem presentCause_iff (a u : State) (k : RequestKind) : presentCause a u k = true ↔ causeArose a u k := by
  unfold presentCause stateChanged causeArose
  cases k <;> simp [or_assoc]

/-- The placements lead where `State.placesTo` leads, given at least as many turns. -/
theorem placeFor_of_placesTo : ∀ (n k : Nat) (a u v : State), n ≤ k → State.placesTo n a u v → placeFor k a u = v
  | 0, k, a, u, v, _, ⟨hv, hrest⟩ => by
    rw [hv]
    refine placeFor_of_rest k a u fun e he => ?_
    obtain ⟨hj, hcause⟩ := hrest e he
    exact ⟨hj, by rwa [← presentCause_iff, Bool.not_eq_true] at hcause⟩
  | n + 1, 0, _, _, _, hle, _ => absurd hle (Nat.not_succ_le_zero n)
  | n + 1, k + 1, a, u, v, hle, ⟨e, w, hhead, hcause, hplaced, hrest⟩ => by
    rw [placeFor_step k a u e hhead (fun hj => (presentCause_iff _ _ _).2 (hcause hj)), placeHead_of_placed e u w hplaced]
    exact placeFor_of_placesTo n k u (settle w) v (Nat.le_of_succ_le_succ hle) hrest

end Sys2Proof.Machine
end

section
/-!
PROOFS. A WRITE that arrives on an open channel (O16, O17).
-/
namespace Sys2Proof.Machine

/-! ## The records that wait on the link -/

theorem becomeReady_linkQueue (tag : Nat) (st : ResponseStatus) (d : List Byte) (s : State) :
    (becomeReady tag st d s).port.linkQueue = s.port.linkQueue := by
  rw [becomeReady_eq]; rfl

theorem serveWrite_linkQueue (r : Request) (s : State) : (serveWrite r s).port.linkQueue = s.port.linkQueue := by
  unfold serveWrite
  split
  · rename_i i t ht
    obtain ⟨-, -, -, -, -, hport, -⟩ := writeSlot_keeps s t _ i ht
    rw [becomeReady_linkQueue]
    simp [hport]
  · simp

theorem serveRead_linkQueue (r : Request) (s : State) : (serveRead r s).port.linkQueue = s.port.linkQueue := by
  unfold serveRead
  dsimp only
  rw [touch_readThrough]
  split
  · rw [becomeReady_linkQueue]
  · simp [becomeWaiting]

theorem servePersist_linkQueue (r : Request) (s : State) : (servePersist r s).port.linkQueue = s.port.linkQueue := by
  unfold servePersist
  split
  · rw [becomeReady_linkQueue]
  · split
    · rw [becomeReady_linkQueue]
    · split
      · rfl
      · rw [sealAllOpen_linkQueue]; rfl

theorem serve_linkQueue (r : Request) (s : State) : (serve r s).port.linkQueue = s.port.linkQueue := by
  unfold serve
  split
  · exact serveRead_linkQueue r s
  · exact serveWrite_linkQueue r s
  · exact servePersist_linkQueue r s

theorem placeUnjudged_linkQueue (r : Request) (s : State) : (placeUnjudged r s).port.linkQueue = s.port.linkQueue := by
  unfold placeUnjudged
  split
  · rw [becomeReady_linkQueue]
  · split
    · rw [becomeReady_linkQueue]
    · split
      · rw [becomeReady_linkQueue]; simp
      · rw [serve_linkQueue]; simp [setJudged]

theorem placeHead_linkQueue (e : Entry) (s : State) : (placeHead e s).port.linkQueue = s.port.linkQueue := by
  unfold placeHead
  split
  · rw [refuseByState, becomeReady_linkQueue]
    split <;> rfl
  · split
    · exact serve_linkQueue _ s
    · split
      · rw [serve_linkQueue]; rfl
      · exact placeUnjudged_linkQueue _ s

/-- A placement does not look at the records that wait on the link. -/
theorem placeFor_linkQueue : ∀ (n : Nat) (a s : State), (placeFor n a s).port.linkQueue = s.port.linkQueue
  | 0, _, _ => rfl
  | n + 1, a, s => by
    unfold placeFor
    split
    · rfl
    · split
      · rfl
      · rw [placeFor_linkQueue n, settle_linkQueue, placeHead_linkQueue]

/-! ## An arrival (R136, R137) -/

theorem setLinkQueue_nil (s : State) (h : s.port.linkQueue = []) : setLinkQueue [] s = s :=
  arriveWaiting_nil s h

/-- R137 case 3: a taken request joins the table and is placed. -/
theorem exec_requestArrival_taken (b : List Byte) (r : Request) (s : State) (h : s.takes b r) :
    exec (.requestArrival b) s = .next (placements s (takeRequest r s)) := by
  obtain ⟨hdecode, hresetting, hmounting, hagain, hlink, hroom, htags, _⟩ := h
  have hheld : s.requestHeld = false := by simp [State.requestHeld, hresetting, hagain]
  have hany : ¬s.port.table.any (fun e => e.request.tag = r.tag) = true := by simpa using htags
  have harrive : arrive b s = placements s (takeRequest r s) := by
    unfold arrive
    rw [hdecode]
    dsimp only
    rw [if_neg hany, if_neg]
    rintro (hm | hfull)
    · exact hmounting hm
    · exact absurd hroom (Nat.not_lt.2 hfull)
  have hqueue : (placements s (takeRequest r s)).port.linkQueue = [] := by
    rw [placements, placeFor_linkQueue]; exact hlink
  show Host.Outcome.next (presentRecord b s) = _
  rw [presentRecord, hlink, List.nil_append, arriveWaiting, hheld, if_neg (by decide), harrive, arriveWaiting,
    setLinkQueue_nil _ hqueue]

/-- R139: the request that has just been taken is the head, where no other was QUEUED. -/
theorem takeRequest_head (r : Request) (s : State) (h : s.head = none) :
    (takeRequest r s).head = some { request := r, phase := .queued, judged := false } := by
  have hfind : s.port.table.find? (fun e => decide (e.phase = .queued)) = none := h
  simp [State.head, takeRequest, List.find?_append, hfind]

/-- A change of the entries with a tag that no entry has changes nothing. -/
theorem map_entries_of_ne (tag : Nat) (f : Entry → Entry) (table : List Entry) (h : ∀ e ∈ table, e.request.tag ≠ tag) :
    table.map (fun e => if e.request.tag = tag then f e else e) = table :=
  (List.map_congr_left fun e he => if_neg (h e he)).trans (List.map_id' table)

/-- No other request waits to be placed. -/
theorem head_of_checks {b : List Byte} {r : Request} {s : State} (h : s.admits b r) : s.head = none := by
  obtain ⟨⟨_, _, _, _, _, _, _, hhead⟩, _⟩ := h
  exact hhead

/-- R142: a request that passes the checks goes to its serving block with its entry QUEUED and judged, the captures judged. -/
theorem placeHead_of_checks (b : List Byte) (r : Request) (s : State) (h : s.admits b r) :
    placeHead { request := r, phase := .queued, judged := false } (takeRequest r s) =
      serve r { s with guard := s.judged r, port := s.port.withEntry r .queued } := by
  obtain ⟨htakes, hk, hp, ha, hr, hw⟩ := h
  obtain ⟨_, _, _, _, _, _, htags, _⟩ := htakes
  rw [placeHead_unjudged { request := r, phase := .queued, judged := false } (takeRequest r s) hp rfl hk,
    placeUnjudged_serves r (takeRequest r s) ha hr hw]
  have hothers := map_entries_of_ne r.tag (fun e => { e with judged := true }) s.port.table htags
  have hmarked : (takeRequest r s).port.table.map (fun e => if e.request.tag = r.tag then { e with judged := true } else e) =
      s.port.table ++ [{ request := r, phase := .queued, judged := true }] := by
    simp [takeRequest, hothers]
  simp only [setJudged, hmarked]
  rfl

/-- A request that passes the checks is placed as its serving block says. -/
theorem placeHead_of_served (b : List Byte) (r : Request) (s w : State) (h : s.admits b r)
    (hserved : ({ s with guard := s.judged r, port := s.port.withEntry r .queued } : State).served r w) :
    placeHead { request := r, phase := .queued, judged := false } (takeRequest r s) = w := by
  rw [placeHead_of_checks b r s h]
  obtain ⟨_, _, hpasses, _⟩ := h
  exact serve_of_served r _ w hpasses hserved

/-- An entry at the tail that is answered is READY (R140, R144): no other entry has its tag, and no AGAIN is owed. -/
theorem answer_withEntry (p : Port) (r : Request) (ph : EntryPhase) (st : ResponseStatus) (d : List Byte)
    (htags : ∀ e ∈ p.table, e.request.tag ≠ r.tag) (hagain : p.againOwed = none) :
    (p.withEntry r ph).answer r.tag st d = p.withReady r st d true := by
  have hothers := map_entries_of_ne r.tag (fun e => { e with phase := .ready { tag := r.tag, status := st, data := d } })
    p.table htags
  unfold Port.answer Port.withEntry Port.withReady
  cases hc : p.channel <;> simp [hothers, hagain]

/-- With no entry QUEUED before, there is none once the request is answered. -/
theorem withReady_nothingQueued (s : State) (r : Request) (st : ResponseStatus) (d : List Byte) (j : Bool) (h : s.head = none) :
    (s.port.withReady r st d j).nothingQueued := by
  intro e he
  rcases List.mem_append.1 he with he | he
  · exact (head_none_iff s).1 h e he
  · obtain rfl := List.mem_singleton.1 he
    exact nofun

/-- A request that passes the checks and that its serving block answers at once: what it set off follows, and no more is placed. -/
theorem exec_requestArrival_answered (b : List Byte) (r : Request) (s w : State) (st : ResponseStatus) (d : List Byte)
    (h : s.admits b r) (hserved : ({ s with guard := s.judged r, port := s.port.withEntry r .queued } : State).served r w)
    (hport : w.port = s.port.withReady r st d true) : exec (.requestArrival b) s = .next (settle w) := by
  have hhead := head_of_checks h
  have hquiet : (settle w).head = none :=
    settle_head_none w ((head_none_iff w).2 (hport ▸ withReady_nothingQueued s r st d true hhead))
  rw [exec_requestArrival_taken b r s h.1, placements, placeFor_step 63 s _ _ (takeRequest_head r s hhead) nofun,
    placeHead_of_served b r s w h hserved, placeFor_of_rest 63 _ _ fun e he => by rw [hquiet] at he; contradiction]

/-- A request that passes the checks and that stalls: the placements go on from there. -/
theorem exec_requestArrival_placesTo (b : List Byte) (r : Request) (s w v : State) (n : Nat) (h : s.admits b r)
    (hserved : ({ s with guard := s.judged r, port := s.port.withEntry r .queued } : State).served r w) (hn : n ≤ 63)
    (hplaces : State.placesTo n s (settle w) v) : exec (.requestArrival b) s = .next v := by
  have hhead := head_of_checks h
  have hmoment : State.placesTo n (takeRequest r s) (settle w) v := by
    cases n <;> exact hplaces
  rw [exec_requestArrival_taken b r s h.1, placements, placeFor_step 63 s _ _ (takeRequest_head r s hhead) nofun,
    placeHead_of_served b r s w h hserved, placeFor_of_placesTo n 63 _ _ v hn hmoment]

/-! ## A WRITE that arrives (R3 to R7, R22) -/

/-- The entry of a request that passes the checks is answered as `withReady` says. -/
theorem answer_of_checks (b : List Byte) (r : Request) (s : State) (st : ResponseStatus) (d : List Byte) (h : s.admits b r) :
    (s.port.withEntry r .queued).answer r.tag st d = s.port.withReady r st d true := by
  obtain ⟨_, _, _, hagain, _, _, htags, _⟩ := h.1
  exact answer_withEntry s.port r .queued st d htags hagain

/-- Settles O16. -/
theorem writeJoinsItsSlot : Obligations.WriteJoinsItsSlot := by
  intro b r i s hchecks hk hi rec' placedAs
  have hanswer := answer_of_checks b r s .ok [] hchecks
  have haccepts : lowestSlot (fun j => (s.slot j).accepts (r.address / 256) = true) i := (findSlot_eq_some s _ i).1 hi
  refine ⟨fun hopen => ?_, fun ho hf => ?_⟩
  · refine exec_requestArrival_answered b r s _ .ok [] hchecks ?_ rfl
    simp only [State.served, hk]
    exact Or.inl ⟨i, haccepts, Or.inl ⟨hopen, by rw [hanswer]; rfl⟩⟩
  · refine exec_requestArrival_answered b r s _ .ok [] hchecks ?_ rfl
    simp only [State.served, hk]
    exact Or.inl ⟨i, haccepts, Or.inr ⟨ho, hf, by rw [hanswer]; rfl⟩⟩

/-- Settles O17. -/
theorem writeOpensSlotOrStalls : Obligations.WriteOpensSlotOrStalls := by
  intro b r s hchecks hk hnone
  have hanswer := answer_of_checks b r s .ok [] hchecks
  refine ⟨fun i hlimit hrange hi hfree hlower hf => ?_, ?_⟩
  · refine exec_requestArrival_answered b r s _ .ok [] hchecks ?_ rfl
    simp only [State.served, hk]
    exact Or.inr ⟨hnone, Or.inl ⟨hlimit, i, hrange, ⟨hi, hfree, hlower⟩, hf, by rw [hanswer]; rfl⟩⟩
  · intro hlimit u n v hn hplaces
    refine exec_requestArrival_placesTo b r s u v n hchecks ?_ hn hplaces
    simp only [State.served, hk]
    exact Or.inr ⟨hnone, Or.inr ⟨hlimit, rfl⟩⟩

end Sys2Proof.Machine
end

section
/-!
PROOFS. The read cache (O24): an insertion and a touch, by their parts (R40, R43).
-/
namespace Sys2Proof.Machine

theorem cacheInsert_eq (x : Nat) (image : List Byte) (cache : List CacheEntry) :
    cacheInsert x image cache = cacheTrim (cache.filter (fun e => e.page ≠ x) ++ [{ page := x, image := image }]) := rfl

/-- R40 step 3: with room for one more entry none is removed. -/
theorem cacheTrim_append_room (others : List CacheEntry) (new : CacheEntry) (h : others.length < 4) :
    cacheTrim (others ++ [new]) = others ++ [new] :=
  if_neg (by rw [List.length_append, List.length_singleton, Config.cacheSize]; omega)

/-- R40 step 3: behind four other entries the least recent of them is removed. -/
theorem cacheTrim_append_full (others : List CacheEntry) (new : CacheEntry) (h : others.length = 4) :
    cacheTrim (others ++ [new]) = others.tail ++ [new] := by
  have hfive : Config.cacheSize < (others ++ [new]).length := by
    rw [List.length_append, List.length_singleton, Config.cacheSize]; omega
  have hne : others ≠ [] := List.ne_nil_of_length_pos (by omega)
  rw [cacheTrim, if_pos hfive, List.tail_append_of_ne_nil hne]

theorem cacheTouch_found (x : Nat) (cache : List CacheEntry) (e : CacheEntry) (h : cacheFind x cache = some e) :
    cacheTouch x cache = cache.filter (fun o => o.page ≠ x) ++ [e] := by
  rw [cacheTouch, h]
  rfl

theorem cacheTouch_absent (x : Nat) (cache : List CacheEntry) (h : cacheFind x cache = none) : cacheTouch x cache = cache := by
  rw [cacheTouch, h]

/-- Settles O24. -/
theorem cacheInsertionInThreeParts : Obligations.CacheInsertionInThreeParts := by
  intro x image cache others new
  refine ⟨fun _ => ⟨fun hroom => ?_, fun hfull => ?_⟩, fun older newer e hcache he ho => ?_, fun habsent => ?_⟩
  · rw [cacheInsert_eq]
    exact cacheTrim_append_room others new hroom
  · rw [cacheInsert_eq]
    exact cacheTrim_append_full others new hfull
  · exact cacheTouch_found x cache e (hcache ▸ cacheFind_first x older newer e he ho)
  · exact cacheTouch_absent x cache (cacheFind_none x cache habsent)

end Sys2Proof.Machine
end

section
/-!
PROOFS. A READ that arrives on an open channel: answered at its placement (O19), or made a pending read (O20).
-/
namespace Sys2Proof.Machine

/-- A request that passes the checks and that its serving block leaves with no entry QUEUED: what it set off follows, and no more is
placed. -/
theorem exec_requestArrival_served (b : List Byte) (r : Request) (s w : State) (h : s.admits b r)
    (hserved : ({ s with guard := s.judged r, port := s.port.withEntry r .queued } : State).served r w) (hw : w.head = none) :
    exec (.requestArrival b) s = .next (settle w) := by
  have hplaces : State.placesTo 0 s (settle w) (settle w) :=
    ⟨rfl, fun e he => by rw [settle_head_none w hw] at he; contradiction⟩
  exact exec_requestArrival_placesTo b r s w _ 0 h hserved (Nat.zero_le 63) hplaces

/-- Settles O19. -/
theorem readAnsweredAtPlacement : Obligations.ReadAnsweredAtPlacement := by
  intro b r s hchecks hk hsupplied
  refine exec_requestArrival_answered b r s _ .ok ((s.sourcesFor r).map (fun so => so.supplied.getD 0xFF)) hchecks ?_ rfl
  simp only [State.served, hk]
  refine Or.inl ⟨hsupplied, ?_⟩
  rw [answer_of_checks b r s .ok _ hchecks]
  rfl

/-- The entry of a request that has just been taken becomes WAITING (R142): no other entry has its tag. -/
theorem waiting_withEntry (p : Port) (r : Request) (htags : ∀ e ∈ p.table, e.request.tag ≠ r.tag) :
    (p.withEntry r .queued).table.map (fun e => if e.request.tag = r.tag then { e with phase := .waiting } else e) =
      (p.withEntry r .waiting).table := by
  have hothers := map_entries_of_ne r.tag (fun e => { e with phase := .waiting }) p.table htags
  simp [Port.withEntry, hothers]

/-- With no entry QUEUED before, there is none where the request is WAITING. -/
theorem withEntry_waiting_nothingQueued (s : State) (r : Request) (h : s.head = none) :
    (s.port.withEntry r .waiting).nothingQueued := by
  intro e he
  rcases List.mem_append.1 he with he | he
  · exact (head_none_iff s).1 h e he
  · obtain rfl := List.mem_singleton.1 he
    exact nofun

/-- R28, R142: a READ that passes the checks and becomes pending leaves its entry WAITING. -/
theorem exec_requestArrival_waits (b : List Byte) (r : Request) (s w : State) (h : s.admits b r)
    (hserved : ({ s with guard := s.judged r, port := s.port.withEntry r .queued } : State).served r w)
    (hport : w.port = s.port.withEntry r .waiting) : exec (.requestArrival b) s = .next (settle w) :=
  exec_requestArrival_served b r s w h hserved
    ((head_none_iff w).2 (hport ▸ withEntry_waiting_nothingQueued s r (head_of_checks h)))

/-- Settles O20. -/
theorem readBecomesPending : Obligations.ReadBecomesPending := by
  intro b r p s hchecks hk hmap hcache hneeded waits
  have ⟨⟨_, _, _, _, _, _, htags, _⟩, _⟩ := hchecks
  have hwaiting := waiting_withEntry s.port r htags
  refine ⟨fun hnew hfree => ?_, fun d hd hphys => ?_⟩
  · refine exec_requestArrival_waits b r s _ hchecks ?_ rfl
    simp only [State.served, hk]
    exact Or.inr ⟨hneeded, hcache, p, hmap, Or.inl ⟨hnew, hfree, by rw [hwaiting]; rfl⟩⟩
  · refine exec_requestArrival_waits b r s _ hchecks ?_ rfl
    simp only [State.served, hk]
    exact Or.inr ⟨hneeded, hcache, p, hmap, Or.inr ⟨⟨d, hd, hphys⟩, by rw [hwaiting]; rfl⟩⟩

end Sys2Proof.Machine
end

section
/-!
PROOFS. The completion of a demand read (O48), case by case of R33 to R35, with the offer to the read cache (R41).
-/
namespace Sys2Proof.Machine

/-- The completion of the demand read in flight releases its record and ends or repeats the read (R101, R33 to R35). -/
theorem exec_demandReadCompletion (p : Nat) (f : InFlight) (st : ArrayStatus) (data spare : List Byte) (s : State)
    (hserving : s.serving f) (hr : f.requester = .demandRead) (hop : f.op = .pageRead p) :
    exec (.demandReadCompletion st data spare) s =
      .next (finish s (demandDone p st data spare { s with seq := s.seq.released })) := by
  obtain ⟨hphase, hflight⟩ := hserving
  have hrow : isDemandRead f = true := by simp [isDemandRead, hr]
  have hcomplete := complete_accepted f s isDemandRead (fun f t => demandDone f.op.page st data spare t) hphase hflight hrow
  rw [hop] at hcomplete
  exact congrArg Host.Outcome.next hcomplete

/-! ## The cases of the completion -/

theorem demandNumber_of_find (p n : Nat) (s : State)
    (h : s.readPath.demands.find? (fun d => d.phys = p) = some { phys := p, number := n }) : s.demandNumber p = n := by
  simp [State.demandNumber, h]

/-- R34: good data answer the attached records. -/
theorem demandDone_good (p : Nat) (st : ArrayStatus) (data spare : List Byte) (s : State) (hg : goodPage st data spare = true) :
    demandDone p st data spare s = demandSuccess p data s :=
  if_pos hg

/-- R33: a first bad page is read again. -/
theorem demandDone_first (p : Nat) (st : ArrayStatus) (data spare : List Byte) (s : State)
    (hg : goodPage st data spare = false) (hn : s.demandNumber p = 1) : demandDone p st data spare s = repeatDemand p s := by
  simp [demandDone, hg, hn]

/-- R35: a second bad page fails the attached records. -/
theorem demandDone_second (p : Nat) (st : ArrayStatus) (data spare : List Byte) (s : State)
    (hg : goodPage st data spare = false) (hn : s.demandNumber p = 2) : demandDone p st data spare s = demandFailure p s := by
  simp [demandDone, hg, hn]

/-! ## The answers to the attached records (R34, R35) -/

/-- Requests answered one after another change the port only. -/
theorem foldl_becomeReady_eq (status : ResponseStatus) (bytes : PendingRead → List Byte) (rs : List PendingRead) (s : State) :
    rs.foldl (fun t r => becomeReady r.tag status (bytes r) t) s =
      { s with port := rs.foldl (fun q r => q.answer r.tag status (bytes r)) s.port } := by
  induction rs generalizing s with
  | nil => rfl
  | cons r rs ih => rw [List.foldl_cons, ih, becomeReady_eq]; rfl

/-- R34: the first byte of an answer is the snapshot's, or where it has none the byte of the data; the rest follows one offset on. -/
theorem answeredFrom_cons (rec : PendingRead) (first : Nat) (byte : Option Byte) (rest : List (Option Byte)) (data : List Byte) :
    ({ rec with first := first, bytes := byte :: rest } : PendingRead).answeredFrom data =
      byte.getD (byteAt data first) :: ({ rec with first := first + 1, bytes := rest } : PendingRead).answeredFrom data := by
  unfold PendingRead.answeredFrom
  simp only [List.length_cons, List.range_succ_eq_map, List.map_cons, List.map_map, Nat.add_right_comm first 1]
  cases byte with
  | some b => rfl
  | none => rw [byteAt, List.getD_eq_getElem?_getD]; rfl

theorem fillRecord_eq (rec : PendingRead) (data : List Byte) : ∀ (first : Nat) (bytes : List (Option Byte)),
    fillRecord first data bytes = ({ rec with first := first, bytes := bytes } : PendingRead).answeredFrom data
  | _, [] => rfl
  | first, byte :: rest => by
    rw [answeredFrom_cons, ← fillRecord_eq rec data (first + 1) rest]
    cases byte <;> rfl

theorem fillRecord_answeredFrom (rec : PendingRead) (data : List Byte) :
    fillRecord rec.first data rec.bytes = rec.answeredFrom data :=
  fillRecord_eq rec data rec.first rec.bytes

/-! ## The offer to the read cache (R41) -/

/-- The cache after the data of physical page p have been offered for the logical page of the records rs. -/
def State.cacheOffered (s : State) (rs : List PendingRead) (p : Nat) (data : List Byte) : List CacheEntry :=
  match rs with
  | r :: _ => if s.map r.page = some p then cacheInsert r.page data s.readPath.cache else s.readPath.cache
  | [] => s.readPath.cache

theorem offerFor_eq (rs : List PendingRead) (p : Nat) (data : List Byte) (s : State) :
    offerFor rs p data s = { s with readPath := { s.readPath with cache := s.cacheOffered rs p data } } := by
  cases rs with
  | nil => rfl
  | cons r rs =>
    unfold offerFor offerCache State.cacheOffered
    dsimp only
    split <;> rfl

/-! ## What each case leaves -/

/-- The read path at the end of the demand read of page p: its records have left the list, and the demand read is over. -/
def ReadPath.ended (d : ReadPath) (p : Nat) : ReadPath :=
  { d with
    pendingReads := d.pendingReads.filter (fun r => r.phys ≠ p),
    demands := d.demands.filter (fun d => d.phys ≠ p) }

theorem demandSuccess_eq (p : Nat) (data : List Byte) (s : State) : demandSuccess p data s = { s with
    xlat := s.unpinned p,
    readPath := { s.readPath.ended p with cache := s.cacheOffered (s.attached p) p data },
    port := (s.attached p).foldl (fun q r => q.answer r.tag .ok (r.answeredFrom data)) s.port } := by
  unfold demandSuccess
  dsimp only
  simp only [fillRecord_answeredFrom]
  rw [foldl_becomeReady_eq .ok (fun r => r.answeredFrom data), offerFor_eq]
  rfl

theorem demandFailure_eq (p : Nat) (s : State) : demandFailure p s = { s with
    xlat := s.unpinned p, readPath := s.readPath.ended p,
    port := (s.attached p).foldl (fun q r => q.answer r.tag (.fail .media) []) s.port,
    maint := { s.maint with counters := { s.maint.counters with
      mediaErrors := satAdvance s.maint.counters.mediaErrors } } } := by
  unfold demandFailure
  dsimp only
  rw [foldl_becomeReady_eq (.fail .media) (fun _ => [])]
  rfl

/-- R33: during a completion event the repeated PAGE READ joins the list. -/
theorem repeatDemand_issued (p : Nat) (s : State) (h : s.seq.phase = .issued) : repeatDemand p s = { s with
    seq := s.seq.joined (.pageRead p) .demandRead,
    readPath := { s.readPath with
      demands := s.readPath.demands.map (fun d => if d.phys = p then { d with number := 2 } else d) } } :=
  requestOp_busy _ _ (s.setReadPath _) (Or.inl h)

/-- Settles O48. -/
theorem demandReadCompletion : Obligations.DemandReadCompletion := by
  intro p n f st data spare s hserving hr hop hfind attached ended
  rw [exec_demandReadCompletion p f st data spare s hserving hr hop]
  obtain ⟨hphase, _⟩ := hserving
  have hnumber : ({ s with seq := s.seq.released } : State).demandNumber p = n := demandNumber_of_find p n _ hfind
  refine ⟨fun hg => ?_, fun hg hn => ?_, fun hg hn => ?_⟩
  · rw [demandDone_good p st data spare _ hg, demandSuccess_eq]
    rfl
  · rw [demandDone_first p st data spare _ hg (hnumber.trans hn), repeatDemand_issued p { s with seq := s.seq.released } hphase]
  · rw [demandDone_second p st data spare _ hg (hnumber.trans hn), demandFailure_eq]
    rfl

end Sys2Proof.Machine
end

section
/-!
PROOFS. The end of a write-back attempt (O49, O50): what a passed PAGE PROGRAM and a passed commit marker do (R55, R56), and what a
failed attempt does (R58, R59).
-/
namespace Sys2Proof.Machine

/-! ## READ_ONLY requests one after another (R166) -/

/-- A second READ_ONLY request changes nothing more. -/
theorem askedReadOnly_askedReadOnly (u : Supervisor) : u.askedReadOnly.askedReadOnly = u.askedReadOnly := by
  cases hs : u.state
  case draining => by_cases hc : u.cause = some .power <;> simp [Supervisor.askedReadOnly, hs, hc]
  all_goals simp [Supervisor.askedReadOnly, hs]

/-- READ_ONLY asked for where either of two reasons holds: the two requests are one. -/
theorem askedReadOnly_either (a b : Bool) (u : Supervisor) :
    (if b then (if a then u.askedReadOnly else u).askedReadOnly else if a then u.askedReadOnly else u) =
      if a || b then u.askedReadOnly else u := by
  cases a <;> cases b <;> simp [askedReadOnly_askedReadOnly]

/-- READ_ONLY is a state in which the same operations may be chosen as in SERVING (R98). -/
theorem mayChoose_askedReadOnly (u : Supervisor) (cls : Nat) : mayChoose u.askedReadOnly.state cls = mayChoose u.state cls := by
  cases hs : u.state
  case draining => by_cases hc : u.cause = some .power <;> simp [Supervisor.askedReadOnly, hs, hc]
  all_goals simp [Supervisor.askedReadOnly, hs, mayChoose]

theorem examineBadPages_eq (s : State) :
    examineBadPages s = s.setSup (if s.badPageReserve then s.sup.askedReadOnly else s.sup) := by
  have hreserve : s.inBadPageReserve = s.badPageReserve := rfl
  unfold examineBadPages
  rw [hreserve]
  split
  · exact requestReadOnly_eq s
  · rfl

/-! ## Operation requests of the write-back classes (R96, R98) -/

/-- An IDLE link has nothing waiting, and an operation of the class may be chosen: a request of that class is issued at once. -/
def State.linkTakes (s : State) (cls : Nat) : Prop :=
  s.seq.phase = .idle → s.seq.ops = [] ∧ mayChoose s.sup.state cls = true

/-- A link that is not IDLE chooses nothing at a request. -/
theorem linkTakes_of_busy (s : State) (cls : Nat) (h : s.seq.phase ≠ .idle) : s.linkTakes cls := fun hidle => absurd hidle h

/-- What a request of a class that the link takes does to the sequencer (R96); nothing else changes. -/
theorem requestOp_taken (op : ArrayOp) (r : Requester) (s : State) (h : s.linkTakes (opClass s.pageWait r)) :
    requestOp op r s = { s with seq := s.seq.asked op r (opClass s.pageWait r) (timeLimit op) s.clock } := by
  cases hp : s.seq.phase with
  | idle =>
    obtain ⟨hops, hc⟩ := h hp
    exact requestOp_asked op r s (fun _ => hops) hc
  | issued | resync | stopped =>
    simp only [requestOp, Sequencer.asked, hp] <;> rfl

/-- After a request the link is not IDLE. -/
theorem asked_phase_ne_idle (q : Sequencer) (op : ArrayOp) (r : Requester) (cls limit : Nat) (t : Clock) :
    (q.asked op r cls limit t).phase ≠ .idle := by
  cases hp : q.phase <;> simp [Sequencer.asked, Sequencer.issued, Sequencer.joined, hp]

theorem linkTakes_takePage (p cls : Nat) (s : State) (h : s.linkTakes cls) : (takePage p s).linkTakes cls := by
  rw [takePage_eq]
  intro hidle
  obtain ⟨hops, hc⟩ := h hidle
  refine ⟨hops, ?_⟩
  dsimp only
  split
  · rwa [mayChoose_askedReadOnly]
  · exact hc

/-! ## A page retired, and a slot held with it (R59, R79) -/

/-- R79, R89: the failed page is retired, and the bad-page reserve is examined. -/
theorem retirePage_eq (p : Nat) (s : State) (h : s.linkTakes 4) : retirePage p s =
    (s.withRetired p).setSup (if (s.withRetired p).badPageReserve then s.sup.askedReadOnly else s.sup) := by
  unfold retirePage
  rw [requestOp_taken (.mark p .retire 0x00) .retireMark (setPageState p .bad s) h, examineBadPages_eq]
  rfl

/-- R59: a slot becomes HELD and the engine IDLE, whatever its phase was. -/
theorem becomeHeld_idle (i x : Nat) (reason : HoldReason) (s : State) (hx : (s.slot i).page = some x) :
    setWbPhase .idle (becomeHeld i reason s) = s.heldAs i x reason := by
  have hpage : (s.slot i).page.getD 0 = x := by rw [hx]; rfl
  have hserved := heldPartner_setSlot i x { s.slot i with state := .held, hold := some reason, target := none } s rfl
  unfold becomeHeld loseBarriers
  dsimp only
  rw [hpage, hserved, requestReadOnly_eq, answerPersists_eq]
  rfl

/-- READ_ONLY asked for before a slot is HELD makes no difference: the hold asks for it too. -/
theorem heldAs_of_asked (i x : Nat) (reason : HoldReason) (reserve : Bool) (s : State) :
    (s.setSup (if reserve then s.sup.askedReadOnly else s.sup)).heldAs i x reason = s.heldAs i x reason := by
  have hsup : (if reserve then s.sup.askedReadOnly else s.sup).askedReadOnly = s.sup.askedReadOnly := by
    cases reserve <;> simp [askedReadOnly_askedReadOnly]
  exact congrArg (s.heldAs i x reason).setSup hsup

theorem targetPage_of_target (sl : Slot) (t : Target) (h : sl.target = some t) : sl.targetPage = t.page := by
  simp [Slot.targetPage, h]

theorem holdWriting_eq (i x : Nat) (t : Target) (reason : HoldReason) (s : State) (h : s.linkTakes 4)
    (hx : (s.slot i).page = some x) (ht : (s.slot i).target = some t) :
    holdWriting i reason s = (s.withRetired t.page).heldAs i x reason := by
  unfold holdWriting
  rw [targetPage_of_target _ t ht, retirePage_eq t.page s h]
  exact (becomeHeld_idle i x reason ((s.withRetired t.page).setSup _) hx).trans
    (heldAs_of_asked i x reason _ (s.withRetired t.page))

/-! ## A further attempt (R58) -/

/-- R77: page q, the head of the free pool, is PROGRAMMING and the sequence counter has advanced; READ_ONLY is not asked for yet. -/
def State.pageTaken (s : State) (q : Nat) : State :=
  { s with xlat := { (s.xlat.withPage q { s.pageEntry q with state := .programming }) with
    freePool := s.xlat.freePool.tail, sequence := satAdvance s.xlat.sequence } }

theorem takePage_eq_setSup (q : Nat) (s : State) :
    takePage q s = (s.pageTaken q).setSup (if (s.pageTaken q).sequenceReserve then s.sup.askedReadOnly else s.sup) :=
  takePage_eq q s

/-- The entry of another page is the same after one is replaced. -/
theorem pageEntry_withPage_ne (p q : Nat) (e : PageEntry) (s : State) (h : q ≠ p) :
    (s.setXlat (s.xlat.withPage p e)).pageEntry q = s.pageEntry q :=
  congrArg (fun found => Option.getD found PageEntry.reset) (pagesSet_get_ne p q e h s.xlat.pages)

theorem pageEntry_pageTaken_ne (p q : Nat) (s : State) (h : p ≠ q) : (s.pageTaken q).pageEntry p = s.pageEntry p :=
  pageEntry_withPage_ne q p { s.pageEntry q with state := .programming } s h

/-- R58: page q is taken and then page p retired; READ_ONLY is asked for where either reserve holds (R88, R89). -/
theorem retirePage_takePage (p q : Nat) (s : State) (h : s.linkTakes 4) : retirePage p (takePage q s) =
    ((s.pageTaken q).withRetired p).setSup
      (if ((s.pageTaken q).withRetired p).inReserve then s.sup.askedReadOnly else s.sup) := by
  rw [retirePage_eq p _ (linkTakes_takePage q 4 s h), takePage_eq_setSup]
  exact congrArg ((s.pageTaken q).withRetired p).setSup (askedReadOnly_either _ _ s.sup)

/-- What `State.retried` writes out, by its steps: page q taken, page p retired, and the slot's next attempt under way. -/
theorem retried_eq (i x p q : Nat) (s : State) (hne : q ≠ p) : s.retried i x p q s.xlat.freePool.tail =
    let u := (s.pageTaken q).withRetired p
    { u with
      seq := u.seq.asked (.pageProgram q (s.slot i).image (headerSpare x s.xlat.sequence)) .writeBack 4 4000 s.clock,
      wb := { s.wb with phase := .program i },
      staging := s.staging.withSlot i { s.slot i with target := some { page := q, seq := s.xlat.sequence } },
      sup := if u.inReserve then s.sup.askedReadOnly else s.sup } := by
  have hentry := pageEntry_pageTaken_ne p q s hne.symm
  dsimp only
  unfold State.retried State.withRetired State.retired
  dsimp only
  rw [hentry]
  rfl

theorem retryWith_eq (i x q : Nat) (rest : List Nat) (t : Target) (s : State) (h : s.linkTakes 4)
    (hx : (s.slot i).page = some x) (ht : (s.slot i).target = some t) (hpool : s.xlat.freePool = q :: rest) (hne : q ≠ t.page) :
    retryWith i { page := q, seq := s.xlat.sequence } s = s.retried i x t.page q rest := by
  obtain rfl : (s.slot i).page.getD 0 = x := by rw [hx]; rfl
  obtain rfl : s.xlat.freePool.tail = rest := by rw [hpool]; rfl
  unfold retryWith
  dsimp only
  rw [targetPage_of_target _ t ht, retirePage_takePage t.page q s h, retried_eq i _ t.page q s hne]
  exact requestOp_taken _ .writeBack (setWbPhase (.program i) (setSlot i _ (State.setSup _ _)))
    (linkTakes_of_busy _ _ (asked_phase_ne_idle _ _ _ _ _ _))

/-! ## A failed attempt (R58, R59) -/

theorem retryWriteBack_page (i x q : Nat) (rest : List Nat) (t : Target) (s : State) (h : s.linkTakes 4)
    (hx : (s.slot i).page = some x) (ht : (s.slot i).target = some t) (hpool : s.xlat.freePool = q :: rest) (hne : q ≠ t.page) :
    retryWriteBack i s = s.retried i x t.page q rest := by
  have hask : s.askPage = .page q s.xlat.sequence := by simp [State.askPage, hpool]
  rw [retryWriteBack, hask]
  exact retryWith_eq i x q rest t s h hx ht hpool hne

theorem askPage_wait (s : State) (hpool : s.xlat.freePool = []) (hcoming : s.xlat.erase ≠ .idle ∨ s.xlat.eraseQueue ≠ []) :
    s.askPage = .wait := by
  simp only [State.askPage, hpool]
  split
  · rename_i hqueue herase
    exact absurd hqueue (hcoming.resolve_left (fun h => h herase))
  · rfl

theorem retryWriteBack_wait (i : Nat) (s : State) (hpool : s.xlat.freePool = [])
    (hcoming : s.xlat.erase ≠ .idle ∨ s.xlat.eraseQueue ≠ []) :
    retryWriteBack i s = { s with wb := { s.wb with phase := .pageWaitRetry i } } := by
  rw [retryWriteBack, askPage_wait s hpool hcoming]
  rfl

theorem retryWriteBack_none (i x : Nat) (t : Target) (s : State) (h : s.linkTakes 4) (hx : (s.slot i).page = some x)
    (ht : (s.slot i).target = some t) (hpool : s.xlat.freePool = []) (herase : s.xlat.erase = .idle)
    (hqueue : s.xlat.eraseQueue = []) : retryWriteBack i s = (s.withRetired t.page).heldAs i x .noSpace := by
  have hask : s.askPage = .none := by simp [State.askPage, hpool, herase, hqueue]
  rw [retryWriteBack, hask]
  exact holdWriting_eq i x t .noSpace s h hx ht

/-- The attempt count of slot i is n. -/
def State.withAttempts (s : State) (i n : Nat) : State := setSlot i { s.slot i with attempts := some n } s

theorem slot_withAttempts (i n : Nat) (s : State) (h : i < s.staging.slots.length) :
    (s.withAttempts i n).slot i = { s.slot i with attempts := some n } :=
  slot_setSlot_self i _ s h

/-- R58: a failure before the fourth asks for a page. -/
theorem attemptFailed_retries (i n : Nat) (s : State) (hn : (s.slot i).attempts = some n) (h : n + 1 < 4) :
    attemptFailed i s = retryWriteBack i (s.withAttempts i (n + 1)) := by
  unfold attemptFailed
  rw [hn]
  exact if_neg (Nat.not_le.2 h)

/-- R59: the fourth failure holds the slot. -/
theorem attemptFailed_holds (i n : Nat) (s : State) (hn : (s.slot i).attempts = some n) (h : 4 ≤ n + 1) :
    attemptFailed i s = holdWriting i .media (s.withAttempts i (n + 1)) := by
  unfold attemptFailed
  rw [hn]
  exact if_pos h

/-! ## The two completions of a write-back (R55, R56) -/

/-- The completion of the PAGE PROGRAM in flight releases its record (R101). -/
theorem exec_pageProgramCompletion (st : ArrayStatus) (f : InFlight) (s : State) (hserving : s.serving f)
    (hr : f.requester = .writeBack) (hop : f.op.isProgram = true) :
    exec (.pageProgramCompletion st) s = .next (finish s (programDone st { s with seq := s.seq.released })) := by
  obtain ⟨hphase, hflight⟩ := hserving
  exact congrArg Host.Outcome.next (complete_accepted f s _ (fun _ t => programDone st t) hphase hflight (by simp [hr, hop]))

/-- The completion of the commit marker's MARK in flight releases its record (R101). -/
theorem exec_commitMarkCompletion (st : ArrayStatus) (f : InFlight) (s : State) (hserving : s.serving f)
    (hr : f.requester = .writeBack) (hop : f.op.isMark = true) :
    exec (.commitMarkCompletion st) s = .next (finish s (commitMarkDone st { s with seq := s.seq.released })) := by
  obtain ⟨hphase, hflight⟩ := hserving
  exact congrArg Host.Outcome.next (complete_accepted f s _ (fun _ t => commitMarkDone st t) hphase hflight (by simp [hr, hop]))

/-- R55: a passed PAGE PROGRAM passes the MARK of the commit marker, which joins the list in the completion event. -/
theorem programDone_pass (i : Nat) (t : Target) (s : State) (hp : s.wb.phase = .program i) (hissued : s.seq.phase = .issued)
    (ht : (s.slot i).target = some t) : programDone .pass s = { s with
      wb := { s.wb with phase := .commitMark i }, seq := s.seq.joined (.mark t.page .commit 0x00) .writeBack } := by
  simp only [programDone, hp, targetPage_of_target _ t ht]
  exact requestOp_busy _ .writeBack (setWbPhase (.commitMark i) s) (Or.inl hissued)

theorem programDone_fail (i : Nat) (s : State) (hp : s.wb.phase = .program i) : programDone .fail s = attemptFailed i s := by
  simp only [programDone, hp]

theorem commitMarkDone_pass (i : Nat) (s : State) (hp : s.wb.phase = .commitMark i) : commitMarkDone .pass s = commitSlot i s := by
  simp only [commitMarkDone, hp]

theorem commitMarkDone_fail (i : Nat) (s : State) (hp : s.wb.phase = .commitMark i) :
    commitMarkDone .fail s = attemptFailed i s := by
  simp only [commitMarkDone, hp]

/-- A failed completion of either is a failed attempt of the slot (R58). -/
theorem exec_attempt_failed (i : Nat) (f : InFlight) (c : Instr) (s : State) (hserving : s.serving f)
    (hr : f.requester = .writeBack)
    (hc : s.wb.phase = .program i ∧ f.op.isProgram = true ∧ c = .pageProgramCompletion .fail ∨
      s.wb.phase = .commitMark i ∧ f.op.isMark = true ∧ c = .commitMarkCompletion .fail) :
    exec c s = .next (finish s (attemptFailed i { s with seq := s.seq.released })) := by
  rcases hc with ⟨hp, hop, rfl⟩ | ⟨hp, hop, rfl⟩
  · rw [exec_pageProgramCompletion .fail f s hserving hr hop, programDone_fail i { s with seq := s.seq.released } hp]
  · rw [exec_commitMarkCompletion .fail f s hserving hr hop, commitMarkDone_fail i { s with seq := s.seq.released } hp]

/-- Settles O50. -/
theorem failedAttemptRetriesOrHolds : Obligations.FailedAttemptRetriesOrHolds := by
  intro i x n t f c s hserving hr hrange hx ht hn hc u
  have hanswer : ∀ v, attemptFailed i { s with seq := s.seq.released } = v → exec c s = .next (finish s v) := fun v hv =>
    hv ▸ exec_attempt_failed i f c s hserving hr hc
  have hretries := attemptFailed_retries i n { s with seq := s.seq.released } hn
  have hslot : u.slot i = { s.slot i with attempts := some (n + 1) } := slot_withAttempts i (n + 1) s hrange
  have hpage : (u.slot i).page = some x := by rw [hslot]; exact hx
  have htarget : (u.slot i).target = some t := by rw [hslot]; exact ht
  have hlink : u.linkTakes 4 := linkTakes_of_busy u 4 (by rw [show u.seq.phase = .issued from hserving.1]; decide)
  refine ⟨fun q rest hless hpool hne => hanswer _ ?_, fun hless hpool hcoming => hanswer _ ?_,
    fun hless hpool herase hqueue => hanswer _ ?_, fun hlast => hanswer _ ?_⟩
  · rw [hretries hless]
    exact retryWriteBack_page i x q rest t u hlink hpage htarget hpool hne
  · rw [hretries hless]
    exact retryWriteBack_wait i u hpool hcoming
  · rw [hretries hless]
    exact retryWriteBack_none i x t u hlink hpage htarget hpool herase hqueue
  · rw [attemptFailed_holds i n { s with seq := s.seq.released } hn hlast]
    exact holdWriting_eq i x t .media u hlink hpage htarget

/-! ## The commit (R56) -/

/-- R78: page p is LIVE and map[x] names it, the page that map[x] named is STALE at the tail of the erase queue. -/
def State.committedTo (s : State) (x p : Nat) : Translation :=
  let live := s.xlat.withPage p { s.pageEntry p with state := .live }
  match s.map x with
  | some q => { (live.withPage q { s.pageEntry q with state := .stale }) with
      eraseQueue := s.xlat.eraseQueue ++ [q], remap := tableSet x p s.xlat.remap }
  | none => { live with remap := tableSet x p s.xlat.remap }

/-- The page that map[X] named is another one, so its entry is the same when the new page becomes LIVE. -/
theorem commitMap_eq (x p : Nat) (s : State) (h : s.map x ≠ some p) : commitMap x p s = s.setXlat (s.committedTo x p) := by
  unfold commitMap State.committedTo
  cases hmap : s.map x with
  | none => rfl
  | some q =>
    have hne : q ≠ p := fun hq => h (hq ▸ hmap)
    have hentry : (setPageState p .live s).pageEntry q = s.pageEntry q :=
      pageEntry_withPage_ne p q { s.pageEntry p with state := .live } s hne
    dsimp only
    unfold setPageState at hentry ⊢
    rw [hentry]
    rfl

/-- R20, R24: what a commit does to the slot's partner. -/
theorem commitPartner_eq (i x : Nat) (s : State) : commitPartner i x s =
    s.setStaging (s.staging.partnerServed s i x (s.slot i).image) := by
  unfold commitPartner Staging.partnerServed
  cases hdeferred : s.findPartner i x (fun o => decide (o.state = .sealed) && decide (o.merge = some .deferred)) with
  | some j => rfl
  | none => cases hheld : s.findPartner i x (fun o => decide (o.state = .held)) <;> rfl

/-- The slot itself is not its partner. -/
theorem slot_commitPartner (i x : Nat) (s : State) : (commitPartner i x s).slot i = s.slot i := by
  have hother : ∀ test j sl, s.findPartner i x test = some j → (setSlot j sl s).slot i = s.slot i := fun test j sl hj => by
    rw [slot_setSlot, if_neg (fun h => (findPartner_ne hj).1 h.1)]
  unfold commitPartner
  split
  · rename_i j hj
    exact hother _ j _ hj
  · split
    · rename_i j hj
      exact hother _ j _ hj
    · rfl

/-- R65: the pair leaves every wait set, and the barriers left with none are answered OK. -/
theorem commitBarriers_eq (i : Nat) (inc : Byte) (s : State) : commitBarriers i inc s =
    let waits := dropPair i inc s.wb.barriers
    { s with
      wb := { s.wb with barriers := waits.filter (fun b => !b.waitSet.isEmpty) },
      port := (waits.filter (fun b => b.waitSet.isEmpty)).foldl (fun q b => q.answer b.tag .ok []) s.port } := by
  unfold commitBarriers
  dsimp only
  rw [answerPersists_eq]
  rfl

theorem slot_commitBarriers (i j : Nat) (inc : Byte) (s : State) : (commitBarriers i inc s).slot j = s.slot j := by
  rw [commitBarriers_eq]
  rfl

theorem commitSlot_eq (i x : Nat) (t : Target) (s : State) (hx : (s.slot i).page = some x) (ht : (s.slot i).target = some t)
    (hmap : s.map x ≠ some t.page) :
    let waits := dropPair i (s.slot i).incarnation s.wb.barriers
    commitSlot i s = { s with
      xlat := s.committedTo x t.page,
      readPath := { s.readPath with cache := cacheInsert x (s.slot i).image s.readPath.cache },
      staging := (s.staging.partnerServed s i x (s.slot i).image).withSlot i (Slot.freed (s.slot i).incarnation),
      wb := { s.wb with phase := .idle, barriers := waits.filter (fun b => !b.waitSet.isEmpty) },
      port := (waits.filter (fun b => b.waitSet.isEmpty)).foldl (fun q b => q.answer b.tag .ok []) s.port,
      maint := { s.maint with counters := { s.maint.counters with
        programs := satAdvance s.maint.counters.programs } } } := by
  obtain rfl : (s.slot i).page.getD 0 = x := by rw [hx]; rfl
  intro waits
  unfold commitSlot freeSlot
  dsimp only
  rw [targetPage_of_target _ t ht, commitMap_eq _ _ s hmap, slot_commitBarriers, slot_commitPartner, commitBarriers_eq,
    commitPartner_eq]
  rfl

/-- Settles O49. -/
theorem programPassedAndCommit : Obligations.ProgramPassedAndCommit := by
  intro i x t f s hserving hr hx ht
  refine ⟨fun hp hop => ?_, fun hp hop hmap => ?_⟩
  · rw [exec_pageProgramCompletion .pass f s hserving hr hop,
      programDone_pass i t { s with seq := s.seq.released } hp hserving.1 ht]
  · rw [exec_commitMarkCompletion .pass f s hserving hr hop, commitMarkDone_pass i { s with seq := s.seq.released } hp]
    exact congrArg (fun v => Host.Outcome.next (finish s v)) (commitSlot_eq i x t { s with seq := s.seq.released } hx ht hmap)

end Sys2Proof.Machine
end

section
/-!
PROOFS. A PERSIST that arrives on an open channel (O21), by the case of R63 that decides it.
-/
namespace Sys2Proof.Machine

/-- R142: a PERSIST that the state check passes goes to its serving block with its entry QUEUED and judged. -/
theorem placeHead_of_persist (b : List Byte) (r : Request) (s w : State) (h : s.takes b r) (hk : r.kind = .persist)
    (hp : s.sup.passes .persist) (hserved : ({ s with port := s.port.withEntry r .queued } : State).served r w) :
    placeHead { request := r, phase := .queued, judged := false } (takeRequest r s) = w := by
  obtain ⟨_, _, _, _, _, _, htags, _⟩ := h
  have hpasses : s.sup.passes r.kind := hk ▸ hp
  have hothers := map_entries_of_ne r.tag (fun e => { e with judged := true }) s.port.table htags
  have hmarked : setJudged r.tag (takeRequest r s) = { s with port := s.port.withEntry r .queued } := by
    simp [setJudged, takeRequest, State.setPort, Port.withEntry, hothers]
  rw [placeHead_persist { request := r, phase := .queued, judged := false } (takeRequest r s) hpasses rfl hk, hmarked]
  exact serve_of_served r _ w hpasses hserved

/-- A PERSIST that the state check passes: the placements go on from what its serving block made of it. -/
theorem exec_requestArrival_persist (b : List Byte) (r : Request) (s w v : State) (n : Nat) (h : s.takes b r)
    (hk : r.kind = .persist) (hp : s.sup.passes .persist)
    (hserved : ({ s with port := s.port.withEntry r .queued } : State).served r w) (hn : n ≤ 63)
    (hplaces : State.placesTo n s (settle w) v) : exec (.requestArrival b) s = .next v := by
  have hmoment : State.placesTo n (takeRequest r s) (settle w) v := by
    cases n <;> exact hplaces
  have ⟨_, _, _, _, _, _, _, hhead⟩ := h
  rw [exec_requestArrival_taken b r s h, placements, placeFor_step 63 s _ _ (takeRequest_head r s hhead) nofun,
    placeHead_of_persist b r s w h hk hp hserved, placeFor_of_placesTo n 63 _ _ v hn hmoment]

/-- A PERSIST that its serving block leaves with no entry QUEUED: no more is placed. -/
theorem exec_requestArrival_persist_decided (b : List Byte) (r : Request) (s w : State) (h : s.takes b r)
    (hk : r.kind = .persist) (hp : s.sup.passes .persist)
    (hserved : ({ s with port := s.port.withEntry r .queued } : State).served r w) (hw : w.head = none) :
    exec (.requestArrival b) s = .next (settle w) :=
  exec_requestArrival_persist b r s w _ 0 h hk hp hserved (Nat.zero_le 63)
    ⟨rfl, fun e he => by rw [settle_head_none w hw] at he; contradiction⟩

/-- Settles O21. -/
theorem persistDecidedByFirstCase : Obligations.PersistDecidedByFirstCase := by
  intro b r s h hk hp
  have ⟨_, _, _, hagain, _, _, htags, hhead⟩ := h
  have hanswer := fun st => answer_withEntry s.port r .queued st [] htags hagain
  have hready : ∀ st, ({ s with port := s.port.withReady r st [] true } : State).head = none := fun st =>
    (head_none_iff _).2 (withReady_nothingQueued s r st [] true hhead)
  refine ⟨fun hheld => ?_, fun hheld hstaged => ?_, fun hheld hstaged hfull n v hn hplaces => ?_,
    fun hheld hstaged hroom => ?_⟩
  · refine exec_requestArrival_persist_decided b r s _ h hk hp ?_ (hready (.fail .lost))
    simp only [State.served, hk]
    exact Or.inl ⟨hheld, by rw [hanswer]⟩
  · refine exec_requestArrival_persist_decided b r s _ h hk hp ?_ (hready .ok)
    simp only [State.served, hk]
    exact Or.inr (Or.inl ⟨hheld, hstaged, by rw [hanswer]⟩)
  · refine exec_requestArrival_persist b r s _ v n h hk hp ?_ hn hplaces
    simp only [State.served, hk]
    exact Or.inr (Or.inr (Or.inl ⟨hheld, hstaged, hfull, trivial⟩))
  · refine exec_requestArrival_persist_decided b r s _ h hk hp ?_
      (sealAllOpen_head_none _ ((head_none_iff _).2 (withEntry_waiting_nothingQueued s r hhead)))
    simp only [State.served, hk]
    exact Or.inr (Or.inr (Or.inr ⟨hheld, hstaged, hroom, by rw [waiting_withEntry s.port r htags]; rfl⟩))

end Sys2Proof.Machine
end

section
/-!
PROOFS. The spare area of a page (O56): what the sequencer fills in reads back (R54, R103 to R105, R199), and what the device does
with it (R92).
-/
namespace Sys2Proof.Machine

/-- A field holds a number exactly where its bytes are the number's. -/
theorem leNat_eq_iff (n : Nat) (l : List Byte) (h : n < 256 ^ l.length) : leNat l = n ↔ l = leBytes l.length n := by
  constructor
  · rintro rfl
    exact (leBytes_leNat l).symm
  · intro hl
    exact (congrArg leNat hl).trans (leNat_leBytes _ n h)

/-! ## The check fields (R103, R105) -/

theorem headerMatches_iff (spare : List Byte) (h : spare.length = 16) :
    headerMatches spare = true ↔ (spare.drop 11).take 2 = le16 (crc16 ((spare.drop 1).take 10)).toNat := by
  have hfield : (slice 11 2 spare).length = 2 := by simp [h]
  have hfits : (crc16 (slice 1 10 spare)).toNat < 256 ^ (slice 11 2 spare).length := by
    rw [hfield]; exact (crc16 (slice 1 10 spare)).isLt
  have hbytes := leNat_eq_iff _ _ hfits
  rw [hfield] at hbytes
  rw [headerMatches, beq_iff_eq, eq_comm]
  exact hbytes

theorem le32_eq_leBytes (n : Nat) : le32 n = leBytes 4 n := by
  simp [le32, leBytes, Nat.div_div_eq_div_mul]

theorem dataMatches_iff (data spare : List Byte) (h : spare.length = 16) :
    dataMatches data spare = true ↔ (spare.drop 7).take 4 = le32 (crc32 data).toNat := by
  have hfield : (slice 7 4 spare).length = 4 := by simp [h]
  have hfits : (crc32 data).toNat < 256 ^ (slice 7 4 spare).length := by
    rw [hfield]; exact (crc32 data).isLt
  have hbytes := leNat_eq_iff _ _ hfits
  rw [hfield] at hbytes
  rw [dataMatches, beq_iff_eq, eq_comm, le32_eq_leBytes]
  exact hbytes

/-- R32: a page is good where its read passed and both checks match. -/
theorem goodPage_iff (st : ArrayStatus) (data spare : List Byte) :
    goodPage st data spare = true ↔ st = .pass ∧ dataMatches data spare = true ∧ headerMatches spare = true := by
  cases st <;> simp [goodPage]

/-! ## The spare bytes as programmed (R54, R104) -/

/-- R104, R199: the sixteen bytes once both checks are filled, field by field. -/
theorem fillChecks_headerSpare (page : Nat) (seq : Word32) (data : List Byte) :
    let fields := leBytes 2 page ++ leBytes 4 seq.toNat ++ leBytes 4 (crc32 data).toNat
    fillChecks data (headerSpare page seq) = [0x5A] ++ fields ++ leBytes 2 (crc16 fields).toNat ++ [0xFF, 0xFF, 0xFF] := by
  rfl

/-- The page that the write-back engine programs reads back good, with the numbers that it was made with (R54, R105). -/
theorem programmedSpare_readsBack (page : Nat) (seq : Word32) (data : List Byte) (h : page < 65536) :
    let spare := fillChecks data (headerSpare page seq)
    spare.length = 16 ∧ goodPage .pass data spare = true ∧ spareLogical spare = page ∧
      spareSequence spare = seq.toNat ∧ spareClean spare = 0x5A ∧ spareCommit spare = 0xFF ∧ spareRetire spare = 0xFF := by
  have hspare := fillChecks_headerSpare page seq data
  dsimp only at hspare ⊢
  rw [hspare]
  refine ⟨rfl, (goodPage_iff _ _ _).2 ⟨rfl, ?_, ?_⟩, ?_, ?_, rfl, rfl, rfl⟩
  · exact (dataMatches_iff data _ rfl).2 (le32_eq_leBytes _).symm
  · exact (headerMatches_iff _ rfl).2 rfl
  · exact leNat_leBytes 2 page h
  · exact leNat_leBytes 4 seq.toNat seq.isLt

/-! ## The bytes that an operation programs (R92, R199) -/

/-- R92: a MARK programs the byte at its field's offset and leaves the others. -/
theorem mark_spareAfter (p : Nat) (field : MarkField) (value : Byte) (old : List Byte) (k : Nat) (hk : k < old.length) :
    ((ArrayOp.mark p field value).spareAfter old)[k]? = if k = field.offset then some value else old[k]? := by
  have hbyte := overlay_getElem? field.offset [value] old k hk
  show (overlay field.offset [value] old)[k]? = _
  rw [hbyte]
  by_cases hkf : k = field.offset
  · simp [hkf]
  · rw [if_neg hkf, if_neg]
    rw [List.length_singleton]
    omega

/-- Settles O56. -/
theorem programmedPageReadsGood : Obligations.ProgrammedPageReadsGood := by
  refine ⟨programmedSpare_readsBack, fun st data spare hlength => ⟨headerMatches_iff spare hlength, ?_⟩,
    fun p field value old hlength => ⟨fun k hk => ?_, rfl, fun data spare => rfl⟩⟩
  · rw [goodPage_iff, dataMatches_iff data spare hlength]
  · rw [mark_spareAfter p field value old k (hlength ▸ hk)]
    cases field <;> rfl

end Sys2Proof.Machine
end

section
/-!
PROOFS. FLUSH (O34): the seal of every OPEN slot and the answer in one event (R69, R191).
-/
namespace Sys2Proof.Machine

/-- An accepted FLUSH ends its write part, seals every OPEN slot and is answered OK; what the seals set off follows (R69, R182). -/
theorem exec_flush (s : State) (hframe : s.frameEnds) (hready : s.ready_) :
    let a : State := { s with maint := { s.maint with transaction := .none } }
    exec (.flush []) s = .next (finish a { sealAllOpen a with maint := s.maint.answered .ok [] }) := by
  intro a
  have haccepts : a.accepts .serviceOnly = true := (inService_iff a).2 hready
  have hdecides : endFrame (some .flush) [] s = finish a (doFlush a) := by
    rw [endFrame_decides _ _ s hframe]
    show decideCommand .flush [] a = _
    unfold decideCommand
    rw [if_neg (by decide), if_pos (show a.accepts CommandName.flush.kind = true from haccepts)]
    rfl
  have hseals : doFlush a = { sealAllOpen a with maint := s.maint.answered .ok [] } := by
    have hmaint : (sealAllOpen a).maint = a.maint := by simp
    rw [doFlush, respond, hmaint]
    rfl
  exact congrArg Host.Outcome.next (hdecides.trans (congrArg (finish a) hseals))

/-- A PAGE WAIT ends where writing goes on and a page is there or none is to come (R52). -/
theorem endWait_none_iff (s : State) : s.endWait = none ↔ (s.writing && s.waitOver && s.pageWait) = false := by
  unfold State.endWait State.pageWait
  cases s.writing && s.waitOver <;> cases s.wb.phase <;> simp

/-- Nothing is due exactly where each of the four re-examinations finds nothing (R52, R49, R10, R81). -/
theorem reexamine_none_iff (s : State) : s.reexamine = none ↔ s.endWait = none ∧ s.engineStart = none ∧
    (if s.pressure then s.oldestOpen else none) = none ∧ s.eraseStart = none := by
  unfold State.reexamine
  cases s.endWait with
  | some t => simp
  | none =>
    cases s.engineStart with
    | some i => simp
    | none =>
      cases (if s.pressure then s.oldestOpen else none) with
      | some i => simp
      | none => cases s.eraseStart <;> simp

/-- The re-examinations do not look at the maintenance port. -/
theorem reexamine_none_of_maint (m : Maintenance) (s : State) (h : s.reexamine = none) : (s.setMaint m).reexamine = none := by
  rw [reexamine_none_iff, endWait_none_iff] at h ⊢
  exact h

theorem nothingDue_of_maint (m : Maintenance) (s : State) (h : s.nothingDue) : (s.setMaint m).nothingDue := by
  obtain ⟨hreexamine, hhead, hlink, hdrain⟩ := h
  exact ⟨reexamine_none_of_maint m s hreexamine, hhead, hlink, hdrain⟩

/-- Where nothing is due and no completion waits for its choice, nothing follows an event. -/
theorem finish_of_nothingDue (a u : State) (h : u.nothingDue) (hchoice : u.seq.phase ≠ .issued ∨ u.seq.inFlight ≠ none) :
    finish a u = u := by
  obtain ⟨hreexamine, hhead, hlink, hdrain⟩ := h
  have hrunning : u.sup.state ≠ .draining ∨ u.anyStaged = true := (not_and_or.1 hdrain).imp id Bool.eq_true_of_not_eq_false
  rw [finish_quiet a u hreexamine hrunning hhead hlink, endCompletion_of_done u (hchoice.imp id Option.isSome_iff_ne_none.2)]

/-- Settles O34. -/
theorem flushSealsAndAnswersOk : Obligations.FlushSealsAndAnswersOk := by
  intro s hframe hready a
  refine ⟨exec_flush s hframe hready, fun hnone hdue hchoice => ?_⟩
  have hsealed : sealAllOpen a = a := sealAllOpen_of_none a (oldestOpen_of_none_open a fun j _ => hnone j)
  rw [exec_flush s hframe hready, hsealed]
  exact congrArg Host.Outcome.next
    (finish_of_nothingDue a (s.setMaint (s.maint.answered .ok [])) (nothingDue_of_maint _ s hdue) hchoice)

end Sys2Proof.Machine
end

section
/-!
PROOFS. The completions of the erase engine and of retire marks (O51): what is noted and dropped (R80), what a passed ERASE and a
passed clean mark do, and how a failure of either retires the page (R83, R84).
-/
namespace Sys2Proof.Machine

/-! ## The rows of the three completions (R101) -/

/-- R80: the completion of a retire mark releases its record, and nothing else handles it. -/
theorem exec_retireMarkCompletion (st : ArrayStatus) (f : InFlight) (s : State) (hserving : s.serving f)
    (hr : f.requester = .retireMark) :
    exec (.retireMarkCompletion st) s = .next (finish s { s with seq := s.seq.released }) := by
  obtain ⟨hphase, hflight⟩ := hserving
  exact congrArg Host.Outcome.next (complete_accepted f s _ (fun _ t => t) hphase hflight (by simp [hr]))

/-- The completion of the ERASE in flight releases its record. -/
theorem exec_eraseCompletion (st : ArrayStatus) (f : InFlight) (s : State) (hserving : s.serving f)
    (hr : f.requester = .eraseEngine) (hop : f.op.isErase = true) :
    exec (.eraseCompletion st) s = .next (finish s (eraseDone st { s with seq := s.seq.released })) := by
  obtain ⟨hphase, hflight⟩ := hserving
  exact congrArg Host.Outcome.next (complete_accepted f s _ (fun _ t => eraseDone st t) hphase hflight (by simp [hr, hop]))

/-- The completion of the clean marker's MARK in flight releases its record. -/
theorem exec_cleanMarkCompletion (st : ArrayStatus) (f : InFlight) (s : State) (hserving : s.serving f)
    (hr : f.requester = .eraseEngine) (hop : f.op.isMark = true) :
    exec (.cleanMarkCompletion st) s = .next (finish s (cleanMarkDone st { s with seq := s.seq.released })) := by
  obtain ⟨hphase, hflight⟩ := hserving
  exact congrArg Host.Outcome.next (complete_accepted f s _ (fun _ t => cleanMarkDone st t) hphase hflight (by simp [hr, hop]))

/-! ## Passed (R83, R84) -/

/-- R83: a passed ERASE advances ERASES and passes the MARK of the clean marker, which joins the list in the completion event. -/
theorem eraseDone_pass (p : Nat) (s : State) (hp : s.xlat.erase = .erase p) (hissued : s.seq.phase = .issued) :
    eraseDone .pass s = { s with
      seq := s.seq.joined (.mark p .clean 0x5A) .eraseEngine,
      xlat := { s.xlat with erase := .cleanMark p },
      maint := { s.maint with counters := { s.maint.counters with erases := satAdvance s.maint.counters.erases } } } := by
  simp only [eraseDone, hp]
  exact requestOp_busy _ .eraseEngine (setErasePhase (.cleanMark p) (countErase s)) (Or.inl hissued)

/-- R84: a passed clean mark makes the page FREE at the tail of the pool. -/
theorem cleanMarkDone_pass (p : Nat) (s : State) (hp : s.xlat.erase = .cleanMark p) :
    cleanMarkDone .pass s = { s with
      xlat := { s.xlat.withPage p { s.pageEntry p with state := .free } with
        erase := .idle, freePool := s.xlat.freePool ++ [p] } } := by
  simp only [cleanMarkDone, hp]
  rfl

/-! ## Failed (R79, R83, R84, R89) -/

/-- The ERASING page p is retired: it is BAD, its retire mark waits, PAGES_RETIRED has advanced and the engine is IDLE; READ_ONLY is
asked for where the bad-page reserve holds. -/
def State.erasingRetired (s : State) (p : Nat) : State :=
  let u : State := { s with
    seq := s.seq.joined (.mark p .retire 0x00) .retireMark,
    xlat := { (s.retired p) with erase := .idle },
    maint := { s.maint with counters := { s.maint.counters with
      pagesRetired := satAdvance s.maint.counters.pagesRetired } } }
  { u with sup := if u.badPageReserve then s.sup.askedReadOnly else s.sup }

theorem asked_of_issued (q : Sequencer) (op : ArrayOp) (r : Requester) (cls limit : Nat) (t : Clock) (h : q.phase = .issued) :
    q.asked op r cls limit t = q.joined op r := by
  simp only [Sequencer.asked, h]

/-- While the link is busy the retire mark waits; the bad-page reserve does not look at the erase engine's phase. -/
theorem setErasePhase_retirePage (p : Nat) (s : State) (hissued : s.seq.phase = .issued) :
    setErasePhase .idle (retirePage p s) = s.erasingRetired p := by
  have hlink : s.linkTakes 4 := linkTakes_of_busy s 4 (by rw [hissued]; decide)
  rw [retirePage_eq p s hlink, State.withRetired, asked_of_issued _ _ _ _ _ _ hissued]
  rfl

theorem eraseDone_fail (p : Nat) (s : State) (hp : s.xlat.erase = .erase p) (hissued : s.seq.phase = .issued) :
    eraseDone .fail s = s.erasingRetired p := by
  simp only [eraseDone, hp]
  exact setErasePhase_retirePage p s hissued

theorem cleanMarkDone_fail (p : Nat) (s : State) (hp : s.xlat.erase = .cleanMark p) (hissued : s.seq.phase = .issued) :
    cleanMarkDone .fail s = s.erasingRetired p := by
  simp only [cleanMarkDone, hp]
  exact setErasePhase_retirePage p s hissued

/-- Settles O51: each completion by its row and, for the two of the erase engine, by whether it passed. -/
theorem eraseEngineCompletions : Obligations.EraseEngineCompletions := by
  intro p st f s hserving
  have hissued : ({ s with seq := s.seq.released } : State).seq.phase = .issued := hserving.1
  refine ⟨exec_retireMarkCompletion st f s hserving, fun hr => ⟨fun hp hop => ?_, fun hp hop => ?_⟩⟩
  · have hexec := fun st => exec_eraseCompletion st f s hserving hr (by rw [hop]; rfl)
    constructor
    · rw [hexec, eraseDone_pass p { s with seq := s.seq.released } hp hissued]
    · rw [hexec, eraseDone_fail p { s with seq := s.seq.released } hp hissued]
      rfl
  · have hexec := fun st => exec_cleanMarkCompletion st f s hserving hr hop
    constructor
    · rw [hexec, cleanMarkDone_pass p { s with seq := s.seq.released } hp]
      rfl
    · rw [hexec, cleanMarkDone_fail p { s with seq := s.seq.released } hp hissued]
      rfl

end Sys2Proof.Machine
end

section
/-!
PROOFS. The arbiter: a choice takes the oldest operation of the highest class (O60), and a completion or a timeout outside ISSUED is
discarded (O59).
-/
namespace Sys2Proof.Machine

/-! ## Classes and their ranking (R85, R97, R99) -/

theorem classNow_eq (s : State) (r : Requester) : s.classNow r = opClass s.pageWait r := by
  cases r with
  | eraseEngine => cases hp : s.wb.phase <;> simp [State.classNow, opClass, State.pageWait, hp]
  | mount | mergeRead _ | demandRead | writeBack | retireMark | configCommit => rfl

theorem choosable_iff (s : State) (w : WaitingOp) : s.choosable w ↔
    w ∈ s.seq.ops ∧ mayChoose s.sup.state (opClass s.pageWait w.requester) = true := by
  unfold State.choosable mayChoose
  rw [classNow_eq]
  cases s.sup.state <;> simp

/-- The classes of R97 are 1 to 7. -/
theorem opClass_mem (pageWait : Bool) (r : Requester) : opClass pageWait r ∈ [1, 2, 3, 4, 5, 6, 7] := by
  cases r with
  | eraseEngine => cases pageWait <;> decide
  | mount | mergeRead _ | demandRead | writeBack | retireMark | configCommit => simp [opClass]

/-- The rank of a class is its place in the ranking, counted from 1 (R99). -/
theorem classRank_eq_idxOf (st : OperatingState) : ∀ cls ∈ [1, 2, 3, 4, 5, 6, 7],
    classRank (decide (st = .draining)) cls = st.ranking.idxOf cls + 1 := by
  cases st <;> decide

theorem opRank_eq_idxOf (s : State) (w : WaitingOp) :
    s.opRank w = s.sup.state.ranking.idxOf (s.classNow w.requester) + 1 := by
  rw [classNow_eq]
  exact classRank_eq_idxOf s.sup.state _ (opClass_mem s.pageWait w.requester)

/-- Classes of the same rank are one. -/
theorem classRank_injective (draining : Bool) (c d : Nat) (h : classRank draining c = classRank draining d) : c = d := by
  unfold classRank at h
  split_ifs at h <;> omega

/-- The order in which a choice looks at two operations: by rank, then by age (R98). -/
theorem goesBefore_iff (s : State) (w v : WaitingOp) : s.goesBefore w v ↔
    s.opRank w < s.opRank v ∨ s.opRank w = s.opRank v ∧ s.arrivalAge v ≤ s.arrivalAge w := by
  have hclass : s.classNow w.requester = s.classNow v.requester ↔ s.opRank w = s.opRank v := by
    rw [classNow_eq, classNow_eq]
    exact ⟨congrArg _, classRank_injective _ _ _⟩
  unfold State.goesBefore
  rw [hclass]
  simp only [opRank_eq_idxOf, Nat.add_lt_add_iff_right]
  rfl

theorem goesBefore_refl (s : State) (w : WaitingOp) : s.goesBefore w w :=
  (goesBefore_iff s w w).2 (Or.inr ⟨rfl, le_rfl⟩)

theorem goesBefore_trans {s : State} {u v w : WaitingOp} (huv : s.goesBefore u v) (hvw : s.goesBefore v w) : s.goesBefore u w := by
  rw [goesBefore_iff] at *
  omega

/-! ## The search for the best operation (R98) -/

/-- Of the best so far and another operation that may be chosen, the better goes before both. -/
theorem betterOp_of_may (s : State) (best : Option WaitingOp) (x : WaitingOp)
    (hx : mayChoose s.sup.state (opClass s.pageWait x.requester) = true) :
    ∃ w, s.betterOp best x = some w ∧ (w = x ∨ best = some w) ∧ s.goesBefore w x ∧ ∀ b, best = some b → s.goesBefore w b := by
  cases best with
  | none => exact ⟨x, by simp [State.betterOp, hx], Or.inl rfl, goesBefore_refl s x, fun _ hb => nomatch hb⟩
  | some b =>
    by_cases hbetter : s.opRank x < s.opRank b ∨ s.opRank x = s.opRank b ∧ s.arrivalAge b < s.arrivalAge x
    · refine ⟨x, by simp [State.betterOp, hx, hbetter], Or.inl rfl, goesBefore_refl s x, fun _ hb => ?_⟩
      cases hb
      rw [goesBefore_iff]
      omega
    · refine ⟨b, by simp [State.betterOp, hx, hbetter], Or.inr rfl, ?_, fun _ hb => ?_⟩
      · rw [goesBefore_iff]
        omega
      · cases hb
        exact goesBefore_refl s b

theorem betterOp_of_not_may (s : State) (best : Option WaitingOp) (x : WaitingOp)
    (hx : mayChoose s.sup.state (opClass s.pageWait x.requester) = false) : s.betterOp best x = best := by
  simp [State.betterOp, hx]

/-- The search ends with the best found so far where no operation of the list may be chosen. -/
theorem foldl_betterOp_of_not_may (s : State) (best : Option WaitingOp) : ∀ l : List WaitingOp,
    (∀ x ∈ l, mayChoose s.sup.state (opClass s.pageWait x.requester) = false) → l.foldl s.betterOp best = best
  | [], _ => rfl
  | x :: l, h => by
    rw [List.foldl_cons, betterOp_of_not_may s best x (h x (List.mem_cons_self ..))]
    exact foldl_betterOp_of_not_may s best l fun y hy => h y (List.mem_cons_of_mem x hy)

/-- A search that ends with none has come across no operation that may be chosen. -/
theorem not_may_of_foldl_betterOp (s : State) : ∀ (l : List WaitingOp) (best : Option WaitingOp), l.foldl s.betterOp best = none →
    best = none ∧ ∀ x ∈ l, mayChoose s.sup.state (opClass s.pageWait x.requester) = false
  | [], _, h => ⟨h, fun _ hx => absurd hx List.not_mem_nil⟩
  | x :: l, best, h => by
    obtain ⟨hnone, hrest⟩ := not_may_of_foldl_betterOp s l _ h
    cases hx : mayChoose s.sup.state (opClass s.pageWait x.requester) with
    | false =>
      rw [betterOp_of_not_may s best x hx] at hnone
      exact ⟨hnone, fun y hy => (List.mem_cons.1 hy).elim (fun he => he ▸ hx) (hrest y)⟩
    | true =>
      obtain ⟨w, hw, -⟩ := betterOp_of_may s best x hx
      rw [hw] at hnone
      contradiction

/-- The search ends with an operation of the list that may be chosen, or with the best found before it; it goes before that and before
every operation of the list that may be chosen. -/
theorem foldl_betterOp_some (s : State) (w : WaitingOp) : ∀ (l : List WaitingOp) (best : Option WaitingOp),
    l.foldl s.betterOp best = some w →
    (best = some w ∨ w ∈ l ∧ mayChoose s.sup.state (opClass s.pageWait w.requester) = true) ∧
      (∀ b, best = some b → s.goesBefore w b) ∧
      ∀ x ∈ l, mayChoose s.sup.state (opClass s.pageWait x.requester) = true → s.goesBefore w x
  | [], best, h => ⟨Or.inl h, fun b hb => by
      obtain rfl : w = b := Option.some.inj (h.symm.trans hb)
      exact goesBefore_refl s w, fun _ hx => absurd hx List.not_mem_nil⟩
  | x :: l, best, h => by
    rw [List.foldl_cons] at h
    obtain ⟨hsource, hbest, hrest⟩ := foldl_betterOp_some s w l _ h
    cases hx : mayChoose s.sup.state (opClass s.pageWait x.requester) with
    | false =>
      rw [betterOp_of_not_may s best x hx] at hsource hbest
      refine ⟨hsource.imp_right (And.imp_left (List.mem_cons_of_mem x)), hbest, fun y hy hmay => ?_⟩
      rcases List.mem_cons.1 hy with rfl | hy
      · rw [hx] at hmay; contradiction
      · exact hrest y hy hmay
    | true =>
      obtain ⟨b, hb, hbsource, hbx, hbold⟩ := betterOp_of_may s best x hx
      have hwb := hbest b hb
      refine ⟨?_, fun c hc => goesBefore_trans hwb (hbold c hc), fun y hy hmay => ?_⟩
      · rcases hsource with hw | ⟨hw, hmay⟩
        · obtain rfl : b = w := Option.some.inj (hb.symm.trans hw)
          refine hbsource.symm.imp_right fun he => ?_
          rw [he]
          exact ⟨List.mem_cons_self .., hx⟩
        · exact Or.inr ⟨List.mem_cons_of_mem x hw, hmay⟩
      · rcases List.mem_cons.1 hy with rfl | hy
        · exact goesBefore_trans hwb hbx
        · exact hrest y hy hmay

/-- The operation found may be chosen and goes before every other that may. -/
theorem bestOp_some (s : State) (w : WaitingOp) (h : s.bestOp = some w) :
    s.choosable w ∧ ∀ x, s.choosable x → s.goesBefore w x := by
  obtain ⟨hsource, -, hall⟩ := foldl_betterOp_some s w s.seq.ops none h
  refine ⟨(choosable_iff s w).2 (hsource.resolve_left nofun), fun x hx => ?_⟩
  obtain ⟨hmem, hmay⟩ := (choosable_iff s x).1 hx
  exact hall x hmem hmay

theorem bestOp_eq_none_iff (s : State) : s.bestOp = none ↔ ∀ v, ¬s.choosable v := by
  simp only [choosable_iff, not_and, Bool.not_eq_true]
  exact ⟨fun hnone => (not_may_of_foldl_betterOp s s.seq.ops none hnone).2, foldl_betterOp_of_not_may s none s.seq.ops⟩

/-! ## The choice and the issue (R98, R100) -/

/-- The record of the operation that a choice issues now. -/
theorem issueRecord_eq (s : State) (w : WaitingOp) : s.issueRecord w = {
    op := match w.op with
      | .pageProgram p data spare => .pageProgram p data (if p < 2 then spare else fillChecks data spare)
      | op => op,
    requester := w.requester, cls := s.classNow w.requester, issuedMs := s.clock.ms, issuedUs := s.clock.us,
    limit := match w.op with
      | .headerRead _ => 100
      | .pageRead _ => 200
      | .pageProgram _ _ _ => 4000
      | .mark _ _ _ => 1000
      | .erase _ => 25000
      | .readyWait => 25000,
    elapsed := 0, timeouts := 0 } := by
  rw [classNow_eq]
  unfold State.issueRecord
  cases w.op <;> rfl

/-- Settles O60. -/
theorem choiceTakesHighestClassThenOldest : Obligations.ChoiceTakesHighestClassThenOldest := by
  intro s
  refine ⟨fun v hv => ?_, fun hnone => ?_⟩
  · obtain ⟨w, hw⟩ := Option.ne_none_iff_exists'.1 fun hnone => (bestOp_eq_none_iff s).1 hnone v hv
    obtain ⟨hchoosable, hbefore⟩ := bestOp_some s w hw
    refine ⟨w, hchoosable, hbefore, ?_⟩
    rw [choose, hw]
    dsimp only
    rw [issueRecord_eq]
    rfl
  · rw [choose, (bestOp_eq_none_iff s).2 hnone]
    rfl

/-! ## Completions outside ISSUED (R91) -/

/-- Outside ISSUED every completion row is discarded (R91). -/
theorem complete_outside_issued (s : State) (isRow : InFlight → Bool) (handle : InFlight → State → State)
    (h : s.seq.phase ≠ .issued) : complete isRow handle s = s :=
  complete_discarded s isRow handle fun _ hissued => absurd hissued h

/-- Outside ISSUED no timer runs (R106). -/
theorem timedOp_outside_issued (s : State) (n : Nat) (h : s.seq.phase ≠ .issued) : s.timedOp n = none := by
  have haccepting : s.accepting = none :=
    Option.eq_none_iff_forall_ne_some.2 fun f hf => h ((accepting_eq_some s f).1 hf).1
  simp [State.timedOp, haccepting]

/-- Settles O59: every completion row goes through `complete`, and both timeouts look for an operation whose timer runs. -/
theorem completionsAtOtherMomentsDiscarded : Obligations.CompletionsAtOtherMomentsDiscarded := by
  intro st data spare asz s
  refine ⟨rfl, fun hphase => ?_⟩
  have hrow : ∀ isRow handle, (.next (complete isRow handle s) : Host.Outcome State Fault Refusal) = .next s :=
    fun isRow handle => congrArg Host.Outcome.next (complete_outside_issued s isRow handle hphase)
  have hfirst : timeoutOnce s = s := by rw [timeoutOnce, timedOp_outside_issued s 0 hphase]
  have hsecond : timeoutTwice s = s := by rw [timeoutTwice, timedOp_outside_issued s 1 hphase]
  simp only [List.forall_mem_cons]
  exact ⟨hrow _ _, hrow _ _, hrow _ _, hrow _ _, hrow _ _, hrow _ _, hrow _ _, hrow _ _, hrow _ _, hrow _ _, hrow _ _,
    hrow _ _, hrow _ _, congrArg Host.Outcome.next hfirst, congrArg Host.Outcome.next hsecond, nofun⟩

end Sys2Proof.Machine
end

section
/-!
PROOFS. What follows a reset completion (R136, R177, R178), the entry into FAULT (R37, R67, R108, R196), and the timeouts with the link
reset sequence between them (O58).
-/
namespace Sys2Proof.Machine

/-! ## The arrivals in MOUNTING (R136 to R138) -/

/-- While the channel is held every record waits on (R136). -/
theorem arriveWaiting_of_held (q : List (List Byte)) (s : State) (h : s.requestHeld = true) :
    arriveWaiting q s = setLinkQueue q s := by
  cases q with
  | nil => rfl
  | cons b q => rw [arriveWaiting, if_pos h]

/-- R138, R145: an idle channel begins to send the AGAIN at once. -/
theorem oweAgain_idle (tag : Nat) (s : State) (h : s.port.channel = .idle) : oweAgain tag s = { s with
    port := { s.port with againOwed := some tag, channel := .sendingAgain tag },
    maint := { s.maint with counters := { s.maint.counters with
      againResponses := satAdvance s.maint.counters.againResponses } } } := by
  unfold oweAgain beginSending countAgain setCounters
  simp only [State.setMaint, State.setPort, h]

/-- R137 case 1: a malformed record is discarded. -/
theorem arrive_malformed (b : List Byte) (s : State) (h : decodeRequest b = none) : arrive b s = latchProtocolFault s := by
  rw [arrive, h]

/-- R137 case 2: in MOUNTING a request of a new tag is owed an AGAIN. -/
theorem arrive_mounting (b : List Byte) (r : Request) (s : State) (h : decodeRequest b = some r)
    (hstate : s.sup.state = .mounting) (htable : s.port.table = []) : arrive b s = oweAgain r.tag s := by
  rw [arrive, h]
  dsimp only
  rw [htable, if_neg (by simp), if_pos (Or.inl hstate)]

/-- R136 to R138: in MOUNTING with an empty table the records that waited arrive until one is owed an AGAIN. -/
theorem arriveWaiting_mounting : ∀ (q : List (List Byte)) (s : State), s.sup.state = .mounting → s.port.table = [] →
    s.port.againOwed = none → s.port.channel = .idle → arriveWaiting q s = State.waitedArrive q s
  | [], _, _, _, _, _ => rfl
  | b :: q, s, hstate, htable, hagain, hchannel => by
    have hopen : ¬s.requestHeld = true := by simp [State.requestHeld, hstate, hagain]
    rw [arriveWaiting, if_neg hopen, State.waitedArrive]
    cases hb : decodeRequest b with
    | none =>
      rw [arrive_malformed b s hb]
      exact arriveWaiting_mounting q (latchProtocolFault s) hstate htable hagain hchannel
    | some r =>
      rw [arrive_mounting b r s hb hstate htable, oweAgain_idle r.tag s hchannel,
        arriveWaiting_of_held _ _ (by simp [State.requestHeld])]
      rfl

/-! ## What follows a reset completion (R177, R178) -/

theorem not_draining_of_before (s : State) (h : s.beforeService = true) : s.sup.state ≠ .draining := by
  intro hdraining
  simp [State.beforeService, hdraining] at h

/-- Before service only the records that wait on the link can follow an event that leaves no choice due and no request QUEUED. -/
theorem finish_before_service_arrives (a u : State) (hbefore : u.beforeService = true) (hhead : u.head = none)
    (hphase : u.seq.phase ≠ .issued) : finish a u = arriveWaiting u.port.linkQueue u := by
  have hrunning := not_draining_of_before u hbefore
  rw [finish, settle_of_none u (reexamine_of_before u hbefore), drainEnd_of_running u (Or.inl hrunning),
    endCompletion_of_done u (Or.inl hphase), placements_of_no_head a u hhead]

/-- A reset completion, written out (R177, R178). -/
theorem resetCompletion_eq (cause : ResetCause) (outcome : DrainOutcome) (s : State) :
    let r := s.blocksReset (s.resetRecord cause outcome) (s.maintAfterReset cause)
    resetCompletion cause outcome s = if s.pins.resetN then r.mountBegun else r := rfl

theorem resetCompletion_before (cause : ResetCause) (outcome : DrainOutcome) (s : State) :
    (resetCompletion cause outcome s).beforeService = true := by
  rw [resetCompletion_eq]
  split <;> rfl

/-- After a reset completion nothing follows but the arrivals in MOUNTING (R136). -/
theorem finish_resetCompletion (a : State) (cause : ResetCause) (outcome : DrainOutcome) (s : State) :
    finish a (resetCompletion cause outcome s) = s.resetDone (s.resetRecord cause outcome) (s.maintAfterReset cause) := by
  rw [resetCompletion_eq, State.resetDone]
  cases s.pins.resetN with
  | true =>
    simp only [if_true]
    rw [finish_before_service_arrives a _ rfl rfl (show SeqPhase.resync ≠ .issued by decide)]
    exact arriveWaiting_mounting _ _ rfl rfl rfl rfl
  | false =>
    simp only [Bool.false_eq_true, if_false]
    rw [finish_before_service_arrives a _ rfl rfl (show SeqPhase.idle ≠ .issued by decide)]
    exact arriveWaiting_held _ rfl

/-- The maintenance port after a reset that is no power-on reset (R198). -/
theorem maintAfterReset_eq (s : State) (c : PendingReset) : s.maintAfterReset c.toCause = s.maintReset := by
  have hblocks : s.maintAfterReset c.toCause = { s.maintReset with transaction := s.maint.transaction.afterReset } := by
    cases c <;> rfl
  have htransaction : s.maint.transaction.afterReset = s.maintReset.transaction := by
    unfold State.maintReset
    cases s.maint.transaction <;> rfl
  exact hblocks.trans (congrArg (fun t => { s.maintReset with transaction := t }) htransaction)

/-- R177: the record of a reset that was pending, its drain attempted. -/
theorem resetRecord_pending (s : State) (c : PendingReset) (outcome : DrainOutcome) (h : outcome ≠ .notAttempted) :
    s.resetRecord c.toCause outcome =
      { cause := c.toCause, outcome := outcome, lost := s.slotsInUse, duration := s.sup.drainClock.getD 0 } := by
  cases outcome with
  | notAttempted => exact absurd rfl h
  | complete | timedOut => cases c <;> rfl

/-- What follows the completion of a reset that was pending, its drain attempted. -/
theorem finish_pendingReset (a : State) (c : PendingReset) (outcome : DrainOutcome) (s : State) (h : outcome ≠ .notAttempted) :
    finish a (resetCompletion c.toCause outcome s) = s.resetDone
      { cause := c.toCause, outcome := outcome, lost := s.slotsInUse, duration := s.sup.drainClock.getD 0 } s.maintReset := by
  rw [finish_resetCompletion, resetRecord_pending s c outcome h, maintAfterReset_eq]

/-! ## The entry into FAULT (R37, R67, R108, R128, R196) -/

/-- R196: what the entry into FAULT makes of a commit. -/
theorem faulted_maint (s : State) : (s.faulted s.commitInFlight).maint = s.commitAtFault := by
  unfold State.faulted State.commitAtFault failCommit
  cases s.maint.job with
  | none => rfl
  | some job =>
    dsimp only
    congr 1
    cases job.target <;> simp [CopyStatus.setResult]

/-- R37, R67, R108, R196: a FAULT request where no reset is pending. -/
theorem requestFault_faulted (s : State) (hstate : s.sup.state ≠ .resetting) (hpending : s.sup.pendingReset = none) :
    requestFault s = s.faulted s.commitInFlight := by
  have henters : requestFault s =
      faultBarriers (faultReads (stopSequencer ((s.setMaint s.commitAtFault).setSup s.sup.inFault))) := by
    unfold requestFault
    rw [hpending]
    cases hs : s.sup.state with
    | resetting => exact absurd hs hstate
    | mounting | serving | readOnly | draining | halted | fault => rfl
  rw [henters, faultBarriers, answerPersists_eq, faultReads, foldl_becomeReady_eq (.fail .fault) (fun _ => []), ← faulted_maint]
  rfl

/-- R167: where a reset is pending a FAULT request completes it at once. -/
theorem requestFault_pending (s : State) (c : PendingReset) (hstate : s.sup.state ≠ .resetting)
    (hpending : s.sup.pendingReset = some c) : requestFault s = resetCompletion c.toCause .timedOut s := by
  unfold requestFault
  rw [hpending]
  cases hs : s.sup.state with
  | resetting => exact absurd hs hstate
  | mounting | serving | readOnly | draining | halted | fault => rfl

/-- R128: the mount ends with what the scan has given. -/
theorem mountFaultEnd_eq (s : State) : mountFaultEnd s = { s with
    mount := { s.mount with phase := .done, cursor := none, named := [] },
    xlat := if s.mount.phase = .scan then s.collected else s.xlat } := by
  unfold mountFaultEnd
  cases hp : s.mount.phase <;> rfl

theorem commitInFlight_eq (s : State) (f : InFlight) (h : s.seq.inFlight = some f) :
    s.commitInFlight = decide (f.requester = .configCommit) := by
  simp [State.commitInFlight, h]

/-! ## The timeouts and the link reset sequence (R95, R107, R108) -/

/-- The operation in flight whose timer runs with a timeout count. -/
theorem timedOp_issued (s : State) (f : InFlight) (n : Nat) (hphase : s.seq.phase = .issued) (hflight : s.seq.inFlight = some f)
    (hcount : f.timeouts = n) : s.timedOp n = some f := by
  simp [State.timedOp, (accepting_eq_some s f).2 ⟨hphase, hflight⟩, hcount]

theorem exec_firstTimeout (s : State) (f : InFlight) (hphase : s.seq.phase = .issued) (hflight : s.seq.inFlight = some f)
    (hcount : f.timeouts = 0) : exec .firstTimeout s = .next { s with
      seq := { s.seq with phase := .resync, inFlight := some { f with timeouts := 1 }, resyncUs := 0 } } := by
  show Host.Outcome.next (timeoutOnce s) = _
  rw [timeoutOnce, timedOp_issued s f 0 hphase hflight hcount]
  rfl

/-- R108: outside MOUNTING a second timeout requests FAULT. -/
theorem exec_secondTimeout (s : State) (f : InFlight) (hphase : s.seq.phase = .issued) (hflight : s.seq.inFlight = some f)
    (hcount : f.timeouts = 1) (hstate : s.sup.state ≠ .mounting) :
    exec .secondTimeout s = .next (finish s (requestFault s)) := by
  show Host.Outcome.next (timeoutTwice s) = _
  rw [timeoutTwice, timedOp_issued s f 1 hphase hflight hcount]
  cases hs : s.sup.state with
  | mounting => exact absurd hs hstate
  | resetting | serving | readOnly | draining | halted | fault => rfl

/-- R108, R128: in MOUNTING the mount ends first. -/
theorem exec_secondTimeout_mounting (s : State) (f : InFlight) (hphase : s.seq.phase = .issued)
    (hflight : s.seq.inFlight = some f) (hcount : f.timeouts = 1) (hstate : s.sup.state = .mounting) :
    exec .secondTimeout s = .next (finish s (requestFault (mountFaultEnd s))) := by
  show Host.Outcome.next (timeoutTwice s) = _
  rw [timeoutTwice, timedOp_issued s f 1 hphase hflight hcount, hstate]

/-- R107: at its end the operation that timed out is reissued. -/
theorem exec_linkResetEnd_reissues (s : State) (f : InFlight) (hphase : s.seq.phase = .resync) (hflight : s.seq.inFlight = some f) :
    exec .linkResetEnd s = .next { s with
      seq := { s.seq with
        phase := .issued, resyncUs := 0,
        inFlight := some { f with issuedMs := s.clock.ms, issuedUs := s.clock.us, elapsed := 0 } } } := by
  show Host.Outcome.next (resyncEnd s) = _
  rw [resyncEnd, hphase, hflight]
  rfl

/-- R95: with no operation to reissue a choice is made. -/
theorem exec_linkResetEnd_chooses (s : State) (hphase : s.seq.phase = .resync) (hflight : s.seq.inFlight = none) :
    exec .linkResetEnd s = .next (choose (s.setSeq { s.seq with phase := .idle, resyncUs := 0 })) := by
  show Host.Outcome.next (resyncEnd s) = _
  rw [resyncEnd, hphase, hflight]

/-- R95, R98: the choice in MOUNTING issues the READY WAIT that waits alone. -/
theorem choose_readyWait (s : State) (arrival : Word16) (hstate : s.sup.state = .mounting)
    (hops : s.seq.ops = [{ op := .readyWait, requester := .mount, arrival := arrival }]) :
    choose s = s.setSeq { s.seq with
      phase := .issued, ops := [],
      inFlight := some { op := .readyWait, requester := .mount, cls := 1, issuedMs := s.clock.ms, issuedUs := s.clock.us,
                         limit := 25000, elapsed := 0, timeouts := 0 } } := by
  rw [choose, bestOp_single s _ hops (by rw [hstate]; rfl), hops]
  dsimp only
  rw [List.erase_cons_head]
  rfl

/-- Settles O58. -/
theorem timeoutsAndLinkReset : Obligations.TimeoutsAndLinkReset := by
  intro f s hflight
  have hcommit := commitInFlight_eq s f hflight
  refine ⟨fun hphase hcount => exec_firstTimeout s f hphase hflight hcount,
    fun hphase => exec_linkResetEnd_reissues s f hphase hflight, fun hphase hcount => ?_, ?_⟩
  · intro ended
    refine ⟨fun hmounting hresetting hpending => ?_, fun hmounting hpending => ?_, fun c hdraining hpending => ?_⟩
    · rw [exec_secondTimeout s f hphase hflight hcount hmounting, requestFault_faulted s hresetting hpending, hcommit]
    · have hresetting : ended.sup.state ≠ .resetting := fun h => nomatch hmounting.symm.trans h
      have hended : mountFaultEnd s = ended := mountFaultEnd_eq s
      rw [exec_secondTimeout_mounting s f hphase hflight hcount hmounting, hended, requestFault_faulted ended hresetting hpending]
      exact congrArg (fun e => Host.Outcome.next (finish s (ended.faulted e))) hcommit
    · have hmounting : s.sup.state ≠ .mounting := by rw [hdraining]; decide
      have hresetting : s.sup.state ≠ .resetting := by rw [hdraining]; decide
      rw [exec_secondTimeout s f hphase hflight hcount hmounting, requestFault_pending s c hresetting hpending,
        finish_pendingReset s c .timedOut s nofun]
      cases c <;> rfl
  · intro arrival u hphase hnone hmounting hops
    rw [exec_linkResetEnd_chooses u hphase hnone]
    exact congrArg Host.Outcome.next
      (choose_readyWait (u.setSeq { u.seq with phase := .idle, resyncUs := 0 }) arrival hmounting hops)

end Sys2Proof.Machine
end

section
/-!
PROOFS. What follows an event (O5): the re-examinations one by one (R10, R49 to R53, R81), the drain end (R171), the choice (R101), the
placements (R139, R143) and the arrivals (R136).
-/
namespace Sys2Proof.Machine

/-! ## Re-examinations one at a time -/

/-- One re-examination and what follows it: either the table has its 16 slots, so that `settle` has turns enough, or nothing is due
after it. -/
theorem settle_of_one (u v : State) (hv : u.staging.slots.length = 16 ∨ v.reexamine = none) (h : u.reexamine = some v) :
    settle u = settle v := by
  rcases hv with hlength | hquiet
  · exact settle_of_reexamine u v hlength h
  · rw [settle_of_none v hquiet]
    simp only [settle, settleFor, h, hquiet]

/-- Two of them, one after the other. -/
theorem settle_of_two (u w v : State) (hw : w.staging.slots.length = u.staging.slots.length)
    (hv : u.staging.slots.length = 16 ∨ v.reexamine = none) (h1 : u.reexamine = some w) (h2 : w.reexamine = some v) :
    settle u = settle v := by
  rcases hv with hlength | hquiet
  · rw [settle_of_reexamine u w hlength h1, settle_of_reexamine w v (hw.trans hlength) h2]
  · rw [settle_of_none v hquiet]
    simp only [settle, settleFor, h1, h2, hquiet]

/-- The placements and the arrivals start from what the re-examinations, the drain end and the choice have led to. -/
theorem finish_congr (a u v : State) (h : endCompletion (drainEnd (settle u)) = endCompletion (drainEnd (settle v))) :
    finish a u = finish a v := by
  simp only [finish, h]

theorem finish_of_settle (a u v : State) (h : settle u = settle v) : finish a u = finish a v :=
  finish_congr a u v (by rw [h])

/-- The first re-examination of those that are due takes place. -/
theorem reexamine_of_endWait (s t : State) (h : s.endWait = some t) : s.reexamine = some t := by
  rw [State.reexamine, h]

theorem reexamine_of_engineStart (s : State) (i : Nat) (hwait : s.endWait = none) (h : s.engineStart = some i) :
    s.reexamine = some (takeSlot i s) := by
  rw [State.reexamine, hwait, h]

theorem reexamine_of_pressure (s : State) (i : Nat) (hwait : s.endWait = none) (hengine : s.engineStart = none)
    (hpressure : s.pressure = true) (h : s.oldestOpen = some i) : s.reexamine = some (sealSlot i s) := by
  rw [State.reexamine, hwait, hengine, if_pos hpressure, h]

theorem reexamine_of_eraseStart (s : State) (p : Nat) (hwait : s.endWait = none) (hengine : s.engineStart = none)
    (hpressure : s.pressure = false) (h : s.eraseStart = some p) : s.reexamine = some (startErase p s) := by
  rw [State.reexamine, hwait, hengine, hpressure, h]
  rfl

/-- An IDLE engine is in no PAGE WAIT. -/
theorem endWait_idle (s : State) (h : s.wb.phase = .idle) : s.endWait = none :=
  (endWait_none_iff s).2 (by simp [State.pageWait, h])

/-! ## The start of a write-back (R49 to R53) -/

/-- An IDLE engine: the re-examination leads where `State.writeBackFollows` says. -/
theorem reexamine_of_writeBackFollows (u v : State) (hidle : u.wb.phase = .idle) (h : u.writeBackFollows v) :
    u.reexamine = some v := by
  have hlooks := engineLooks_of_writeBackFollows u v hidle h
  obtain ⟨hw, hfree, before, after, i, x, hq, _, hx, hb, ⟨hs, hm, hpartner⟩, -⟩ := h
  have hstart := engineStart_first i before after u hidle hw hq hb (ready_of i x u hx hs hm hpartner)
  rw [reexamine_of_engineStart u i (endWait_idle u hidle) hstart, ← hlooks, engineLooks, hstart]

/-- R50, R52: the answer to a page request is not WAIT where a page is there, and where none is to come. -/
theorem waitOver_of_page (s : State) (p : Nat) (rest : List Nat) (h : s.xlat.freePool = p :: rest) : s.waitOver = true := by
  simp [State.waitOver, State.askPage, h]

theorem waitOver_of_none (s : State) (hpool : s.xlat.freePool = []) (herase : s.xlat.erase = .idle)
    (hqueue : s.xlat.eraseQueue = []) : s.waitOver = true := by
  simp [State.waitOver, State.askPage, hpool, herase, hqueue]

theorem endWait_first (s : State) (hw : s.writesBack) (hover : s.waitOver = true) (hp : s.wb.phase = .pageWaitFirst) :
    s.endWait = some (setWbPhase .idle s) := by
  simp [State.endWait, (writing_iff s).2 hw, hover, hp]

theorem endWait_retry (s : State) (i : Nat) (hw : s.writesBack) (hover : s.waitOver = true) (hp : s.wb.phase = .pageWaitRetry i) :
    s.endWait = some (retryWriteBack i s) := by
  simp [State.endWait, (writing_iff s).2 hw, hover, hp]

/-- R52: a first attempt's PAGE WAIT ends, and the engine takes the slot as an IDLE one does. -/
theorem writeBackFollows_of_wait (u v : State) (hp : u.wb.phase = .pageWaitFirst) (h : u.writeBackFollows v) :
    u.waitOver = true ∧ (setWbPhase .idle u).writeBackFollows v := by
  obtain ⟨hw, hfree, before, after, i, x, hq, hi, hx, hb, hready, hanswer⟩ := h
  rcases hanswer with ⟨_, p, rest, hpool, hv⟩ | ⟨_, hpool, herase, hqueue, hv⟩ | ⟨hidle, _⟩
  · exact ⟨waitOver_of_page u p rest hpool, hw, hfree, before, after, i, x, hq, hi, hx, hb, hready,
      Or.inl ⟨Or.inl rfl, p, rest, hpool, hv⟩⟩
  · exact ⟨waitOver_of_none u hpool herase hqueue, hw, hfree, before, after, i, x, hq, hi, hx, hb, hready,
      Or.inr (Or.inl ⟨Or.inl rfl, hpool, herase, hqueue, hv⟩)⟩
  · exact nomatch hp.symm.trans hidle

theorem settle_of_writeBackFollows (u v : State) (hv : u.staging.slots.length = 16 ∨ v.reexamine = none)
    (h : u.writeBackFollows v) : settle u = settle v := by
  have ⟨hw, _, _, _, _, _, _, _, _, _, _, hanswer⟩ := h
  have hphase : u.wb.phase = .idle ∨ u.wb.phase = .pageWaitFirst := by
    rcases hanswer with ⟨hp, _⟩ | ⟨hp, _⟩ | ⟨hp, _⟩
    · exact hp
    · exact hp
    · exact Or.inl hp
  rcases hphase with hidle | hwait
  · exact settle_of_one u v hv (reexamine_of_writeBackFollows u v hidle h)
  · obtain ⟨hover, htakes⟩ := writeBackFollows_of_wait u v hwait h
    exact settle_of_two u (setWbPhase .idle u) v rfl hv (reexamine_of_endWait u _ (endWait_first u hw hover hwait))
      (reexamine_of_writeBackFollows _ v rfl htakes)

/-! ## The end of a retry's PAGE WAIT (R52) -/

/-- A link that is free takes an operation of any class but the mount's, in the states in which write-backs start. -/
theorem mayChoose_of_writesBack (s : State) (cls : Nat) (hw : s.writesBack) (hc : cls ≠ 1) : mayChoose s.sup.state cls = true := by
  rcases hw with h | h | h <;> simp [mayChoose, h, hc]

theorem reexamine_of_waitEndFollows (u v : State) (h : u.waitEndFollows v) : u.reexamine = some v := by
  obtain ⟨hw, hfree, i, x, t, hp, _, hx, ht, hanswer⟩ := h
  have hlink : u.linkTakes 4 := fun hidle => ⟨hfree hidle, mayChoose_of_writesBack u 4 hw (by decide)⟩
  refine reexamine_of_endWait u v ?_
  rcases hanswer with ⟨q, rest, hpool, hne, rfl⟩ | ⟨hpool, herase, hqueue, rfl⟩
  · rw [endWait_retry u i hw (waitOver_of_page u q rest hpool) hp, retryWriteBack_page i x q rest t u hlink hx ht hpool hne]
  · rw [endWait_retry u i hw (waitOver_of_none u hpool herase hqueue) hp,
      retryWriteBack_none i x t u hlink hx ht hpool herase hqueue]

/-! ## A pressure seal (R10) -/

/-- A state that no slot of the table is in counts none. -/
theorem slotCount_eq_zero (s : State) (st : SlotState) (hl : s.staging.slots.length = 16) (h : ∀ j < 16, (s.slot j).state ≠ st) :
    s.slotCount st = 0 := by
  unfold State.slotCount
  rw [List.length_eq_zero_iff, List.filter_eq_nil_iff]
  intro sl hsl
  obtain ⟨j, hj, rfl⟩ := List.getElem_of_mem hsl
  have hslot : s.slot j = s.staging.slots[j] := by simp [State.slot, hj]
  rw [← hslot, decide_eq_true_eq]
  exact h j (hl ▸ hj)

/-- With no slot SEALED none is ready (R48). -/
theorem ready_of_none_sealed (s : State) (hl : s.staging.slots.length = 16) (h : ∀ j < 16, (s.slot j).state ≠ .sealed) (j : Nat) :
    s.ready j = false := by
  have hsealed : (s.slot j).state ≠ .sealed := fun hs => h j (hl ▸ slot_in_range (by simp [hs])) hs
  simp [State.ready, hsealed]

theorem reexamine_of_pressureFollows (u v : State) (h : u.pressureFollows v) : u.reexamine = some v := by
  obtain ⟨hr, hidle, hhigh, hl, hnone, i, hi, rfl⟩ := h
  have hsealed : ∀ j < 16, (u.slot j).state ≠ .sealed := fun j hj => (hnone j hj).1
  have hwriting : ∀ j < 16, (u.slot j).state ≠ .writing := fun j hj => (hnone j hj).2
  have hpressure : u.pressure = true := by
    simp [State.pressure, (inService_iff u).2 hr, hhigh, slotCount_eq_zero u _ hl hsealed, slotCount_eq_zero u _ hl hwriting]
  exact reexamine_of_pressure u i (endWait_idle u hidle)
    (engineStart_none u (Or.inr (Or.inr fun j _ => ready_of_none_sealed u hl hsealed j))) hpressure (oldestOpen_of_oldestIs u i hi)

/-! ## The start of an erase (R81, R82) -/

theorem startErase_eq (p : Nat) (s : State) (hw : s.writesBack) (hfree : s.linkFree) : startErase p s = s.eraseStarted p := by
  have hclass : opClass s.pageWait .eraseEngine ≠ 1 := by cases s.pageWait <;> decide
  exact requestOp_asked (.erase p) .eraseEngine
    (setPageState p .erasing (s.setXlat { s.xlat with eraseQueue := s.xlat.eraseQueue.erase p, erase := .erase p })) hfree
    (mayChoose_of_writesBack s _ hw hclass)

theorem eraseStart_first (p : Nat) (before after : List Nat) (s : State) (hw : s.writesBack) (hidle : s.xlat.erase = .idle)
    (hq : s.xlat.eraseQueue = before ++ p :: after) (hb : ∀ q ∈ before, (s.pageEntry q).pins ≠ 0)
    (hp : (s.pageEntry p).pins = 0) : s.eraseStart = some p := by
  have hbefore : before.find? (fun q => decide ((s.pageEntry q).pins = 0)) = none := by simpa [List.find?_eq_none] using hb
  simp [State.eraseStart, hidle, (writing_iff s).2 hw, State.firstUnpinned, hq, List.find?_append, hbefore, hp]

theorem reexamine_of_eraseFollows (u v : State) (h : u.eraseFollows v) : u.reexamine = some v := by
  obtain ⟨hw, hfree, hidle, hwait, hengine, hpressure, before, after, p, hq, hb, hp, rfl⟩ := h
  rw [reexamine_of_eraseStart u p hwait hengine hpressure (eraseStart_first p before after u hw hidle hq hb hp),
    startErase_eq p u hw hfree]

theorem settle_of_follows (u v : State) (hv : u.staging.slots.length = 16 ∨ v.reexamine = none)
    (h : u.writeBackFollows v ∨ u.waitEndFollows v ∨ u.pressureFollows v ∨ u.eraseFollows v) : settle u = settle v := by
  rcases h with h | h | h | h
  · exact settle_of_writeBackFollows u v hv h
  · exact settle_of_one u v hv (reexamine_of_waitEndFollows u v h)
  · exact settle_of_one u v hv (reexamine_of_pressureFollows u v h)
  · exact settle_of_one u v hv (reexamine_of_eraseFollows u v h)

/-! ## The drain end (R171) -/

/-- With nothing OPEN there is nothing to seal. -/
theorem oldestOpen_of_not_staged (s : State) (h : s.anyStaged = false) : s.oldestOpen = none := by
  cases ho : s.oldestOpen with
  | none => rfl
  | some i =>
    have hopened := oldestOpen_opened ho
    have hrange := slot_in_range (s := s) (i := i) (by simp [hopened])
    have hslot : s.slot i = s.staging.slots[i] := by simp [State.slot, hrange]
    have hstaged : s.anyStaged = true := List.any_eq_true.2 ⟨s.slot i, hslot ▸ List.getElem_mem hrange, by simp [hopened]⟩
    rw [h] at hstaged
    contradiction

/-- Where nothing was due and nothing is staged, a new operating state brings nothing due: it starts no write-back and no erase that
could not start before. -/
theorem reexamine_none_of_setSup (s : State) (u : Supervisor) (h : s.reexamine = none) (hw : s.writing = true)
    (hstaged : s.anyStaged = false) : (s.setSup u).reexamine = none := by
  obtain ⟨hwait, hengine, -, herase⟩ := (reexamine_none_iff s).1 h
  have hopen : (s.setSup u).oldestOpen = none := oldestOpen_of_not_staged (s.setSup u) hstaged
  rw [reexamine_none_iff, hopen, ite_self]
  cases hwriting : (s.setSup u).writing with
  | true =>
    have hsame : (s.setSup u).writing = s.writing := hwriting.trans hw.symm
    refine ⟨?_, ?_, rfl, ?_⟩
    · rw [endWait_none_iff] at hwait ⊢
      rw [hsame]
      exact hwait
    · rw [State.engineStart, hsame]
      exact hengine
    · rw [State.eraseStart, hsame]
      exact herase
  | false =>
    refine ⟨(endWait_none_iff _).2 (by simp [hwriting]), ?_, rfl, ?_⟩
    · rw [State.engineStart, hwriting]
      split <;> rfl
    · rw [State.eraseStart, hwriting]
      split <;> rfl

/-- R171: with no reset pending a drain ends in HALTED where the power warning is ASSERTED. -/
theorem drainEnd_halts (s : State) (hdraining : s.sup.state = .draining) (hstaged : s.anyStaged = false)
    (hpending : s.sup.pendingReset = none) (hwarning : s.sup.warning = .asserted) : drainEnd s =
      s.setSup { s.sup with state := .halted, cause := none, drainClock := none, resetTimer := none } := by
  rw [drainEnd, if_pos ⟨hdraining, hstaged⟩, hpending, hwarning]

/-- R171: with no reset pending and the power warning not ASSERTED a drain ends in the return state. -/
theorem drainEnd_returns (s : State) (r : ReturnState) (hdraining : s.sup.state = .draining) (hstaged : s.anyStaged = false)
    (hpending : s.sup.pendingReset = none) (hwarning : s.sup.warning ≠ .asserted) (hr : s.sup.returnTo = some r) :
    drainEnd s = s.setSup { s.sup with
      state := r.toState, cause := none, returnTo := none, drainClock := none, resetTimer := none } := by
  rw [drainEnd, if_pos ⟨hdraining, hstaged⟩, hpending]
  cases hw : s.sup.warning with
  | asserted => exact absurd hw hwarning
  | clear | qualifying _ =>
    dsimp only
    rw [hr]
    rfl

theorem drainEnd_of_drainEndFollows (u v : State) (h : u.drainEndFollows v) :
    drainEnd u = v ∧ v.reexamine = none ∧ v.sup.state ≠ .draining := by
  obtain ⟨hquiet, hdraining, hstaged, hpending, hanswer⟩ := h
  have hwriting : u.writing = true := (writing_iff u).2 (Or.inr (Or.inr hdraining))
  have hafter := fun sup => reexamine_none_of_setSup u sup hquiet hwriting hstaged
  rcases hanswer with ⟨hwarning, rfl⟩ | ⟨hwarning, r, hr, rfl⟩
  · exact ⟨drainEnd_halts u hdraining hstaged hpending hwarning, hafter _, nofun⟩
  · refine ⟨?_, hafter _, ?_⟩
    · rw [drainEnd_returns u r hdraining hstaged hpending hwarning hr]
      cases r <;> rfl
    · cases r <;> nofun

theorem running_of_not_drained (s : State) (h : ¬(s.sup.state = .draining ∧ s.anyStaged = false)) :
    s.sup.state ≠ .draining ∨ s.anyStaged = true :=
  (not_and_or.1 h).imp id Bool.eq_true_of_not_eq_false

/-- What follows a drain end is what follows the state that it leads to. -/
theorem finish_of_drainEnd (a u : State) (hu : u.reexamine = none) (hv : (drainEnd u).reexamine = none)
    (hstate : (drainEnd u).sup.state ≠ .draining) : finish a u = finish a (drainEnd u) := by
  have hagain : drainEnd (drainEnd u) = drainEnd u := drainEnd_of_running _ (Or.inl hstate)
  exact finish_congr a u _ (by rw [settle_of_none u hu, settle_of_none _ hv, hagain])

/-- R171, R177: a drain ends with the reset that was pending. -/
theorem finish_drainEnd_pending (a u : State) (c : PendingReset) (hquiet : u.reexamine = none)
    (hdraining : u.sup.state = .draining) (hstaged : u.anyStaged = false) (hpending : u.sup.pendingReset = some c) :
    finish a u = u.resetDone
      { cause := c.toCause, outcome := .complete, lost := u.slotsInUse, duration := u.sup.drainClock.getD 0 } u.maintReset := by
  have hend : drainEnd u = resetCompletion c.toCause .complete u := by
    unfold drainEnd
    rw [if_pos ⟨hdraining, hstaged⟩, hpending]
  have hbefore : (drainEnd u).beforeService = true := hend ▸ resetCompletion_before c.toCause .complete u
  have hstate : (drainEnd u).sup.state ≠ .draining := not_draining_of_before _ hbefore
  rw [finish_of_drainEnd a u hquiet (reexamine_of_before _ hbefore) hstate, hend]
  exact finish_pendingReset a c .complete u nofun

/-! ## The choice (R101) -/

/-- The re-examinations do not look at the sequencer. -/
theorem reexamine_none_of_setSeq (q : Sequencer) (s : State) (h : s.reexamine = none) : (s.setSeq q).reexamine = none := by
  rw [reexamine_none_iff, endWait_none_iff] at h ⊢
  exact h

/-- A choice changes the sequencer only, and leaves none due. -/
theorem choose_setSeq (s : State) : ∃ q : Sequencer, choose s = s.setSeq q ∧ (q.phase ≠ .issued ∨ q.inFlight.isSome = true) := by
  unfold choose
  split
  · exact ⟨_, rfl, Or.inr rfl⟩
  · exact ⟨_, rfl, Or.inl nofun⟩

theorem endCompletion_chooses (s : State) (hphase : s.seq.phase = .issued) (hflight : s.seq.inFlight = none) :
    endCompletion s = choose s := by
  rw [endCompletion, hphase, hflight]

/-- What follows the choice that ends a completion event is what follows the state that it leads to. -/
theorem finish_of_choice (a u : State) (hquiet : u.reexamine = none) (hdrain : ¬(u.sup.state = .draining ∧ u.anyStaged = false))
    (hphase : u.seq.phase = .issued) (hflight : u.seq.inFlight = none) : finish a u = finish a (choose u) := by
  have hrunning := running_of_not_drained u hdrain
  obtain ⟨q, hq, hdone⟩ := choose_setSeq u
  refine finish_congr a u _ ?_
  rw [settle_of_none u hquiet, drainEnd_of_running u hrunning, endCompletion_chooses u hphase hflight, hq,
    settle_of_none _ (reexamine_none_of_setSeq q u hquiet), drainEnd_of_running (u.setSeq q) hrunning,
    endCompletion_of_done (u.setSeq q) hdone]

/-! ## The placements and the arrivals (R136, R139, R143) -/

theorem finish_of_placesTo (a u v : State) (n : Nat) (hdue : u.nothingElseDue) (hn : n ≤ 64) (h : State.placesTo n a u v) :
    finish a u = arriveWaiting u.port.linkQueue v := by
  obtain ⟨hquiet, hdrain, hchoice⟩ := hdue
  have hrunning := running_of_not_drained u hdrain
  have hplaces : placements a u = v := placeFor_of_placesTo n 64 a u v hn h
  have hlink : v.port.linkQueue = u.port.linkQueue := hplaces ▸ placeFor_linkQueue 64 a u
  rw [finish, settle_of_none u hquiet, drainEnd_of_running u hrunning,
    endCompletion_of_done u (hchoice.imp id Option.isSome_iff_ne_none.2), hplaces, hlink]

/-- Where nothing is due but the choice that ends a completion event, it is all that follows (R101). -/
theorem finish_of_choiceDue (a u : State) (h : u.nothingDue) (hphase : u.seq.phase = .issued) (hflight : u.seq.inFlight = none) :
    finish a u = choose u := by
  obtain ⟨hquiet, hhead, hlink, hdrain⟩ := h
  have hrunning := running_of_not_drained u hdrain
  rw [finish_quiet a u hquiet hrunning hhead hlink, endCompletion_chooses u hphase hflight]

/-- Settles O5: each clause by the operation of `finish` that it is about. -/
theorem whatFollowsAnEvent : Obligations.WhatFollowsAnEvent := by
  refine ⟨fun a u hdue => ⟨finish_of_choiceDue a u hdue, finish_of_nothingDue a u hdue⟩, settle_of_none,
    fun a u v hv => ⟨fun hfollows => ?_, fun hfollows => ?_⟩, finish_of_choice,
    fun a u v n hdue hn hplaces => finish_of_placesTo a u v n hdue hn hplaces, ?_⟩
  · have hsettle := settle_of_follows u v hv hfollows
    exact ⟨hsettle, finish_of_settle a u v hsettle⟩
  · obtain ⟨rfl, hquiet, hstate⟩ := drainEnd_of_drainEndFollows u v hfollows
    obtain ⟨hbefore, _⟩ := hfollows
    exact finish_of_drainEnd a u hbefore hquiet hstate
  · intro a u c hquiet hdraining hstaged hpending
    rw [finish_drainEnd_pending a u c hquiet hdraining hstaged hpending]
    cases c <;> rfl

end Sys2Proof.Machine
end

section
/-!
PROOFS. The mount (O52 to O55): the strap check (R114, R115), the reads of the configuration copies and the selection (R116 to R119),
the header scan (R120 to R124) and its end (R125 to R127).
-/
namespace Sys2Proof.Machine

/-- R96, R101: during a completion event an operation joins the list. -/
theorem requestOp_joins (op : ArrayOp) (r : Requester) (s : State) (h : s.seq.phase = .issued) :
    requestOp op r s = s.setSeq (s.seq.joined op r) :=
  requestOp_busy op r s (Or.inl h)

/-! ## The strap check (R114, R115) -/

/-- The completion of the READY WAIT in flight releases its record. -/
theorem exec_readyWaitCompletion (asz : BitVec 2) (f : InFlight) (s : State) (hserving : s.serving f)
    (hr : f.requester = .mount) (hop : f.op = .readyWait) :
    exec (.readyWaitCompletion asz) s = .next (finish s (readyWaitDone asz (releaseOp s))) := by
  obtain ⟨hphase, hflight⟩ := hserving
  exact congrArg Host.Outcome.next
    (complete_accepted f s _ (fun _ t => readyWaitDone asz t) hphase hflight (by simp [hr, hop]))

theorem readyWaitDone_readyWait (asz : BitVec 2) (s : State) (h : s.mount.phase = .readyWait) :
    readyWaitDone asz s = strapCheck asz s := by
  rw [readyWaitDone, h]

/-- Codes 0, 1 and 2 name 1024, 2048 and 4096 pages. -/
theorem arraySizeOf_named : ∀ asz : BitVec 2, asz ≠ 3 → arraySizeOf asz = some (1024 * 2 ^ asz.toNat) := by
  decide

/-- R115: a code that names a size lets the read of copy A be passed. -/
theorem strapCheck_named (asz : BitVec 2) (s : State) (hasz : asz ≠ 3) (hissued : s.seq.phase = .issued) :
    strapCheck asz s = { s with
      seq := s.seq.joined (.pageRead 0) .mount,
      mount := { s.mount with phase := .configA, arraySize := some (1024 * 2 ^ asz.toNat), readNumber := 1 } } := by
  rw [strapCheck, arraySizeOf_named asz hasz]
  exact requestOp_joins _ _ (s.setMount _) hissued

/-- R115, R167: code 3 latches STRAP_FAULT and gives FAULT; no operation is in flight, so no commit's either. -/
theorem strapCheck_reserved (s : State) (hstate : s.sup.state ≠ .resetting) (hpending : s.sup.pendingReset = none)
    (hflight : s.seq.inFlight = none) : strapCheck 3 s = ({ s with
      mount := { s.mount with phase := .done },
      maint := { s.maint with flags := { s.maint.flags with strapFault := true } } } : State).faulted false := by
  have hcommit : ∀ u : State, u.seq = s.seq → u.commitInFlight = false := fun u hu => by
    rw [State.commitInFlight, hu, hflight]
  rw [← hcommit _ rfl]
  exact requestFault_faulted _ hstate hpending

/-- Settles O52. -/
theorem readyWaitMakesTheStrapCheck : Obligations.ReadyWaitMakesTheStrapCheck := by
  intro asz f s hserving hr hop hphase
  rw [exec_readyWaitCompletion asz f s hserving hr hop, readyWaitDone_readyWait asz (releaseOp s) hphase]
  refine ⟨fun hasz => ?_, fun hasz hmounting hpending => ?_⟩
  · rw [strapCheck_named asz (releaseOp s) hasz hserving.1]
    rfl
  · have hresetting : s.sup.state ≠ .resetting := by rw [hmounting]; decide
    rw [hasz, strapCheck_reserved (releaseOp s) hresetting hpending rfl]
    rfl

/-! ## The configuration copies (R116 to R119) -/

/-- The completion of the PAGE READ of the mount in flight releases its record. -/
theorem exec_configCopyReadCompletion (st : ArrayStatus) (data spare : List Byte) (f : InFlight) (s : State)
    (hserving : s.serving f) (hr : f.requester = .mount) (hop : f.op.isPageRead = true) :
    exec (.configCopyReadCompletion st data spare) s =
      .next (finish s (configCopyRead st data (releaseOp s))) := by
  obtain ⟨hphase, hflight⟩ := hserving
  exact congrArg Host.Outcome.next
    (complete_accepted f s _ (fun _ t => configCopyRead st data t) hphase hflight (by simp [hr, hop]))

/-- R116: a first read that is not valid is made again. -/
theorem copyVerdict_none (n : Nat) (st : ArrayStatus) (data : List Byte) (s : State) (hn : s.mount.arraySize = some n)
    (hinvalid : validCopy n st data = none) (hfirst : s.mount.readNumber = 1) : s.copyVerdict st data = none := by
  simp [State.copyVerdict, hn, hinvalid, hfirst]

/-- R116, R117: a valid read settles VALID, a second that is not settles INVALID. -/
theorem copyVerdict_some (n : Nat) (st : ArrayStatus) (data : List Byte) (r : CopyResult) (s : State)
    (hn : s.mount.arraySize = some n)
    (h : (∃ c, validCopy n st data = some c ∧ r = .valid c.generation data) ∨
      (validCopy n st data = none ∧ s.mount.readNumber = 2 ∧ r = .invalid)) : s.copyVerdict st data = some r := by
  rcases h with ⟨c, hvalid, rfl⟩ | ⟨hinvalid, hsecond, rfl⟩
  · simp [State.copyVerdict, hn, hvalid]
  · simp [State.copyVerdict, hn, hinvalid, hsecond]

/-- R116: the page of copy A is read again. -/
theorem configCopyRead_again_a (st : ArrayStatus) (data : List Byte) (s : State) (hissued : s.seq.phase = .issued)
    (hphase : s.mount.phase = .configA) (hverdict : s.copyVerdict st data = none) : configCopyRead st data s = { s with
      seq := s.seq.joined (.pageRead 0) .mount, mount := { s.mount with readNumber := 2 } } := by
  rw [configCopyRead, hphase, hverdict]
  exact requestOp_joins _ _ (s.setMount _) hissued

/-- R116: the page of copy B is read again. -/
theorem configCopyRead_again_b (st : ArrayStatus) (data : List Byte) (s : State) (hissued : s.seq.phase = .issued)
    (hphase : s.mount.phase = .configB) (hverdict : s.copyVerdict st data = none) : configCopyRead st data s = { s with
      seq := s.seq.joined (.pageRead 1) .mount, mount := { s.mount with readNumber := 2 } } := by
  rw [configCopyRead, hphase, hverdict]
  exact requestOp_joins _ _ (s.setMount _) hissued

/-- R116: once copy A is settled the read of copy B is passed. -/
theorem configCopyRead_settled_a (st : ArrayStatus) (data : List Byte) (r : CopyResult) (s : State)
    (hissued : s.seq.phase = .issued) (hphase : s.mount.phase = .configA) (hverdict : s.copyVerdict st data = some r) :
    configCopyRead st data s = { s with
      seq := s.seq.joined (.pageRead 1) .mount,
      mount := { s.mount with copyA := r, phase := .configB, readNumber := 1 } } := by
  rw [configCopyRead, hphase, hverdict]
  exact requestOp_joins _ _ (s.setMount _) hissued

/-- R118: once copy B is settled the selection is made. -/
theorem configCopyRead_settled_b (n : Nat) (st : ArrayStatus) (data : List Byte) (r : CopyResult) (s : State)
    (hn : s.mount.arraySize = some n) (hphase : s.mount.phase = .configB) (hverdict : s.copyVerdict st data = some r) :
    configCopyRead st data s = applySelection (selectConfig n s.mount.copyA r) (s.setMount { s.mount with copyB := r }) := by
  rw [configCopyRead, hphase, hverdict]
  dsimp only
  rw [selectActive, State.setMount_mount, hn]
  rfl

theorem fieldsOr_of_some (n : Nat) (record : List Byte) (v : ConfigFields) (h : configFields n record = some v) :
    fieldsOr n record = v := by
  rw [fieldsOr, h]
  rfl

/-- R118, R119: the values handed to the blocks, and the first HEADER READ. -/
theorem applySelection_issued (sel : Selection) (s : State) (hissued : s.seq.phase = .issued) : applySelection sel s = { s with
    seq := s.seq.joined (.headerRead 2) .mount,
    xlat := { s.xlat with logicalPages := some sel.fields.l },
    staging := { s.staging with limitD := sel.fields.d, highH := sel.fields.h, delayW := sel.fields.w },
    sup := { s.sup with
      qualifyQ := sel.fields.q, resetLimit := sel.fields.tr, warning := s.sup.warning.reexamined sel.fields.q },
    mount := { s.mount with phase := .scan, cursor := some 2, readNumber := 1, windows := sel.fields.windows },
    maint := { s.maint with
      active := some sel.record,
      copyStatus := some { a := s.mount.copyA.generation, b := s.mount.copyB.generation, inUse := sel.chosen },
      flags := { s.maint.flags with configInvalid := sel.chosen.isNone } } } :=
  requestOp_joins _ _ _ hissued

theorem reexamined_eq (w : PowerWarning) (q : Nat) : w.reexamined q = match w with
    | .qualifying e => if q * 16 ≤ e then .asserted else .qualifying e
    | w => w := by
  cases w <;> rfl

/-- R118: the selection by the two results, each row of its table. -/
theorem selectConfig_of_table (n : Nat) (a b : CopyResult) (v : ConfigFields) (record : List Byte) (chosen : Option Copy)
    (h : match a, b with
      | .valid ga ra, .valid gb rb =>
        if ga < gb then configFields n rb = some v ∧ record = rb ∧ chosen = some .b
        else configFields n ra = some v ∧ record = ra ∧ chosen = some .a
      | .valid _ ra, _ => configFields n ra = some v ∧ record = ra ∧ chosen = some .a
      | _, .valid _ rb => configFields n rb = some v ∧ record = rb ∧ chosen = some .b
      | _, _ => v = defaultFields n ∧ record = defaultRecord n ∧ chosen = none) :
    selectConfig n a b = { fields := v, record := record, chosen := chosen } := by
  cases a with
  | valid ga ra =>
    cases b with
    | valid gb rb =>
      by_cases hnewer : ga < gb
      · obtain ⟨hfields, rfl, rfl⟩ := (if_pos hnewer).mp h
        simp only [selectConfig, if_pos hnewer, fieldsOr_of_some n _ v hfields]
      · obtain ⟨hfields, rfl, rfl⟩ := (if_neg hnewer).mp h
        simp only [selectConfig, if_neg hnewer, fieldsOr_of_some n _ v hfields]
    | notRead | invalid =>
      obtain ⟨hfields, rfl, rfl⟩ := h
      simp only [selectConfig, fieldsOr_of_some n _ v hfields]
  | notRead | invalid =>
    cases b with
    | valid gb rb =>
      obtain ⟨hfields, rfl, rfl⟩ := h
      simp only [selectConfig, fieldsOr_of_some n _ v hfields]
    | notRead | invalid =>
      obtain ⟨rfl, rfl, rfl⟩ := h
      rfl

/-- Settles O53: a read that is made again, copy A settled, and copy B settled with the selection by the two results. -/
theorem configCopyReadCompletion : Obligations.ConfigCopyReadCompletion := by
  intro st data spare n r f s hserving hr hop hn
  rw [exec_configCopyReadCompletion st data spare f s hserving hr hop]
  obtain ⟨hissued, _⟩ := hserving
  refine ⟨fun hinvalid hfirst => ?_, fun hresult => ?_⟩
  · have hverdict := copyVerdict_none n st data (releaseOp s) hn hinvalid hfirst
    refine ⟨fun hphase => ?_, fun hphase => ?_⟩
    · rw [configCopyRead_again_a st data (releaseOp s) hissued hphase hverdict]
      rfl
    · rw [configCopyRead_again_b st data (releaseOp s) hissued hphase hverdict]
      rfl
  · have hverdict := copyVerdict_some n st data r (releaseOp s) hn hresult
    refine ⟨fun hphase => ?_, fun v record chosen hphase htable => ?_⟩
    · rw [configCopyRead_settled_a st data r (releaseOp s) hissued hphase hverdict]
      rfl
    · have hselect := selectConfig_of_table n s.mount.copyA r v record chosen htable
      intro gen
      rw [configCopyRead_settled_b n st data r (releaseOp s) hn hphase hverdict]
      show Host.Outcome.next (finish s (applySelection (selectConfig n s.mount.copyA r) _)) = _
      rw [hselect, applySelection_issued _ ((releaseOp s).setMount _) hissued, reexamined_eq]
      rfl

/-! ## The header scan (R120 to R124) -/

/-- The completion of the HEADER READ of the mount in flight releases its record. -/
theorem exec_headerReadCompletion (st : ArrayStatus) (spare : List Byte) (f : InFlight) (s : State) (hserving : s.serving f)
    (hr : f.requester = .mount) (hop : f.op.isHeaderRead = true) :
    exec (.headerReadCompletion st spare) s = .next (finish s (headerRead st spare (releaseOp s))) := by
  obtain ⟨hphase, hflight⟩ := hserving
  exact congrArg Host.Outcome.next
    (complete_accepted f s _ (fun _ t => headerRead st spare t) hphase hflight (by simp [hr, hop]))

/-- R120: a page is read again after a first read that failed or found a torn header. -/
theorem rereads_iff (st : ArrayStatus) (spare : List Byte) (s : State) :
    s.rereads st spare = true ↔ s.mount.readNumber = 1 ∧ (st = .fail ∨ headerTorn spare) := by
  cases st <;> simp [State.rereads, headerTorn, and_assoc]

/-- R120: a second read, and a first that passed and found no torn header, are the last of their page. -/
theorem not_rereads (st : ArrayStatus) (spare : List Byte) (s : State)
    (h : s.mount.readNumber = 2 ∨ (st = .pass ∧ ¬headerTorn spare)) : s.rereads st spare = false := by
  rw [Bool.eq_false_iff, Ne, rereads_iff]
  rintro ⟨hfirst, hbad⟩
  rcases h with hsecond | ⟨rfl, hwhole⟩
  · rw [hfirst] at hsecond
    contradiction
  · exact hbad.elim nofun hwhole

theorem headerRead_again (p : Nat) (st : ArrayStatus) (spare : List Byte) (s : State) (hissued : s.seq.phase = .issued)
    (hphase : s.mount.phase = .scan) (hcursor : s.mount.cursor = some p) (hrereads : s.rereads st spare = true) :
    headerRead st spare s = { s with
      seq := s.seq.joined (.headerRead p) .mount, mount := { s.mount with readNumber := 2 } } := by
  rw [headerRead, hphase, hcursor]
  dsimp only
  rw [if_pos hrereads]
  exact requestOp_joins _ _ (s.setMount _) hissued

theorem headerRead_classifies (p : Nat) (st : ArrayStatus) (spare : List Byte) (s : State) (hphase : s.mount.phase = .scan)
    (hcursor : s.mount.cursor = some p) (hrereads : s.rereads st spare = false) :
    headerRead st spare s = advanceScan p (classifyPage p st spare s) := by
  rw [headerRead, hphase, hcursor]
  dsimp only
  rw [hrereads]
  rfl

theorem validHeader_iff (spare : List Byte) : validHeader spare = true ↔ headerValid spare := by
  simp [validHeader, headerValid, and_assoc]

/-- R122: the largest sequence after a read. -/
theorem feedLargest_eq (spare : List Byte) (largest : Word32) (s : State)
    (h : (headerValid spare ∧ s.mount.largest < BitVec.ofNat 32 (spareSequence spare) ∧
        largest = BitVec.ofNat 32 (spareSequence spare)) ∨
      (¬(headerValid spare ∧ s.mount.largest < BitVec.ofNat 32 (spareSequence spare)) ∧ largest = s.mount.largest)) :
    feedLargest spare s = s.setMount { s.mount with largest := largest } := by
  have hfeeds : (validHeader spare && decide (s.mount.largest < BitVec.ofNat 32 (spareSequence spare))) = true ↔
      headerValid spare ∧ s.mount.largest < BitVec.ofNat 32 (spareSequence spare) := by
    rw [Bool.and_eq_true, validHeader_iff, decide_eq_true_eq]
  rcases h with ⟨hvalid, hlarger, rfl⟩ | ⟨hnot, rfl⟩
  · exact if_pos (hfeeds.2 ⟨hvalid, hlarger⟩)
  · exact if_neg (mt hfeeds.1 hnot)

/-- The bytes that R121 step 3 looks at all read erased. -/
theorem headerErased_iff (spare : List Byte) : headerErased spare = true ↔ ∀ b ∈ (spare.drop 1).take 13, b = (0xFF : Byte) := by
  simp only [headerErased, List.all_eq_true, decide_eq_true_eq]
  rfl

/-! ### The table of R121 -/

theorem classify_bad (spare : List Byte) (h : spareRetire spare ≠ 0xFF) : classify spare = .bad := if_pos h

theorem classify_unclean (spare : List Byte) (hretire : spareRetire spare = 0xFF) (hclean : spareClean spare ≠ 0x5A) :
    classify spare = .stale := by
  rw [classify, if_neg (not_not.2 hretire), if_pos hclean]

theorem classify_free (spare : List Byte) (hretire : spareRetire spare = 0xFF) (hclean : spareClean spare = 0x5A)
    (herased : headerErased spare = true) : classify spare = .free := by
  simp [classify, hretire, hclean, herased]

theorem classify_candidate (spare : List Byte) (hretire : spareRetire spare = 0xFF) (hclean : spareClean spare = 0x5A)
    (herased : headerErased spare = false) (hvalid : headerValid spare) (hcommit : spareCommit spare = 0x00) :
    classify spare = .candidate (spareLogical spare) (BitVec.ofNat 32 (spareSequence spare)) := by
  simp [classify, hretire, hclean, herased, (validHeader_iff spare).2 hvalid, hcommit]

theorem classify_uncommitted (spare : List Byte) (hretire : spareRetire spare = 0xFF) (hclean : spareClean spare = 0x5A)
    (herased : headerErased spare = false) (h : ¬(headerValid spare ∧ spareCommit spare = 0x00)) :
    classify spare = .stale := by
  rw [← validHeader_iff] at h
  simp only [classify, hretire, hclean, herased, Bool.and_eq_true, decide_eq_true_eq, if_neg h]
  rfl

/-! ### The candidates of R124 -/

theorem resolveCandidate_beyond (p x l : Nat) (q : Word32) (s : State) (hl : s.xlat.logicalPages = some l) (hx : l ≤ x) :
    resolveCandidate p x q s = classifyAs p .stale s := by
  rw [resolveCandidate, hl]
  exact if_pos hx

theorem resolveCandidate_unnamed (p x l : Nat) (q : Word32) (s : State) (hl : s.xlat.logicalPages = some l) (hx : x < l)
    (hmap : s.map x = none) : resolveCandidate p x q s = nameCandidate x p q s := by
  rw [resolveCandidate, hl, hmap]
  exact if_neg (Nat.not_le.2 hx)

theorem resolveCandidate_newer (p x l old : Nat) (q : Word32) (s : State) (hl : s.xlat.logicalPages = some l) (hx : x < l)
    (hmap : s.map x = some old) (hq : (tableGet x s.mount.named).getD 0 < q) :
    resolveCandidate p x q s = nameCandidate x p q (setPageState old .stale s) := by
  rw [resolveCandidate, hl, hmap]
  exact (if_neg (Nat.not_le.2 hx)).trans (if_pos hq)

theorem resolveCandidate_older (p x l old : Nat) (q : Word32) (s : State) (hl : s.xlat.logicalPages = some l) (hx : x < l)
    (hmap : s.map x = some old) (hq : ¬(tableGet x s.mount.named).getD 0 < q) :
    resolveCandidate p x q s = classifyAs p .stale s := by
  rw [resolveCandidate, hl, hmap]
  exact (if_neg (Nat.not_le.2 hx)).trans (if_neg hq)

/-! ### A page classified -/

/-- The scan with the tables, the largest sequence and the list of sequence numbers that a page has given. -/
def State.scanned (s : State) (x : Translation) (largest : Word32) (named : List (Nat × Word32)) : State :=
  { s with xlat := x, mount := { s.mount with largest := largest, named := named } }

/-- A passed read feeds the largest sequence, then goes by its class. -/
theorem classifyPage_pass (p : Nat) (spare : List Byte) (largest : Word32) (s : State)
    (hfeed : feedLargest spare s = s.setMount { s.mount with largest := largest }) :
    classifyPage p .pass spare s = match classify spare with
      | .bad => classifyAs p .bad (s.setMount { s.mount with largest := largest })
      | .stale => classifyAs p .stale (s.setMount { s.mount with largest := largest })
      | .free => classifyAs p .free (s.setMount { s.mount with largest := largest })
      | .candidate x q => resolveCandidate p x q (s.setMount { s.mount with largest := largest }) := by
  rw [← hfeed]
  rfl

/-- What the classification of a page gives is what R121 to R124 say: the line of the table that applies, and for a candidate what
the remap table holds. L stays. -/
theorem headerGives_of_classifyPage (p l : Nat) (st : ArrayStatus) (spare : List Byte) (s : State)
    (gives : Translation → Word32 → List (Nat × Word32) → Prop) (hl : s.xlat.logicalPages = some l)
    (h : ∀ x largest named, x.logicalPages = some l → classifyPage p st spare s = s.scanned x largest named →
      gives x largest named) : s.headerGives p l st spare gives := by
  refine ⟨?_, ?_⟩
  · rintro rfl
    exact h _ _ _ hl rfl
  · rintro rfl largest hlargest
    have hpage := classifyPage_pass p spare largest s (feedLargest_eq spare largest s hlargest)
    refine ⟨fun hretire => ?_, fun hretire hclean => ?_, fun hretire hclean => ⟨fun herased => ?_,
      fun herased huncommitted => ?_, fun herased hvalid hcommit => ?_⟩⟩
    · rw [classify_bad spare hretire] at hpage
      exact h _ _ _ hl hpage
    · rw [classify_unclean spare hretire hclean] at hpage
      exact h _ _ _ hl hpage
    · rw [classify_free spare hretire hclean ((headerErased_iff spare).2 herased)] at hpage
      exact h _ _ _ hl hpage
    · rw [← headerErased_iff, Bool.not_eq_true] at herased
      rw [classify_uncommitted spare hretire hclean herased huncommitted] at hpage
      exact h _ _ _ hl hpage
    · rw [← headerErased_iff, Bool.not_eq_true] at herased
      rw [classify_candidate spare hretire hclean herased hvalid hcommit] at hpage
      refine ⟨fun hx => ?_, fun hx hmap => ?_, fun old hx hmap => ⟨fun hnewer => ?_, fun holder => ?_⟩⟩
      · exact h _ _ _ hl (hpage.trans (resolveCandidate_beyond p _ l _ (s.setMount _) hl hx))
      · exact h _ _ _ hl (hpage.trans (resolveCandidate_unnamed p _ l _ (s.setMount _) hl hx hmap))
      · exact h _ _ _ hl (hpage.trans (resolveCandidate_newer p _ l old _ (s.setMount _) hl hx hmap hnewer))
      · exact h _ _ _ hl (hpage.trans (resolveCandidate_older p _ l old _ (s.setMount _) hl hx hmap holder))

/-- R120: before the last page the scan goes on. -/
theorem advanceScan_next (p n : Nat) (s : State) (hissued : s.seq.phase = .issued) (hn : s.mount.arraySize = some n)
    (hp : p + 1 < n) : advanceScan p s = { s with
      seq := s.seq.joined (.headerRead (p + 1)) .mount,
      mount := { s.mount with cursor := some (p + 1), readNumber := 1 } } := by
  rw [advanceScan, if_pos (by rw [hn]; exact hp)]
  exact requestOp_joins _ _ (s.setMount _) hissued

/-- What a header gives does not look at the sequencer. -/
theorem headerGives_releaseOp (p l : Nat) (st : ArrayStatus) (spare : List Byte) (s : State)
    (gives : Translation → Word32 → List (Nat × Word32) → Prop) :
    (releaseOp s).headerGives p l st spare gives = s.headerGives p l st spare gives := rfl

/-- Settles O54. -/
theorem headerReadCompletion : Obligations.HeaderReadCompletion := by
  intro p n l st spare f s hserving hr hop hphase hcursor hn hl
  rw [exec_headerReadCompletion st spare f s hserving hr hop]
  obtain ⟨hissued, _⟩ := hserving
  refine ⟨fun hfirst hbad => ?_, fun hp hlast => ?_⟩
  · rw [headerRead_again p st spare (releaseOp s) hissued hphase hcursor ((rereads_iff st spare (releaseOp s)).2 ⟨hfirst, hbad⟩)]
    rfl
  · rw [← headerGives_releaseOp]
    refine headerGives_of_classifyPage p l st spare (releaseOp s) _ hl fun x largest named _ hpage => ?_
    rw [headerRead_classifies p st spare (releaseOp s) hphase hcursor (not_rereads st spare (releaseOp s) hlast), hpage,
      advanceScan_next p n ((releaseOp s).scanned x largest named) hissued hn hp]
    rfl

/-! ## The end of the mount (R125 to R127) -/

/-- R127: READ_ONLY exactly where a reserve holds. -/
theorem exitState_eq (s : State) (exit : ReturnState)
    (h : (s.inReserve = true ∧ exit = .readOnly) ∨ (s.inReserve = false ∧ exit = .serving)) : s.exitState = exit := by
  have hreserve : (s.inSequenceReserve || s.inBadPageReserve) = s.inReserve := rfl
  rw [State.exitState, hreserve]
  rcases h with ⟨hholds, rfl⟩ | ⟨hnone, rfl⟩
  · rw [hholds]; rfl
  · rw [hnone]; rfl

/-- R88, R89: a reserve holds, by the numbers. -/
theorem inReserve_iff (s : State) : s.inReserve = true ↔ 4294967232 ≤ s.xlat.sequence ∨
    s.mount.arraySize.getD 0 - 2 - s.xlat.logicalPages.getD 0 -
      (s.xlat.pages.filter (fun e => e.2.state = .bad)).length < s.staging.limitD + 4 := by
  simp [State.inReserve, State.sequenceReserve, State.badPageReserve]

/-- R165, R169: the exit request gives the exit state, or HALTED with it as return state. -/
def Supervisor.afterMount (u : Supervisor) (exit : ReturnState) : Supervisor :=
  match u.warning with
  | .asserted => { u with state := .halted, returnTo := some exit }
  | _ => { u with state := exit.toState }

theorem exitMount_eq (s : State) : exitMount s = s.setSup (s.sup.afterMount s.exitState) := by
  cases hw : s.sup.warning <;> simp only [exitMount, Supervisor.afterMount, hw]

/-- R125 to R127: what the end of the mount leaves. -/
theorem mountExit_eq (exit : ReturnState) (s : State) (hexit : (buildCollections s).exitState = exit) : mountExit s = { s with
    xlat := s.collected,
    guard := { windows := s.mount.windows, captures := List.replicate 8 { fields := none, hits := 0 } },
    mount := { s.mount with phase := .done, cursor := none, named := [] },
    sup := s.sup.afterMount exit } := by
  subst hexit
  exact exitMount_eq _

theorem advanceScan_last (p n : Nat) (s : State) (hn : s.mount.arraySize = some n) (hp : n ≤ p + 1) :
    advanceScan p s = mountExit s := by
  rw [advanceScan, if_neg (by rw [hn]; exact Nat.not_lt.2 hp)]

/-- Settles O55. -/
theorem lastHeaderEndsTheMount : Obligations.LastHeaderEndsTheMount := by
  intro p n l st spare f s hserving hr hop hphase hcursor hn hp hl hlast
  rw [← headerGives_releaseOp]
  refine headerGives_of_classifyPage p l st spare (releaseOp s) _ hl fun x largest named hx hpage => ?_
  intro inState reserve exit hexit
  have hreserve : (buildCollections ((releaseOp s).scanned x largest named)).inReserve = true ↔ reserve := by
    rw [inReserve_iff]
    show _ ∨ s.mount.arraySize.getD 0 - 2 - x.logicalPages.getD 0 - _ < _ ↔ _
    rw [hn, hx, ← List.length_map (fun e => e.1)]
    rfl
  have hstate : (buildCollections ((releaseOp s).scanned x largest named)).exitState = exit :=
    exitState_eq _ exit (by rwa [← Bool.not_eq_true, hreserve])
  rw [exec_headerReadCompletion st spare f s hserving hr hop, headerRead_classifies p st spare (releaseOp s) hphase hcursor
    (not_rereads st spare (releaseOp s) hlast), hpage, advanceScan_last p n ((releaseOp s).scanned x largest named) hn hp,
    mountExit_eq exit _ hstate]
  rfl

end Sys2Proof.Machine
end

section
/-!
PROOFS. The configuration record (O37): where each field lies (R200), what is in range and valid (R117), and what the stamp of a
commit writes (R194).
-/
namespace Sys2Proof.Machine

/-! ## Parts of a list of bytes -/

theorem slice_append (off j k : Nat) (b : List Byte) : slice off j b ++ slice (off + j) k b = slice off (j + k) b := by
  rw [slice, slice, slice, List.take_add, List.drop_drop]

theorem slice_cons (off k : Nat) (b : List Byte) (h : off < b.length) :
    slice off (k + 1) b = byteAt b off :: slice (off + 1) k b := by
  rw [slice, List.drop_eq_getElem_cons h, List.take_succ_cons, byteAt, List.getD_eq_getElem _ _ h]
  rfl

theorem slice_slice (off len j k : Nat) (b : List Byte) (h : j + k ≤ len) :
    slice j k (slice off len b) = slice (off + j) k b := by
  simp only [slice, List.drop_take, List.take_take, List.drop_drop]
  rw [Nat.min_eq_left (by omega)]

theorem byteAt_slice (off len k : Nat) (b : List Byte) (h : k < len) : byteAt (slice off len b) k = byteAt b (off + k) := by
  simp [byteAt, slice, h]

/-- The number in a field of two bytes. -/
theorem leNat_slice_two (off : Nat) (b : List Byte) (h : off + 1 < b.length) :
    leNat (slice off 2 b) = (byteAt b off).toNat + 256 * (byteAt b (off + 1)).toNat := by
  rw [slice_cons off 1 b (by omega), slice_cons (off + 1) 0 b h]
  simp [leNat, slice]

/-- The number in a field of three bytes. -/
theorem leNat_slice_three (off : Nat) (b : List Byte) (h : off + 2 < b.length) :
    leNat (slice off 3 b) =
      (byteAt b off).toNat + 256 * (byteAt b (off + 1)).toNat + 65536 * (byteAt b (off + 2)).toNat := by
  rw [slice_cons off 2 b (by omega), leNat, leNat_slice_two (off + 1) b h, Nat.mul_add, ← Nat.mul_assoc, ← Nat.add_assoc]

/-- The bytes of a field's number are the field. -/
theorem leBytes_slice (off k : Nat) (b : List Byte) (h : off + k ≤ b.length) :
    leBytes k (leNat (slice off k b)) = slice off k b := by
  have hfield : (slice off k b).length = k := by rw [slice_length]; omega
  have hbytes := leBytes_leNat (slice off k b)
  rwa [hfield] at hbytes

/-- A word read from a field of its size has the field's bytes. -/
theorem leBytes_word (off k : Nat) (b : List Byte) (h : off + k ≤ b.length) :
    leBytes k (BitVec.ofNat (8 * k) (leNat (slice off k b))).toNat = slice off k b := by
  have hfits := leNat_lt (slice off k b)
  rw [slice_length, Nat.min_eq_left (by omega), show (256 : Nat) = 2 ^ 8 from rfl, ← Nat.pow_mul] at hfits
  rw [BitVec.toNat_ofNat, Nat.mod_eq_of_lt hfits, leBytes_slice off k b h]

theorem le16_eq_leBytes (n : Nat) : le16 n = leBytes 2 n := rfl

theorem le24_eq_leBytes (n : Nat) : le24 n = leBytes 3 n := by
  simp [le24, leBytes, Nat.div_div_eq_div_mul]

/-- New bytes that lie within the old ones stand between what is left of those. -/
theorem overlay_eq (off : Nat) (new old : List Byte) (h : off + new.length ≤ old.length) :
    overlay off new old = old.take off ++ new ++ old.drop (off + new.length) := by
  refine List.ext_getElem? fun k => ?_
  by_cases hk : k < old.length
  · rw [overlay_getElem? off new old k hk]
    grind
  · rw [List.getElem?_eq_none (by rw [overlay_length]; omega), List.getElem?_eq_none (by simp; omega)]

/-! ## Window records (R150, R200) -/

theorem decodeOnOff_some (b : Byte) (v : Bool) (h : decodeOnOff b = some v) : b.toNat ≤ 1 ∧ bit v = b := by
  unfold decodeOnOff at h
  split_ifs at h with h0 h1
  · cases h; subst h0; decide
  · cases h; subst h1; decide

theorem decodeOnOff_of_le (b : Byte) (h : b.toNat ≤ 1) : ∃ v, decodeOnOff b = some v := by
  unfold decodeOnOff
  split_ifs with h0 h1
  · exact ⟨_, rfl⟩
  · exact ⟨_, rfl⟩
  · bv_omega

theorem decodeKinds_some (b : Byte) (k : WindowKinds) (h : decodeKinds b = some k) :
    (1 ≤ b.toNat ∧ b.toNat ≤ 3) ∧ kindsByte k = b := by
  unfold decodeKinds at h
  split_ifs at h with h1 h2 h3
  · cases h; subst h1; decide
  · cases h; subst h2; decide
  · cases h; subst h3; decide

theorem decodeKinds_of_le (b : Byte) (h : 1 ≤ b.toNat ∧ b.toNat ≤ 3) : ∃ k, decodeKinds b = some k := by
  unfold decodeKinds
  split_ifs with h1 h2 h3
  · exact ⟨_, rfl⟩
  · exact ⟨_, rfl⟩
  · exact ⟨_, rfl⟩
  · bv_omega

/-- The window record that 21 bytes hold, its five codes given. -/
def windowFrom (b : List Byte) (enabled : Bool) (kinds : WindowKinds) (action pattern alert : Bool) : Window :=
  { enabled := enabled, kinds := kinds, requesters := BitVec.ofNat 16 (leNat (slice 5 2 b)), low := leNat (slice 7 3 b),
    high := leNat (slice 10 3 b), action := if action then .block else .watch, pattern := pattern,
    matchValue := BitVec.ofNat 32 (leNat (slice 13 4 b)), matchMask := BitVec.ofNat 32 (leNat (slice 17 4 b)), alert := alert }

/-- Bytes decode exactly where each code byte names a code and both lines are in range. -/
theorem decodeWindow_eq_some (b : List Byte) (w : Window) : decodeWindow b = some w ↔
    ∃ enabled kinds action pattern alert, decodeOnOff (byteAt b 0) = some enabled ∧ decodeKinds (byteAt b 1) = some kinds ∧
      decodeOnOff (byteAt b 2) = some action ∧ decodeOnOff (byteAt b 3) = some pattern ∧
      decodeOnOff (byteAt b 4) = some alert ∧ (leNat (slice 7 3 b) ≤ maxLine ∧ leNat (slice 10 3 b) ≤ maxLine) ∧
      windowFrom b enabled kinds action pattern alert = w := by
  constructor
  · intro h
    unfold decodeWindow at h
    split at h
    · rename_i enabled kinds action pattern alert henabled hkinds haction hpattern halert
      by_cases hlines : leNat (slice 7 3 b) ≤ maxLine ∧ leNat (slice 10 3 b) ≤ maxLine
      · refine ⟨enabled, kinds, action, pattern, alert, henabled, hkinds, haction, hpattern, halert, hlines, ?_⟩
        exact Option.some.inj ((if_pos hlines).symm.trans h)
      · exact nomatch (if_neg hlines).symm.trans h
    · contradiction
  · rintro ⟨enabled, kinds, action, pattern, alert, henabled, hkinds, haction, hpattern, halert, hlines, rfl⟩
    rw [decodeWindow, henabled, hkinds, haction, hpattern, halert]
    exact if_pos hlines

/-- A window record's 21 bytes, field by field. -/
theorem window_fields (b : List Byte) (h : b.length = 21) :
    [byteAt b 0, byteAt b 1, byteAt b 2, byteAt b 3, byteAt b 4] ++ slice 5 2 b ++ slice 7 3 b ++ slice 10 3 b ++
      slice 13 4 b ++ slice 17 4 b = b := by
  have hcodes : [byteAt b 0, byteAt b 1, byteAt b 2, byteAt b 3, byteAt b 4] = slice 0 5 b := by
    rw [slice_cons 0 4 b (by omega), slice_cons _ 3 b (by omega), slice_cons _ 2 b (by omega), slice_cons _ 1 b (by omega),
      slice_cons _ 0 b (by omega)]
    rfl
  rw [hcodes, slice_append 0 5 2, slice_append 0 7 3, slice_append 0 10 3, slice_append 0 13 4, slice_append 0 17 4]
  exact List.take_of_length_le (by rw [List.drop_zero]; omega)

/-- A window record that decodes holds values in range, and has the bytes that it was read from. -/
theorem decodeWindow_layout (b : List Byte) (w : Window) (hlength : b.length = 21) (h : decodeWindow b = some w) :
    windowInRange b ∧ w.layout = b := by
  obtain ⟨enabled, kinds, action, pattern, alert, henabled, hkinds, haction, hpattern, halert, ⟨hlow, hhigh⟩, rfl⟩ :=
    (decodeWindow_eq_some b w).1 h
  obtain ⟨hrange0, henabled⟩ := decodeOnOff_some _ _ henabled
  obtain ⟨hrange1, hkinds⟩ := decodeKinds_some _ _ hkinds
  obtain ⟨hrange2, haction⟩ := decodeOnOff_some _ _ haction
  obtain ⟨hrange3, hpattern⟩ := decodeOnOff_some _ _ hpattern
  obtain ⟨hrange4, halert⟩ := decodeOnOff_some _ _ halert
  rw [leNat_slice_three _ b (by omega)] at hlow hhigh
  refine ⟨⟨?_, hrange1, ?_⟩, ?_⟩
  · simpa using ⟨hrange0, hrange2, hrange3, hrange4⟩
  · simpa using ⟨hlow, hhigh⟩
  · have hcodes : (windowFrom b enabled kinds action pattern alert).layout =
        [bit enabled, kindsByte kinds, bit action, bit pattern, bit alert] ++
          leBytes 2 (BitVec.ofNat (8 * 2) (leNat (slice 5 2 b))).toNat ++ leBytes 3 (leNat (slice 7 3 b)) ++
          leBytes 3 (leNat (slice 10 3 b)) ++ leBytes 4 (BitVec.ofNat (8 * 4) (leNat (slice 13 4 b))).toNat ++
          leBytes 4 (BitVec.ofNat (8 * 4) (leNat (slice 17 4 b))).toNat := by
      rw [Window.layout, le24_eq_leBytes, le24_eq_leBytes, le32_eq_leBytes, le32_eq_leBytes]
      cases kinds <;> cases action <;> rfl
    rw [hcodes, henabled, hkinds, haction, hpattern, halert, leBytes_word 5 2 b (by omega), leBytes_slice 7 3 b (by omega),
      leBytes_slice 10 3 b (by omega), leBytes_word 13 4 b (by omega), leBytes_word 17 4 b (by omega), window_fields b hlength]

/-- 21 bytes that hold values in range decode. -/
theorem decodeWindow_of_inRange (b : List Byte) (hlength : b.length = 21) (h : windowInRange b) :
    ∃ w, decodeWindow b = some w := by
  obtain ⟨hflags, hkinds, hlines⟩ := h
  have hflag : ∀ k ∈ [0, 2, 3, 4], ∃ v, decodeOnOff (byteAt b k) = some v := fun k hk => decodeOnOff_of_le _ (hflags k hk)
  have hline : ∀ k ∈ [7, 10], leNat (slice k 3 b) ≤ maxLine := fun k hk => by
    have hfits : k + 2 < b.length := by
      rcases List.mem_pair.1 hk with rfl | rfl <;> omega
    rw [leNat_slice_three k b hfits]
    exact hlines k hk
  obtain ⟨enabled, henabled⟩ := hflag 0 (by decide)
  obtain ⟨kinds, hkinds⟩ := decodeKinds_of_le _ hkinds
  obtain ⟨action, haction⟩ := hflag 2 (by decide)
  obtain ⟨pattern, hpattern⟩ := hflag 3 (by decide)
  obtain ⟨alert, halert⟩ := hflag 4 (by decide)
  exact ⟨_, (decodeWindow_eq_some b _).2 ⟨enabled, kinds, action, pattern, alert, henabled, hkinds, haction, hpattern, halert,
    ⟨hline 7 (by decide), hline 10 (by decide)⟩, rfl⟩⟩

/-! ## The eight window records (R200) -/

theorem decodeWindows_succ (m : Nat) (b : List Byte) (ws : List Window) : decodeWindows (m + 1) b = some ws ↔
    ∃ v vs, decodeWindow (b.take 21) = some v ∧ decodeWindows m (b.drop 21) = some vs ∧ v :: vs = ws := by
  rw [decodeWindows]
  cases decodeWindow (b.take 21) <;> cases decodeWindows m (b.drop 21) <;> simp

/-- Behind its first 21 bytes, part k of a list is part k + 1 of the whole. -/
theorem slice_next (b : List Byte) (k : Nat) : slice (21 * k) 21 (b.drop 21) = slice (21 * (k + 1)) 21 b := by
  rw [slice, List.drop_drop, Nat.mul_succ, Nat.add_comm 21]
  rfl

/-- The window records that decode lie one after another, 21 bytes each, all in range. -/
theorem decodeWindows_layout : ∀ (m : Nat) (b : List Byte) (ws : List Window), 21 * m ≤ b.length → decodeWindows m b = some ws →
    (∀ k < m, windowInRange (slice (21 * k) 21 b)) ∧
      ws.map Window.layout = (List.range m).map (fun k => slice (21 * k) 21 b)
  | 0, _, ws, _, h => by
    cases h
    exact ⟨fun k hk => absurd hk (Nat.not_lt_zero k), rfl⟩
  | m + 1, b, ws, hlength, h => by
    obtain ⟨v, vs, hfirst, hrest, rfl⟩ := (decodeWindows_succ m b ws).1 h
    obtain ⟨hrange, hlayout⟩ := decodeWindow_layout _ v (by rw [List.length_take]; omega) hfirst
    obtain ⟨hranges, hlayouts⟩ := decodeWindows_layout m (b.drop 21) vs (by rw [List.length_drop]; omega) hrest
    constructor
    · rintro (_ | k) hk
      · exact hrange
      · rw [← slice_next]
        exact hranges k (by omega)
    · rw [List.map_cons, hlayout, hlayouts, List.range_succ_eq_map, List.map_cons, List.map_map]
      simp only [slice_next]
      rfl

/-- Window records that are all in range decode. -/
theorem decodeWindows_of_inRange : ∀ (m : Nat) (b : List Byte), 21 * m ≤ b.length →
    (∀ k < m, windowInRange (slice (21 * k) 21 b)) → ∃ ws, decodeWindows m b = some ws
  | 0, _, _, _ => ⟨[], rfl⟩
  | m + 1, b, hlength, h => by
    obtain ⟨v, hv⟩ := decodeWindow_of_inRange (b.take 21) (by rw [List.length_take]; omega) (h 0 (Nat.succ_pos m))
    obtain ⟨vs, hvs⟩ := decodeWindows_of_inRange m (b.drop 21) (by rw [List.length_drop]; omega) fun k hk => by
      rw [slice_next]
      exact h (k + 1) (by omega)
    exact ⟨v :: vs, (decodeWindows_succ m b _).2 ⟨v, vs, hv, hvs, rfl⟩⟩

/-- Window k of a configuration record, within the 168 bytes of the eight. -/
theorem slice_windowBytes (b : List Byte) (k : Nat) (hk : k < 8) : slice (21 * k) 21 (slice 17 168 b) = windowBytes b k := by
  rw [slice_slice 17 168 (21 * k) 21 b (by omega)]
  rfl

/-! ## The fields of a record (R117 item 5, R200) -/

/-- The fields that a record's bytes hold, its window records given. -/
def recordFields (b : List Byte) (ws : List Window) : ConfigFields :=
  { d := (byteAt b 5).toNat, h := (byteAt b 6).toNat, q := (byteAt b 7).toNat,
    generation := BitVec.ofNat 32 (leNat (slice 8 4 b)), l := leNat (slice 12 2 b), w := leNat (slice 14 2 b),
    tr := (byteAt b 16).toNat, windows := ws }

/-- The numbers of a record lie in the ranges of R117 for an array of n pages. -/
def ConfigFields.numbersInRange (n : Nat) (f : ConfigFields) : Prop :=
  (2 ≤ f.d ∧ f.d ≤ 16) ∧ (1 ≤ f.h ∧ f.h ≤ f.d) ∧ (1 ≤ f.q ∧ f.q ≤ 64) ∧ (64 ≤ f.l ∧ f.l + 34 ≤ n) ∧ (1 ≤ f.w ∧ f.w ≤ 1000) ∧
    f.tr ≤ 250

theorem configFields_eq_some (n : Nat) (b : List Byte) (f : ConfigFields) : configFields n b = some f ↔
    ∃ ws, decodeWindows 8 (slice 17 168 b) = some ws ∧ (recordFields b ws).numbersInRange n ∧ recordFields b ws = f := by
  unfold configFields
  cases hws : decodeWindows 8 (slice 17 168 b) with
  | none => simp
  | some ws =>
    simp only [Option.some.injEq, exists_eq_left', Option.ite_none_right_eq_some]
    rfl

/-- The ranges of R117, by the fields and the window records. -/
theorem recordInRange_iff (n : Nat) (b : List Byte) (ws : List Window) (hlength : b.length = 256) : recordInRange n b ↔
    (recordFields b ws).numbersInRange n ∧ ∀ k < 8, windowInRange (windowBytes b k) := by
  simp only [recordInRange, ConfigFields.numbersInRange, recordFields, leNat_slice_two 12 b (by omega),
    leNat_slice_two 14 b (by omega), and_assoc]

/-- R117: a record whose fields are all in range has values. -/
theorem configFields_of_inRange (n : Nat) (b : List Byte) (hlength : b.length = 256) (h : recordInRange n b) :
    ∃ f, configFields n b = some f := by
  have hwindows := ((recordInRange_iff n b [] hlength).1 h).2
  obtain ⟨ws, hws⟩ := decodeWindows_of_inRange 8 (slice 17 168 b) (by rw [slice_length]; omega) fun k hk => by
    rw [slice_windowBytes b k hk]
    exact hwindows k hk
  exact ⟨_, (configFields_eq_some n b _).2 ⟨ws, hws, ((recordInRange_iff n b ws hlength).1 h).1, rfl⟩⟩

/-- R117, R200: the values of a record are in range, and its window records have the bytes that they were read from. -/
theorem configFields_layout (n : Nat) (b : List Byte) (f : ConfigFields) (hlength : b.length = 256)
    (h : configFields n b = some f) :
    recordInRange n b ∧ f = recordFields b f.windows ∧ f.windows.map Window.layout = (List.range 8).map (windowBytes b) := by
  obtain ⟨ws, hws, hnumbers, rfl⟩ := (configFields_eq_some n b f).1 h
  obtain ⟨hranges, hlayouts⟩ := decodeWindows_layout 8 (slice 17 168 b) ws (by rw [slice_length]; omega) hws
  refine ⟨(recordInRange_iff n b ws hlength).2 ⟨hnumbers, fun k hk => ?_⟩, rfl, hlayouts.trans ?_⟩
  · rw [← slice_windowBytes b k hk]
    exact hranges k hk
  · exact List.map_congr_left fun k hk => slice_windowBytes b k (List.mem_range.1 hk)

/-- The values of a record depend on offsets 5 to 7 and 12 to 184 and, for the generation, on 8 to 11. -/
theorem configFields_of_slices (n : Nat) (b c : List Byte) (f : ConfigFields) (hlow : slice 5 3 c = slice 5 3 b)
    (hhigh : slice 12 173 c = slice 12 173 b) (h : configFields n b = some f) :
    configFields n c = some { f with generation := BitVec.ofNat 32 (leNat (slice 8 4 c)) } := by
  have hbyte : ∀ k < 3, byteAt c (5 + k) = byteAt b (5 + k) := fun k hk => by
    rw [← byteAt_slice 5 3 k c hk, hlow, byteAt_slice 5 3 k b hk]
  have hfield : ∀ j k, j + k ≤ 173 → slice (12 + j) k c = slice (12 + j) k b := fun j k hjk => by
    rw [← slice_slice 12 173 j k c hjk, hhigh, slice_slice 12 173 j k b hjk]
  have htr : byteAt c 16 = byteAt b 16 := by
    rw [← byteAt_slice 12 173 4 c (by decide), hhigh, byteAt_slice 12 173 4 b (by decide)]
  have hfields : ∀ ws, recordFields c ws =
      { recordFields b ws with generation := BitVec.ofNat 32 (leNat (slice 8 4 c)) } := fun ws => by
    simp only [recordFields, hbyte 0 (by decide), hbyte 1 (by decide), hbyte 2 (by decide), htr, hfield 0 2 (by decide),
      hfield 2 2 (by decide)]
  obtain ⟨ws, hws, hnumbers, rfl⟩ := (configFields_eq_some n b f).1 h
  refine (configFields_eq_some n c _).2 ⟨ws, ?_, ?_, hfields ws⟩
  · rwa [hfield 5 168 (by decide)]
  · rw [hfields ws]
    exact hnumbers

/-! ## The validity test (R117) -/

theorem validRecord_eq_some (n : Nat) (b : List Byte) (f : ConfigFields) (hlength : b.length = 256) :
    validRecord n b = some f ↔ b.take 5 = [0x55, 0x46, 0x53, 0x42, 1] ∧ b.drop 252 = le32 (crc32 (b.take 252)).toNat ∧
      configFields n b = some f := by
  have hsignature : slice 0 4 b = signature ∧ byteAt b 4 = 1 ↔ b.take 5 = [0x55, 0x46, 0x53, 0x42, 1] := by
    have hfive : b.take 5 = slice 0 4 b ++ [byteAt b 4] := by
      rw [show [byteAt b 4] = slice 4 1 b from (slice_cons 4 0 b (by omega)).symm, slice_append 0 4 1]
      rfl
    have hlengths : (slice 0 4 b).length = signature.length := by rw [slice_length, hlength]; rfl
    rw [hfive, ← List.singleton_inj (a := byteAt b 4)]
    exact ⟨fun ⟨hsign, hversion⟩ => by rw [hsign, hversion]; rfl, fun h => List.append_inj h hlengths⟩
  have hcrc : (recordCrc b).toNat = leNat (slice 252 4 b) ↔ b.drop 252 = le32 (crc32 (b.take 252)).toNat := by
    have hfield : slice 252 4 b = b.drop 252 := List.take_of_length_le (by rw [List.length_drop]; omega)
    have hfour : (b.drop 252).length = 4 := by rw [List.length_drop, hlength]
    have hbytes := leNat_eq_iff (recordCrc b).toNat (b.drop 252) (by rw [hfour]; exact (recordCrc b).isLt)
    rw [hfield, eq_comm, hbytes, hfour, le32_eq_leBytes]
    rfl
  rw [validRecord, Option.ite_none_right_eq_some, ← and_assoc, hsignature, hcrc, and_assoc]

/-! ## The stamp (R194) -/

/-- The 252 bytes of a stamped record before its CRC. -/
def stampedBody (g : Word32) (b : List Byte) : List Byte :=
  [0x55, 0x46, 0x53, 0x42, 1] ++ (b.drop 5).take 3 ++ le32 g.toNat ++ (b.drop 12).take 240

theorem stampedBody_length (g : Word32) (b : List Byte) (h : b.length = 256) : (stampedBody g b).length = 252 := by
  simp [stampedBody, le32, h]

/-- R194: the stamp writes signature, format version, generation and CRC, and leaves the other bytes. -/
theorem stampRecord_eq (g : Word32) (b : List Byte) (h : b.length = 256) :
    stampRecord g b = stampedBody g b ++ le32 (crc32 (stampedBody g b)).toNat := by
  have hstamped : overlay 8 (leBytes 4 g.toNat) (overlay 0 (signature ++ [1]) b) = stampedBody g b ++ b.drop 252 := by
    have htail : (b.drop 12).take 240 ++ b.drop 252 = (b.drop 5).drop 7 := by
      rw [List.drop_drop, show b.drop 252 = (b.drop 12).drop 240 by rw [List.drop_drop], List.take_append_drop]
    rw [overlay_eq 0 _ b (by rw [h]; decide), overlay_eq 8 _ _ (by simp [signature, h]), ← le32_eq_leBytes, stampedBody,
      List.append_assoc _ _ (b.drop 252), htail]
    rfl
  have hbody : (stampedBody g b ++ b.drop 252).take 252 = stampedBody g b :=
    List.take_left' (stampedBody_length g b h)
  rw [stampRecord, hstamped]
  rw [recordCrc, hbody, ← le32_eq_leBytes, overlay_eq 252 _ _ (by simp [stampedBody_length g b h, le32, h]), hbody]
  simp [le32, stampedBody_length g b h, h]

/-- R117, R194: what is stamped is valid, with the stamp's generation. -/
theorem validRecord_stampRecord (n : Nat) (g : Word32) (b : List Byte) (f : ConfigFields) (hlength : b.length = 256)
    (h : configFields n b = some f) : validRecord n (stampRecord g b) = some { f with generation := g } := by
  have hbody := stampedBody_length g b hlength
  have hstamp := stampRecord_eq g b hlength
  refine (validRecord_eq_some n _ _ (by rw [stampRecord_length, hlength])).2 ⟨?_, ?_, ?_⟩
  · rw [hstamp]
    rfl
  · rw [hstamp, List.take_left' hbody, List.drop_left' hbody]
  · have hgeneration : slice 8 4 (stampRecord g b) = leBytes 4 g.toNat := by
      simp [hstamp, stampedBody, slice, le32_eq_leBytes, hlength]
    have hfields := configFields_of_slices n b (stampRecord g b) f (by simp [hstamp, stampedBody, slice, hlength])
      (by simp [hstamp, stampedBody, slice, le32_eq_leBytes, hlength, List.drop_append, List.take_append, List.take_take]) h
    rwa [hgeneration, leNat_leBytes 4 _ g.isLt, BitVec.ofNat_toNat, BitVec.setWidth_eq] at hfields

/-- Settles O37. -/
theorem stampedRecordIsValid : Obligations.StampedRecordIsValid := by
  refine ⟨fun n g buffer f => validRecord_stampRecord n g buffer f, stampRecord_eq, fun n b hlength => ⟨fun hnone hrange => ?_,
    fun f hf => ?_, fun f => validRecord_eq_some n b f hlength, rfl⟩⟩
  · obtain ⟨f, hf⟩ := configFields_of_inRange n b hlength hrange
    rw [hnone] at hf
    contradiction
  · obtain ⟨hrange, hfields, hwindows⟩ := configFields_layout n b f hlength hf
    refine ⟨hrange, congrArg ConfigFields.d hfields, congrArg ConfigFields.h hfields, congrArg ConfigFields.q hfields, ?_, ?_, ?_,
      congrArg ConfigFields.tr hfields, hwindows⟩
    · rw [le32_eq_leBytes, congrArg ConfigFields.generation hfields]
      exact leBytes_word 8 4 b (by omega)
    · rw [le16_eq_leBytes, congrArg ConfigFields.l hfields]
      exact leBytes_slice 12 2 b (by omega)
    · rw [le16_eq_leBytes, congrArg ConfigFields.w hfields]
      exact leBytes_slice 14 2 b (by omega)

end Sys2Proof.Machine
end

section
/-!
PROOFS. The request channel: a record that waits on a held link, an arrival by the cases of R137, and the acceptance of a response
(O11, O12, O13, O23).
-/
namespace Sys2Proof.Machine

/-! ## The request channel (R136) -/

theorem requestHeld_iff (s : State) : s.requestHeld = true ↔ s.sup.state = .resetting ∨ s.port.againOwed ≠ none := by
  simp [State.requestHeld, Option.isSome_iff_ne_none]

/-- On a held channel a record joins those that wait. -/
theorem exec_requestArrival_held (b : List Byte) (s : State) (h : s.requestHeld = true) :
    exec (.requestArrival b) s = .next (setLinkQueue (s.port.linkQueue ++ [b]) s) :=
  congrArg Host.Outcome.next (arriveWaiting_of_held _ s h)

/-- On an open channel with nothing waiting a record arrives at once. -/
theorem exec_requestArrival_open (b : List Byte) (s : State) (h : ¬s.requestHeld = true) (hlink : s.port.linkQueue = []) :
    exec (.requestArrival b) s = .next (setLinkQueue [] (arrive b s)) := by
  show Host.Outcome.next (presentRecord b s) = _
  rw [presentRecord, hlink, List.nil_append, arriveWaiting, if_neg h, arriveWaiting]

/-- An arrival that leaves nothing waiting on the link is the whole event. -/
theorem exec_requestArrival_arrives (b : List Byte) (s t : State) (hstate : s.sup.state ≠ .resetting)
    (hagain : s.port.againOwed = none) (hlink : s.port.linkQueue = []) (harrive : arrive b s = t)
    (hkept : t.port.linkQueue = s.port.linkQueue) : exec (.requestArrival b) s = .next t := by
  have hopen : ¬s.requestHeld = true := fun hheld => ((requestHeld_iff s).1 hheld).elim hstate (fun howed => howed hagain)
  rw [exec_requestArrival_open b s hopen hlink, harrive, setLinkQueue_nil t (hkept.trans hlink)]

/-! ## An arrival by its cases (R137) -/

/-- Case 1: a request of a tag that is in use is discarded. -/
theorem arrive_duplicate (b : List Byte) (r : Request) (s : State) (hdecode : decodeRequest b = some r)
    (htag : ∃ e ∈ s.port.table, e.request.tag = r.tag) : arrive b s = latchProtocolFault s := by
  have hany : s.port.table.any (fun e => e.request.tag = r.tag) = true := by simpa using htag
  rw [arrive, hdecode]
  exact if_pos hany

/-- A well-formed request of a new tag meets the cases 2 and 3. -/
theorem arrive_newTag (b : List Byte) (r : Request) (s : State) (hdecode : decodeRequest b = some r)
    (htags : ∀ e ∈ s.port.table, e.request.tag ≠ r.tag) : arrive b s =
      if s.sup.state = .mounting ∨ 8 ≤ s.port.table.length then oweAgain r.tag s
      else placements s (takeRequest r s) := by
  have hany : ¬s.port.table.any (fun e => e.request.tag = r.tag) = true := by simpa using htags
  rw [arrive, hdecode]
  exact if_neg hany

/-- R138, R145: a channel that sends keeps its response; an AGAIN is owed. -/
theorem oweAgain_busy (tag : Nat) (s : State) (h : s.port.channel ≠ .idle) : oweAgain tag s = { s with
    port := { s.port with againOwed := some tag },
    maint := { s.maint with counters := { s.maint.counters with
      againResponses := satAdvance s.maint.counters.againResponses } } } := by
  unfold oweAgain beginSending countAgain setCounters
  cases hc : s.port.channel with
  | idle => exact absurd hc h
  | sendingAgain t => simp only [State.setMaint, State.setPort, hc]
  | sendingEntry t => simp only [State.setMaint, State.setPort, hc]

/-- A request joins the table behind the head. -/
theorem takeRequest_head_of_some (r : Request) (s : State) (e : Entry) (h : s.head = some e) :
    (takeRequest r s).head = some e := by
  have hfind : s.port.table.find? (fun e => decide (e.phase = .queued)) = some e := h
  simp [State.head, takeRequest, List.find?_append, hfind]

/-- R143: a taken request gives no cause to present a stalled head again. -/
theorem presentCause_takeRequest (r : Request) (s : State) (k : RequestKind) :
    presentCause s (takeRequest r s) k = false := by
  rw [← Bool.not_eq_true, presentCause_iff]
  simp [causeArose, takeRequest, State.slotCount]

/-- R143: behind a stalled head a taken request waits. -/
theorem placements_takeRequest_stalled (r : Request) (s : State) (e : Entry) (h : s.head = some e) (hj : e.judged = true) :
    placements s (takeRequest r s) = takeRequest r s := by
  refine placeFor_of_rest 64 s _ fun e' he' => ?_
  obtain rfl : e = e' := Option.some.inj ((takeRequest_head_of_some r s e h).symm.trans he')
  exact ⟨hj, presentCause_takeRequest r s _⟩

/-- Settles O11. -/
theorem malformedOrDuplicateRequestDiscarded : Obligations.MalformedOrDuplicateRequestDiscarded := by
  intro b s hstate hagain hlink hcase
  refine exec_requestArrival_arrives b s (latchProtocolFault s) hstate hagain hlink ?_ rfl
  rcases hcase with hmalformed | ⟨r, hdecode, htag⟩
  · exact arrive_malformed b s hmalformed
  · exact arrive_duplicate b r s hdecode htag

/-- Settles O12. -/
theorem requestNotTakenIsAnsweredAgain : Obligations.RequestNotTakenIsAnsweredAgain := by
  intro b r s hdecode hstate hagain hlink htags hfull
  refine exec_requestArrival_arrives b s _ hstate hagain hlink ?_ rfl
  rw [arrive_newTag b r s hdecode htags, if_pos hfull]
  cases hc : s.port.channel with
  | idle => exact oweAgain_idle r.tag s hc
  | sendingAgain t => simp [oweAgain_busy r.tag s, hc]
  | sendingEntry t => simp [oweAgain_busy r.tag s, hc]

/-- Settles O13. -/
theorem requestWaitsOnHoldOrStall : Obligations.RequestWaitsOnHoldOrStall := by
  intro b s
  refine ⟨fun hheld => exec_requestArrival_held b s ((requestHeld_iff s).2 hheld), ?_⟩
  intro r e hdecode hresetting hmounting hagain hlink hroom htags hhead hj
  have htaken : ¬(s.sup.state = .mounting ∨ 8 ≤ s.port.table.length) :=
    fun h => h.elim hmounting (Nat.not_le.2 hroom)
  refine exec_requestArrival_arrives b s (takeRequest r s) hresetting hagain hlink ?_ rfl
  rw [arrive_newTag b r s hdecode htags, if_neg htaken, placements_takeRequest_stalled r s e hhead hj]

/-! ## The acceptance of a response (R145) -/

/-- What an idle channel sends next: an owed AGAIN first, then the first of the ready order. -/
def Port.nextSending (p : Port) : Channel :=
  match p.againOwed, p.readyOrder with
  | some a, _ => .sendingAgain a
  | none, u :: _ => .sendingEntry u
  | none, [] => .idle

theorem beginSending_of_idle (s : State) (h : s.port.channel = .idle) :
    beginSending s = s.setPort { s.port with channel := s.port.nextSending } := by
  unfold beginSending Port.nextSending
  rw [h]
  cases ha : s.port.againOwed with
  | some a => rfl
  | none =>
    cases ho : s.port.readyOrder with
    | cons u rest => rfl
    | nil => simp [State.setPort, ← h]

theorem acceptResponse_idle (s : State) (h : s.port.channel = .idle) : acceptResponse s = s := by
  rw [acceptResponse, h]

/-- An accepted AGAIN is no longer owed, and the next sending begins. -/
theorem acceptResponse_again (s : State) (t : Nat) (h : s.port.channel = .sendingAgain t) :
    acceptResponse s = s.setPort { s.port with
      againOwed := none, channel := { s.port with againOwed := none }.nextSending } := by
  rw [acceptResponse, h]
  exact beginSending_of_idle _ rfl

/-- An accepted entry leaves table and ready order, and the next sending begins. -/
theorem acceptResponse_entry (s : State) (t : Nat) (h : s.port.channel = .sendingEntry t) :
    acceptResponse s = s.setPort { s.port with
      table := s.port.table.filter (fun e => e.request.tag ≠ t), readyOrder := s.port.readyOrder.erase t,
      channel := { s.port with readyOrder := s.port.readyOrder.erase t }.nextSending } := by
  rw [acceptResponse, h]
  exact beginSending_of_idle _ rfl

/-- The records that wait on the link arrive in the state that the acceptance leaves. -/
theorem exec_responseAcceptance_of_accepts (s : State) (p : Port) (h : acceptResponse s = s.setPort p)
    (hkept : p.linkQueue = s.port.linkQueue) :
    exec .responseAcceptance s = .next (arriveWaiting s.port.linkQueue { s with port := p }) := by
  show Host.Outcome.next (arriveWaiting (acceptResponse s).port.linkQueue (acceptResponse s)) = _
  rw [h, State.setPort_port, hkept]
  rfl

/-- R136: an idle channel has nothing to accept; where no record waits, or the channel is held, none arrives. -/
theorem exec_responseAcceptance_idle (s : State) (h : s.port.channel = .idle)
    (hwaits : arriveWaiting s.port.linkQueue s = s) : exec .responseAcceptance s = .next s := by
  rw [exec_responseAcceptance_of_accepts s s.port (acceptResponse_idle s h) rfl]
  exact congrArg Host.Outcome.next hwaits

/-- Settles O23. -/
theorem acceptedResponseLeaves : Obligations.AcceptedResponseLeaves := by
  refine ⟨fun s => ⟨fun hidle hlink => ?_, fun hidle hheld => ?_, fun t hsends => ?_, fun t hsends => ?_⟩, fun b bs u =>
    ⟨rfl, fun hheld => ?_, fun hopen => ?_, fun hopen hlink => ?_⟩⟩
  · exact exec_responseAcceptance_idle s hidle (hlink ▸ arriveWaiting_nil s hlink)
  · exact exec_responseAcceptance_idle s hidle (arriveWaiting_held s ((requestHeld_iff s).2 hheld))
  · refine exec_responseAcceptance_of_accepts s _ ((acceptResponse_again s t hsends).trans ?_) rfl
    cases hready : s.port.readyOrder <;> simp [Port.nextSending, hready]
  · exact exec_responseAcceptance_of_accepts s _ (acceptResponse_entry s t hsends) rfl
  · exact arriveWaiting_of_held (b :: bs) u ((requestHeld_iff u).2 hheld)
  · exact if_neg (mt (requestHeld_iff u).1 hopen)
  · exact ⟨_, exec_requestArrival_open b u (mt (requestHeld_iff u).1 hopen) hlink, rfl⟩

end Sys2Proof.Machine
end

section
/-!
PROOFS. A request that is taken and refused at its placement (O14).
-/
namespace Sys2Proof.Machine

/-- The re-examinations do not look at the system link port. -/
theorem reexamine_none_of_setPort (p : Port) (s : State) (h : s.reexamine = none) : (s.setPort p).reexamine = none := by
  rw [reexamine_none_iff, endWait_none_iff] at h ⊢
  exact h

/-- A request that has just been taken and is answered is READY at the tail of the table, its judged mark clear (R140, R144). -/
theorem answer_takeRequest (r : Request) (s : State) (st : ResponseStatus) (d : List Byte)
    (htags : ∀ e ∈ s.port.table, e.request.tag ≠ r.tag) (hagain : s.port.againOwed = none) :
    (takeRequest r s).port.answer r.tag st d = s.port.withReady r st d false := by
  have hothers := map_entries_of_ne r.tag (fun e => { e with phase := .ready { tag := r.tag, status := st, data := d } })
    s.port.table htags
  unfold Port.answer Port.withReady takeRequest
  cases hc : s.port.channel <;> simp [hothers, hagain, hc]

/-- A taken request whose placement answers it: what that set off follows, and no more is placed (R139). -/
theorem exec_requestArrival_placed (b : List Byte) (r : Request) (s v : State) (st : ResponseStatus) (d : List Byte) (j : Bool)
    (h : s.takes b r) (hplaced : (takeRequest r s).placed { request := r, phase := .queued, judged := false } v)
    (hport : v.port = s.port.withReady r st d j) : exec (.requestArrival b) s = .next (settle v) := by
  have ⟨_, _, _, _, _, _, _, hhead⟩ := h
  have hquiet : (settle v).head = none :=
    settle_head_none v ((head_none_iff v).2 (hport ▸ withReady_nothingQueued s r st d j hhead))
  rw [exec_requestArrival_taken b r s h, placements, placeFor_step 63 s _ _ (takeRequest_head r s hhead) nofun,
    placeHead_of_placed _ _ v hplaced, placeFor_of_rest 63 _ _ fun e he => by rw [hquiet] at he; contradiction]

/-- A taken request whose placement answers it FAIL and does nothing else: where nothing is due, nothing else changes. -/
theorem exec_requestArrival_fails (b : List Byte) (r : Request) (s : State) (reason : FailReason) (h : s.takes b r)
    (hquiet : s.reexamine = none)
    (hplaced : (takeRequest r s).placed { request := r, phase := .queued, judged := false }
      { takeRequest r s with port := (takeRequest r s).port.answer r.tag (.fail reason) [] }) :
    exec (.requestArrival b) s = .next { s with port := s.port.withReady r (.fail reason) [] false } := by
  have ⟨_, _, _, hagain, _, _, htags, _⟩ := h
  have hport := answer_takeRequest r s (.fail reason) [] htags hagain
  rw [exec_requestArrival_placed b r s _ (.fail reason) [] false h hplaced hport, hport]
  exact congrArg Host.Outcome.next (settle_of_none _ (reexamine_none_of_setPort _ s hquiet))

/-- R140: the state check refuses the request. -/
theorem exec_requestArrival_refused (b : List Byte) (r : Request) (s : State) (reason : FailReason) (h : s.takes b r)
    (hquiet : s.reexamine = none) (hrefuses : s.sup.refuses r.kind reason) :
    exec (.requestArrival b) s = .next { s with port := s.port.withReady r (.fail reason) [] false } :=
  exec_requestArrival_fails b r s reason h hquiet (Or.inl ⟨reason, hrefuses, rfl⟩)

/-- Settles O14: the rows of R140 that refuse, and the two checks of R141. -/
theorem placementChecksRefuseRequest : Obligations.PlacementChecksRefuseRequest := by
  intro b r s htakes hquiet fails
  have refused := fun reason => exec_requestArrival_refused b r s reason htakes hquiet
  have checked := fun reason => exec_requestArrival_fails b r s reason htakes hquiet
  refine ⟨fun hfault => ?_, fun hdraining hcause => ?_, fun hwrite hstate => ?_, fun hwrite hreadOnly => ?_,
    fun hkind hpasses => ⟨fun hmisaligned => ?_, fun haligned l hl hbeyond => ?_⟩⟩
  · exact refused .fault (Or.inl ⟨hfault, rfl⟩)
  · exact refused .reset (Or.inr (Or.inl ⟨hdraining, hcause, rfl⟩))
  · exact refused .power (Or.inr (Or.inr (Or.inl ⟨hwrite, hstate, rfl⟩)))
  · exact refused .locked (Or.inr (Or.inr (Or.inr ⟨hwrite, hreadOnly, rfl⟩)))
  · exact checked .align (Or.inr ⟨hpasses, Or.inr (Or.inr ⟨rfl, hkind, Or.inl ⟨hmisaligned, rfl⟩⟩)⟩)
  · exact checked .range (Or.inr ⟨hpasses, Or.inr (Or.inr ⟨rfl, hkind, Or.inr (Or.inl ⟨haligned, ⟨l, hl, hbeyond⟩, rfl⟩)⟩)⟩)

end Sys2Proof.Machine
end

section
/-!
PROOFS. The guard unit: when a request matches a window (O25), what a match does to a capture (O26), and a request that a BLOCK
window refuses (O15).
-/
namespace Sys2Proof.Machine

/-! ## The conditions of a match (R153) -/

theorem kindNamed_iff (ks : WindowKinds) (k : RequestKind) : kindNamed ks k = true ↔
    (k = .read ∧ (ks = .read ∨ ks = .readWrite)) ∨ (k = .write ∧ (ks = .write ∨ ks = .readWrite)) := by
  cases ks <;> cases k <;> decide

/-- Two words agree under a mask exactly where they agree in every bit that the mask selects. -/
theorem masked_xor_eq_zero_iff {n : Nat} (a v m : BitVec n) : (a ^^^ v) &&& m = 0 ↔
    ∀ i < n, m.getLsbD i = true → a.getLsbD i = v.getLsbD i := by
  rw [BitVec.eq_of_getLsbD_eq_iff]
  refine forall₂_congr fun i _ => ?_
  rw [BitVec.getLsbD_and, BitVec.getLsbD_xor]
  cases a.getLsbD i <;> cases v.getLsbD i <;> simp

theorem patternPasses_iff (w : Window) (r : Request) : patternPasses w r = true ↔ r.kind = .write ∧ 4 ≤ r.length ∧
    ∀ i < 32, w.matchMask.getLsbD i = true → (leNat (r.data.take 4)).testBit i = w.matchValue.getLsbD i := by
  have hbits : (∀ i < 32, w.matchMask.getLsbD i = true →
      (BitVec.ofNat 32 (leNat (r.data.take 4))).getLsbD i = w.matchValue.getLsbD i) ↔
      ∀ i < 32, w.matchMask.getLsbD i = true → (leNat (r.data.take 4)).testBit i = w.matchValue.getLsbD i :=
    forall₂_congr fun i hi => by rw [BitVec.getLsbD_ofNat, decide_eq_true hi, Bool.true_and]
  rw [patternPasses, Bool.and_eq_true, Bool.and_eq_true, decide_eq_true_iff, decide_eq_true_iff, decide_eq_true_iff,
    masked_xor_eq_zero_iff, hbits, and_assoc]

/-- Settles O25. -/
theorem windowMatchConditions : Obligations.WindowMatchConditions := by
  intro w r
  have hpattern : (!w.pattern || patternPasses w r) = true ↔ (w.pattern = true → patternPasses w r = true) := by
    cases w.pattern <;> simp
  simp only [Window.hits, Bool.and_eq_true, hpattern, kindNamed_iff, patternPasses_iff, decide_eq_true_eq, and_assoc]
  rfl

/-! ## Captures (R156, R157) -/

theorem judge_captures (r : Request) (s : State) :
    (judge r s).guard.captures = judgedCaptures s.guard.windows s.guard.captures s.clock.ms r := by
  unfold judge
  dsimp only
  split <;> rfl

/-- R152: each window's capture takes the judgement by itself. -/
theorem judge_captures_getElem? (r : Request) (s : State) (n : Nat) (w : Window) (c : Capture)
    (hw : s.guard.windows[n]? = some w) (hc : s.guard.captures[n]? = some c) :
    (judge r s).guard.captures[n]? = some (if w.hits r then c.advanced s.clock.ms r else c) := by
  simp [judge_captures, judgedCaptures, List.getElem?_zipWith, hw, hc]

/-- R156: the first match fills a cleared capture. -/
theorem advanced_of_cleared (c : Capture) (time : Word32) (r : Request) (h : c.fields = none) : c.advanced time r =
    { hits := 1,
      fields := some { isWrite := decide (r.kind = .write), requester := r.requester, address := r.address, length := r.length,
                       data := if r.kind = .write then r.data.take 16 else [], time := time } } := by
  rw [Capture.advanced, h]
  cases hkind : r.kind <;> simp [captureOf, hkind]

/-- R157: a later match advances the hit count only, and not beyond 65535. -/
theorem advanced_of_latched (c : Capture) (time : Word32) (r : Request) (f : CaptureFields) (h : c.fields = some f) :
    c.advanced time r = { fields := some f, hits := if c.hits = 65535 then 65535 else c.hits + 1 } := by
  rw [Capture.advanced, h]
  by_cases hmax : c.hits = 65535
  · rw [if_pos hmax, hmax]
    rfl
  · rw [if_neg hmax]
    exact congrArg (Capture.mk (some f)) (if_neg hmax)

/-- Settles O26. -/
theorem capturesTakeTheJudgement : Obligations.CapturesTakeTheJudgement := by
  intro r s n w c hw hc
  have hjudged := judge_captures_getElem? r s n w c hw hc
  refine ⟨fun hmiss => ?_, fun hhits hcleared => ?_, fun hhits f hlatched => ?_⟩
  · rw [hjudged, hmiss]
    rfl
  · rw [hjudged, if_pos hhits, advanced_of_cleared c _ r hcleared]
  · rw [hjudged, if_pos hhits, advanced_of_latched c _ r f hlatched]

/-! ## A request that a window refuses (R154) -/

/-- The re-examinations look neither at the guard unit nor at the two ports. -/
theorem reexamine_none_of_guard_ports (g : Guard) (m : Maintenance) (p : Port) (s : State) (h : s.reexamine = none) :
    ({ s with guard := g, maint := m, port := p } : State).reexamine = none := by
  rw [reexamine_none_iff, endWait_none_iff] at h ⊢
  exact h

/-- Settles O15: the placement answers FAIL GUARD, and nothing is due after it. -/
theorem guardRefusesMatchedRequest : Obligations.GuardRefusesMatchedRequest := by
  intro b r w s htakes hkind hpasses haligned hrange hw hhits hblock hquiet
  have ⟨_, _, _, hagain, _, _, htags, _⟩ := htakes
  have hblocked : ∃ w ∈ s.guard.windows, w.hits r = true ∧ w.action = .block := ⟨w, hw, hhits, hblock⟩
  have hplaced : (takeRequest r s).placed { request := r, phase := .queued, judged := false } { s with
      guard := s.judged r,
      maint := { s.maint with counters := { s.maint.counters with
        guardRefusals := satAdvance s.maint.counters.guardRefusals } },
      port := s.port.withReady r (.fail .guard) [] false } := by
    rw [← answer_takeRequest r s (.fail .guard) [] htags hagain]
    exact Or.inr ⟨hpasses, Or.inr (Or.inr ⟨rfl, hkind, Or.inr (Or.inr (Or.inl ⟨haligned, hrange, hblocked, rfl⟩))⟩)⟩
  rw [exec_requestArrival_placed b r s _ (.fail .guard) [] false htakes hplaced rfl]
  exact congrArg Host.Outcome.next (settle_of_none _ (reexamine_none_of_guard_ports _ _ _ s hquiet))

end Sys2Proof.Machine
end

section
/-!
PROOFS. The bytes of window records and captures (O32), and the commands that read, clear and replace them (O30, O31).
-/
namespace Sys2Proof.Machine

/-! ## The 21 bytes of a window record (R150, R200) -/

theorem encodeWindow_eq_layout (w : Window) : encodeWindow w = w.layout := by
  rw [encodeWindow, Window.layout, le16_eq_leBytes, le24_eq_leBytes, le24_eq_leBytes, le32_eq_leBytes, le32_eq_leBytes]
  cases hkinds : w.kinds <;> cases haction : w.action <;> rfl

theorem decodeOnOff_bit (v : Bool) : decodeOnOff (bit v) = some v := by
  cases v <;> rfl

/-- The five code bytes of a window record name its codes. -/
theorem layout_codes (w : Window) : decodeOnOff (byteAt w.layout 0) = some w.enabled ∧
    decodeKinds (byteAt w.layout 1) = some w.kinds ∧
    decodeOnOff (byteAt w.layout 2) = some (decide (w.action = .block)) ∧
    decodeOnOff (byteAt w.layout 3) = some w.pattern ∧ decodeOnOff (byteAt w.layout 4) = some w.alert := by
  refine ⟨decodeOnOff_bit w.enabled, ?_, ?_, decodeOnOff_bit w.pattern, decodeOnOff_bit w.alert⟩
  · cases hkinds : w.kinds <;> simp [Window.layout, byteAt, hkinds, decodeKinds]
  · cases haction : w.action <;> simp [Window.layout, byteAt, haction, decodeOnOff]

theorem leNat_slice_layout_low (w : Window) (h : w.low ≤ maxLine) : leNat (slice 7 3 w.layout) = w.low := by
  have hfield : slice 7 3 w.layout = le24 w.low := rfl
  rw [hfield, le24_eq_leBytes, leNat_leBytes 3 _ (h.trans_lt (by decide))]

theorem leNat_slice_layout_high (w : Window) (h : w.high ≤ maxLine) : leNat (slice 10 3 w.layout) = w.high := by
  have hfield : slice 10 3 w.layout = le24 w.high := rfl
  rw [hfield, le24_eq_leBytes, leNat_leBytes 3 _ (h.trans_lt (by decide))]

/-- A word is what its bytes hold. -/
theorem ofNat_leNat_leBytes (k : Nat) (v : BitVec (8 * k)) : BitVec.ofNat (8 * k) (leNat (leBytes k v.toNat)) = v := by
  have hfits : v.toNat < 256 ^ k := by
    rw [show (256 : Nat) = 2 ^ 8 from rfl, ← Nat.pow_mul]
    exact v.isLt
  rw [leNat_leBytes k _ hfits, BitVec.ofNat_toNat, BitVec.setWidth_eq]

/-- The fields of a window record in range are those that its bytes hold. -/
theorem windowFrom_layout (w : Window) (hlow : w.low ≤ maxLine) (hhigh : w.high ≤ maxLine) :
    windowFrom w.layout w.enabled w.kinds (decide (w.action = .block)) w.pattern w.alert = w := by
  have hrequesters : slice 5 2 w.layout = leBytes 2 w.requesters.toNat := rfl
  have hvalue : slice 13 4 w.layout = leBytes 4 w.matchValue.toNat := by
    rw [← le32_eq_leBytes]
    rfl
  have hmask : slice 17 4 w.layout = leBytes 4 w.matchMask.toNat := by
    rw [← le32_eq_leBytes]
    rfl
  have haction : (if decide (w.action = .block) = true then WindowAction.block else .watch) = w.action := by
    cases w.action <;> rfl
  rw [windowFrom, hrequesters, hvalue, hmask, haction, leNat_slice_layout_low w hlow, leNat_slice_layout_high w hhigh,
    ofNat_leNat_leBytes 2, ofNat_leNat_leBytes 4, ofNat_leNat_leBytes 4]

theorem decodeWindow_layout_of_inRange (w : Window) (hlow : w.low ≤ maxLine) (hhigh : w.high ≤ maxLine) :
    decodeWindow w.layout = some w := by
  obtain ⟨henabled, hkinds, haction, hpattern, halert⟩ := layout_codes w
  refine (decodeWindow_eq_some _ _).2 ⟨_, _, _, _, _, henabled, hkinds, haction, hpattern, halert, ⟨?_, ?_⟩,
    windowFrom_layout w hlow hhigh⟩
  · rwa [leNat_slice_layout_low w hlow]
  · rwa [leNat_slice_layout_high w hhigh]

/-- Settles O32. -/
theorem windowRecordRoundTrip : Obligations.WindowRecordRoundTrip := by
  refine ⟨fun w => ⟨encodeWindow_eq_layout w, decodeWindow_layout_of_inRange w⟩, fun b hlength =>
    ⟨fun w hw => decodeWindow_layout b w hlength hw, fun hnone hrange => ?_⟩⟩
  obtain ⟨w, hw⟩ := decodeWindow_of_inRange b hlength hrange
  rw [hnone] at hw
  contradiction

/-! ## The 30 bytes of a capture (R155) -/

/-- New bytes laid over old ones from the first: as many as the old ones reach, then what is left of those. -/
theorem overlay_zero_eq : ∀ new old : List Byte, overlay 0 new old = (new ++ old.drop new.length).take old.length
  | [], old => by cases old <;> simp [overlay]
  | _ :: _, [] => by simp [overlay]
  | _ :: ds, _ :: os => by simp [overlay, overlay_zero_eq ds os]

theorem overlay_zero_replicate (new : List Byte) (k : Nat) (v : Byte) :
    overlay 0 new (List.replicate k v) = (new ++ List.replicate k v).take k := by
  simp [overlay_zero_eq, List.take_append]

theorem captureBytes_eq_layout (c : Capture) : captureBytes c = c.layout := by
  unfold captureBytes Capture.layout
  cases c.fields with
  | none => rfl
  | some f =>
    simp only [overlay_zero_replicate, le24_eq_leBytes, le32_eq_leBytes, le16_eq_leBytes]

/-! ## A command that is accepted (R182) -/

/-- A frame of the right length that the state accepts ends its write part, and the command acts. -/
theorem endFrame_acts (c : CommandName) (args : List Byte) (s : State) (hframe : s.frameEnds) (hlength : args.length = c.argBytes)
    (haccepts : s.accepts c.kind = true) : endFrame (some c) args s = c.act args (setTransaction .none s) := by
  have hkept : (setTransaction .none s).accepts c.kind = s.accepts c.kind := rfl
  rw [endFrame_decides _ _ s hframe, decideFrame, decideCommand, if_neg (not_not.2 hlength), if_pos (hkept.trans haccepts)]

theorem accepts_afterMount (s : State) (h : s.mounted) : s.accepts .afterMount = true := by
  obtain ⟨hresetting, hmounting⟩ := h
  simp [State.accepts, State.beforeService, hresetting, hmounting]

theorem respond_setTransaction (c : Completion) (data : List Byte) (s : State) :
    respond c data (setTransaction .none s) = { s with maint := s.maint.answered c data } := rfl

/-! ## The window number of a guard command (R190) -/

theorem windowNumber_of_lt (n : Byte) (args : List Byte) (h : n.toNat < 8) : windowNumber (n :: args) = some n.toNat :=
  if_pos h

theorem windowNumber_of_ge (n : Byte) (args : List Byte) (h : 8 ≤ n.toNat) : windowNumber (n :: args) = none :=
  if_neg (Nat.not_lt.2 h)

/-! ## CAPTURE, WINDOW READ and CLEAR CAPTURE (R159) -/

theorem exec_capture (n : Byte) (s : State) (hframe : s.frameEnds) (hmounted : s.mounted) :
    exec (.capture [n]) s = .next (doCapture [n] (setTransaction .none s)) :=
  congrArg Host.Outcome.next (endFrame_acts .capture [n] s hframe rfl (accepts_afterMount s hmounted))

theorem exec_windowRead (n : Byte) (s : State) (hframe : s.frameEnds) (hmounted : s.mounted) :
    exec (.windowRead [n]) s = .next (doWindowRead [n] (setTransaction .none s)) :=
  congrArg Host.Outcome.next (endFrame_acts .windowRead [n] s hframe rfl (accepts_afterMount s hmounted))

theorem exec_clearCapture (n : Byte) (s : State) (hframe : s.frameEnds) (hmounted : s.mounted) :
    exec (.clearCapture [n]) s = .next (doClearCapture [n] (setTransaction .none s)) :=
  congrArg Host.Outcome.next (endFrame_acts .clearCapture [n] s hframe rfl (accepts_afterMount s hmounted))

/-- Settles O30: each command by whether its argument numbers a window. -/
theorem captureAndWindowCommands : Obligations.CaptureAndWindowCommands := by
  intro n s hframe hmounted
  rw [exec_capture n s hframe hmounted, exec_windowRead n s hframe hmounted, exec_clearCapture n s hframe hmounted, doCapture,
    doWindowRead, doClearCapture]
  constructor
  · intro w c hw hc hn
    have hcapture : (setTransaction .none s).guard.captures.getD n.toNat Capture.cleared = c := by
      rw [List.getD_eq_getElem?_getD]
      exact congrArg (·.getD Capture.cleared) hc
    have hwindow : (setTransaction .none s).guard.windows.getD n.toNat Window.disabled = w := by
      rw [List.getD_eq_getElem?_getD]
      exact congrArg (·.getD Window.disabled) hw
    rw [windowNumber_of_lt n [] hn]
    dsimp only
    rw [hcapture, captureBytes_eq_layout, hwindow, encodeWindow_eq_layout]
    exact ⟨rfl, rfl, rfl⟩
  · intro hn
    rw [windowNumber_of_ge n [] hn]
    exact ⟨rfl, rfl, rfl⟩

/-! ## WINDOW SET (R160) -/

theorem exec_windowSet (n : Byte) (bytes : List Byte) (s : State) (hframe : s.frameEnds) (hmounted : s.mounted)
    (hlength : bytes.length = 21) :
    exec (.windowSet (n :: bytes)) s = .next (doWindowSet (n :: bytes) (setTransaction .none s)) :=
  congrArg Host.Outcome.next
    (endFrame_acts .windowSet (n :: bytes) s hframe (congrArg (· + 1) hlength) (accepts_afterMount s hmounted))

/-- Settles O31. -/
theorem windowSetReplacesWindow : Obligations.WindowSetReplacesWindow := by
  intro n bytes s hframe hmounted hlength
  rw [exec_windowSet n bytes s hframe hmounted hlength, doWindowSet, List.tail_cons]
  constructor
  · intro hn w hw
    rw [windowNumber_of_lt n bytes hn, hw]
    rfl
  · rintro (hn | hbad)
    · rw [windowNumber_of_ge n bytes hn]
      rfl
    · rw [hbad]
      cases windowNumber (n :: bytes) <;> rfl

end Sys2Proof.Machine
end

section
/-!
PROOFS. Every step keeps the supervisor's fields legal (O7): one command keeps them, by the operation that the command is, and a
step is a tick or one command.
-/
namespace Sys2Proof.Machine

/-! ## The supervisor over one command -/

/-- The two parts of `State.supervised`, with the mount's phase as the state has it. -/
theorem supervised_iff (s : State) : s.supervised ↔ s.sup.okay s.mount.phase := Iff.rfl

/-- An operation that leaves the supervisor and the mount's phase keeps them. -/
theorem supOkay_of_keeps {s t : State} (h : s.sup.okay s.mount.phase) (hsup : t.sup = s.sup) (hmount : t.mount = s.mount) :
    t.sup.okay t.mount.phase := by
  rwa [hsup, hmount]

/-- One that leaves the mount is judged by the supervisor alone. -/
theorem supOkay_of_mount {s t : State} (h : t.sup.okay s.mount.phase) (hmount : t.mount = s.mount) :
    t.sup.okay t.mount.phase := by
  rwa [hmount]

/-- A completion keeps the fields legal where its requester's handling does. -/
theorem complete_supOkay (isRow : InFlight → Bool) (handle : InFlight → State → State) (s : State)
    (h : s.sup.okay s.mount.phase)
    (hh : ∀ f t, t.sup.okay t.mount.phase → (handle f t).sup.okay (handle f t).mount.phase) :
    (complete isRow handle s).sup.okay (complete isRow handle s).mount.phase := by
  unfold complete
  split
  · split
    · exact finish_supOkay s _ (hh _ (releaseOp s) h)
    · exact h
  · exact h

/-- Every command keeps the fields legal. A completion goes through `complete`, a frame through `endFrame`; the mount's phase
changes with the mount's own completions, the resets and the second timeout only. -/
theorem exec_supervised (c : Instr) (s t : State) (h : s.supervised) (he : exec c s = .next t) : t.supervised := by
  rw [supervised_iff] at h ⊢
  cases c
  case requestArrival record => cases he; exact supOkay_of_mount (presentRecord_supOkay record s h) (by simp)
  case responseAcceptance =>
    cases he
    have haccepted : (acceptResponse s).sup.okay s.mount.phase := by simpa using h
    exact supOkay_of_mount (arriveWaiting_supOkay _ _ haccepted) (by simp)
  case pfwNFall => cases he; exact supOkay_of_mount (powerLow_supOkay s h) (by simp)
  case pfwNRise => cases he; exact powerHigh_supOkay s h
  case qualification => cases he; exact qualify_supOkay s h
  case resetNFall madr => cases he; exact resetEdge_supOkay (setMadr madr s) h
  case resetNRise madr => cases he; exact resetRise_supOkay (setMadr madr s) h
  case powerOnReset madr => cases he; exact powerUp_supOkay (setMadr madr s) h
  case resetTimerExpiry => cases he; exact resetExpiry_supOkay s h
  case writeBackTimerExpiry i => cases he; exact slotExpiry_supOkay i s h
  case secondTimeout => cases he; exact timeoutTwice_supOkay s h
  case readyWaitCompletion asz => cases he; exact complete_supOkay _ _ s h fun f u hu => readyWaitDone_supOkay asz u hu
  case configCopyReadCompletion st data spare =>
    cases he; exact complete_supOkay _ _ s h fun f u hu => configCopyRead_supOkay st data u hu
  case headerReadCompletion st spare => cases he; exact complete_supOkay _ _ s h fun f u hu => headerRead_supOkay st spare u hu
  case pageProgramCompletion st =>
    cases he; exact complete_supOkay _ _ s h fun f u hu => supOkay_of_mount (programDone_supOkay st u hu) (by simp)
  case commitMarkCompletion st =>
    cases he; exact complete_supOkay _ _ s h fun f u hu => supOkay_of_mount (commitMarkDone_supOkay st u hu) (by simp)
  case eraseCompletion st =>
    cases he; exact complete_supOkay _ _ s h fun f u hu => supOkay_of_mount (eraseDone_supOkay st u hu) (by simp)
  case cleanMarkCompletion st =>
    cases he; exact complete_supOkay _ _ s h fun f u hu => supOkay_of_mount (cleanMarkDone_supOkay st u hu) (by simp)
  case retireMarkCompletion st => cases he; exact complete_supOkay _ _ s h fun f u hu => hu
  case mergeReadCompletion | demandReadCompletion | configCommitEraseCompletion | configCommitProgramCompletion
      | readBackCompletion =>
    cases he; exact complete_supOkay _ _ s h fun f u hu => supOkay_of_keeps hu (by simp) (by simp)
  case firstTimeout | linkResetEnd | discardedCompletion | startCondition =>
    cases he; exact supOkay_of_keeps h (by simp) (by simp)
  all_goals
    cases he; exact endFrame_supOkay _ _ s h

/-! ## A tick -/

/-- R164, R168, R174: a tick moves the counts of the supervisor's clocks and timers, and starts or stops none of them. -/
theorem msTick_legal (u : Supervisor) (h : u.legal) : u.msTick.legal := by
  obtain ⟨hcause, hclock, hreturn, hpending, hdrain, htimer, hq, hlimit⟩ := h
  exact ⟨hcause, by simpa [Supervisor.msTick] using hclock, hreturn, hpending, hdrain,
    by simpa [Supervisor.msTick] using htimer, hq, hlimit⟩

theorem advanceTime_supervised (s : State) (h : s.supervised) : (advanceTime s).supervised := by
  obtain ⟨hlegal, hmounting⟩ := h
  refine ⟨?_, by rwa [advanceTime_state]⟩
  have htick : ({ s.sup with warning := s.sup.warning.usTick } : Supervisor).legal := hlegal
  unfold advanceTime
  dsimp only
  split
  · exact htick
  · exact msTick_legal _ htick

/-- Settles O7: a step is a tick or one command, and both keep the fields legal. -/
theorem supervisorFieldsKeptLegal : Obligations.SupervisorFieldsKeptLegal := by
  intro s t h he
  rcases step_cases s t he with ⟨_, _, rfl⟩ | ⟨c, _, _, he⟩ | ⟨c, rest, _, he⟩
  · exact advanceTime_supervised s h
  · exact exec_supervised c { s with freeCount := s.freeCount + 1 } t h he
  · exact exec_supervised c (s.withQueue rest) t h he

end Sys2Proof.Machine
end

section
/-!
PROOFS. READY, SAFE and ALERT_N (O27): each line by the states and the conditions that raise it (R179, R197).
-/
namespace Sys2Proof.Machine

/-! ## READY and SAFE (R179) -/

theorem readyLine_iff (s : State) : s.readyLine = true ↔ s.sup.state = .serving ∨ s.sup.state = .readOnly := by
  unfold State.readyLine
  cases s.sup.state <;> simp

theorem safeLine_iff (s : State) : s.safeLine = true ↔ s.sup.state = .halted := by
  unfold State.safeLine
  cases s.sup.state <;> simp

/-! ## The alert conditions (R158, R197) -/

theorem windowAlert_iff (w : Window) (c : Capture) : windowAlert w c = true ↔ c.fields ≠ none ∧ w.alert = true := by
  simp only [windowAlert, Bool.and_eq_true, Option.isSome_iff_ne_none]

/-- Some window alerts exactly where one with its own capture does. -/
theorem anyWindowAlert_iff (ws : List Window) (cs : List Capture) :
    (List.zipWith windowAlert ws cs).any (fun b => b) = true ↔
      ∃ (n : Nat) (w : Window) (c : Capture), ws[n]? = some w ∧ cs[n]? = some c ∧ c.fields ≠ none ∧ w.alert = true := by
  have hmem : (List.zipWith windowAlert ws cs).any (fun b => b) = true ↔ true ∈ List.zipWith windowAlert ws cs := by
    simp only [List.any_eq_true, exists_eq_right]
  simp only [hmem, List.mem_iff_getElem?, List.getElem?_zipWith_eq_some, windowAlert_iff]

/-- The read-only alert condition, by the operating state. -/
theorem readOnlyAlert_iff (s : State) : s.readOnlyAlert = true ↔ s.sup.state = .readOnly ∨
    s.sup.returnTo = some .readOnly ∧ (s.sup.state = .halted ∨ s.sup.state = .draining ∧ s.sup.cause = some .power) := by
  unfold State.readOnlyAlert
  cases s.sup.state <;> simp [and_comm]

theorem alertN_low_iff (s : State) : s.alertN = false ↔ s.alert = true := by
  simp [State.alertN]

/-- Settles O27. -/
theorem outputLinesFollowTheState : Obligations.OutputLinesFollowTheState := by
  intro s
  refine ⟨readyLine_iff s, safeLine_iff s, ?_⟩
  simp only [alertN_low_iff, State.alert, Bool.or_eq_true, anyWindowAlert_iff, readOnlyAlert_iff, decide_eq_true_eq, or_assoc]

end Sys2Proof.Machine
end

section
/-!
PROOFS. The power warning: the edges of PFW_N (O39), with the recovery in HALTED (R172), and the qualification (O40).
-/
namespace Sys2Proof.Machine

/-! ## The edges of PFW_N (R168) -/

/-- R168: a fall begins a qualification where the warning is CLEAR. -/
theorem powerLow_eq (s : State) : powerLow s = { s with
    pins := { s.pins with pfwN := false },
    sup := { s.sup with warning := match s.sup.warning with
      | .clear => .qualifying 0
      | w => w } } := by
  unfold powerLow
  cases hw : s.sup.warning with
  | clear => rfl
  | qualifying _ | asserted =>
    dsimp only
    rw [← hw]
    rfl

theorem powerHigh_clear (s : State) (h : s.sup.warning = .clear) : powerHigh s = setPfwN true s := by
  rw [powerHigh, h]

theorem powerHigh_qualifying (s : State) (e : Nat) (h : s.sup.warning = .qualifying e) :
    powerHigh s = countGlitch (setWarning .clear (setPfwN true s)) := by
  rw [powerHigh, h]

theorem powerHigh_asserted (s : State) (h : s.sup.warning = .asserted) :
    powerHigh s = recover (setWarning .clear (setPfwN true s)) := by
  rw [powerHigh, h]

/-- R172: the recovery is HALTED's. -/
theorem recover_outside (s : State) (h : s.sup.state ≠ .halted) : recover s = s := by
  unfold recover
  split
  · contradiction
  · rfl

theorem recover_halted (s : State) (r : ReturnState) (h : s.sup.state = .halted) (hr : s.sup.returnTo = some r) :
    recover s = finish s (s.setSup { s.sup with state := r.toState, returnTo := none }) := by
  unfold recover
  rw [h, hr]
  rfl

/-- Settles O39. -/
theorem powerWarningFollowsThePin : Obligations.PowerWarningFollowsThePin := by
  intro s
  refine ⟨congrArg Host.Outcome.next (powerLow_eq s), fun hclear => congrArg Host.Outcome.next (powerHigh_clear s hclear),
    fun e hqualifying => congrArg Host.Outcome.next (powerHigh_qualifying s e hqualifying), ?_⟩
  intro hasserted a
  have hrise : exec .pfwNRise s = .next (recover a) := congrArg Host.Outcome.next (powerHigh_asserted s hasserted)
  refine ⟨fun houtside => ?_, fun r hhalted hr => ?_⟩
  · rw [hrise, recover_outside a houtside]
  · rw [hrise, recover_halted a r hhalted hr]
    cases r <;> rfl

/-! ## The qualification (R169, R170) -/

theorem qualify_of_not_qualifying (s : State) (h : ∀ e, s.sup.warning ≠ .qualifying e) : qualify s = s := by
  unfold qualify
  split
  case h_1 e he => exact absurd he (h e)
  case h_2 => rfl

theorem qualify_of_qualifying (s : State) (e : Nat) (h : s.sup.warning = .qualifying e) :
    qualify s = qualified (setWarning .asserted s) := by
  rw [qualify, h]

/-- R170: a drain is entered with its supervisor record, and every OPEN slot is sealed. -/
theorem qualified_in_service (s : State) (h : s.ready_) :
    qualified s = finish s (sealAllOpen (s.setSup (s.drainSup .power))) := by
  rw [qualified, if_pos ((inService_iff s).2 h)]
  rfl

theorem qualified_outside (s : State) (h : ¬s.ready_) : qualified s = s := by
  rw [qualified, if_neg (fun hs => h ((inService_iff s).1 hs))]

/-- R171: a power drain in which nothing is staged and nothing else is due ends in HALTED in its entry event. -/
theorem finish_emptyPowerDrain (a d : State) (hquiet : d.reexamine = none) (hdraining : d.sup.state = .draining)
    (hstaged : d.anyStaged = false) (hpending : d.sup.pendingReset = none) (hwarning : d.sup.warning = .asserted)
    (hhead : d.head = none) (hlink : d.port.linkQueue = []) (hchoice : d.seq.phase ≠ .issued ∨ d.seq.inFlight ≠ none) :
    finish a d = d.setSup { d.sup with state := .halted, cause := none, drainClock := none, resetTimer := none } := by
  have hend := drainEnd_halts d hdraining hstaged hpending hwarning
  have hwriting : d.writing = true := (writing_iff d).2 (Or.inr (Or.inr hdraining))
  have hafter := fun sup => reexamine_none_of_setSup d sup hquiet hwriting hstaged
  have hstate : (drainEnd d).sup.state ≠ .draining := by rw [hend]; nofun
  rw [finish_of_drainEnd a d hquiet (hend ▸ hafter _) hstate, hend]
  exact finish_of_nothingDue a _ ⟨hafter _, hhead, hlink, nofun⟩ hchoice

/-- Settles O40. -/
theorem qualificationByOperatingState : Obligations.QualificationByOperatingState := by
  intro s
  refine ⟨fun hnone => congrArg Host.Outcome.next (qualify_of_not_qualifying s hnone), ?_⟩
  intro e hqualifying a left d
  have hasserted : exec .qualification s = .next (qualified a) := congrArg Host.Outcome.next (qualify_of_qualifying s e hqualifying)
  have hdrain : s.ready_ → exec .qualification s = .next (finish a (sealAllOpen d)) := fun hready => by
    rw [hasserted, qualified_in_service a hready]
    rfl
  refine ⟨fun houtside => by rw [hasserted, qualified_outside a houtside], hdrain,
    fun hready hstaged hpending hquiet hhead hlink hchoice => ?_⟩
  rw [hdrain hready, sealAllOpen_of_none d (oldestOpen_of_not_staged d hstaged),
    finish_emptyPowerDrain a d hquiet rfl hstaged hpending rfl hhead hlink hchoice]
  rfl

end Sys2Proof.Machine
end

section
/-!
PROOFS. The reset requests: the power-on reset (O43), the falling and the rising edge of RESET_N (O41, O42), the expiry of the reset
timer (O44) and SOFT RESET (O38).
-/
namespace Sys2Proof.Machine

/-! ## Power-on reset (R176, R177) -/

/-- R181: a reset leaves a transaction in progress, and one that is ignored already, to be ignored. -/
theorem transaction_afterReset_eq (t : Transaction) : t.afterReset = match t with
    | .none => .none
    | _ => .ignored := by
  cases t <;> rfl

/-- R176, R186, R187, R198: a power-on reset keeps the sampled straps and the rest of a transaction only. -/
theorem maintAfterReset_powerOn (s : State) : s.maintAfterReset .powerOn =
    .afterReset .zero .clear s.pins.madr s.maint.transaction.afterReset := rfl

/-- Settles O43: of a power-on reset completion nothing follows but the arrivals in MOUNTING. -/
theorem powerOnResetSetsEveryBlock : Obligations.PowerOnResetSetsEveryBlock := by
  intro madr s
  show Host.Outcome.next (powerUp (setMadr madr s)) = _
  rw [powerUp, finish_resetCompletion, maintAfterReset_powerOn, transaction_afterReset_eq]
  rfl

/-! ## A reset with no drain (R173, R175, R177) -/

/-- R177: the record of a reset whose drain was not attempted. -/
theorem resetRecord_notAttempted (s : State) (c : PendingReset) : s.resetRecord c.toCause .notAttempted =
    { cause := c.toCause, outcome := .notAttempted, lost := s.slotsInUse, duration := 0 } := by
  cases c <;> rfl

/-- What follows the completion of a reset whose drain was not attempted. -/
theorem finish_resetAtOnce (a : State) (c : PendingReset) (s : State) :
    finish a (resetCompletion c.toCause .notAttempted s) = s.resetDone
      { cause := c.toCause, outcome := .notAttempted, lost := s.slotsInUse, duration := 0 } s.maintReset := by
  rw [finish_resetCompletion, resetRecord_notAttempted, maintAfterReset_eq]

/-- With RESET_N low the part stays in RESETTING (R178). -/
theorem resetDone_low (s : State) (record : ResetRecord) (m : Maintenance) (h : s.pins.resetN = false) :
    s.resetDone record m = s.blocksReset record m := by
  rw [State.resetDone, h, if_neg Bool.false_ne_true]

/-! ## The falling edge of RESET_N (R173) -/

/-- R173: with T_r 0, and in the states without a drain, the reset completes at once. -/
theorem resetLineLow_atOnce (s : State) (h : s.sup.resetLimit = 0 ∨ s.sup.state = .halted ∨ s.sup.state = .fault ∨
    s.sup.state = .mounting ∨ s.sup.state = .resetting) : resetLineLow s = resetCompletion .resetLine .notAttempted s := by
  unfold resetLineLow
  split
  · rfl
  · rename_i hlimit
    rcases h with h | h | h | h | h
    · contradiction
    all_goals rw [h]

/-- R173: in SERVING and READ_ONLY a drain begins. -/
theorem resetLineLow_in_service (s : State) (hlimit : s.sup.resetLimit ≠ 0) (h : s.ready_) :
    resetLineLow s = sealAllOpen (s.setSup (s.drainSup .reset)) := by
  rw [resetLineLow, if_neg hlimit]
  rcases h with h | h <;> rw [h] <;> rfl

/-- R173: in a drain with no reset pending the reset becomes pending and its timer starts. -/
theorem resetLineLow_drain_none (s : State) (hlimit : s.sup.resetLimit ≠ 0) (hdraining : s.sup.state = .draining)
    (hpending : s.sup.pendingReset = none) :
    resetLineLow s = s.setSup { s.sup with pendingReset := some .resetLine, resetTimer := some 0 } := by
  rw [resetLineLow, if_neg hlimit, hdraining, hpending]

/-- R173: with MAINTENANCE pending a stopped timer starts. -/
theorem resetLineLow_drain_stopped (s : State) (hlimit : s.sup.resetLimit ≠ 0) (hdraining : s.sup.state = .draining)
    (hpending : s.sup.pendingReset = some .maintenance) (htimer : s.sup.resetTimer = none) :
    resetLineLow s = s.setSup { s.sup with resetTimer := some 0 } := by
  rw [resetLineLow, if_neg hlimit, hdraining, hpending, htimer]

/-- R173: where the reset is pending with its timer the edge changes nothing. -/
theorem resetLineLow_drain_running (s : State) (hlimit : s.sup.resetLimit ≠ 0) (hdraining : s.sup.state = .draining)
    (h : s.sup.pendingReset = some .resetLine ∨ s.sup.pendingReset = some .maintenance ∧ s.sup.resetTimer ≠ none) :
    resetLineLow s = s := by
  rw [resetLineLow, if_neg hlimit, hdraining]
  rcases h with hpending | ⟨hpending, htimer⟩
  · rw [hpending]
  · obtain ⟨n, hn⟩ := Option.ne_none_iff_exists'.1 htimer
    rw [hpending, hn]

/-- R173: a line that is high falls. -/
theorem resetEdge_high (s : State) (h : s.pins.resetN = true) :
    resetEdge s = finish s (resetLineLow (setResetN false s)) := if_pos h

/-- A line that is low has no edge. -/
theorem resetEdge_low (s : State) (h : s.pins.resetN = false) : resetEdge s = s :=
  if_neg (by rw [h]; exact Bool.false_ne_true)

/-- Settles O41. -/
theorem resetLineFallByOperatingState : Obligations.ResetLineFallByOperatingState := by
  intro madr s w a record
  refine ⟨fun hlow => congrArg Host.Outcome.next (resetEdge_low w hlow), fun hhigh => ?_⟩
  have hfalls : exec (.resetNFall madr) s = .next (finish w (resetLineLow a)) := congrArg Host.Outcome.next (resetEdge_high w hhigh)
  rw [hfalls]
  refine ⟨fun hatOnce => ?_, fun hlimit => ⟨fun hready => ?_, fun hdraining => ⟨fun hpending => ?_, fun hpending htimer => ?_,
    fun hrunning => ?_⟩⟩⟩
  · rw [resetLineLow_atOnce a hatOnce]
    exact congrArg Host.Outcome.next ((finish_resetAtOnce w .resetLine a).trans (resetDone_low a record a.maintReset rfl))
  · rw [resetLineLow_in_service a hlimit hready]
    rfl
  · rw [resetLineLow_drain_none a hlimit hdraining hpending]
    rfl
  · rw [resetLineLow_drain_stopped a hlimit hdraining hpending htimer]
    rfl
  · rw [resetLineLow_drain_running a hlimit hdraining hrunning]

/-! ## The rising edge of RESET_N (R113, R178) -/

theorem resetRise_outside (s : State) (h : s.sup.state ≠ .resetting) : resetRise s = setResetN true s := by
  unfold resetRise
  split
  · contradiction
  · rfl

theorem resetRise_resetting (s : State) (h : s.sup.state = .resetting) :
    resetRise s = finish s (setResetN true s).mountBegun := by
  rw [resetRise, h]
  rfl

/-- Settles O42: before service nothing follows the mount's beginning but the arrivals (R136). -/
theorem resetLineRiseBeginsTheMount : Obligations.ResetLineRiseBeginsTheMount := by
  intro madr s a
  refine ⟨fun houtside => congrArg Host.Outcome.next (resetRise_outside (setMadr madr s) houtside),
    fun hresetting htable hchannel hagain => ?_⟩
  show Host.Outcome.next (resetRise (setMadr madr s)) = _
  have hhead : a.mountBegun.head = none := by
    show s.port.table.find? _ = none
    rw [htable]
    rfl
  rw [resetRise_resetting (setMadr madr s) hresetting]
  exact congrArg Host.Outcome.next
    ((finish_before_service_arrives _ a.mountBegun rfl hhead (show SeqPhase.resync ≠ .issued by decide)).trans
      (arriveWaiting_mounting s.port.linkQueue a.mountBegun rfl htable hagain hchannel))

/-! ## The reset timer (R174) -/

theorem resetExpiry_stopped (s : State) (h : s.sup.state ≠ .draining ∨ s.sup.resetTimer = none) : resetExpiry s = s := by
  unfold resetExpiry
  split
  case h_1 n hdraining htimer =>
    rcases h with h | h
    · contradiction
    · rw [htimer] at h
      contradiction
  case h_2 => rfl

theorem resetExpiry_running (s : State) (n : Nat) (c : PendingReset) (hdraining : s.sup.state = .draining)
    (htimer : s.sup.resetTimer = some n) (hpending : s.sup.pendingReset = some c) :
    resetExpiry s = finish s (resetCompletion c.toCause .timedOut s) := by
  rw [resetExpiry, hdraining, htimer, hpending]
  rfl

/-- Settles O44. -/
theorem resetTimerExpiryTimesOut : Obligations.ResetTimerExpiryTimesOut := by
  intro s
  refine ⟨fun hstopped => congrArg Host.Outcome.next (resetExpiry_stopped s hstopped), fun n c hdraining htimer hpending => ?_⟩
  show Host.Outcome.next (resetExpiry s) = _
  rw [resetExpiry_running s n c hdraining htimer hpending, finish_pendingReset s c .timedOut s nofun]
  cases c <;> rfl

/-! ## SOFT RESET (R175) -/

theorem softResetActs_in_service (s : State) (h : s.ready_) :
    softResetActs s = sealAllOpen (s.setSup (s.drainSup .maint)) := by
  rcases h with h | h <;> rw [softResetActs, h] <;> rfl

theorem softResetActs_drain_none (s : State) (hdraining : s.sup.state = .draining) (hpending : s.sup.pendingReset = none) :
    softResetActs s = s.setSup { s.sup with pendingReset := some .maintenance } := by
  rw [softResetActs, hdraining, hpending]

theorem softResetActs_drain_pending (s : State) (hdraining : s.sup.state = .draining) (hpending : s.sup.pendingReset ≠ none) :
    softResetActs s = s := by
  obtain ⟨c, hc⟩ := Option.ne_none_iff_exists'.1 hpending
  rw [softResetActs, hdraining, hc]

theorem softResetActs_atOnce (s : State) (h : s.sup.state = .halted ∨ s.sup.state = .fault) :
    softResetActs s = resetCompletion .maintenance .notAttempted s := by
  rcases h with h | h <;> rw [softResetActs, h]

/-- After the mount an accepted SOFT RESET is answered OK, and the supervisor acts in the same event (R175, R182). -/
theorem exec_softReset (s : State) (hframe : s.frameEnds) (hmounted : s.mounted) : exec (.softReset []) s =
    .next (finish (setTransaction .none s) (softResetActs (s.setMaint (s.maint.answered .ok [])))) :=
  congrArg Host.Outcome.next (endFrame_acts .softReset [] s hframe rfl (accepts_afterMount s hmounted))

theorem mounted_of_state (s : State) (st : OperatingState) (h : s.sup.state = st) (hne : st ≠ .resetting ∧ st ≠ .mounting) :
    s.mounted := by
  subst h
  exact hne

/-- Settles O38: the answer stands in the maintenance port, which no act looks at and a reset completion sets anew. -/
theorem softResetByOperatingState : Obligations.SoftResetByOperatingState := by
  intro s hframe a m
  have hacts : s.mounted → exec (.softReset []) s = .next (finish a (softResetActs (s.setMaint m))) := exec_softReset s hframe
  refine ⟨fun hready => ?_, fun hdraining hpending => ?_, fun hdraining hpending => ?_, fun hstate => ?_⟩
  · have hmounted : s.mounted := by
      rcases hready with h | h <;> exact mounted_of_state s _ h (by decide)
    rw [hacts hmounted, softResetActs_in_service (s.setMaint m) hready]
    rfl
  · rw [hacts (mounted_of_state s _ hdraining (by decide)), softResetActs_drain_none (s.setMaint m) hdraining hpending]
    rfl
  · rw [hacts (mounted_of_state s _ hdraining (by decide)), softResetActs_drain_pending (s.setMaint m) hdraining hpending]
    rfl
  · have hmounted : s.mounted := by
      rcases hstate with h | h <;> exact mounted_of_state s _ h (by decide)
    rw [hacts hmounted, softResetActs_atOnce (s.setMaint m) hstate]
    exact congrArg Host.Outcome.next (finish_resetAtOnce a .maintenance (s.setMaint m))

end Sys2Proof.Machine
end

section
/-!
PROOFS. The decision at the end of a command frame (R181, R182, R184): frames that are refused, frames that are ignored, and the
start condition (O28).
-/
namespace Sys2Proof.Machine

/-! ## Frames, their lengths and the states that accept them (R182, R184) -/

theorem exec_frame (n : CommandName) (args : List Byte) (s : State) :
    exec (n.frame args) s = .next (endFrame (some n) args s) := by
  cases n <;> rfl

theorem argCount_eq_argBytes (n : CommandName) : argCount n = n.argBytes := by
  cases n <;> rfl

theorem accepts_afterMount_iff (s : State) : s.accepts .afterMount = true ↔ s.mounted := by
  simp [State.accepts, State.beforeService, State.mounted]

theorem accepts_unlessBusy_iff (s : State) :
    s.accepts .unlessBusy = true ↔ s.mounted ∧ s.maint.commitState ≠ .busy := by
  rw [← accepts_afterMount_iff]
  simp [State.accepts]

theorem accepts_serviceUnlessBusy_iff (s : State) :
    s.accepts .serviceUnlessBusy = true ↔ s.ready_ ∧ s.maint.commitState ≠ .busy := by
  have hservice : s.inService = true ↔ s.ready_ := inService_iff s
  rw [← hservice]
  simp [State.accepts]

/-- The kinds of acceptance are the rows of R184. -/
theorem accepts_kind_iff (s : State) (n : CommandName) : s.accepts n.kind = true ↔ acceptedIn s n := by
  cases n with
  | status | resetCause => exact iff_of_true rfl trivial
  | flush => exact inService_iff s
  | configLoad | configWrite => exact accepts_unlessBusy_iff s
  | configCommit => exact accepts_serviceUnlessBusy_iff s
  | _ => exact accepts_afterMount_iff s

/-- R182 case 4: a frame of the right length that R184 accepts ends its write part, and its command acts. -/
theorem exec_frame_accepted (n : CommandName) (args : List Byte) (s : State) (hframe : s.frameEnds)
    (hlength : args.length = argCount n) (haccepted : acceptedIn s n) :
    exec (n.frame args) s = .next (n.act args (setTransaction .none s)) := by
  rw [exec_frame, endFrame_acts n args s hframe (argCount_eq_argBytes n ▸ hlength) ((accepts_kind_iff s n).2 haccepted)]

/-! ## Frames that are refused or ignored (R181, R182) -/

/-- R182 case 1. -/
theorem endFrame_unknown (args : List Byte) (s : State) (hframe : s.frameEnds) :
    endFrame none args s = { s with maint := s.maint.answered .badCommand [] } := by
  rw [endFrame_decides _ _ s hframe, decideFrame, respond_setTransaction]

/-- R182 case 2. -/
theorem endFrame_wrongLength (n : CommandName) (args : List Byte) (s : State) (hframe : s.frameEnds)
    (hlength : args.length ≠ n.argBytes) :
    endFrame (some n) args s = { s with maint := s.maint.answered .badArgument [] } := by
  rw [endFrame_decides _ _ s hframe, decideFrame, decideCommand, if_pos hlength, respond_setTransaction]

/-- R182 case 3. -/
theorem endFrame_notAccepted (n : CommandName) (args : List Byte) (s : State) (hframe : s.frameEnds)
    (hlength : args.length = n.argBytes) (hrefused : ¬s.accepts n.kind = true) :
    endFrame (some n) args s = { s with maint := s.maint.answered .busy [] } := by
  have hkept : (setTransaction .none s).accepts n.kind = s.accepts n.kind := rfl
  rw [endFrame_decides _ _ s hframe, decideFrame, decideCommand, if_neg (not_not.2 hlength), if_neg (hkept ▸ hrefused),
    respond_setTransaction]

/-- R181: the end of an ignored transaction is no frame. -/
theorem endFrame_ignored (c : Option CommandName) (args : List Byte) (s : State) (h : s.maint.transaction = .ignored) :
    endFrame c args s = s := by
  rw [endFrame, h]

theorem commandOf_of_not_mem (code : Byte) (h : code ∉ commandCodes) : commandOf code = none := by
  simp_all [commandCodes, commandOf]

/-! ## The start condition (R181) -/

theorem ownAddress_toNat (s : State) : s.ownAddress.toNat = 0x58 + s.maint.madr.toNat := by
  unfold State.ownAddress
  bv_omega

theorem eq_ownAddress_iff (address : BitVec 7) (s : State) :
    address = s.ownAddress ↔ address.toNat = 0x58 + s.maint.madr.toNat := by
  rw [← ownAddress_toNat, BitVec.toNat_inj]

theorem exec_startCondition (address : BitVec 7) (s : State) : exec (.startCondition address) s =
    .next (setTransaction (if address = s.ownAddress then .active else .ignored) s) := rfl

/-- Settles O28: the decision's cases in their order, then the address, then the ignored transaction. -/
theorem framesRefusedWithoutEffect : Obligations.FramesRefusedWithoutEffect := by
  intro args s
  have hunknown : ∀ code, exec (.unknownCommand code args) s = .next (endFrame (commandOf code) args s) := fun _ => rfl
  refine ⟨fun hframe => ⟨fun code hcode => ?_, fun n => ⟨fun hlength => ?_, fun hlength hrefused => ?_⟩⟩,
    fun address => ⟨fun hown => ?_, fun hother => ?_⟩, fun hignored => ⟨fun n => ?_, fun code => ?_⟩⟩
  · rw [hunknown, commandOf_of_not_mem code hcode, endFrame_unknown args s hframe]
  · rw [argCount_eq_argBytes] at hlength
    rw [exec_frame, endFrame_wrongLength n args s hframe hlength]
  · rw [argCount_eq_argBytes] at hlength
    rw [← accepts_kind_iff] at hrefused
    rw [exec_frame, endFrame_notAccepted n args s hframe hlength hrefused]
  · rw [exec_startCondition, if_pos ((eq_ownAddress_iff address s).2 hown)]
    rfl
  · rw [exec_startCondition, if_neg (fun heq => hother ((eq_ownAddress_iff address s).1 heq))]
    rfl
  · rw [exec_frame, endFrame_ignored _ args s hignored]
  · rw [hunknown, endFrame_ignored _ args s hignored]

end Sys2Proof.Machine
end

section
/-!
PROOFS. The report commands (O29): STATUS, RESET CAUSE, LOSS READ, COUNTERS and CLEAR COUNTERS (R185, R187, R188, R191).
-/
namespace Sys2Proof.Machine

/-! ## The bytes of the reports (11_formats_and_signals.md) -/

theorem operatingStateByte_eq_code (st : OperatingState) : operatingStateByte st = st.code := by
  cases st <;> rfl

/-- R132, R185: in MOUNTING the free pool count is that of the pages classified FREE. -/
theorem freePoolReport_eq (s : State) :
    s.freePoolReport = if s.sup.state = .mounting then s.pageCount .free else s.xlat.freePool.length := by
  unfold State.freePoolReport
  cases s.sup.state <;> rfl

/-- R132, R185: in MOUNTING the erase queue count is that of the pages classified STALE. -/
theorem eraseQueueReport_eq (s : State) :
    s.eraseQueueReport = if s.sup.state = .mounting then s.pageCount .stale else s.xlat.eraseQueue.length := by
  unfold State.eraseQueueReport
  cases s.sup.state <;> rfl

theorem statusReport_eq_layout (s : State) : s.statusReport = s.statusLayout := by
  rw [State.statusReport, operatingStateByte_eq_code, freePoolReport_eq, eraseQueueReport_eq, ← le32_eq_leBytes]
  rfl

theorem countersBytes_eq_layout (c : Counters) : countersBytes c = c.layout := by
  simp only [countersBytes, Counters.layout, le32_eq_leBytes]

theorem resetRecordBytes_eq_layout (r : ResetRecord) : resetRecordBytes r = r.layout := rfl

/-! ## What each report command does -/

theorem doStatus_setTransaction (s : State) : doStatus (setTransaction .none s) = { s with
    maint := { (s.maint.answered .ok s.statusLayout) with flags := { s.maint.flags with protocolFault := false } } } := by
  rw [← statusReport_eq_layout]
  rfl

theorem doCounters_setTransaction (s : State) :
    doCounters (setTransaction .none s) = { s with maint := s.maint.answered .ok s.maint.counters.layout } := by
  rw [← countersBytes_eq_layout]
  rfl

theorem doLossRead_setTransaction (s : State) : doLossRead (setTransaction .none s) = { s with
    maint := { (s.maint.answered .ok (lossBytes s.maint.loss)) with
      flags := { s.maint.flags with mediaLoss := false } } } := rfl

/-- Settles O29. -/
theorem reportCommandsAnswerAndClear : Obligations.ReportCommandsAnswerAndClear := by
  intro s hframe loss
  have hloss : lossBytes s.maint.loss = loss := by
    dsimp only [loss]
    cases s.maint.loss with
    | none => rfl
    | some l => rw [lossBytes, ← le32_eq_leBytes, ← le16_eq_leBytes]
  refine ⟨?_, ?_, fun hmounted => ⟨?_, ?_, ?_⟩⟩
  · exact (exec_frame_accepted .status [] s hframe rfl trivial).trans (congrArg Host.Outcome.next (doStatus_setTransaction s))
  · exact exec_frame_accepted .resetCause [] s hframe rfl trivial
  · rw [← hloss, ← doLossRead_setTransaction]
    exact exec_frame_accepted .lossRead [] s hframe rfl hmounted
  · exact (exec_frame_accepted .counters [] s hframe rfl hmounted).trans
      (congrArg Host.Outcome.next (doCounters_setTransaction s))
  · exact exec_frame_accepted .clearCounters [] s hframe rfl hmounted

end Sys2Proof.Machine
end

section
/-!
PROOFS. MAP QUERY (O33): the report of a page (R189).
-/
namespace Sys2Proof.Machine

theorem pageStateByte_eq_code (st : PageState) : pageStateByte st = st.code := by
  cases st <;> rfl

theorem slotStateByte_eq_code (st : SlotState) : slotStateByte st = st.code := by
  cases st <;> rfl

/-- R189: a page below L is reported. -/
theorem doMapQuery_below (args : List Byte) (l : Nat) (s : State) (hl : s.xlat.logicalPages = some l) (h : leNat args < l) :
    doMapQuery args s = respond .ok (s.mapReport (leNat args)) s := by
  rw [doMapQuery, hl]
  exact if_pos h

/-- R189: a page at L or above, or with no L in force, is refused. -/
theorem doMapQuery_beyond (args : List Byte) (s : State) (h : ∀ l, s.xlat.logicalPages = some l → l ≤ leNat args) :
    doMapQuery args s = respond .badArgument [] s := by
  unfold doMapQuery
  cases hl : s.xlat.logicalPages with
  | none => rfl
  | some l => exact if_neg (Nat.not_lt.2 (h l hl))

/-- Settles O33. -/
theorem mapQueryReportsThePage : Obligations.MapQueryReportsThePage := by
  intro x0 x1 s hframe hmounted x holding mapped slots report
  have hacts : exec (.mapQuery [x0, x1]) s = .next (doMapQuery [x0, x1] (setTransaction .none s)) :=
    exec_frame_accepted .mapQuery [x0, x1] s hframe rfl hmounted
  have hreport : s.mapReport x = report := by
    simp only [State.mapReport, slotReport, slotStateByte_eq_code, pageStateByte_eq_code, ← le16_eq_leBytes]
    dsimp only [report, mapped, slots, holding]
    cases s.map x <;> rfl
  rw [hacts]
  refine ⟨fun l hl hx => ?_, fun hbeyond => ?_⟩
  · rw [doMapQuery_below [x0, x1] l (setTransaction .none s) hl hx, respond_setTransaction, ← hreport]
    rfl
  · rw [doMapQuery_beyond [x0, x1] (setTransaction .none s) hbeyond, respond_setTransaction]

end Sys2Proof.Machine
end

section
/-!
PROOFS. The configuration buffer (O35): CONFIG LOAD, CONFIG READ and CONFIG WRITE (R192).
-/
namespace Sys2Proof.Machine

theorem configOffset_multiple (o : Byte) (args : List Byte) (h : o.toNat % 16 = 0) : configOffset (o :: args) = some o.toNat :=
  if_pos h

theorem configOffset_other (o : Byte) (args : List Byte) (h : o.toNat % 16 ≠ 0) : configOffset (o :: args) = none :=
  if_neg h

theorem doConfigLoad_some (r : List Byte) (s : State) (h : s.maint.active = some r) :
    doConfigLoad s = respond .ok [] (setBuffer r s) := by
  rw [doConfigLoad, h]

theorem doConfigLoad_none (s : State) (h : s.maint.active = none) : doConfigLoad s = respond .busy [] s := by
  rw [doConfigLoad, h]

theorem doConfigRead_multiple (o : Byte) (args : List Byte) (s : State) (h : o.toNat % 16 = 0) :
    doConfigRead (o :: args) s = respond .ok (slice o.toNat 16 s.maint.buffer) s := by
  rw [doConfigRead, configOffset_multiple o args h]

theorem doConfigRead_other (o : Byte) (args : List Byte) (s : State) (h : o.toNat % 16 ≠ 0) :
    doConfigRead (o :: args) s = respond .badArgument [] s := by
  rw [doConfigRead, configOffset_other o args h]

theorem doConfigWrite_multiple (o : Byte) (bytes : List Byte) (s : State) (h : o.toNat % 16 = 0) :
    doConfigWrite (o :: bytes) s = respond .ok [] (setBuffer (overlay o.toNat bytes s.maint.buffer) s) := by
  rw [doConfigWrite, configOffset_multiple o bytes h, List.tail_cons]

theorem doConfigWrite_other (o : Byte) (bytes : List Byte) (s : State) (h : o.toNat % 16 ≠ 0) :
    doConfigWrite (o :: bytes) s = respond .badArgument [] s := by
  rw [doConfigWrite, configOffset_other o bytes h]

/-- R192: an answer that comes with the buffer replaced. -/
theorem respond_setBuffer (c : Completion) (data buffer : List Byte) (s : State) :
    respond c data (setBuffer buffer (setTransaction .none s)) =
      { s with maint := { (s.maint.answered c data) with buffer := buffer } } := rfl

/-- Settles O35. -/
theorem configBufferCommands : Obligations.ConfigBufferCommands := by
  intro o bytes s hframe hmounted hlength
  have hread : exec (.configRead [o]) s = .next (doConfigRead [o] (setTransaction .none s)) :=
    exec_frame_accepted .configRead [o] s hframe rfl hmounted
  refine ⟨fun hmultiple => ?_, fun hother => ?_, fun hidle => ?_⟩
  · rw [hread, doConfigRead_multiple o [] _ hmultiple, respond_setTransaction]
    rfl
  · rw [hread, doConfigRead_other o [] _ hother, respond_setTransaction]
  have hload : exec (.configLoad []) s = .next (doConfigLoad (setTransaction .none s)) :=
    exec_frame_accepted .configLoad [] s hframe rfl ⟨hmounted, hidle⟩
  have hwrite : exec (.configWrite (o :: bytes)) s = .next (doConfigWrite (o :: bytes) (setTransaction .none s)) :=
    exec_frame_accepted .configWrite (o :: bytes) s hframe (congrArg (· + 1) hlength) ⟨hmounted, hidle⟩
  refine ⟨fun r hactive => ?_, fun hnone => ?_, fun hmultiple => ?_, fun hother => ?_⟩
  · rw [hload, doConfigLoad_some r (setTransaction .none s) hactive, respond_setBuffer]
  · rw [hload, doConfigLoad_none (setTransaction .none s) hnone, respond_setTransaction]
  · rw [hwrite, doConfigWrite_multiple o bytes _ hmultiple, respond_setBuffer]
    rfl
  · rw [hwrite, doConfigWrite_other o bytes _ hother, respond_setTransaction]

end Sys2Proof.Machine
end

section
/-!
PROOFS. The configuration commit: CONFIG COMMIT (O36, R194) and its three completions (O57, R195).
-/
namespace Sys2Proof.Machine

/-! ## CONFIG COMMIT (R194) -/

theorem commitAllowed_iff (n : Nat) (cs : CopyStatus) (s : State) (hn : s.mount.arraySize = some n)
    (hcs : s.maint.copyStatus = some cs) : s.commitAllowed = true ↔
      (configFields n s.maint.buffer).isSome = true ∧ cs.generationInUse < 4294967295 := by
  simp [State.commitAllowed, State.copies, hn, hcs]

theorem doConfigCommit_allowed (s : State) (h : s.commitAllowed = true) : doConfigCommit s = respond .ok [] (beginCommit s) :=
  if_pos h

theorem doConfigCommit_refused (s : State) (h : ¬s.commitAllowed = true) :
    doConfigCommit s = respond .badArgument [] (s.setMaint { s.maint with commitState := .failed }) :=
  if_neg h

/-- R194: the maintenance port once a commit to a copy with a new generation has begun. -/
def Maintenance.committing (m : Maintenance) (target : Copy) (generation : Word32) : Maintenance :=
  { m with
    buffer := stampRecord generation m.buffer, commitState := .busy,
    job := some { phase := .erase, target := target, record := stampRecord generation m.buffer, generation := generation } }

/-- R194: in service a commit begins with the ERASE of the target's page passed. -/
theorem beginCommit_eq (cs : CopyStatus) (s : State) (hready : s.ready_) (hfree : s.linkFree)
    (hcs : s.maint.copyStatus = some cs) : beginCommit s = { s with
      maint := s.maint.committing cs.targetCopy (cs.generationInUse + 1),
      seq := s.seq.asked (.erase cs.targetCopy.page) .configCommit 5 25000 s.clock } := by
  have hchosen : mayChoose s.sup.state 5 = true := by
    rcases hready with h | h <;> rw [h] <;> rfl
  have hbegins : beginCommit s = requestOp (.erase cs.targetCopy.page) .configCommit
      (s.setMaint (s.maint.committing cs.targetCopy (cs.generationInUse + 1))) := by
    have hcopies : s.copies = cs := by rw [State.copies, hcs, Option.getD_some]
    rw [beginCommit, hcopies]
    rfl
  rw [hbegins]
  exact requestOp_asked _ .configCommit (s.setMaint _) hfree hchosen

theorem generationInUse_eq (cs : CopyStatus) : cs.generationInUse = match cs.inUse with
    | none => 0
    | some .a => cs.a.getD 0
    | some .b => cs.b.getD 0 := by
  unfold CopyStatus.generationInUse
  rcases cs.inUse with _ | _ | _ <;> rfl

/-- Settles O36: the checks decide between the two outcomes. -/
theorem configCommitBeginsOrFails : Obligations.ConfigCommitBeginsOrFails := by
  intro n cs s hframe hready hidle hn hcs inUse target record
  have hacts : exec (.configCommit []) s = .next (doConfigCommit (setTransaction .none s)) :=
    exec_frame_accepted .configCommit [] s hframe rfl ⟨hready, hidle⟩
  have hinUse : cs.generationInUse = inUse := generationInUse_eq cs
  have hallowed := commitAllowed_iff n cs (setTransaction .none s) hn hcs
  rw [hinUse] at hallowed
  refine ⟨fun hfields hfollows hfree => ?_, fun hrefused => ?_⟩
  · rw [hacts, doConfigCommit_allowed _ (hallowed.2 ⟨hfields, hfollows⟩),
      beginCommit_eq cs (setTransaction .none s) hready hfree hcs, hinUse]
    rfl
  · have hnot : ¬(setTransaction .none s).commitAllowed = true := by
      rw [hallowed]
      rintro ⟨hfields, hfollows⟩
      rcases hrefused with hnone | hlast
      · exact Bool.false_ne_true (hnone.symm.trans hfields)
      · exact absurd hfollows (BitVec.not_lt.2 hlast)
    rw [hacts, doConfigCommit_refused _ hnot]
    rfl

/-! ## The rows of the three completions (R101) -/

theorem exec_configCommitEraseCompletion (st : ArrayStatus) (f : InFlight) (s : State) (hserving : s.serving f)
    (hr : f.requester = .configCommit) (hop : f.op.isErase = true) :
    exec (.configCommitEraseCompletion st) s = .next (finish s (commitEraseDone st (releaseOp s))) := by
  obtain ⟨hphase, hflight⟩ := hserving
  exact congrArg Host.Outcome.next
    (complete_accepted f s _ (fun _ t => commitEraseDone st t) hphase hflight (by simp [hr, hop]))

theorem exec_configCommitProgramCompletion (st : ArrayStatus) (f : InFlight) (s : State) (hserving : s.serving f)
    (hr : f.requester = .configCommit) (hop : f.op.isProgram = true) :
    exec (.configCommitProgramCompletion st) s = .next (finish s (commitProgramDone st (releaseOp s))) := by
  obtain ⟨hphase, hflight⟩ := hserving
  exact congrArg Host.Outcome.next
    (complete_accepted f s _ (fun _ t => commitProgramDone st t) hphase hflight (by simp [hr, hop]))

theorem exec_readBackCompletion (st : ArrayStatus) (data spare : List Byte) (f : InFlight) (s : State) (hserving : s.serving f)
    (hr : f.requester = .configCommit) (hop : f.op.isPageRead = true) :
    exec (.readBackCompletion st data spare) s = .next (finish s (readBackDone st data (releaseOp s))) := by
  obtain ⟨hphase, hflight⟩ := hserving
  exact congrArg Host.Outcome.next
    (complete_accepted f s _ (fun _ t => readBackDone st data t) hphase hflight (by simp [hr, hop]))

/-! ## What each row does (R195) -/

theorem commitEraseDone_pass (job : CommitJob) (s : State) (hjob : s.maint.job = some job) (hissued : s.seq.phase = .issued) :
    commitEraseDone .pass s = { s with
      seq := s.seq.joined (.pageProgram job.target.page job.record (List.replicate 16 0xFF)) .configCommit,
      maint := { s.maint with job := some { job with phase := .program } } } := by
  rw [commitEraseDone, hjob]
  exact requestOp_joins _ .configCommit (setCommitPhase job .program s) hissued

theorem commitEraseDone_fail (job : CommitJob) (s : State) (hjob : s.maint.job = some job) :
    commitEraseDone .fail s = commitFails job s := by
  rw [commitEraseDone, hjob]

theorem commitProgramDone_pass (job : CommitJob) (s : State) (hjob : s.maint.job = some job) (hissued : s.seq.phase = .issued) :
    commitProgramDone .pass s = { s with
      seq := s.seq.joined (.pageRead job.target.page) .configCommit,
      maint := { s.maint with job := some { job with phase := .readBack } } } := by
  rw [commitProgramDone, hjob]
  exact requestOp_joins _ .configCommit (setCommitPhase job .readBack s) hissued

theorem commitProgramDone_fail (job : CommitJob) (s : State) (hjob : s.maint.job = some job) :
    commitProgramDone .fail s = commitFails job s := by
  rw [commitProgramDone, hjob]

/-- R195: a read back is good where it is a valid copy with the new generation. -/
theorem readBackGood_iff (n : Nat) (job : CommitJob) (st : ArrayStatus) (data : List Byte) (s : State)
    (hn : s.mount.arraySize = some n) : s.readBackGood job st data = true ↔
      ∃ c, validCopy n st data = some c ∧ c.generation = job.generation := by
  rw [State.readBackGood, hn, Option.getD_some]
  cases validCopy n st data <;> simp

theorem readBackDone_good (job : CommitJob) (st : ArrayStatus) (data : List Byte) (s : State) (hjob : s.maint.job = some job)
    (hgood : s.readBackGood job st data = true) : readBackDone st data s = commitSucceeds job s := by
  rw [readBackDone, hjob]
  exact if_pos hgood

theorem readBackDone_bad (job : CommitJob) (st : ArrayStatus) (data : List Byte) (s : State) (hjob : s.maint.job = some job)
    (hbad : ¬s.readBackGood job st data = true) : readBackDone st data s = commitFails job s := by
  rw [readBackDone, hjob]
  exact if_neg hbad

/-- R195: every failure ends FAILED with the target INVALID. -/
theorem commitFails_eq (job : CommitJob) (cs : CopyStatus) (s : State) (hcs : s.maint.copyStatus = some cs) :
    commitFails job s = { s with maint := { s.maint with
      commitState := .failed, job := none, copyStatus := some (cs.setResult job.target none) } } := by
  rw [commitFails, failCommit, hcs]
  rfl

/-- R195: a commit ends DONE with the target VALID and in use. -/
theorem commitSucceeds_eq (job : CommitJob) (cs : CopyStatus) (s : State) (hcs : s.maint.copyStatus = some cs) :
    commitSucceeds job s = { s with maint := { s.maint with
      commitState := .done, job := none,
      copyStatus := some { cs.setResult job.target (some job.generation) with inUse := some job.target } } } := by
  rw [commitSucceeds, hcs]
  rfl

/-- Settles O57: each row by the status of its completion. -/
theorem configCommitCompletions : Obligations.ConfigCommitCompletions := by
  intro st data spare n job cs f s hserving hr hjob hcs hn page result failed
  have hissued : (releaseOp s).seq.phase = .issued := hserving.1
  have hfails : finish s (commitFails job (releaseOp s)) = failed := by
    rw [commitFails_eq job cs (releaseOp s) hcs]
    rfl
  refine ⟨fun hop => ⟨?_, ?_⟩, fun hop => ⟨?_, ?_⟩, fun hop => ⟨fun hinvalid => ?_, fun c hvalid hgeneration => ?_⟩⟩
  · rw [exec_configCommitEraseCompletion .fail f s hserving hr hop, commitEraseDone_fail job (releaseOp s) hjob, hfails]
  · rw [exec_configCommitEraseCompletion .pass f s hserving hr hop, commitEraseDone_pass job (releaseOp s) hjob hissued]
    rfl
  · rw [exec_configCommitProgramCompletion .fail f s hserving hr hop, commitProgramDone_fail job (releaseOp s) hjob, hfails]
  · rw [exec_configCommitProgramCompletion .pass f s hserving hr hop, commitProgramDone_pass job (releaseOp s) hjob hissued]
    rfl
  · have hbad : ¬(releaseOp s).readBackGood job st data = true := by
      rw [readBackGood_iff n job st data (releaseOp s) hn]
      rintro ⟨c, hvalid, hgeneration⟩
      exact hinvalid c hvalid hgeneration
    rw [exec_readBackCompletion st data spare f s hserving hr hop, readBackDone_bad job st data (releaseOp s) hjob hbad, hfails]
  · have hgood := (readBackGood_iff n job st data (releaseOp s) hn).2 ⟨c, hvalid, hgeneration⟩
    rw [exec_readBackCompletion st data spare f s hserving hr hop, readBackDone_good job st data (releaseOp s) hjob hgood,
      commitSucceeds_eq job cs (releaseOp s) hcs]
    rfl

end Sys2Proof.Machine
end

section
/-!
PROOFS. A step on an empty queue where nothing is due (O2): one 1 us tick, between two 1 ms ticks or at one (R202).
-/
namespace Sys2Proof.Machine

theorem step_empty (s : State) (h : s.pending = []) : step s = emptyQueueStep s := by
  unfold step
  rw [h]

/-- Log 1: where nothing is due, time advances. -/
theorem step_quiet (s : State) (hempty : s.pending = []) (hquiet : ∀ c, ¬s.isDue c) : step s = .next (advanceTime s) := by
  have hnone : s.dueEvents = [] := List.eq_nil_iff_forall_not_mem.2 fun c hc => hquiet c ((mem_dueEvents s c).1 hc)
  rw [step_empty s hempty, emptyQueueStep_quiet s hnone]

/-- R202: a 1 us tick that ends no millisecond leaves the drain clock and the reset timer. -/
theorem advanceTime_within_ms (s : State) (h : ¬999 ≤ s.clock.us) : advanceTime s = { s with
    clock := { s.clock with us := s.clock.us + 1 }, seq := s.seq.usTick,
    sup := { s.sup with warning := s.sup.warning.usTick } } := by
  have hlt : s.clock.us + 1 < 1000 := by omega
  simp only [advanceTime, Clock.usTick, if_pos hlt]

/-- R202: the tick that completes 1000 us is a 1 ms tick too, and moves the drain clock and the reset timer (R164, R174). -/
theorem advanceTime_at_ms (s : State) (h : 999 ≤ s.clock.us) : advanceTime s = { s with
    clock := { ms := s.clock.ms + 1, us := 0 }, seq := s.seq.usTick,
    sup := { s.sup with warning := s.sup.warning.usTick, drainClock := s.sup.drainClock.map satAdvance,
                        resetTimer := s.sup.resetTimer.map (fun n => n + 1) } } := by
  have hge : ¬s.clock.us + 1 < 1000 := by omega
  simp only [advanceTime, Clock.usTick, if_neg hge, Supervisor.msTick]

/-- R168: only a QUALIFYING warning counts. -/
theorem usTick_warning (w : PowerWarning) : w.usTick = match w with
    | .qualifying e => .qualifying (e + 1)
    | w => w := by
  cases w <;> rfl

/-- Settles O2: what a quiet step does to the timers, by whether the tick completes a millisecond. -/
theorem emptyQueueStepIsOneTick : Obligations.EmptyQueueStepIsOneTick := by
  intro s hempty hquiet atMs
  rw [step_quiet s hempty hquiet]
  by_cases hms : 999 ≤ s.clock.us
  · rw [advanceTime_at_ms s hms, usTick_warning]
    simp only [atMs, if_pos hms]
    rfl
  · rw [advanceTime_within_ms s hms, usTick_warning]
    simp only [atMs, if_neg hms]
    rfl

end Sys2Proof.Machine
end

section
/-!
PROOFS. The request records of the system link (O10): which bytes carry a request of each kind, and nothing else does (R201).
-/
namespace Sys2Proof.Machine

/-- An address of three bytes, least significant first. -/
theorem leNat_three (a0 a1 a2 : Byte) : leNat [a0, a1, a2] = a0.toNat + 256 * a1.toNat + 65536 * a2.toNat := by
  simp only [leNat]
  omega

/-- A check written as a refusal, turned into the condition of the answer. -/
theorem refusal_eq_ite {α : Type} {c p : Prop} [Decidable c] [Decidable p] (h : c ↔ ¬p) (x : Option α) :
    (if p then none else x) = if c then x else none := by
  simp only [h, ite_not]

/-- Two checks, one behind the other. -/
theorem refusals_eq_ite {α : Type} {c p q : Prop} [Decidable c] [Decidable p] [Decidable q] (h : c ↔ ¬p ∧ ¬q) (x : Option α) :
    (if p then none else if q then none else x) = if c then x else none := by
  simp only [h, ite_and, ite_not]

/-! ## Each kind's record -/

theorem decodeRequest_persist (t q : Byte) : decodeRequest [3, t, q] =
    if t.toNat ≤ 15 ∧ q.toNat ≤ 15 then
      some { kind := .persist, tag := t.toNat, requester := q.toNat, address := 0, length := 0, data := [] }
    else none :=
  refusal_eq_ite (by omega) _

theorem decodeRequest_read (t q a0 a1 a2 len : Byte) : decodeRequest [1, t, q, a0, a1, a2, len] =
    if t.toNat ≤ 15 ∧ q.toNat ≤ 15 ∧ len.toNat ≤ 127 then
      some { kind := .read, tag := t.toNat, requester := q.toNat,
             address := a0.toNat + 256 * a1.toNat + 65536 * a2.toNat, length := len.toNat, data := [] }
    else none := by
  rw [← leNat_three]
  exact refusals_eq_ite (by omega) _

theorem decodeRequest_write (t q a0 a1 a2 len : Byte) (data : List Byte) :
    decodeRequest (2 :: t :: q :: a0 :: a1 :: a2 :: len :: data) =
    if t.toNat ≤ 15 ∧ q.toNat ≤ 15 ∧ len.toNat ≤ 127 ∧ data.length = len.toNat then
      some { kind := .write, tag := t.toNat, requester := q.toNat,
             address := a0.toNat + 256 * a1.toNat + 65536 * a2.toNat, length := len.toNat, data := data }
    else none := by
  rw [← leNat_three]
  exact refusals_eq_ite (by omega) _

/-! ## Kind bytes and byte counts that no request has -/

theorem decodeRequest_otherKind (k : Byte) (rest : List Byte) (h1 : k ≠ 1) (h2 : k ≠ 2) (h3 : k ≠ 3) :
    decodeRequest (k :: rest) = none := by
  match rest with
  | [] | [_] => rfl
  | _ :: _ :: _ => simp only [decodeRequest, decodeRequestKind, if_neg h1, if_neg h2, if_neg h3]

theorem decodeRequest_persist_long (t q x : Byte) (rest : List Byte) : decodeRequest (3 :: t :: q :: x :: rest) = none :=
  ite_self _

theorem decodeRequest_read_wrongLength (t q : Byte) (rest : List Byte) (h : rest.length ≠ 4) :
    decodeRequest (1 :: t :: q :: rest) = none := by
  match rest with
  | [] | [_] | [_, _] | [_, _, _] | _ :: _ :: _ :: _ :: _ :: _ => exact ite_self _
  | [_, _, _, _] => exact absurd rfl h

theorem decodeRequest_write_short (t q : Byte) (rest : List Byte) (h : rest.length < 4) :
    decodeRequest (2 :: t :: q :: rest) = none := by
  match rest with
  | [] | [_] | [_, _] | [_, _, _] => exact ite_self _
  | _ :: _ :: _ :: _ :: rest => exact absurd h (by simp)

/-! ## What decodes, by its kind -/

theorem persist_of_decodeRequest (t q : Byte) (rest : List Byte) (r : Request)
    (h : decodeRequest (3 :: t :: q :: rest) = some r) : rest = [] ∧ r.kind = .persist := by
  cases rest with
  | nil =>
    rw [decodeRequest_persist, Option.ite_none_right_eq_some] at h
    obtain ⟨_, hr⟩ := h
    cases hr
    exact ⟨rfl, rfl⟩
  | cons x rest => cases (decodeRequest_persist_long t q x rest).symm.trans h

theorem read_of_decodeRequest (t q : Byte) (rest : List Byte) (r : Request)
    (h : decodeRequest (1 :: t :: q :: rest) = some r) : rest.length = 4 ∧ r.kind = .read := by
  by_cases hlen : rest.length = 4
  · obtain ⟨a0, a1, a2, len, rfl⟩ := List.length_eq_four.1 hlen
    rw [decodeRequest_read, Option.ite_none_right_eq_some] at h
    obtain ⟨_, hr⟩ := h
    cases hr
    exact ⟨hlen, rfl⟩
  · cases (decodeRequest_read_wrongLength t q rest hlen).symm.trans h

theorem write_of_decodeRequest (t q : Byte) (rest : List Byte) (r : Request)
    (h : decodeRequest (2 :: t :: q :: rest) = some r) : rest.length = 4 + r.length ∧ r.kind = .write := by
  match rest with
  | a0 :: a1 :: a2 :: len :: data =>
    rw [decodeRequest_write, Option.ite_none_right_eq_some] at h
    obtain ⟨⟨_, _, _, hdata⟩, hr⟩ := h
    cases hr
    exact ⟨by simp only [List.length_cons]; omega, rfl⟩
  | [] | [_] | [_, _] | [_, _, _] => cases (decodeRequest_write_short t q _ (by simp)).symm.trans h

/-- Everything that decodes: a PERSIST of 3 bytes, a READ of 7, or a WRITE of 7 and its data. -/
theorem decodeRequest_cases (b : List Byte) (r : Request) (h : decodeRequest b = some r) :
    (b.head? = some 3 ∧ b.length = 3 ∧ r.kind = .persist) ∨
    (b.head? = some 1 ∧ b.length = 7 ∧ r.kind = .read) ∨
    (b.head? = some 2 ∧ b.length = 7 + r.length ∧ r.kind = .write) := by
  match b with
  | [] | [_] | [_, _] => cases h
  | k :: t :: q :: rest =>
    by_cases h3 : k = 3
    · subst h3
      obtain ⟨rfl, hkind⟩ := persist_of_decodeRequest t q rest r h
      exact Or.inl ⟨rfl, rfl, hkind⟩
    by_cases h1 : k = 1
    · subst h1
      obtain ⟨hlen, hkind⟩ := read_of_decodeRequest t q rest r h
      exact Or.inr (Or.inl ⟨rfl, congrArg (· + 3) hlen, hkind⟩)
    by_cases h2 : k = 2
    · subst h2
      obtain ⟨hlen, hkind⟩ := write_of_decodeRequest t q rest r h
      exact Or.inr (Or.inr ⟨rfl, by simp only [List.length_cons]; omega, hkind⟩)
    cases (decodeRequest_otherKind k (t :: q :: rest) h1 h2 h3).symm.trans h

/-- Settles O10: an equation per kind, and what those equations leave to decode. -/
theorem requestRecordDecoded : Obligations.RequestRecordDecoded := by
  refine ⟨decodeRequest_persist, decodeRequest_read, decodeRequest_write, decodeRequest_otherKind, ?_⟩
  intro b r h
  rcases decodeRequest_cases b r h with ⟨hcode, hlen, hkind⟩ | ⟨hcode, hlen, hkind⟩ | ⟨hcode, hlen, hkind⟩
  all_goals
    rw [hkind]
    exact ⟨hcode, hlen⟩

end Sys2Proof.Machine
end

section
/-!
PROOFS. The step on a queue that is not empty (O1) and the totality of `exec` (O4): each command's meaning is a next state, and no
operation of the part writes the queue or the free counter.
-/
namespace Sys2Proof.Machine

/-! ## The command at the front of the queue -/

theorem step_front {s : State} {c : Instr} {rest : List Instr} (h : s.pending = c :: rest) :
    step s = exec c (s.withQueue rest) := by
  unfold step
  rw [h]

/-- The queue's rest replaces whatever stood in the queue. -/
theorem withQueue_withQueue (s : State) (queue rest : List Instr) : (s.withQueue queue).withQueue rest = s.withQueue rest := rfl

/-- Settles O1. -/
theorem stepRunsFrontCommand : Obligations.StepRunsFrontCommand := by
  intro c rest s
  have hfront : (s.withQueue (c :: rest)).pending = c :: rest := rfl
  calc step (s.withQueue (c :: rest))
      = exec c ((s.withQueue (c :: rest)).withQueue rest) := step_front hfront
    _ = exec c (s.withQueue rest) := by rw [withQueue_withQueue]

/-! ## The free counter over one command (log 2) -/

/-- A completion draws no free value where its requester's handling draws none. -/
theorem complete_freeCount (isRow : InFlight → Bool) (handle : InFlight → State → State) (s : State)
    (hh : ∀ f t, (handle f t).freeCount = t.freeCount) : (complete isRow handle s).freeCount = s.freeCount := by
  unfold complete
  split
  case h_1 f _ =>
    split
    · calc (finish s (handle f (releaseOp s))).freeCount
          = (handle f (releaseOp s)).freeCount := (finish_keeps _ _).2.1
        _ = (releaseOp s).freeCount := hh f _
        _ = s.freeCount := by simp
    · rfl
  case h_2 => rfl

/-- No command draws a free value: a completion goes through `complete`, a frame through `endFrame`, and the other events through
one operation each, which keeps the counter. -/
theorem exec_freeCount (c : Instr) (s t : State) (he : exec c s = .next t) : t.freeCount = s.freeCount := by
  cases c
  case mergeReadCompletion | demandReadCompletion | pageProgramCompletion | commitMarkCompletion | retireMarkCompletion
      | eraseCompletion | cleanMarkCompletion | readyWaitCompletion | configCopyReadCompletion | headerReadCompletion
      | configCommitEraseCompletion | configCommitProgramCompletion | readBackCompletion =>
    cases he
    exact complete_freeCount _ _ s fun f u => by simp
  case requestArrival | responseAcceptance | pfwNFall | pfwNRise | qualification | resetNFall | resetNRise | powerOnReset
      | resetTimerExpiry | writeBackTimerExpiry | firstTimeout | secondTimeout | linkResetEnd | discardedCompletion
      | startCondition =>
    cases he
    simp
  all_goals
    cases he
    exact (endFrame_keeps _ _ s).2.1

/-! ## Every command completes (log 21) -/

/-- No arm of the dispatch stops with a fault or refuses. -/
theorem exec_next (c : Instr) (s : State) : ∃ t, exec c s = .next t := by
  cases c
  all_goals exact ⟨_, rfl⟩

/-- Settles O4. -/
theorem everyCommandCompletes : Obligations.EveryCommandCompletes := by
  intro c s
  obtain ⟨t, ht⟩ := exec_next c s
  exact ⟨t, ht, exec_pending c s t ht, exec_freeCount c s t ht⟩

end Sys2Proof.Machine
end
